-- ==== Sys2Proof/Word.lean ====
section
/-! DEFINITION. The word and byte types, and `roundup8` of spec/00_scope.md R10. -/

namespace Sys2Proof

/-- A 32-bit register word or command word (10_state.md R19, 30_encoding.md R66). -/
abbrev Word := BitVec 32

/-- A byte of a stream, or a symbol (00_scope.md R8). -/
abbrev Byte := BitVec 8

/-- `roundup8(x) = 8 * ceil(x / 8)` (00_scope.md R10). -/
def roundup8 (x : Nat) : Nat := 8 * ((x + 7) / 8)

end Sys2Proof
end

