-- ==== Sys2Proof/Config.lean ====
section
/-! DEFINITION. The implementation parameters of spec/00_scope.md R8, the parameters that R8 and 92_eei_decisions.md D43
leave to a build (`Params`), and the free value of 10_state.md R23. -/

namespace Sys2Proof

/-- Which end comes first, of a stream byte (PACK_ORDER) or of a leaf's symbol (SYM_ORDER); 00_scope.md R8. -/
inductive BitOrder where
  | msbFirst
  | lsbFirst
  deriving DecidableEq, Repr

namespace Config

/-- NODE_CAP, the entries of the node memory (00_scope.md R8). -/
def nodeCap : Nat := 511

/-- STACK_CAP, the depth of the walk stack (00_scope.md R8, R16). -/
def stackCap : Nat := 511

/-- MAX_CODE_LEN (00_scope.md R8, 41_tree_builder.md R96). -/
def maxCodeLen : Nat := 255

/-- HDR_OVERHEAD_BITS (00_scope.md R8, 45_framing_and_control.md R126). -/
def hdrOverheadBits : Nat := 16

/-- MAGIC, the marker bytes `H` and `F` in file order (00_scope.md R8). -/
def magic : List Byte := [0x48#8, 0x46#8]

/-- The constant of the ID register (10_state.md R20). -/
def idWord : Word := 0x48460001#32

/-- The value of the n-th register read that the spec leaves unspecified (10_state.md R23, 93 S1).
A free value: no body, so no claim can depend on what it is (log entry 4). -/
opaque freeWord : Nat → Word

end Config

/-- The parameters a build of the core fixes and no step changes. COUNT_W and NODE_CAP are fixed at R8's values by the
types; these four a model takes as an argument (00_scope.md R8; 93_implementation_defined.md U1, U2, U3, S16; log entry 9). -/
structure Params where
  /-- PACK_ORDER: which bit of a stream byte is the first of the bit stream (20_memory.md R54). -/
  packOrder : BitOrder
  /-- SYM_ORDER: the order of a leaf's symbol bits (30_encoding.md R76). -/
  symOrder : BitOrder
  /-- PAD_BIT: the value of the pad bits (20_memory.md R56). -/
  padBit : Bool
  /-- REG_BASE: where the platform puts the register block (92_eei_decisions.md D43). -/
  regBase : Nat
  deriving DecidableEq, Repr

/-- The values of 00_scope.md R8. REG_BASE is OPEN in the spec; 0 is a DESIGN CHOICE (log entry 9). -/
def Params.ofSpec : Params :=
  { packOrder := .msbFirst, symOrder := .msbFirst, padBit := false, regBase := 0 }

end Sys2Proof
end

