-- ==== Sys2Proof/Syntax.lean ====
section
/-! DEFINITION. The thirteen commands of spec/30_encoding.md R67, and the host program statements of R79. -/

namespace Sys2Proof

/-- The commands, one constructor per row of the opcode table (30_encoding.md R67). No command has an operand field (R66). -/
inductive Instr where
  | nop
  | count
  | build
  | gencodes
  | wrtree
  | rdtree
  | encode
  | decode
  | project
  | wrmagic
  | chkmagic
  | close
  | clear
  deriving DecidableEq, Repr

/-- The named fields of STATUS that a host branch may test (10_state.md R22, 30_encoding.md R79). -/
inductive StatusField where
  | busy | done | err | ovr | freqValid | treeValid | treeBuilt | codesValid | sizesValid | smaller | tail
  | obits | ibits | errcode
  deriving DecidableEq, Repr

/-- A statement of a host program (30_encoding.md R79), with its labels resolved to statement numbers.
The memory accesses of 20_memory.md R44, R45 stand beside them, so that a host that does not poll can be written. -/
inductive HostStmt where
  /-- `MNEMONIC` or `.word w`: write w to CMD, then poll STATUS until BUSY is 0. -/
  | word (w : Word)
  /-- `MemWrite(addr, n, v)`, with no poll after it (20_memory.md R44). -/
  | memWrite (addr n : Nat) (v : Word)
  /-- `MemRead(addr, n)`; `read NAME` is this at REG_BASE plus the register's offset (20_memory.md R44). -/
  | memRead (addr n : Nat)
  /-- `if STATUS.FIELD == v goto target`, on the last STATUS read. -/
  | branch (f : StatusField) (v target : Nat)
  /-- `attach_in bytes`, with the position the host gives (60_exceptions.md R152, 93 S19). -/
  | attachIn (bytes : List Byte) (pos : Nat)
  /-- `attach_out`: a fresh empty output. -/
  | attachOut
  /-- `stop`: the end of the host program. -/
  | stop
  deriving DecidableEq, Repr

end Sys2Proof
end

