-- ==== Sys2Proof/Decode.lean ====
section
/-! DEFINITION. The command word: the decoder of spec/30_encoding.md R68, total on all words, and the encoder of R66, R67. -/

namespace Sys2Proof

/-- The field RSVD, bits 31:8 of a command word (30_encoding.md R66). -/
def rsvdField (w : Word) : BitVec 24 := w.extractLsb' 8 24

/-- The field OPCODE, bits 7:0 of a command word (30_encoding.md R66). -/
def opcodeField (w : Word) : BitVec 8 := w.extractLsb' 0 8

/-- The opcode map read from the opcode (30_encoding.md R67): 0x0C to 0x0E and 0x10 to 0xFF are no command. -/
def decodeOpcode (op : BitVec 8) : Option Instr :=
  match op.toNat with
  | 0x00 => some .nop
  | 0x01 => some .count
  | 0x02 => some .build
  | 0x03 => some .gencodes
  | 0x04 => some .wrtree
  | 0x05 => some .rdtree
  | 0x06 => some .encode
  | 0x07 => some .decode
  | 0x08 => some .project
  | 0x09 => some .wrmagic
  | 0x0A => some .chkmagic
  | 0x0B => some .close
  | 0x0F => some .clear
  | _ => none

/-- The decoder: a command when RSVD is 0 and OPCODE is in the table, else none, the illegal word (30_encoding.md R68). -/
def decode (w : Word) : Option Instr :=
  if rsvdField w = 0#24 then decodeOpcode (opcodeField w) else none

/-- The opcode map read from the command (30_encoding.md R67). -/
def opcodeOf (i : Instr) : BitVec 8 :=
  match i with
  | .nop => 0x00#8
  | .count => 0x01#8
  | .build => 0x02#8
  | .gencodes => 0x03#8
  | .wrtree => 0x04#8
  | .rdtree => 0x05#8
  | .encode => 0x06#8
  | .decode => 0x07#8
  | .project => 0x08#8
  | .wrmagic => 0x09#8
  | .chkmagic => 0x0A#8
  | .close => 0x0B#8
  | .clear => 0x0F#8

/-- The command word: 24 zero bits, then the opcode (30_encoding.md R66). -/
def encode (i : Instr) : Word := 0#24 ++ opcodeOf i

/-- The command word whose `nbits` table bits are those of `w`; the bits above are 0.
A command is one whole 32-bit word and its byte order is not observable (20_memory.md R46). -/
def tableWord (nbits w : Nat) : Word := BitVec.ofNat 32 (w % 2 ^ nbits)

/-- What the decoder reads from a word numbered as the opcode table numbers it. -/
def decodeTableWord (nbits w : Nat) : Option Instr := decode (tableWord nbits w)

end Sys2Proof
end

