-- ==== Sys2Proof/Machine/State.lean ====
section
/-! DEFINITION. The state of the Huffman codec core, its streams, its engine and its host (spec/10_state.md), the reasons a
step can stop, and the state after reset. -/

namespace Sys2Proof.Machine

/-- Why the machine stops with a fault. The spec's errors are no faults: they are reported in STATUS and the machine goes
on (60_exceptions.md R138). Every constructor is safe: the spec says that none of these is ever reached (log entry 11). -/
inductive Fault where
  /-- Raised by the tree walks (GENCODES, WRTREE, DECODE) on a NODE entry that holds no value (10_state.md R42, 93 S7). Safe. -/
  | noValue
  /-- Raised by BinRead when there is no byte at IPOS (20_memory.md R49: it never occurs). Safe. -/
  | readPastEnd
  /-- Raised by a recursive walk deeper than STACK_CAP (00_scope.md R16: it never occurs). Safe. -/
  | stackOverflow
  /-- Raised by a loop over the input that passes the input's length (30_encoding.md R73: it never occurs). Safe. -/
  | loopBound
  deriving DecidableEq, Repr

/-- Why the machine has no step: the host made a move the spec gives no meaning (log entry 12). -/
inductive Refusal where
  /-- Raised by exec for a command that has no meaning yet. Safe: no claim about it can be proved. -/
  | notModelled (mnemonic : String)
  /-- Raised by a host access that is not one aligned 32-bit word of the block (20_memory.md R45, 93 S2). Safe. -/
  | unsupportedAccess
  /-- Raised by a host that attaches a stream while BUSY = 1 (60_exceptions.md R152 H-IN-IDLE, H-OUT-IDLE, 93 S14). Safe. -/
  | attachWhileBusy
  /-- Raised by a host that attaches an input at a position above its length (60_exceptions.md R152). Safe. -/
  | attachBeyondEnd
  deriving DecidableEq, Repr

/-- The error codes of 60_exceptions.md R135. The reserved codes 12 to 255 have no constructor: they are never written. -/
inductive ErrCode where
  | none | emptyInput | format | ioIn | ioOut | illegalCmd | sequence | countOverflow | treeOverflow | truncatedTree
  | symbolNotCoded | degenerateTree
  deriving DecidableEq, Repr

/-- A 256-entry memory indexed by symbol (10_state.md R33, R37). -/
abbrev Table (α : Type) := Vector α 256

/-- An index of the node memory, 9 bits (10_state.md R34, R35). -/
abbrev NodeIdx := Fin 512

/-- A NODE entry (10_state.md R34). KIND is the constructor; the fields R34 fixes at 0 for a kind are not stored. -/
inductive Node where
  /-- KIND 0: SYM, WEIGHT, PH. -/
  | leaf (sym : Byte) (weight : BitVec 32) (ph : Bool)
  /-- KIND 1: WEIGHT, LEFT, RIGHT. -/
  | internal (weight : BitVec 32) (left right : NodeIdx)
  deriving DecidableEq, Repr

/-- The stored fields of STATUS (10_state.md R22). BUSY, OBITS and IBITS are views of other state. -/
structure Status where
  done : Bool
  err : Bool
  ovr : Bool
  freqValid : Bool
  treeValid : Bool
  treeBuilt : Bool
  codesValid : Bool
  sizesValid : Bool
  smaller : Bool
  tail : Bool
  errcode : ErrCode
  deriving DecidableEq, Repr

/-- The core state that reset and CLEAR set: the table of 10_state.md R42. -/
structure CoreState where
  /-- CMD (R21). -/
  cmd : Word
  status : Status
  /-- TOTAL_BYTES (R25). -/
  totalBytes : BitVec 32
  nsym : BitVec 9
  nleaves : BitVec 9
  ninternal : BitVec 9
  treeBits : BitVec 12
  maxlen : BitVec 8
  payloadBits : BitVec 64
  projectedBits : BitVec 64
  outBytes : BitVec 64
  inPos : BitVec 64
  decSyms : BitVec 64
  /-- FREQ[0..255] (R33). -/
  freq : Table (BitVec 32)
  /-- NODE[0..NNODES-1] (R34); NNODES (R35) is its length. -/
  node : List Node
  root : NodeIdx
  /-- WORK[0..WCOUNT-1] (R36); WCOUNT is its length. -/
  work : List NodeIdx
  /-- CODE_LEN[0..255] (R37). -/
  codeLen : Table (BitVec 8)
  /-- CODE_VAL[0..255] (R37). -/
  codeVal : Table (BitVec 255)
  /-- OBUF, OBITS: the bit packer (R39). -/
  obuf : BitVec 8
  obits : Fin 8
  /-- IBUF, IBITS: the bit unpacker (R40). -/
  ibuf : BitVec 8
  ibits : Fin 9
  deriving DecidableEq, Repr

/-- A transaction of the core on a stream port (20_memory.md R49 to R52). BinAtEnd has no side effect and is none. -/
inductive Txn where
  | rewind
  | read
  | write (b : Byte)
  | close
  deriving DecidableEq, Repr

/-- What the environment does at the engine's next event: it answers with success or with a failure (20_memory.md R53), or
it lets the host move first (`wait`; 30_encoding.md R73, log entries 2 and 3). -/
inductive Draw where
  | ok
  | fail
  | wait
  deriving DecidableEq, Repr

/-- The environment's coming draws: the listed ones in order, then `rest` for ever (log entry 2). -/
structure Draws where
  listed : List Draw
  rest : Draw
  deriving DecidableEq, Repr

/-- The two stream collaborators (10_state.md R41), which reset does not touch, and their coming answers. -/
structure Streams where
  /-- IN. -/
  input : List Byte
  /-- IPOS. -/
  ipos : Nat
  /-- OUT. -/
  output : List Byte
  /-- OUT_CLOSED. -/
  outClosed : Bool
  draws : Draws
  deriving DecidableEq, Repr

/-- All that a command reads or writes: the core state, the streams, and the build's parameters. -/
structure Codec where
  core : CoreState
  io : Streams
  params : Params
  deriving DecidableEq, Repr

/-- The engine state ENG (10_state.md R18). -/
inductive Engine where
  | idle
  /-- Running the command of word `w`. `start` is the codec at the command's acceptance, from which the step runs the command
  again with one more answer (log entry 3); `txn` is the transaction not yet answered, if the engine waits for one. -/
  | busy (w : Word) (start : Codec) (txn : Option Txn)
  deriving DecidableEq, Repr

/-- The host's program and what it has read (30_encoding.md R79; log entry 5). -/
structure HostSide where
  prog : List HostStmt
  pc : Nat
  /-- The host is in the poll that ends a `.word` statement. -/
  polling : Bool
  lastStatus : Word
  lastRead : Word
  deriving DecidableEq, Repr

/-- The machine. -/
structure State where
  codec : Codec
  eng : Engine
  host : HostSide
  /-- The levels of the reset input at the coming steps; deasserted after the list (70_reset_and_hazards.md R153; log entry 6). -/
  resetInput : List Bool
  /-- How many unspecified register reads there have been (10_state.md R23; log entry 4). -/
  reads : Nat
  deriving DecidableEq, Repr

/-- STATUS after reset: every field 0 (10_state.md R22, R42). -/
def Status.reset : Status :=
  { done := false, err := false, ovr := false, freqValid := false, treeValid := false, treeBuilt := false,
    codesValid := false, sizesValid := false, smaller := false, tail := false, errcode := .none }

/-- The core after reset: the table of 10_state.md R42. FREQ, ROOT, CODE_LEN and CODE_VAL hold no value there;
0 is a DESIGN CHOICE (log entry 7), and no rule reads it. -/
def CoreState.reset : CoreState :=
  { cmd := 0#32, status := Status.reset, totalBytes := 0#32, nsym := 0#9, nleaves := 0#9, ninternal := 0#9,
    treeBits := 0#12, maxlen := 0#8, payloadBits := 0#64, projectedBits := 0#64, outBytes := 0#64, inPos := 0#64,
    decSyms := 0#64, freq := Vector.replicate 256 0#32, node := [], root := 0, work := [],
    codeLen := Vector.replicate 256 0#8, codeVal := Vector.replicate 256 0#255, obuf := 0#8, obits := 0,
    ibuf := 0#8, ibits := 0 }

/-- The environment before the host attaches anything. DESIGN CHOICE: empty streams, open, answering with success
(log entries 2 and 10). -/
def Streams.initial : Streams :=
  { input := [], ipos := 0, output := [], outClosed := false, draws := { listed := [], rest := .ok } }

/-- The host before a program is loaded (log entry 5). -/
def HostSide.initial : HostSide :=
  { prog := [], pc := 0, polling := false, lastStatus := 0#32, lastRead := 0#32 }

/-- The machine right after power-on reset (10_state.md R42, 70_reset_and_hazards.md R153). -/
def State.reset : State :=
  { codec := { core := CoreState.reset, io := Streams.initial, params := Params.ofSpec }, eng := .idle,
    host := HostSide.initial, resetInput := [], reads := 0 }

end Sys2Proof.Machine
end

