-- ==== Sys2Proof/Machine/Flags.lean ====
section
/-! DEFINITION. STATUS: its word (spec/10_state.md R22), the error codes (60_exceptions.md R135), the validity bits that commands
clear (10_state.md R32), the preconditions of commands (30_encoding.md R71), and the flag writes of acceptance, completion
and errors (R69, R72, R137, R138). -/

namespace Sys2Proof.Machine

/-- The 8-bit code of an error (60_exceptions.md R135). -/
def ErrCode.code (e : ErrCode) : BitVec 8 :=
  match e with
  | .none => 0#8
  | .emptyInput => 1#8
  | .format => 2#8
  | .ioIn => 3#8
  | .ioOut => 4#8
  | .illegalCmd => 5#8
  | .sequence => 6#8
  | .countOverflow => 7#8
  | .treeOverflow => 8#8
  | .truncatedTree => 9#8
  | .symbolNotCoded => 10#8
  | .degenerateTree => 11#8

/-- The STATUS word of 10_state.md R22, most significant field first. -/
def statusWord (busy : Bool) (k : CoreState) : Word :=
  k.status.errcode.code ++ 0#4 ++ BitVec.ofNat 4 k.ibits.val ++ 0#1 ++ BitVec.ofNat 3 k.obits.val ++ 0#1
    ++ BitVec.ofBool k.status.tail ++ BitVec.ofBool k.status.smaller ++ BitVec.ofBool k.status.sizesValid
    ++ BitVec.ofBool k.status.codesValid ++ BitVec.ofBool k.status.treeBuilt ++ BitVec.ofBool k.status.treeValid
    ++ BitVec.ofBool k.status.freqValid ++ BitVec.ofBool k.status.ovr ++ BitVec.ofBool k.status.err
    ++ BitVec.ofBool k.status.done ++ BitVec.ofBool busy

/-- A STATUS read while BUSY = 1: BUSY and OVR exactly and the reserved bits 0 (10_state.md R31), every other field from `free` (R23). -/
def busyStatusWord (ovr : Bool) (free : Word) : Word :=
  free.extractLsb' 24 8 ++ 0#4 ++ free.extractLsb' 16 4 ++ 0#1 ++ free.extractLsb' 12 3 ++ 0#1
    ++ free.extractLsb' 4 7 ++ BitVec.ofBool ovr ++ free.extractLsb' 1 2 ++ 1#1

/-- The bits of a STATUS field: the lowest one and how many (10_state.md R22). -/
def StatusField.bits (f : StatusField) : Nat × Nat :=
  match f with
  | .busy => (0, 1)
  | .done => (1, 1)
  | .err => (2, 1)
  | .ovr => (3, 1)
  | .freqValid => (4, 1)
  | .treeValid => (5, 1)
  | .treeBuilt => (6, 1)
  | .codesValid => (7, 1)
  | .sizesValid => (8, 1)
  | .smaller => (9, 1)
  | .tail => (10, 1)
  | .obits => (12, 3)
  | .ibits => (16, 4)
  | .errcode => (24, 8)

/-- The value of a field in a STATUS word (10_state.md R22). -/
def statusField (f : StatusField) (w : Word) : Nat :=
  (w.toNat / 2 ^ (StatusField.bits f).1) % 2 ^ (StatusField.bits f).2

/-! The validity bits a command clears, with their registers (10_state.md R32). -/

/-- Clear FREQ_VALID: TOTAL_BYTES and NSYM become 0. -/
def clearFreq (k : CoreState) : CoreState :=
  { k with status := { k.status with freqValid := false }, totalBytes := 0#32, nsym := 0#9 }

/-- Clear TREE_VALID: NLEAVES, NINTERNAL, TREE_BITS and NNODES become 0. -/
def clearTree (k : CoreState) : CoreState :=
  { k with status := { k.status with treeValid := false }, nleaves := 0#9, ninternal := 0#9, treeBits := 0#12, node := [] }

/-- Clear TREE_BUILT. -/
def clearBuilt (k : CoreState) : CoreState :=
  { k with status := { k.status with treeBuilt := false } }

/-- Clear CODES_VALID: MAXLEN becomes 0. -/
def clearCodes (k : CoreState) : CoreState :=
  { k with status := { k.status with codesValid := false }, maxlen := 0#8 }

/-- Clear SIZES_VALID: PAYLOAD_BITS, PROJECTED_BITS and SMALLER become 0. -/
def clearSizes (k : CoreState) : CoreState :=
  { k with status := { k.status with sizesValid := false, smaller := false }, payloadBits := 0#64, projectedBits := 0#64 }

/-- The row "clear" of 10_state.md R32 for COUNT, RDTREE and CLEAR: all five. -/
def clearAll (k : CoreState) : CoreState := clearSizes (clearCodes (clearBuilt (clearTree (clearFreq k))))

/-- The row of R32 for BUILD: all but FREQ_VALID. -/
def clearDerived (k : CoreState) : CoreState := clearSizes (clearCodes (clearBuilt (clearTree k)))

/-- The row of R32 for GENCODES. -/
def clearCodesSizes (k : CoreState) : CoreState := clearSizes (clearCodes k)

/-! The preconditions of 30_encoding.md R71. -/

/-- BUILD: FREQ_VALID. -/
def preBuild (k : CoreState) : Bool := k.status.freqValid

/-- GENCODES: TREE_VALID and TREE_BUILT. -/
def preGencodes (k : CoreState) : Bool := k.status.treeValid && k.status.treeBuilt

/-- WRTREE: TREE_VALID. -/
def preWrtree (k : CoreState) : Bool := k.status.treeValid

/-- ENCODE: CODES_VALID. -/
def preEncode (k : CoreState) : Bool := k.status.codesValid

/-- DECODE: TREE_VALID and OBITS = 0. -/
def preDecode (k : CoreState) : Bool := k.status.treeValid && k.obits == 0

/-- PROJECT: FREQ_VALID, TREE_BUILT and CODES_VALID. -/
def preProject (k : CoreState) : Bool := k.status.freqValid && k.status.treeBuilt && k.status.codesValid

/-- WRMAGIC: OBITS = 0. -/
def preWrmagic (k : CoreState) : Bool := k.obits == 0

/-- NOP, COUNT, RDTREE, CHKMAGIC, CLOSE, CLEAR: none. -/
def preNone (_ : CoreState) : Bool := true

/-! The flag writes of 30_encoding.md R69, R70, R72 and 60_exceptions.md R137, R138. -/

/-- Acceptance of the command word `w`: CMD takes it; DONE, ERR, ERRCODE and TAIL are cleared (30_encoding.md R69). -/
def acceptWord (w : Word) (k : CoreState) : CoreState :=
  { k with cmd := w, status := { k.status with done := false, err := false, errcode := .none, tail := false } }

/-- DONE, at `complete` (30_encoding.md R72). -/
def setDone (k : CoreState) : CoreState := { k with status := { k.status with done := true } }

/-- ERR and ERRCODE, at an error (60_exceptions.md R137, R138). -/
def setError (e : ErrCode) (k : CoreState) : CoreState :=
  { k with status := { k.status with err := true, errcode := e } }

/-- OVR, at a dropped CMD write (30_encoding.md R70). -/
def setOvr (k : CoreState) : CoreState := { k with status := { k.status with ovr := true } }

/-- TAIL, at the end of a stream inside a descent (44_stream_codec.md R119). -/
def setTail (k : CoreState) : CoreState := { k with status := { k.status with tail := true } }

end Sys2Proof.Machine
end

