-- ==== Sys2Proof/Machine/Operands.lean ====
section
/-! DEFINITION. What a command or a host access names: table entries, node entries, the bits of a byte, of a symbol and of a code
(spec/20_memory.md R54, 30_encoding.md R76, 10_state.md R37), and the register block (10_state.md R19). -/

namespace Sys2Proof.Machine

/-- The symbols 0..255 in ascending order (00_scope.md R8). -/
def allSymbols : List Byte := (List.range 256).map (BitVec.ofNat 8)

/-- A table entry, by symbol. -/
def Table.lookup {α : Type} (t : Table α) (s : Byte) : α := t[s.toNat]'s.isLt

/-- A table with one entry written. -/
def Table.update {α : Type} (t : Table α) (s : Byte) (v : α) : Table α := t.set s.toNat v s.isLt

/-- A table with the same value in every entry. -/
def Table.fill {α : Type} (v : α) : Table α := Vector.replicate 256 v

/-- The symbols with their entries, in ascending symbol order. -/
def Table.entries {α : Type} (t : Table α) : List (Byte × α) := allSymbols.zip t.toList

/-- KIND = 0 (10_state.md R34). -/
def Node.isLeaf (n : Node) : Bool :=
  match n with
  | .leaf _ _ _ => true
  | .internal _ _ _ => false

/-- WEIGHT (10_state.md R34). -/
def Node.weight (n : Node) : BitVec 32 :=
  match n with
  | .leaf _ w _ => w
  | .internal w _ _ => w

/-- SYM; 0 in an internal node (10_state.md R34). -/
def Node.sym (n : Node) : Byte :=
  match n with
  | .leaf s _ _ => s
  | .internal _ _ _ => 0#8

/-- The entry of an allocated node; none where the memory holds no value (10_state.md R35). -/
def nodeAt (nodes : List Node) (i : NodeIdx) : Option Node := nodes[i.val]?

/-- The number of leaves, NLEAVES at completion of BUILD and RDTREE (10_state.md R26). -/
def leafCount (nodes : List Node) : Nat := nodes.countP Node.isLeaf

/-- The bit position, in a byte, of the k-th bit of the bit stream (20_memory.md R54). -/
def bitPos (order : BitOrder) (k : Nat) : Nat :=
  match order with
  | .msbFirst => 7 - k
  | .lsbFirst => k

/-- The byte with the bit at position `pos` set to `b`. -/
def putBit (x : Byte) (pos : Nat) (b : Bool) : Byte :=
  if b then x ||| (1#8 <<< pos) else x &&& ~~~(1#8 <<< pos)

/-- `symbit(s, k)`: the k-th bit of a symbol in serialization order (43_tree_codec.md notation, 30_encoding.md R76). -/
def symbit (order : BitOrder) (s : Byte) (k : Nat) : Bool := s.getLsbD (bitPos order k)

/-- The eight bits of a leaf's symbol, in serialization order (30_encoding.md R76). -/
def symbolBits (order : BitOrder) (s : Byte) : List Bool := (List.range 8).map (symbit order s)

/-- What the k-th symbol bit adds to the symbol being read (30_encoding.md R76). -/
def symbolBitValue (order : BitOrder) (b : Bool) (k : Nat) : Byte :=
  if b then 1#8 <<< bitPos order k else 0#8

/-- The bit string of a symbol's code: `p[k] = CODE_VAL[s][L-1-k]` for k in 0..L-1 (10_state.md R37). -/
def codeBits (len : BitVec 8) (val : BitVec 255) : List Bool :=
  (List.range len.toNat).map fun k => val.getLsbD (len.toNat - 1 - k)

/-- `Σ p[k] * 2^(len(p)-1-k)`: the bit string as a number, first bit most significant (42_code_table.md R98). -/
def pathValue (p : List Bool) : Nat := p.foldl (fun v b => 2 * v + b.toNat) 0

/-! The register block (10_state.md R19). -/

/-- `TOTAL_BITS = zext_64(TOTAL_BYTES) * 8` (10_state.md R25). -/
def totalBits (k : CoreState) : BitVec 64 := k.totalBytes.setWidth 64 * 8#64

/-- The PARAM word (10_state.md R24): COUNT_W, PACK_ORDER, SYM_ORDER, PAD_BIT, NODE_CAP. -/
def paramWord (p : Params) : Word :=
  0#6 ++ BitVec.ofNat 10 Config.nodeCap ++ 0#7 ++ BitVec.ofBool p.padBit ++ BitVec.ofBool (p.symOrder == .lsbFirst)
    ++ BitVec.ofBool (p.packOrder == .lsbFirst) ++ 32#6

/-- Q_LO of a 64-bit quantity (10_state.md R19). -/
def loWord (q : BitVec 64) : Word := q.extractLsb' 0 32

/-- Q_HI of a 64-bit quantity (10_state.md R19). -/
def hiWord (q : BitVec 64) : Word := q.extractLsb' 32 32

/-- The 32-bit word at an aligned offset of the block while BUSY = 0 (10_state.md R19 to R31). -/
def regWord (k : CoreState) (p : Params) (off : Nat) : Word :=
  match off with
  | 0x000 => Config.idWord
  | 0x004 => k.cmd
  | 0x008 => statusWord false k
  | 0x00C => paramWord p
  | 0x010 => k.totalBytes
  | 0x014 => k.nsym.setWidth 32
  | 0x018 => k.nleaves.setWidth 32
  | 0x01C => k.ninternal.setWidth 32
  | 0x020 => k.treeBits.setWidth 32
  | 0x024 => k.maxlen.setWidth 32
  | 0x028 => loWord (totalBits k)
  | 0x02C => hiWord (totalBits k)
  | 0x030 => loWord k.payloadBits
  | 0x034 => hiWord k.payloadBits
  | 0x038 => loWord k.projectedBits
  | 0x03C => hiWord k.projectedBits
  | 0x040 => loWord k.outBytes
  | 0x044 => hiWord k.outBytes
  | 0x048 => loWord k.inPos
  | 0x04C => hiWord k.inPos
  | 0x050 => loWord k.decSyms
  | 0x054 => hiWord k.decSyms
  | _ => 0#32

/-- The word at an aligned offset while BUSY = 1 (10_state.md R23): ID, CMD, PARAM and the reserved words are exact, STATUS has BUSY,
OVR and its reserved bits exact (R31), and the rest is `free`. -/
def busyRegWord (k : CoreState) (p : Params) (off : Nat) (free : Word) : Word :=
  if off = 0x008 then busyStatusWord k.status.ovr free
  else if 0x010 ≤ off ∧ off ≤ 0x054 then free
  else regWord k p off

/-- The offset of an access the block supports: one 32-bit word at a multiple of 4 within 4096 bytes of REG_BASE (20_memory.md R44, R45). -/
def blockOffset (p : Params) (addr n : Nat) : Option Nat :=
  if n = 4 ∧ p.regBase ≤ addr ∧ (addr - p.regBase) % 4 = 0 ∧ addr - p.regBase ≤ 0xFFC then some (addr - p.regBase)
  else none

/-- The offset of CMD. -/
def cmdOffset : Nat := 0x004

end Sys2Proof.Machine
end

