-- ==== Sys2Proof/Machine/Ops.lean ====
section
/-! DEFINITION. The shared operations: stream transactions (spec/20_memory.md R48 to R53), the bit packer and unpacker (R54 to R58),
acceptance and completion (30_encoding.md R69 to R72), the two kinds of error entry (60_exceptions.md R137, R138), the running of a
command (R69), and the reset (70_reset_and_hazards.md R153, R154). -/

namespace Sys2Proof.Machine

/-- Why the engine stops short of the end of a command: a transaction not yet answered, or a fault of the model. -/
inductive Halt where
  | wait (t : Txn)
  | fault (f : Fault)
  deriving DecidableEq, Repr

/-- Why a command rule ends early: `raise Error(code)` (00_scope.md R12), or the engine stops. -/
inductive Stop where
  | raise (e : ErrCode)
  | halt (h : Halt)
  deriving DecidableEq, Repr

/-- A computation of the engine that raises no error: the error exit, and transactions whose failure is only reported. -/
abbrev QuietM := EStateM Halt Codec

/-- A computation of the engine in the pseudocode of 00_scope.md R12. What it wrote before a `raise` stays written. -/
abbrev EngineM := EStateM Stop Codec

/-- The codec with its core state changed. -/
def Codec.mapCore (f : CoreState → CoreState) (c : Codec) : Codec := { c with core := f c.core }

/-- The codec with its streams changed. -/
def Codec.mapIo (f : Streams → Streams) (c : Codec) : Codec := { c with io := f c.io }

/-- A computation that raises nothing, inside a command rule. -/
def quiet {α : Type} (x : QuietM α) : EngineM α := x.adaptExcept Stop.halt

/-- `raise Error(e)` (00_scope.md R12). -/
def raise {α : Type} (e : ErrCode) : EngineM α := throw (.raise e)

/-- A fault of the model (log entry 11). -/
def crash {α : Type} (f : Fault) : EngineM α := throw (.halt (.fault f))

/-- Write core state. -/
def modifyCore (f : CoreState → CoreState) : EngineM Unit := modify (Codec.mapCore f)

/-- Read core state. -/
def getCore : EngineM CoreState := do
  let c ← get
  pure c.core

/-- Read the build's parameters. -/
def getParams : EngineM Params := do
  let c ← get
  pure c.params

/-- The value of a walk or a lookup, or its fault. -/
def need {α : Type} (x : Except Fault α) : EngineM α :=
  match x with
  | .ok a => pure a
  | .error f => crash f

/-! ## Stream transactions -/

/-- The environment's next draw, and the draws after it (20_memory.md R53; log entry 2). -/
def Draws.pop (d : Draws) : Draw × Draws :=
  match d.listed with
  | [] => (d.rest, d)
  | x :: xs => (x, { d with listed := xs })

/-- Issue a transaction: true for success, false for an I/O failure; on `wait` the engine stops with the transaction unanswered
(20_memory.md R53, 30_encoding.md R73). -/
def transact (t : Txn) : QuietM Bool := fun c =>
  match c.io.draws.pop with
  | (.ok, ds) => .ok true (c.mapIo fun io => { io with draws := ds })
  | (.fail, ds) => .ok false (c.mapIo fun io => { io with draws := ds })
  | (.wait, ds) => .error (.wait t) (c.mapIo fun io => { io with draws := ds })

/-- `BinAtEnd()` of a stream (20_memory.md R48). -/
def Streams.atEnd (io : Streams) : Bool := io.ipos == io.input.length

/-- `BinAtEnd()` (20_memory.md R48). -/
def binAtEnd : EngineM Bool := do
  let c ← get
  pure c.io.atEnd

/-- The codec after one input byte is taken: IPOS and IN_POS advance (20_memory.md R49). -/
def Codec.advanceInput (c : Codec) : Codec :=
  { c with core := { c.core with inPos := c.core.inPos + 1#64 }, io := { c.io with ipos := c.io.ipos + 1 } }

/-- `b <- IN[IPOS]` with the two positions advanced (20_memory.md R49). -/
def takeByte : EngineM Byte := fun c =>
  match c.io.input[c.io.ipos]? with
  | some b => .ok b c.advanceInput
  | none => .error (.halt (.fault .readPastEnd)) c

/-- `BinRead()` (20_memory.md R49). -/
def binRead : EngineM Byte := do
  let ok ← quiet (transact .read)
  if ok then takeByte else raise .ioIn

/-- The codec after a successful rewind: IPOS, IN_POS, IBUF and IBITS are 0 (20_memory.md R50). -/
def Codec.rewound (c : Codec) : Codec :=
  { c with core := { c.core with inPos := 0#64, ibuf := 0#8, ibits := 0 }, io := { c.io with ipos := 0 } }

/-- `BinRewind()` (20_memory.md R50). -/
def binRewind : EngineM Unit := do
  let ok ← quiet (transact .rewind)
  if ok then modify Codec.rewound else raise .ioIn

/-- The codec after a byte is written: OUT and OUT_BYTES grow (20_memory.md R51). -/
def Codec.appended (b : Byte) (c : Codec) : Codec :=
  { c with core := { c.core with outBytes := c.core.outBytes + 1#64 }, io := { c.io with output := c.io.output ++ [b] } }

/-- `BoutWrite(b)`, answering whether it succeeded; a closed sink always fails (20_memory.md R51). -/
def tryWrite (b : Byte) : QuietM Bool := do
  let ok ← transact (.write b)
  let c ← get
  if ok && !c.io.outClosed then
    set (c.appended b)
    pure true
  else pure false

/-- `BoutWrite(b)` (20_memory.md R51). -/
def boutWrite (b : Byte) : EngineM Unit := do
  let ok ← quiet (tryWrite b)
  if ok then pure () else raise .ioOut

/-- `BoutClose()`, answering whether it succeeded (20_memory.md R52). -/
def tryClose : QuietM Bool := do
  let ok ← transact .close
  if ok then
    modify (Codec.mapIo fun io => { io with outClosed := true })
    pure true
  else pure false

/-- `BoutClose()` (20_memory.md R52). -/
def boutClose : EngineM Unit := do
  let ok ← quiet tryClose
  if ok then pure () else raise .ioOut

/-! ## The bit packer -/

/-- `OBUF[pos] <- b` at the packer's next position (20_memory.md R55). -/
def packBit (order : BitOrder) (b : Bool) (k : CoreState) : CoreState :=
  { k with obuf := putBit k.obuf (bitPos order k.obits.val) b }

/-- `OBUF <- 0; OBITS <- 0` (20_memory.md R55, 60_exceptions.md R138). -/
def dropPending (k : CoreState) : CoreState := { k with obuf := 0#8, obits := 0 }

/-- `BitWrite(b)`, answering whether the byte write succeeded, if there was one (20_memory.md R55). -/
def tryBitWrite (b : Bool) : QuietM Bool := do
  modify fun c => c.mapCore (packBit c.params.packOrder b)
  let c ← get
  if c.core.obits.val = 7 then
    let ok ← tryWrite c.core.obuf
    if ok then
      modify (Codec.mapCore dropPending)
      pure true
    else pure false
  else
    modify (Codec.mapCore fun k => { k with obits := k.obits + 1 })
    pure true

/-- `BitWrite(b)` (20_memory.md R55). -/
def bitWrite (b : Bool) : EngineM Unit := do
  let ok ← quiet (tryBitWrite b)
  if ok then pure () else raise .ioOut

/-- Write the bits of a bit string, first bit first (00_scope.md R11). -/
def bitWrites (bits : List Bool) : EngineM Unit :=
  match bits with
  | [] => pure ()
  | b :: bs => do
    bitWrite b
    bitWrites bs

/-- The loop of `BitFlush()`; at most 7 pad bits are ever written (20_memory.md R56). -/
def bitFlushLoop (n : Nat) : EngineM Unit :=
  match n with
  | 0 => pure ()
  | n + 1 => do
    let c ← get
    if c.core.obits.val = 0 then pure ()
    else
      bitWrite c.params.padBit
      bitFlushLoop n

/-- `BitFlush()` (20_memory.md R56). -/
def bitFlush : EngineM Unit := bitFlushLoop 7

/-! ## The bit unpacker -/

/-- `BitAtEnd()` of a codec (20_memory.md R58). -/
def Codec.bitAtEnd (c : Codec) : Bool := c.core.ibits.val == 0 && c.io.atEnd

/-- `BitAtEnd()` (20_memory.md R58). -/
def bitAtEnd : EngineM Bool := do
  let c ← get
  pure c.bitAtEnd

/-- The next unread bit of the unpacker (20_memory.md R57). -/
def nextBit (order : BitOrder) (k : CoreState) : Bool := k.ibuf.getLsbD (bitPos order (8 - k.ibits.val))

/-- `IBITS <- IBITS - 1` (20_memory.md R57); it is issued only when IBITS > 0. -/
def dropBit (k : CoreState) : CoreState := { k with ibits := k.ibits - 1 }

/-- The first half of `BitRead()`: when IBITS = 0, the next byte is read into IBUF (20_memory.md R57). -/
def fillUnpacker : EngineM Unit := do
  let k ← getCore
  if k.ibits.val = 0 then
    let b ← binRead
    modifyCore fun k => { k with ibuf := b, ibits := 8 }
  else pure ()

/-- `BitRead()` (20_memory.md R57). -/
def bitRead : EngineM Bool := do
  fillUnpacker
  let c ← get
  modifyCore dropBit
  pure (nextBit c.params.packOrder c.core)

/-- How many bits the bit stream still holds: the bound of the loops that read it (44_stream_codec.md R118). -/
def Codec.bitsLeft (c : Codec) : Nat := c.core.ibits.val + 8 * (c.io.input.length - c.io.ipos)

/-! ## Completion and errors -/

/-- `complete`: DONE is set; the engine becomes IDLE when the command settles (30_encoding.md R72). -/
def complete : EngineM Unit := modifyCore setDone

/-- TAKING A PRECISE ERROR: ERR and ERRCODE, and nothing else (60_exceptions.md R137). -/
def preciseError (e : ErrCode) (c : Codec) : Codec := c.mapCore (setError e)

/-- `BitFlush() with every failure ignored`: a failing write ends the flush and drops the pending bits (60_exceptions.md R138). -/
def flushIgnoring (n : Nat) : QuietM Unit :=
  match n with
  | 0 => pure ()
  | n + 1 => do
    let c ← get
    if c.core.obits.val = 0 then pure ()
    else
      let ok ← tryBitWrite c.params.padBit
      if ok then flushIgnoring n else modify (Codec.mapCore dropPending)

/-- What the error exit does with the packer: the flush, or on IO_OUT, where the output already failed, the discarding of the pending
bits (60_exceptions.md R138). -/
def settlePending (e : ErrCode) : QuietM Unit :=
  if e = .ioOut then modify (Codec.mapCore dropPending) else flushIgnoring 7

/-- TAKING A RUNTIME ERROR: the error exit (60_exceptions.md R138, R141). The engine becomes IDLE when the command settles. -/
def errorExit (e : ErrCode) : QuietM Unit := do
  modify (Codec.mapCore (setError e))
  settlePending e
  let _ ← tryClose
  pure ()

/-- A command rule with the error exit behind every `raise` (00_scope.md R12, 60_exceptions.md R138). -/
def withErrorExit (body : EngineM Unit) : QuietM Unit := fun c =>
  match body c with
  | .ok _ c' => .ok () c'
  | .error (.raise e) c' => errorExit e c'
  | .error (.halt h) c' => .error h c'

/-! ## Running a command -/

/-- The codec when the word `w` has been accepted (30_encoding.md R69). -/
def Codec.accept (w : Word) (c : Codec) : Codec := c.mapCore (acceptWord w)

/-- The steps of 30_encoding.md R69 after acceptance, for a legal command: the precondition, the clearing of validity bits, the rule. -/
def afterAccept (pre : CoreState → Bool) (clear : CoreState → CoreState) (body : EngineM Unit) : QuietM Unit := fun c =>
  if pre c.core then withErrorExit body (c.mapCore clear) else .ok () (preciseError .sequence c)

/-- BUSY with the command of word `w`: the core shows its state at acceptance, the streams what the command has done to them
(10_state.md R23; log entry 3). -/
def State.suspend (w : Word) (txn : Option Txn) (io : Streams) (s : State) : State :=
  { s with codec := { (s.codec.accept w) with io := io }, eng := .busy w s.codec txn }

/-- The end of a command's run (30_encoding.md R72, R73). A listed `wait` draw lets the host move before ENG becomes IDLE: a command
takes any finite time (70_reset_and_hazards.md R165; log entry 3). -/
def settle (w : Word) (s : State) (r : EStateM.Result Halt Codec Unit) : Host.Outcome State Fault Refusal :=
  match r with
  | .error (.fault f) _ => .fault f
  | .error (.wait t) c => .next (s.suspend w (some t) c.io)
  | .ok _ c =>
    match c.io.draws.listed with
    | .wait :: ds => .next (s.suspend w none { c.io with draws := { c.io.draws with listed := ds } })
    | _ => .next { s with codec := c, eng := .idle }

/-- A CMD write while BUSY: dropped, and OVR set (30_encoding.md R70). -/
def State.dropWrite (s : State) : State :=
  match s.eng with
  | .idle => s
  | .busy w start txn =>
    { s with codec := s.codec.mapCore setOvr, eng := .busy w (start.mapCore setOvr) txn }

/-- A write of the word `w` to CMD, `after` being what follows acceptance (30_encoding.md R69, R70). -/
def writeWord (w : Word) (after : QuietM Unit) (s : State) : Host.Outcome State Fault Refusal :=
  match s.eng with
  | .busy _ _ _ => .next s.dropWrite
  | .idle => settle w s (after (s.codec.accept w))

/-- A write of a legal command's word to CMD: `pre` its precondition (30_encoding.md R71), `clear` the validity bits it clears
(10_state.md R32), `body` its rule. -/
def issue (i : Instr) (pre : CoreState → Bool) (clear : CoreState → CoreState) (body : EngineM Unit) (s : State) :
    Host.Outcome State Fault Refusal :=
  writeWord (encode i) (afterAccept pre clear body) s

/-- A write of an illegal word to CMD: the precise error ILLEGAL_CMD (30_encoding.md R68, 60_exceptions.md R137). -/
def writeIllegal (w : Word) (s : State) : Host.Outcome State Fault Refusal :=
  writeWord w (fun c => .ok () (preciseError .illegalCmd c)) s

/-! ## Reset -/

/-- What a transaction does at its collaborator (20_memory.md R49 to R52). -/
def Txn.perform (t : Txn) (io : Streams) : Streams :=
  match t with
  | .rewind => { io with ipos := 0 }
  | .read => { io with ipos := min (io.ipos + 1) io.input.length }
  | .write b => if io.outClosed then io else { io with output := io.output ++ [b] }
  | .close => { io with outClosed := true }

/-- The streams when reset meets an unanswered transaction: whether the collaborator still performs it is a draw
(70_reset_and_hazards.md R154, 93 S11). DESIGN CHOICE: when it does, it does so within the reset's own step, never later (log entry 6). -/
def abandonTxn (t : Txn) (io : Streams) : Streams :=
  match io.draws.pop with
  | (.ok, ds) => t.perform { io with draws := ds }
  | (_, ds) => { io with draws := ds }

/-- The reset input asserted: the core state is that of 10_state.md R42, a running command is abandoned, and no transaction is
issued (70_reset_and_hazards.md R153, R154). -/
def State.hardReset (s : State) : State :=
  { s with
    codec := { s.codec with
      core := CoreState.reset
      io := match s.eng with
        | .busy _ _ (some t) => abandonTxn t s.codec.io
        | _ => s.codec.io }
    eng := .idle }

end Sys2Proof.Machine
end

