-- ==== Sys2Proof/Machine/CodeTable.lean ====
section
/-! DEFINITION. The code-table generator: GENCODES (spec/42_code_table.md). -/

namespace Sys2Proof.Machine

/-- CODE_LEN and CODE_VAL (10_state.md R37). -/
structure Codes where
  len : Table (BitVec 8)
  val : Table (BitVec 255)
  deriving DecidableEq, Repr

/-- No symbol has a code. -/
def Codes.empty : Codes := { len := Table.fill 0#8, val := Table.fill 0#255 }

/-- The path bound to a symbol (42_code_table.md R98). -/
def Codes.bindPath (c : Codes) (s : Byte) (p : List Bool) : Codes :=
  { len := c.len.update s (BitVec.ofNat 8 p.length), val := c.val.update s (BitVec.ofNat 255 (pathValue p)) }

/-- `Walk(i, p)` (42_code_table.md R98, R99); `n` is what is left of the walk's depth (00_scope.md R16). -/
def walkCodes (nodes : List Node) (n : Nat) (i : NodeIdx) (p : List Bool) (c : Codes) : Except Fault Codes :=
  match n with
  | 0 => .error .stackOverflow
  | n + 1 =>
    match nodeAt nodes i with
    | none => .error .noValue
    | some (.leaf s _ ph) => .ok (if ph then c else c.bindPath s p)
    | some (.internal _ l r) =>
      match walkCodes nodes n l (p ++ [false]) c with
      | .error f => .error f
      | .ok c' => walkCodes nodes n r (p ++ [true]) c'

/-- The depth of a walk: STACK_CAP pending entries and the node itself (00_scope.md R16). -/
def walkDepth : Nat := Config.stackCap + 1

/-- The largest code length (10_state.md R27). -/
def maxCodeLen (len : Table (BitVec 8)) : Nat := (len.toList.map fun l => l.toNat).foldl max 0

/-- The code table, MAXLEN and CODES_VALID, at the completion of GENCODES (42_code_table.md R98). -/
def storeCodes (c : Codes) (k : CoreState) : CoreState :=
  { k with codeLen := c.len, codeVal := c.val, maxlen := BitVec.ofNat 8 (maxCodeLen c.len),
           status := { k.status with codesValid := true } }

/-- The rule of GENCODES (42_code_table.md R98). -/
def gencodesBody : EngineM Unit := do
  let k ← getCore
  let c ← need (walkCodes k.node walkDepth k.root [] Codes.empty)
  modifyCore (storeCodes c)
  complete

/-- GENCODES (42_code_table.md R98; 30_encoding.md R71; 10_state.md R32). -/
def execGencodes (s : State) : Host.Outcome State Fault Refusal :=
  issue .gencodes preGencodes clearCodesSizes gencodesBody s

end Sys2Proof.Machine
end

