-- ==== Sys2Proof/Machine/Framing.lean ====
section
/-! DEFINITION. Size projection, framing and control: PROJECT, WRMAGIC, CHKMAGIC, CLOSE, NOP, CLEAR (spec/45_framing_and_control.md). -/

namespace Sys2Proof.Machine

/-- P, the sum of `FREQ[s] * CODE_LEN[s]` over all symbols (45_framing_and_control.md R124). -/
def payloadSize (k : CoreState) : Nat :=
  ((k.freq.toList.zip k.codeLen.toList).map fun e => e.1.toNat * e.2.toNat).sum

/-- `HDR_OVERHEAD_BITS + roundup8(TREE_BITS + P)` (45_framing_and_control.md R124, R125). -/
def projectedSize (k : CoreState) : Nat := Config.hdrOverheadBits + roundup8 (k.treeBits.toNat + payloadSize k)

/-- The results of PROJECT (45_framing_and_control.md R124, R127, R128). -/
def storeSizes (k : CoreState) : CoreState :=
  { k with
    payloadBits := BitVec.ofNat 64 (payloadSize k)
    projectedBits := BitVec.ofNat 64 (projectedSize k)
    status := { k.status with
      smaller := decide (projectedSize k < 8 * k.totalBytes.toNat)
      sizesValid := true } }

/-- The rule of PROJECT (45_framing_and_control.md R124). -/
def projectBody : EngineM Unit := do
  modifyCore storeSizes
  complete

/-- PROJECT (45_framing_and_control.md R124; 30_encoding.md R71; 10_state.md R32). -/
def execProject (s : State) : Host.Outcome State Fault Refusal :=
  issue .project preProject clearSizes projectBody s

/-- Write bytes in order (45_framing_and_control.md R129). -/
def writeBytes (bs : List Byte) : EngineM Unit :=
  match bs with
  | [] => pure ()
  | b :: bs => do
    boutWrite b
    writeBytes bs

/-- The rule of WRMAGIC (45_framing_and_control.md R129). -/
def wrmagicBody : EngineM Unit := do
  writeBytes Config.magic
  complete

/-- WRMAGIC (45_framing_and_control.md R129; 30_encoding.md R71). -/
def execWrmagic (s : State) : Host.Outcome State Fault Refusal :=
  issue .wrmagic preWrmagic id wrmagicBody s

/-- Compare the next input bytes with the marker, stopping at the first that is missing or differs (45_framing_and_control.md R130). -/
def checkBytes (bs : List Byte) : EngineM Unit :=
  match bs with
  | [] => pure ()
  | m :: bs => do
    if ← binAtEnd then raise .format
    else
      let b ← binRead
      if b ≠ m then raise .format else checkBytes bs

/-- The rule of CHKMAGIC (45_framing_and_control.md R130). -/
def chkmagicBody : EngineM Unit := do
  binRewind
  checkBytes Config.magic
  complete

/-- CHKMAGIC (45_framing_and_control.md R130). -/
def execChkmagic (s : State) : Host.Outcome State Fault Refusal :=
  issue .chkmagic preNone id chkmagicBody s

/-- The rule of CLOSE (45_framing_and_control.md R131). -/
def closeBody : EngineM Unit := do
  bitFlush
  boutClose
  complete

/-- CLOSE (45_framing_and_control.md R131). -/
def execClose (s : State) : Host.Outcome State Fault Refusal :=
  issue .close preNone id closeBody s

/-- NOP (45_framing_and_control.md R133). -/
def execNop (s : State) : Host.Outcome State Fault Refusal :=
  issue .nop preNone id complete s

/-- The rule of CLEAR: every core state at its reset value, then DONE (45_framing_and_control.md R134). -/
def clearBody : EngineM Unit := do
  modifyCore fun _ => CoreState.reset
  complete

/-- CLEAR (45_framing_and_control.md R134; 10_state.md R32). -/
def execClear (s : State) : Host.Outcome State Fault Refusal :=
  issue .clear preNone clearAll clearBody s

end Sys2Proof.Machine
end

