-- ==== Sys2Proof/Machine/Frequency.lean ====
section
/-! DEFINITION. The frequency counter: COUNT (spec/40_frequency_counter.md). -/

namespace Sys2Proof.Machine

/-- The number of present symbols, `FREQ[s] != 0` (10_state.md R25). -/
def presentCount (freq : Table (BitVec 32)) : Nat := freq.entries.countP fun e => e.2 != 0#32

/-- FREQ and TOTAL_BYTES as COUNT starts them (40_frequency_counter.md R81). -/
def startCount (k : CoreState) : CoreState := { k with freq := Table.fill 0#32, totalBytes := 0#32 }

/-- One byte counted (40_frequency_counter.md R81). -/
def countByte (b : Byte) (k : CoreState) : CoreState :=
  { k with freq := k.freq.update b (k.freq.lookup b + 1#32), totalBytes := k.totalBytes + 1#32 }

/-- The loop of COUNT, at most once per input byte (40_frequency_counter.md R81, 30_encoding.md R73). -/
def countLoop (n : Nat) : EngineM Unit := do
  if ← binAtEnd then pure ()
  else
    match n with
    | 0 => crash .loopBound
    | n + 1 => do
      let k ← getCore
      if k.totalBytes = BitVec.allOnes 32 then raise .countOverflow
      else
        let b ← binRead
        modifyCore (countByte b)
        countLoop n

/-- NSYM and FREQ_VALID, at the completion of COUNT (40_frequency_counter.md R81). -/
def finishCount (k : CoreState) : CoreState :=
  { k with nsym := BitVec.ofNat 9 (presentCount k.freq), status := { k.status with freqValid := true } }

/-- The rule of COUNT (40_frequency_counter.md R81). -/
def countBody : EngineM Unit := do
  binRewind
  modifyCore startCount
  let c ← get
  countLoop c.io.input.length
  modifyCore finishCount
  complete

/-- COUNT (40_frequency_counter.md R81; 30_encoding.md R71; 10_state.md R32). -/
def execCount (s : State) : Host.Outcome State Fault Refusal :=
  issue .count preNone clearAll countBody s

end Sys2Proof.Machine
end

