-- ==== Sys2Proof/Machine/StreamCodec.lean ====
section
/-! DEFINITION. The stream codec: ENCODE and DECODE (spec/44_stream_codec.md). -/

namespace Sys2Proof.Machine

/-- One input byte of ENCODE: its code's bits, or SYMBOL_NOT_CODED before any of them (44_stream_codec.md R114, R116). -/
def encodeByte (b : Byte) : EngineM Unit := do
  let k ← getCore
  if k.codeLen.lookup b = 0#8 then raise .symbolNotCoded
  else bitWrites (codeBits (k.codeLen.lookup b) (k.codeVal.lookup b))

/-- The loop of ENCODE, at most once per input byte (44_stream_codec.md R114, 30_encoding.md R73). -/
def encodeLoop (n : Nat) : EngineM Unit := do
  if ← binAtEnd then pure ()
  else
    match n with
    | 0 => crash .loopBound
    | n + 1 => do
      let b ← binRead
      encodeByte b
      encodeLoop n

/-- The rule of ENCODE (44_stream_codec.md R114, R115). -/
def encodeBody : EngineM Unit := do
  binRewind
  let c ← get
  encodeLoop c.io.input.length
  complete

/-- ENCODE (44_stream_codec.md R114; 30_encoding.md R71). -/
def execEncode (s : State) : Host.Outcome State Fault Refusal :=
  issue .encode preEncode id encodeBody s

/-- The inner loop of DECODE from node `i`: the symbol of the leaf reached, or none where the stream ends inside the descent; `n` bounds
the bits it may read (44_stream_codec.md R118, R119). -/
def descend (n : Nat) (i : NodeIdx) : EngineM (Option Byte) := do
  let k ← getCore
  match nodeAt k.node i with
  | none => crash .noValue
  | some (.leaf s _ _) => pure (some s)
  | some (.internal _ l r) => do
    if ← bitAtEnd then pure none
    else
      match n with
      | 0 => crash .loopBound
      | n + 1 => do
        let b ← bitRead
        descend n (if b then r else l)

/-- `DEC_SYMS <- DEC_SYMS + 1` (44_stream_codec.md R118). -/
def countSymbol (k : CoreState) : CoreState := { k with decSyms := k.decSyms + 1#64 }

/-- The outer loop of DECODE; `n` bounds the bits it may read, at least one a symbol (44_stream_codec.md R118). -/
def decodeLoop (n : Nat) : EngineM Unit := do
  if ← bitAtEnd then pure ()
  else
    match n with
    | 0 => crash .loopBound
    | n + 1 => do
      let k ← getCore
      let leaf ← descend (n + 1) k.root
      match leaf with
      | none => modifyCore setTail
      | some s => do
        boutWrite s
        modifyCore countSymbol
        decodeLoop n

/-- The rule of DECODE (44_stream_codec.md R118, R120). -/
def decodeBody : EngineM Unit := do
  modifyCore fun k => { k with decSyms := 0#64 }
  let c ← get
  match nodeAt c.core.node c.core.root with
  | none => crash .noValue
  | some (.leaf _ _ _) => raise .degenerateTree
  | some (.internal _ _ _) => do
    decodeLoop c.bitsLeft
    complete

/-- DECODE (44_stream_codec.md R118; 30_encoding.md R71). -/
def execDecode (s : State) : Host.Outcome State Fault Refusal :=
  issue .decode preDecode id decodeBody s

end Sys2Proof.Machine
end

