-- ==== Sys2Proof/Machine/TreeBuilder.lean ====
section
/-! DEFINITION. The tree builder: BUILD, by the linear scan (spec/41_tree_builder.md). BUILD makes no stream transaction, so its
algorithm is a pure function of FREQ. -/

namespace Sys2Proof.Machine

/-- NODE[0..NNODES-1] and WORK[0..WCOUNT-1] while BUILD runs. -/
structure Forest where
  nodes : List Node
  slots : List NodeIdx
  deriving DecidableEq, Repr

/-- The index of the next node allocated, NNODES (10_state.md R35). -/
def nextIdx (nodes : List Node) : NodeIdx := Fin.ofNat 512 nodes.length

/-- `WORK[k]` (41_tree_builder.md R86). -/
def Forest.slot (f : Forest) (k : Nat) : NodeIdx := f.slots.getD k 0

/-- `W(k)`, the weight of the tree in slot k (41_tree_builder.md notation). -/
def Forest.weight (f : Forest) (k : Nat) : BitVec 32 :=
  match nodeAt f.nodes (f.slot k) with
  | some n => n.weight
  | none => 0#32

/-- The leaves of the present symbols, in ascending symbol order (41_tree_builder.md R87). -/
def presentLeaves (freq : Table (BitVec 32)) : List Node :=
  (freq.entries.filter fun e => e.2 != 0#32).map fun e => .leaf e.1 e.2 false

/-- The working collection at the start: slot k holds NODE[k] (41_tree_builder.md R87). -/
def startForest (freq : Table (BitVec 32)) : Forest :=
  { nodes := presentLeaves freq, slots := (List.range (presentLeaves freq).length).map (Fin.ofNat 512) }

/-- m1: the lowest slot of least weight (41_tree_builder.md R88). -/
def Forest.firstMin (f : Forest) : Nat :=
  (List.range f.slots.length).foldl (fun m k => if f.weight k < f.weight m then k else m) 0

/-- m2: the lowest slot of least weight among the others (41_tree_builder.md R88). -/
def Forest.secondMin (f : Forest) (m1 : Nat) : Nat :=
  (List.range f.slots.length).foldl (fun m k => if k ≠ m1 ∧ f.weight k < f.weight m then k else m) (if m1 = 0 then 1 else 0)

/-- The new internal node over the trees of two slots (41_tree_builder.md R89, R91). -/
def Forest.join (f : Forest) (m1 m2 : Nat) : Node :=
  .internal (f.weight m1 + f.weight m2) (f.slot m1) (f.slot m2)

/-- One merge: the new node takes the lower slot, the last tree the higher one (41_tree_builder.md R89, R90). -/
def Forest.merge (f : Forest) : Forest :=
  let m1 := f.firstMin
  let m2 := f.secondMin m1
  { nodes := f.nodes ++ [f.join m1 m2]
    slots := ((f.slots.set (min m1 m2) (nextIdx f.nodes)).set (max m1 m2) (f.slot (f.slots.length - 1))).dropLast }

/-- The merges while more than two trees remain; each leaves one tree fewer, so `n` at least WCOUNT is enough (41_tree_builder.md R86). -/
def mergeLoop (n : Nat) (f : Forest) : Forest :=
  match n with
  | 0 => f
  | n + 1 => if 2 < f.slots.length then mergeLoop n f.merge else f

/-- The placeholder leaf (41_tree_builder.md R92). -/
def placeholder : Node := .leaf 0#8 0#32 true

/-- The nodes once the root has joined the last two trees (R91), or the last tree and the placeholder (R92). -/
def rootJoin (f : Forest) : List Node :=
  if f.slots.length = 2 then f.nodes ++ [f.join 0 1]
  else f.nodes ++ [placeholder, .internal (f.weight 0) (f.slot 0) (nextIdx f.nodes)]

/-- What BUILD leaves, or none when no symbol is present (41_tree_builder.md R86, R93): NODE, and WORK, which is read by no rule. -/
def buildForest (freq : Table (BitVec 32)) : Option Forest :=
  let f := startForest freq
  if f.slots.length = 0 then none
  else
    let g := mergeLoop f.slots.length f
    some { nodes := rootJoin g, slots := g.slots }

/-- NLEAVES, NINTERNAL and TREE_BITS of the nodes (41_tree_builder.md R86, 43_tree_codec.md R107). -/
def setTreeSize (k : CoreState) : CoreState :=
  let l := leafCount k.node
  { k with
    nleaves := BitVec.ofNat 9 l
    ninternal := BitVec.ofNat 9 (k.node.length - l)
    treeBits := BitVec.ofNat 12 (9 * l + (k.node.length - l)) }

/-- The built tree in core state; the root is the node allocated last (41_tree_builder.md R86). -/
def storeForest (f : Forest) (k : CoreState) : CoreState :=
  { k with node := f.nodes, work := f.slots, root := Fin.ofNat 512 (f.nodes.length - 1) }

/-- TREE_VALID and TREE_BUILT, at the completion of BUILD (10_state.md R32). -/
def setBuilt (k : CoreState) : CoreState := { k with status := { k.status with treeValid := true, treeBuilt := true } }

/-- The rule of BUILD (41_tree_builder.md R86). -/
def buildBody : EngineM Unit := do
  modifyCore fun k => { k with node := [], work := [] }
  let k ← getCore
  match buildForest k.freq with
  | none => raise .emptyInput
  | some f => do
    modifyCore (storeForest f)
    modifyCore setTreeSize
    modifyCore setBuilt
    complete

/-- BUILD (41_tree_builder.md R86; 30_encoding.md R71; 10_state.md R32). -/
def execBuild (s : State) : Host.Outcome State Fault Refusal :=
  issue .build preBuild clearDerived buildBody s

end Sys2Proof.Machine
end

