-- ==== Sys2Proof/Machine/TreeCodec.lean ====
section
/-! DEFINITION. The tree codec: WRTREE and RDTREE (spec/43_tree_codec.md). -/

namespace Sys2Proof.Machine

/-- The bits `Ser(i)` writes, in order (43_tree_codec.md R103, 30_encoding.md R75); `n` is what is left of the walk's depth. -/
def serialize (order : BitOrder) (nodes : List Node) (n : Nat) (i : NodeIdx) : Except Fault (List Bool) :=
  match n with
  | 0 => .error .stackOverflow
  | n + 1 =>
    match nodeAt nodes i with
    | none => .error .noValue
    | some (.leaf s _ _) => .ok (false :: symbolBits order s)
    | some (.internal _ l r) =>
      match serialize order nodes n l with
      | .error f => .error f
      | .ok bl =>
        match serialize order nodes n r with
        | .error f => .error f
        | .ok br => .ok (true :: (bl ++ br))

/-- The rule of WRTREE: NODE does not change while it runs, so its bits are fixed at its start (43_tree_codec.md R103). -/
def wrtreeBody : EngineM Unit := do
  let k ← getCore
  let p ← getParams
  let bits ← need (serialize p.symOrder k.node walkDepth k.root)
  bitWrites bits
  complete

/-- WRTREE (43_tree_codec.md R103; 30_encoding.md R71). -/
def execWrtree (s : State) : Host.Outcome State Fault Refusal :=
  issue .wrtree preWrtree id wrtreeBody s

/-- A bit of the serialized tree, or TRUNCATED_TREE where the stream has ended (43_tree_codec.md R107, R108). -/
def treeBit : EngineM Bool := do
  if ← bitAtEnd then raise .truncatedTree else bitRead

/-- The symbol bits from the k-th on, added to `s` (43_tree_codec.md R107, 30_encoding.md R76). -/
def readSymbolFrom (k n : Nat) (s : Byte) : EngineM Byte :=
  match n with
  | 0 => pure s
  | n + 1 => do
    let p ← getParams
    let v ← treeBit
    readSymbolFrom (k + 1) n (s + symbolBitValue p.symOrder v k)

/-- The eight symbol bits of a leaf (43_tree_codec.md R107). -/
def readSymbol : EngineM Byte := readSymbolFrom 0 8 0#8

/-- A new NODE entry, not yet written (43_tree_codec.md R107; log entry 8). -/
def allocNode (k : CoreState) : CoreState := { k with node := k.node ++ [.leaf 0#8 0#32 false] }

/-- `NODE[i] <- n` (43_tree_codec.md R107). -/
def writeNode (i : NodeIdx) (n : Node) (k : CoreState) : CoreState := { k with node := k.node.set i.val n }

/-- `ReadNode()` (43_tree_codec.md R107, R109); `n` is what is left of the walk's depth (00_scope.md R16). -/
def readNode (n : Nat) : EngineM NodeIdx :=
  match n with
  | 0 => crash .stackOverflow
  | n + 1 => do
    let b ← treeBit
    let k ← getCore
    if k.node.length = Config.nodeCap then raise .treeOverflow
    else
      let i := nextIdx k.node
      modifyCore allocNode
      if b then
        modifyCore (writeNode i (.internal 0#32 0 0))
        let l ← readNode n
        modifyCore (writeNode i (.internal 0#32 l 0))
        let r ← readNode n
        modifyCore (writeNode i (.internal 0#32 l r))
        pure i
      else
        let s ← readSymbol
        modifyCore (writeNode i (.leaf s 0#32 false))
        pure i

/-- ROOT of a read tree (43_tree_codec.md R107). -/
def setRoot (r : NodeIdx) (k : CoreState) : CoreState := { k with root := r }

/-- TREE_VALID, at the completion of RDTREE; TREE_BUILT stays 0 (43_tree_codec.md R107). -/
def setRead (k : CoreState) : CoreState := { k with status := { k.status with treeValid := true } }

/-- The rule of RDTREE (43_tree_codec.md R107). -/
def rdtreeBody : EngineM Unit := do
  modifyCore fun k => { k with node := [] }
  let r ← readNode walkDepth
  modifyCore (setRoot r)
  modifyCore setTreeSize
  modifyCore setRead
  complete

/-- RDTREE (43_tree_codec.md R107; 10_state.md R32). -/
def execRdtree (s : State) : Host.Outcome State Fault Refusal :=
  issue .rdtree preNone clearAll rdtreeBody s

end Sys2Proof.Machine
end

