-- ==== Sys2Proof/Machine/Dispatch.lean ====
section
/-! DEFINITION. exec: what a write of each command's word to CMD does (spec/30_encoding.md R67, R69). -/

namespace Sys2Proof.Machine

def exec (i : Instr) (s : State) : Host.Outcome State Fault Refusal :=
  match i with
  | .nop => Sys2Proof.Machine.execNop s
  | .count => Sys2Proof.Machine.execCount s
  | .build => Sys2Proof.Machine.execBuild s
  | .gencodes => Sys2Proof.Machine.execGencodes s
  | .wrtree => Sys2Proof.Machine.execWrtree s
  | .rdtree => Sys2Proof.Machine.execRdtree s
  | .encode => Sys2Proof.Machine.execEncode s
  | .decode => Sys2Proof.Machine.execDecode s
  | .project => Sys2Proof.Machine.execProject s
  | .wrmagic => Sys2Proof.Machine.execWrmagic s
  | .chkmagic => Sys2Proof.Machine.execChkmagic s
  | .close => Sys2Proof.Machine.execClose s
  | .clear => Sys2Proof.Machine.execClear s

end Sys2Proof.Machine
end

