-- ==== Sys2Proof/Machine/HostOps.lean ====
section
/-! DEFINITION. The host's moves other than a CMD write (spec/20_memory.md R44, R45; 60_exceptions.md R152; 30_encoding.md R79), and the
expansions of COMPRESS and DECOMPRESS (R80). -/

namespace Sys2Proof.Machine

/-- ENG = BUSY, `STATUS.BUSY` (10_state.md R18). -/
def State.isBusy (s : State) : Bool :=
  match s.eng with
  | .idle => false
  | .busy _ _ _ => true

/-- The host at its next statement. -/
def State.nextStmt (s : State) : State := { s with host := { s.host with pc := s.host.pc + 1 } }

/-- The value a host read of the block returns, and the state with one more unspecified read counted if it was one
(10_state.md R19, R23). -/
def State.readOffset (s : State) (off : Nat) : Word × State :=
  if s.isBusy then
    (busyRegWord s.codec.core s.codec.params off (Config.freeWord s.reads), { s with reads := s.reads + 1 })
  else (regWord s.codec.core s.codec.params off, s)

/-- The host takes in the value it read at an offset; a STATUS value is also kept for the branches (30_encoding.md R79). -/
def HostSide.noteRead (off : Nat) (v : Word) (h : HostSide) : HostSide :=
  if off = 0x008 then { h with lastRead := v, lastStatus := v } else { h with lastRead := v }

/-- `MemRead(off, 4)` (20_memory.md R44). -/
def State.hostRead (off : Nat) (s : State) : State :=
  { (s.readOffset off).2 with host := (s.readOffset off).2.host.noteRead off (s.readOffset off).1 }

/-- One poll of STATUS; the poll ends when BUSY reads 0 (30_encoding.md R79). -/
def State.poll (s : State) : State :=
  let t := s.hostRead 0x008
  { t with host := { t.host with polling := t.host.lastStatus.getLsbD 0 } }

/-- A host branch on the last STATUS read (30_encoding.md R79). -/
def State.hostBranch (f : StatusField) (v target : Nat) (s : State) : State :=
  if statusField f s.host.lastStatus = v then { s with host := { s.host with pc := target } } else s.nextStmt

/-- `attach_in`: IN and IPOS are replaced, only while IDLE (60_exceptions.md R152). -/
def hostAttachIn (bytes : List Byte) (pos : Nat) (s : State) : Host.Outcome State Fault Refusal :=
  if s.isBusy then .refused .attachWhileBusy
  else if bytes.length < pos then .refused .attachBeyondEnd
  else .next { s.nextStmt with codec := s.codec.mapIo fun io => { io with input := bytes, ipos := pos } }

/-- `attach_out`: a fresh empty output, only while IDLE (60_exceptions.md R152). -/
def hostAttachOut (s : State) : Host.Outcome State Fault Refusal :=
  if s.isBusy then .refused .attachWhileBusy
  else .next { s.nextStmt with codec := s.codec.mapIo fun io => { io with output := [], outClosed := false } }

/-- The gate of a COMPRESS between PROJECT and WRMAGIC: with `force` 0, the branch to `skipped` on SMALLER = 0
(30_encoding.md R80, 60_exceptions.md R151). -/
def gateStmts (force : Bool) (skipped : Nat) : List HostStmt :=
  if force then [] else [.branch .smaller 0 skipped]

/-- Each command followed by `if STATUS.ERR == 1 goto fail` (30_encoding.md R80). -/
def checkedStmts (fail : Nat) (is : List Instr) : List HostStmt :=
  is.flatMap fun i => [.word (encode i), .branch .err 1 fail]

/-- `COMPRESS force`, with its labels `skipped` and `fail` (30_encoding.md R80). -/
def compressStmts (force : Bool) (skipped fail : Nat) : List HostStmt :=
  checkedStmts fail [.count, .build, .gencodes, .project] ++ gateStmts force skipped
    ++ checkedStmts fail [.wrmagic, .wrtree, .encode, .close]

/-- `DECOMPRESS`, with its label `fail` (30_encoding.md R80). -/
def decompressStmts (fail : Nat) : List HostStmt := checkedStmts fail [.chkmagic, .rdtree, .decode, .close]

end Sys2Proof.Machine
end

