-- ==== Sys2Proof/Machine/HostMoves.lean ====
section
/-! DEFINITION. The host's moves, the going on of a running command, and the reset input: what a step is made of (spec/00_scope.md R6;
30_encoding.md R69, R70, R73, R79; 70_reset_and_hazards.md R153). -/

namespace Sys2Proof.Machine

/-- A write of any 32-bit word to CMD: the command it decodes to, or the illegal word (30_encoding.md R68, R69, R70). -/
def writeCmd (w : Word) (s : State) : Host.Outcome State Fault Refusal :=
  match decode w with
  | some i => exec i s
  | none => writeIllegal w s

/-- `MemWrite(addr, n, v)`: CMD takes the write, every other word of the block ignores it (20_memory.md R44; 10_state.md R30, R31). -/
def hostWrite (addr n : Nat) (v : Word) (s : State) : Host.Outcome State Fault Refusal :=
  match blockOffset s.codec.params addr n with
  | none => .refused .unsupportedAccess
  | some off => if off = cmdOffset then writeCmd v s.nextStmt else .next s.nextStmt

/-- `MemRead(addr, n)` (20_memory.md R44, R45). -/
def hostLoad (addr n : Nat) (s : State) : Host.Outcome State Fault Refusal :=
  match blockOffset s.codec.params addr n with
  | none => .refused .unsupportedAccess
  | some off => .next (s.hostRead off).nextStmt

/-- The state in which a `.word` statement writes CMD: the host has left the statement and polls (30_encoding.md R79). -/
def State.beginWord (s : State) : State := { s.nextStmt with host := { s.nextStmt.host with polling := true } }

/-- One statement of the host program (30_encoding.md R79). -/
def hostStmt (st : HostStmt) (s : State) : Host.Outcome State Fault Refusal :=
  match st with
  | .word w => writeCmd w s.beginWord
  | .memWrite addr n v => hostWrite addr n v s
  | .memRead addr n => hostLoad addr n s
  | .branch f v target => .next (s.hostBranch f v target)
  | .attachIn bytes pos => hostAttachIn bytes pos s
  | .attachOut => hostAttachOut s
  | .stop => .next s

/-- The host's move: a poll, or its next statement; past its program it does nothing (60_exceptions.md R150). -/
def hostMove (s : State) : Host.Outcome State Fault Refusal :=
  if s.host.polling then .next s.poll
  else
    match s.host.prog[s.host.pc]? with
    | none => .next s
    | some st => hostStmt st s

/-- The draws with the first listed `wait` taken out: one more move of the host has been made. -/
def Draws.release (d : Draws) : Draws := { d with listed := d.listed.erase .wait }

/-- The going on of a running command: it is run again from its start, without the `wait` the host has just used. Its answers so far are
the same, so it does the same up to there (log entry 3). -/
def resume (s : State) : Host.Outcome State Fault Refusal :=
  match s.eng with
  | .idle => .next s
  | .busy w start _ =>
    writeCmd w { s with codec := start.mapIo fun io => { io with draws := io.draws.release }, eng := .idle }

/-- A step without reset: the host moves; a command that was already running then goes on (20_memory.md R60). -/
def stepRunning (s : State) : Host.Outcome State Fault Refusal :=
  match s.eng with
  | .idle => hostMove s
  | .busy _ _ _ =>
    match hostMove s with
    | .next t => resume t
    | .fault f => .fault f
    | .refused r => .refused r

/-- The reset input is asserted at this step (70_reset_and_hazards.md R153). -/
def State.resetAsserted (s : State) : Bool := s.resetInput.headD false

/-- The level of the reset input at this step has been read. -/
def State.sampleReset (s : State) : State := { s with resetInput := s.resetInput.tail }

/-- A step with reset asserted (70_reset_and_hazards.md R153, R154). -/
def State.takeReset (s : State) : State := s.sampleReset.hardReset

/-- A one-statement host program for the word `w`, about to be run (see `withFetchWord`). -/
def State.loadWord (w : Word) (s : State) : State :=
  { s with
    eng := .idle
    resetInput := s.resetInput.dropWhile id
    host := { s.host with prog := [.word w], pc := 0, polling := false } }

end Sys2Proof.Machine
end

