-- ==== Sys2Proof/Machine/Step.lean ====
section
/-! DEFINITION. One step of the machine, and the placing of a command word where the step fetches it. The definitions a step calls stand
in Machine/HostMoves.lean. -/

namespace Sys2Proof.Machine

/-- One step: the reset input if it is asserted, else the host's move and, if a command is running, the engine's (log entries 1, 3, 5, 6). -/
def step (s : State) : Host.Outcome State Fault Refusal :=
  if s.resetAsserted then .next s.takeReset else stepRunning s.sampleReset

/-- `s` with the command word of those bits as the host's next statement: a one-statement host program, the host not polling, ENG IDLE
and no reset asserted, which is all that a `.word` statement needs to be accepted at the next step (log entry 5). -/
def State.withFetchWord (s : State) (nbits w : Nat) : State := s.loadWord (tableWord nbits w)

end Sys2Proof.Machine
end

