-- ==== Sys2Proof/WellFormed.lean ====
section
/-! DEFINITION. Well-formedness of commands, command words and host programs (spec/30_encoding.md R66, R68, R79;
20_memory.md R44, R45; 60_exceptions.md R152). -/

namespace Sys2Proof

/-- A command has no operand (30_encoding.md R66), so nothing about one can be ill formed. -/
def Instr.wellFormed (i : Instr) : Bool :=
  match i with
  | .nop | .count | .build | .gencodes | .wrtree | .rdtree | .encode | .decode | .project | .wrmagic | .chkmagic
  | .close | .clear => true

/-- A word of format CMD32 that is one of the thirteen commands (30_encoding.md R66, R68). -/
def wellFormedCommand (w : Word) : Bool := (decode w).isSome

/-- Access of one 32-bit word of the block at REG_BASE `base` (20_memory.md R44, R45). -/
def wellFormedAccess (base addr n : Nat) : Bool :=
  n == 4 && decide (base ≤ addr) && (addr - base) % 4 == 0 && decide (addr - base ≤ 0xFFC)

/-- A statement of a program of `len` statements that the spec gives a step: any command word (also an illegal one, R79),
aligned 32-bit accesses, branch targets in the program, an attach position within the input (60_exceptions.md R152). -/
def HostStmt.wellFormed (base len : Nat) (st : HostStmt) : Bool :=
  match st with
  | .word _ => true
  | .memWrite addr n _ => wellFormedAccess base addr n
  | .memRead addr n => wellFormedAccess base addr n
  | .branch _ _ target => decide (target < len)
  | .attachIn bytes pos => decide (pos ≤ bytes.length)
  | .attachOut => true
  | .stop => true

/-- Every statement of a host program is well formed. -/
def wellFormedProgram (base : Nat) (prog : List HostStmt) : Bool :=
  prog.all (HostStmt.wellFormed base prog.length)

end Sys2Proof
end

