-- ==== Sys2Proof/Safety.lean ====
section
/-! DEFINITION. The terms in which claims about the core are made: working I/O and answered transactions (spec/20_memory.md R53,
30_encoding.md R73), the bit streams (20_memory.md R54 to R58), the tree a node memory holds (10_state.md R34, 30_encoding.md R75), codes
(10_state.md R37), and the invariants the spec's prose states. -/

namespace Sys2Proof.Machine

/-! ## Premises -/

/-- Every draw is success: "working I/O" (20_memory.md R53). -/
abbrev Draws.allOk (d : Draws) : Prop := (∀ x ∈ d.listed, x = .ok) ∧ d.rest = .ok

/-- Every transaction is answered, with success or failure, before the host's next move (30_encoding.md R73). -/
abbrev Draws.answered (d : Draws) : Prop := .wait ∉ d.listed ∧ d.rest ≠ .wait

/-- No transaction is ever answered (30_encoding.md R73). -/
abbrev Draws.silent (d : Draws) : Prop := (∀ x ∈ d.listed, x = .wait) ∧ d.rest = .wait

/-- Every listed transaction is answered, with success or failure, and none after them ever is (30_encoding.md R73). -/
abbrev Draws.silentAfterListed (d : Draws) : Prop := .wait ∉ d.listed ∧ d.rest = .wait

/-- ENG is IDLE and every transaction is answered. -/
abbrev State.ready (s : State) : Prop := s.eng = .idle ∧ s.codec.io.draws.answered

/-- ENG is IDLE and every transaction succeeds. -/
abbrev State.working (s : State) : Prop := s.eng = .idle ∧ s.codec.io.draws.allOk

/-- The first `n` transactions to come succeed. -/
def Draws.okFor (n : Nat) (d : Draws) : Bool :=
  match n with
  | 0 => true
  | n + 1 => d.pop.1 == .ok && Draws.okFor n d.pop.2

/-- The draws after the next `n`. -/
def Draws.after (n : Nat) (d : Draws) : Draws :=
  match n with
  | 0 => d
  | n + 1 => Draws.after n d.pop.2

/-- ENG is IDLE, every transaction is answered, and of the transactions to come the first `n` succeed and the next fails (20_memory.md R53). -/
abbrev State.failsAfter (s : State) (n : Nat) : Prop :=
  s.ready ∧ s.codec.io.draws.okFor n = true ∧ (s.codec.io.draws.after n).pop.1 = .fail

/-- ENG is IDLE, every transaction is answered, and of the command's byte writes `n` succeed and the next, which `k` successful transactions
of other kinds come before, fails: by its draw, or as the first write to a closed output does whatever the draw (20_memory.md R51). -/
abbrev State.writeFailsAfter (s : State) (k n : Nat) : Prop :=
  s.ready ∧ s.codec.io.draws.okFor (k + n) = true ∧
    (s.codec.io.outClosed = true ∧ n = 0 ∨ s.codec.io.outClosed = false ∧ (s.codec.io.draws.after (k + n)).pop.1 = .fail)

/-- ENG is IDLE and the last command ended in the runtime error `e` (60_exceptions.md R138). -/
abbrev State.endedIn (t : State) (e : ErrCode) : Prop :=
  t.eng = .idle ∧ t.codec.core.status.err = true ∧ t.codec.core.status.errcode = e ∧ t.codec.core.status.done = false

/-- ENG is IDLE and the host makes no move before a command without transactions ends. -/
abbrev State.prompt (s : State) : Prop := s.eng = .idle ∧ s.codec.io.draws.listed.head? ≠ some .wait

/-- The precondition of each command (30_encoding.md R71), written from that table. -/
def preconditionOf (i : Instr) (k : CoreState) : Prop :=
  match i with
  | .nop | .count | .rdtree | .chkmagic | .close | .clear => True
  | .build => k.status.freqValid = true
  | .gencodes => k.status.treeValid = true ∧ k.status.treeBuilt = true
  | .wrtree => k.status.treeValid = true
  | .encode => k.status.codesValid = true
  | .decode => k.status.treeValid = true ∧ k.obits = 0
  | .project => k.status.freqValid = true ∧ k.status.treeBuilt = true ∧ k.status.codesValid = true
  | .wrmagic => k.obits = 0

/-- The core state after the precise error `e` of the word `w` (60_exceptions.md R137): only CMD, DONE, ERR, ERRCODE and TAIL differ. -/
def CoreState.afterPrecise (w : Word) (e : ErrCode) (k : CoreState) : CoreState :=
  { k with cmd := w, status := { k.status with done := false, err := true, errcode := e, tail := false } }

/-- The core state after the word `w` completed with no other change (30_encoding.md R69, R72). -/
def CoreState.afterDone (w : Word) (k : CoreState) : CoreState :=
  { k with cmd := w, status := { k.status with done := true, err := false, errcode := .none, tail := false } }

/-- What the defined words of the block read as while IDLE, by offset, but for STATUS and PARAM (10_state.md R19, R20, R25; STATUS is
`statusWord false`, R22, and PARAM `paramWord`, R24). -/
def CoreState.registerMap (k : CoreState) : List (Nat × Nat) :=
  [(0x000, 0x48460001), (0x004, k.cmd.toNat), (0x010, k.totalBytes.toNat), (0x014, k.nsym.toNat), (0x018, k.nleaves.toNat),
   (0x01C, k.ninternal.toNat), (0x020, k.treeBits.toNat), (0x024, k.maxlen.toNat),
   (0x028, 8 * k.totalBytes.toNat % 2 ^ 32), (0x02C, 8 * k.totalBytes.toNat / 2 ^ 32),
   (0x030, k.payloadBits.toNat % 2 ^ 32), (0x034, k.payloadBits.toNat / 2 ^ 32),
   (0x038, k.projectedBits.toNat % 2 ^ 32), (0x03C, k.projectedBits.toNat / 2 ^ 32),
   (0x040, k.outBytes.toNat % 2 ^ 32), (0x044, k.outBytes.toNat / 2 ^ 32),
   (0x048, k.inPos.toNat % 2 ^ 32), (0x04C, k.inPos.toNat / 2 ^ 32),
   (0x050, k.decSyms.toNat % 2 ^ 32), (0x054, k.decSyms.toNat / 2 ^ 32)]

/-! ## Bit streams -/

/-- The bits of a stream byte, in bit-stream order (20_memory.md R54). -/
def byteBits (order : BitOrder) (b : Byte) : List Bool := (List.range 8).map fun k => b.getLsbD (bitPos order k)

/-- The bits the packer holds, in the order they were written (20_memory.md R55). -/
def pendingBits (order : BitOrder) (k : CoreState) : List Bool :=
  (List.range k.obits.val).map fun j => k.obuf.getLsbD (bitPos order j)

/-- The output bit stream: the bits of OUT, then the packer's (20_memory.md R55). -/
def Codec.outBits (c : Codec) : List Bool :=
  c.io.output.flatMap (byteBits c.params.packOrder) ++ pendingBits c.params.packOrder c.core

/-- The bits the unpacker has read but not given out (20_memory.md R57). -/
def unreadBits (order : BitOrder) (k : CoreState) : List Bool :=
  (List.range k.ibits.val).map fun j => k.ibuf.getLsbD (bitPos order (8 - k.ibits.val + j))

/-- The input bit stream from where the unpacker stands (20_memory.md R57, R58). -/
def Codec.inBits (c : Codec) : List Bool :=
  unreadBits c.params.packOrder c.core ++ (c.io.input.drop c.io.ipos).flatMap (byteBits c.params.packOrder)

/-! ## Trees -/

/-- A tree as NODE holds it (10_state.md R34). -/
inductive CodeTree where
  | leaf (sym : Byte) (weight : BitVec 32) (ph : Bool)
  | node (weight : BitVec 32) (left right : CodeTree)
  deriving DecidableEq, Repr

/-- The tree below a node; none if it reads an entry with no value or is deeper than `n`. -/
def treeOf (nodes : List Node) (n : Nat) (i : NodeIdx) : Option CodeTree :=
  match n with
  | 0 => none
  | n + 1 =>
    match nodeAt nodes i with
    | none => none
    | some (.leaf s w ph) => some (.leaf s w ph)
    | some (.internal w l r) =>
      match treeOf nodes n l, treeOf nodes n r with
      | some tl, some tr => some (.node w tl tr)
      | _, _ => none

/-- The indices of the nodes below a node, itself first. -/
def treeIndices (nodes : List Node) (n : Nat) (i : NodeIdx) : List Nat :=
  match n with
  | 0 => []
  | n + 1 =>
    match nodeAt nodes i with
    | some (.internal _ l r) => i.val :: (treeIndices nodes n l ++ treeIndices nodes n r)
    | _ => [i.val]

namespace CodeTree

/-- The weight of the root of a tree. -/
def weight (t : CodeTree) : BitVec 32 :=
  match t with
  | .leaf _ w _ => w
  | .node w _ _ => w

/-- The leaves from left to right: symbol, weight, placeholder mark. -/
def leaves (t : CodeTree) : List (Byte × BitVec 32 × Bool) :=
  match t with
  | .leaf s w ph => [(s, w, ph)]
  | .node _ l r => l.leaves ++ r.leaves

/-- The number of internal nodes. -/
def internals (t : CodeTree) : Nat :=
  match t with
  | .leaf _ _ _ => 0
  | .node _ l r => l.internals + r.internals + 1

/-- The number of nodes. -/
def size (t : CodeTree) : Nat := t.leaves.length + t.internals

/-- How many nodes of the tree have their structure bit among the first `n` bits of its tokens (30_encoding.md R75): a leaf's token is 9
bits and an internal node's 1 (10_state.md R26). -/
def nodesBegun (t : CodeTree) (n : Nat) : Nat :=
  if n = 0 then 0
  else
    match t with
    | .leaf _ _ _ => 1
    | .node _ l r => 1 + l.nodesBegun (n - 1) + r.nodesBegun (n - 1 - (9 * l.leaves.length + l.internals))

/-- The number of edges on the longest path. -/
def depth (t : CodeTree) : Nat :=
  match t with
  | .leaf _ _ _ => 0
  | .node _ l r => max l.depth r.depth + 1

/-- The root is an internal node. -/
def isNode (t : CodeTree) : Bool :=
  match t with
  | .leaf _ _ _ => false
  | .node _ _ _ => true

/-- The pre-order token sequence of a tree (30_encoding.md R75, R76). -/
def bits (order : BitOrder) (t : CodeTree) : List Bool :=
  match t with
  | .leaf s _ _ => false :: symbolBits order s
  | .node _ l r => true :: (l.bits order ++ r.bits order)

/-- The tree without what serialization drops: PH and WEIGHT (43_tree_codec.md R112). -/
def plain (t : CodeTree) : CodeTree :=
  match t with
  | .leaf s _ _ => .leaf s 0#32 false
  | .node _ l r => .node 0#32 l.plain r.plain

/-- Every internal node's weight is the exact sum of its children's (41_tree_builder.md R95). -/
def weightsAdd (t : CodeTree) : Prop :=
  match t with
  | .leaf _ _ _ => True
  | .node w l r => w.toNat = l.weight.toNat + r.weight.toNat ∧ l.weightsAdd ∧ r.weightsAdd

/-- The node reached by a path, '0' left and '1' right (00_scope.md R11). -/
def follow (t : CodeTree) (p : List Bool) : Option CodeTree :=
  match p, t with
  | [], t => some t
  | _ :: _, .leaf _ _ _ => none
  | b :: p, .node _ l r => (if b then r else l).follow p

/-- The depth of the leftmost leaf, `d0` (44_stream_codec.md R121). -/
def leftDepth (t : CodeTree) : Nat :=
  match t with
  | .leaf _ _ _ => 0
  | .node _ l _ => l.leftDepth + 1

/-- The symbol of the leftmost leaf, `z` (44_stream_codec.md R121). -/
def leftSymbol (t : CodeTree) : Byte :=
  match t with
  | .leaf s _ _ => s
  | .node _ l _ => l.leftSymbol

/-- What DECODE makes of a bit stream, `cur` being the node the descent has reached: the symbols, and TAIL
(44_stream_codec.md R118, R119). -/
def decodeFrom (root cur : CodeTree) (mid : Bool) (bs : List Bool) : List Byte × Bool :=
  match bs with
  | [] => ([], mid)
  | b :: bs =>
    match cur with
    | .leaf _ _ _ => ([], mid)
    | .node _ l r =>
      match if b then r else l with
      | .leaf s _ _ => (s :: (decodeFrom root root false bs).1, (decodeFrom root root false bs).2)
      | .node w l' r' => decodeFrom root (.node w l' r') true bs

/-- What DECODE makes of a bit stream from the root (44_stream_codec.md R118). -/
def decode (t : CodeTree) (bs : List Bool) : List Byte × Bool := decodeFrom t t false bs

end CodeTree

/-- The node memory holds exactly the tree `t`: every allocated node is in it once (10_state.md R34). -/
def CoreState.holds (k : CoreState) (t : CodeTree) : Prop :=
  treeOf k.node walkDepth k.root = some t ∧ (treeIndices k.node walkDepth k.root).Nodup ∧ t.size = k.node.length

/-! ## Codes -/

/-- The code of a symbol; empty when it has none (10_state.md R37). -/
def CoreState.code (k : CoreState) (s : Byte) : List Bool := codeBits (k.codeLen.lookup s) (k.codeVal.lookup s)

/-- The encoded data of a byte sequence (30_encoding.md R74). -/
def CoreState.encoded (k : CoreState) (bs : List Byte) : List Bool := bs.flatMap k.code

/-- The sum of the counts. -/
def countSum (freq : Table (BitVec 32)) : Nat := (allSymbols.map fun s => (freq.lookup s).toNat).sum

/-- A built tree's leaves are the present symbols with their counts, and with one present symbol the placeholder on its right
(41_tree_builder.md R92, R94, R95). -/
def leavesMatch (freq : Table (BitVec 32)) (t : CodeTree) : Prop :=
  if presentCount freq = 1 then
    ∃ s w, freq.lookup s ≠ 0#32 ∧ w = freq.lookup s ∧ t = .node w (.leaf s w false) (.leaf 0#8 0#32 true)
  else
    t.leaves.Perm ((allSymbols.filter fun s => freq.lookup s != 0#32).map fun s => (s, freq.lookup s, false))

/-- `t` is a tree BUILD makes from `freq` (41_tree_builder.md R94, R95). -/
def BuiltFrom (freq : Table (BitVec 32)) (t : CodeTree) : Prop :=
  t.isNode = true ∧ t.weightsAdd ∧ leavesMatch freq t

/-- The code table holds the paths of `t`: each real leaf's path is its symbol's code, and no other symbol has one
(42_code_table.md R98, R100). -/
def CoreState.codesOf (k : CoreState) (t : CodeTree) : Prop :=
  (∀ s, k.code s ≠ [] → ∃ w, t.follow (k.code s) = some (.leaf s w false)) ∧
  (∀ s w p, t.follow p = some (.leaf s w false) → k.code s = p)

/-! ## Invariants -/

/-- 30_encoding.md R71: CODES_VALID gives TREE_BUILT, which gives TREE_VALID and FREQ_VALID. -/
def CoreState.validityChain (k : CoreState) : Prop :=
  (k.status.codesValid = true → k.status.treeBuilt = true) ∧
  (k.status.treeBuilt = true → k.status.treeValid = true ∧ k.status.freqValid = true)

/-- 10_state.md R32, R28: the registers of a cleared validity bit read 0. TOTAL_BYTES is not among them: a failed COUNT leaves it at the
bytes counted (40_frequency_counter.md R81). -/
def CoreState.clearedRegs (k : CoreState) : Prop :=
  (k.status.freqValid = false → k.nsym = 0#9) ∧
  (k.status.treeValid = false → k.nleaves = 0#9 ∧ k.ninternal = 0#9 ∧ k.treeBits = 0#12) ∧
  (k.status.codesValid = false → k.maxlen = 0#8) ∧
  (k.status.sizesValid = false → k.payloadBits = 0#64 ∧ k.projectedBits = 0#64 ∧ k.status.smaller = false)

/-- 10_state.md R22, 60_exceptions.md R135, R138: DONE and ERR exclude each other, ERRCODE is NONE unless ERR, TAIL only with no error. -/
def CoreState.oneReport (k : CoreState) : Prop :=
  (k.status.done = true → k.status.err = false) ∧
  (k.status.err = true ↔ k.status.errcode ≠ .none) ∧
  (k.status.tail = true → k.status.err = false)

/-- The status invariant: validity chain, cleared registers, one report. -/
def Codec.StatusInv (c : Codec) : Prop := c.core.validityChain ∧ c.core.clearedRegs ∧ c.core.oneReport

/-- 10_state.md R39: the bits of OBUF not yet written are 0; and R41: IPOS is within the input. -/
def Codec.StreamInv (c : Codec) : Prop :=
  (∀ j, c.core.obits.val ≤ j → j < 8 → c.core.obuf.getLsbD (bitPos c.params.packOrder j) = false) ∧
  c.io.ipos ≤ c.io.input.length

/-- 10_state.md R26, R34, R35: the node memory within NODE_CAP; when TREE_VALID, it holds one full tree, and the three size registers are
that tree's. -/
def Codec.TreeInv (c : Codec) : Prop :=
  c.core.node.length ≤ Config.nodeCap ∧
  (c.core.status.treeValid = true → ∃ t, c.core.holds t ∧ c.core.nleaves.toNat = t.leaves.length ∧
    c.core.ninternal.toNat = t.internals ∧ c.core.treeBits.toNat = 9 * t.leaves.length + t.internals)

/-- 10_state.md R25, R33, 41_tree_builder.md R94, R95, 42_code_table.md R100: the counts, the built tree and the codes belong together. -/
def Codec.DerivedInv (c : Codec) : Prop :=
  (c.core.status.freqValid = true →
    countSum c.core.freq = c.core.totalBytes.toNat ∧ c.core.nsym.toNat = presentCount c.core.freq) ∧
  (c.core.status.treeBuilt = true → ∃ t, c.core.holds t ∧ BuiltFrom c.core.freq t ∧
    (c.core.status.codesValid = true → c.core.codesOf t))

/-- What the codec keeps between commands. -/
def Codec.Inv (c : Codec) : Prop := c.StatusInv ∧ c.StreamInv ∧ c.TreeInv ∧ c.DerivedInv

/-- An invariant of the codec, carried to the state: while BUSY the snapshot at the command's start has it too. -/
def State.always (P : Codec → Prop) (s : State) : Prop :=
  P s.codec ∧ ∀ w start txn, s.eng = .busy w start txn → P start

/-- The invariant of the machine. -/
def State.Inv (s : State) : Prop := s.always Codec.Inv

/-- The next step without a reset accepts CLEAR, or goes on with it (30_encoding.md R69). -/
def State.runsClear (s : State) : Prop :=
  (∃ start txn, s.eng = .busy (encode .clear) start txn) ∨
  s.eng = .idle ∧ s.host.polling = false ∧
    (s.host.prog[s.host.pc]? = some (.word (encode .clear)) ∨
      s.host.prog[s.host.pc]? = some (.memWrite (s.codec.params.regBase + 4) 4 (encode .clear)))

/-- A reset is not asserted at the next step. -/
abbrev State.noReset (s : State) : Prop := s.resetAsserted = false

end Sys2Proof.Machine
end

