-- ==== Sys2Proof/Certificates/Slice0/Obligations.lean ====
section
/-! DEFINITION. The statements for the provers, from the numbered rules of spec/. -/

open Sys2Proof Sys2Proof.Machine

/-! ## Encoding and fetch -/

/-- 30_encoding.md R66, R67: the decoder gives back every command from its word; the thirteen words of the opcode map, written out, and some
words that R68 calls illegal. -/
def Obligations.CommandWordsDecode : Prop :=
  (∀ i : Instr, decode (encode i) = some i) ∧
  decode 0x00000000#32 = some .nop ∧ decode 0x00000001#32 = some .count ∧ decode 0x00000002#32 = some .build ∧
  decode 0x00000003#32 = some .gencodes ∧ decode 0x00000004#32 = some .wrtree ∧ decode 0x00000005#32 = some .rdtree ∧
  decode 0x00000006#32 = some .encode ∧ decode 0x00000007#32 = some .decode ∧ decode 0x00000008#32 = some .project ∧
  decode 0x00000009#32 = some .wrmagic ∧ decode 0x0000000A#32 = some .chkmagic ∧ decode 0x0000000B#32 = some .close ∧
  decode 0x0000000F#32 = some .clear ∧ decode 0x0000000C#32 = none ∧ decode 0x0000000D#32 = none ∧
  decode 0x0000000E#32 = none ∧ decode 0x00000010#32 = none ∧ decode 0x000000FF#32 = none ∧ decode 0x00000100#32 = none

/-- 30_encoding.md R68: every word is one of the thirteen commands or illegal, and an illegal word ends in ILLEGAL_CMD with nothing else
changed. -/
def Obligations.EveryWordIsOneCommandOrIllegal : Prop :=
  ∀ w : Word,
    (∀ i, decode w = some i ↔ w.toNat / 256 = 0 ∧ w.toNat % 256 = (opcodeOf i).toNat) ∧
    (decode w = none ↔
      w.toNat / 256 ≠ 0 ∨ w.toNat % 256 = 0x0C ∨ w.toNat % 256 = 0x0D ∨ w.toNat % 256 = 0x0E ∨ 0x10 ≤ w.toNat % 256) ∧
    (∀ s : State, decode w = none → s.prompt →
      writeCmd w s = .next { s with codec := { s.codec with core := s.codec.core.afterPrecise w .illegalCmd } })

/-- 30_encoding.md R69, R79: with ENG idle and no reset, a step whose host statement writes the word of `i` to CMD is `exec i`, the host
having left its statement (and polling, after a `.word`); `withFetchWord` places such a statement. -/
def Obligations.StepRunsTheFetchedCommand : Prop :=
  (∀ s w i, s.noReset → s.eng = .idle → s.host.polling = false → s.host.prog[s.host.pc]? = some (.word w) →
    decode w = some i →
    step s = exec i { s with
      resetInput := s.resetInput.tail
      host := { s.host with pc := s.host.pc + 1, polling := true } }) ∧
  (∀ s w i, s.noReset → s.eng = .idle → s.host.polling = false →
    s.host.prog[s.host.pc]? = some (.memWrite (s.codec.params.regBase + 4) 4 w) → decode w = some i →
    step s = exec i { s with resetInput := s.resetInput.tail, host := { s.host with pc := s.host.pc + 1 } }) ∧
  (∀ (s : State) i, step (s.withFetchWord 32 (encode i).toNat) = exec i { s with
    eng := .idle
    resetInput := (s.resetInput.dropWhile id).tail
    host := { s.host with prog := [.word (encode i)], pc := 1, polling := true } })

/-- While BUSY a step is the host's move and then the running command again from its start, with the `wait` the host has used taken out of
its draws. The device of running again is the model's (log entry 3). -/
def Obligations.StepGoesOnWithTheRunningCommand : Prop :=
  ∀ s u w start txn i, s.noReset → s.isBusy = true → hostMove { s with resetInput := s.resetInput.tail } = .next u →
    u.eng = .busy w start txn → decode w = some i →
    step s = exec i { u with
      eng := .idle
      codec := { start with io := { start.io with draws := { start.io.draws with listed := start.io.draws.listed.erase .wait } } } }

/-! ## Reset, registers and the host -/

/-- 70_reset_and_hazards.md R153: reset sets every core state to its value of R42, and leaves the streams alone when no transaction is in
flight. -/
def Obligations.ResetSetsTheCoreAndKeepsTheStreams : Prop :=
  ∀ s : State, s.resetAsserted = true → ∃ t, step s = .next t ∧ t.eng = .idle ∧ t.codec.core.cmd = 0#32 ∧
    statusWord t.isBusy t.codec.core = 0#32 ∧ t.codec.core.totalBytes = 0#32 ∧ t.codec.core.nsym = 0#9 ∧
    t.codec.core.nleaves = 0#9 ∧ t.codec.core.ninternal = 0#9 ∧ t.codec.core.treeBits = 0#12 ∧ t.codec.core.maxlen = 0#8 ∧
    t.codec.core.payloadBits = 0#64 ∧ t.codec.core.projectedBits = 0#64 ∧ t.codec.core.outBytes = 0#64 ∧
    t.codec.core.inPos = 0#64 ∧ t.codec.core.decSyms = 0#64 ∧ t.codec.core.node = [] ∧ t.codec.core.work = [] ∧
    t.codec.core.obuf = 0#8 ∧ t.codec.core.obits = 0 ∧ t.codec.core.ibuf = 0#8 ∧ t.codec.core.ibits = 0 ∧
    t.codec.params = s.codec.params ∧ ((∀ w start x, s.eng ≠ .busy w start (some x)) → t.codec.io = s.codec.io)

/-- 70_reset_and_hazards.md R154: reset while a transaction is in flight abandons the command; whether the collaborator still performs the
transaction is drawn, and nothing else happens to the streams. That it performs it exactly when the next draw is `ok`, that a read then
moves IPOS on at most to the end of the input, and that a write then appends its byte only on an open output, are the model's choices
(log entry 6); so is that this happens in the reset's own step. -/
def Obligations.ResetAbandonsTheRunningCommand : Prop :=
  ∀ s w start x, s.resetAsserted = true → s.eng = .busy w start (some x) →
    ∃ t, step s = .next t ∧ t.eng = .idle ∧ t.codec.core.obits = 0 ∧ t.codec.core.status = Status.reset ∧
      (s.codec.io.draws.pop.1 ≠ .ok → t.codec.io = { s.codec.io with draws := s.codec.io.draws.pop.2 }) ∧
      (s.codec.io.draws.pop.1 = .ok → t.codec.io = (match x with
        | .rewind => { s.codec.io with draws := s.codec.io.draws.pop.2, ipos := 0 }
        | .read => { s.codec.io with draws := s.codec.io.draws.pop.2, ipos := min (s.codec.io.ipos + 1) s.codec.io.input.length }
        | .write b => { s.codec.io with
            draws := s.codec.io.draws.pop.2
            output := if s.codec.io.outClosed then s.codec.io.output else s.codec.io.output ++ [b] }
        | .close => { s.codec.io with draws := s.codec.io.draws.pop.2, outClosed := true }))

/-- 10_state.md R22: where each field of STATUS stands, the reserved bits being 0; 60_exceptions.md R135: the number that ERRCODE holds for each
error. -/
def Obligations.StatusFieldsPlaced : Prop :=
  (∀ (busy : Bool) (k : CoreState), (statusWord busy k).toNat =
    busy.toNat + 2 * k.status.done.toNat + 4 * k.status.err.toNat + 8 * k.status.ovr.toNat + 16 * k.status.freqValid.toNat
      + 32 * k.status.treeValid.toNat + 64 * k.status.treeBuilt.toNat + 128 * k.status.codesValid.toNat
      + 256 * k.status.sizesValid.toNat + 512 * k.status.smaller.toNat + 1024 * k.status.tail.toNat
      + 2 ^ 12 * k.obits.val + 2 ^ 16 * k.ibits.val + 2 ^ 24 * (ErrCode.code k.status.errcode).toNat) ∧
  ErrCode.code .none = 0#8 ∧ ErrCode.code .emptyInput = 1#8 ∧ ErrCode.code .format = 2#8 ∧ ErrCode.code .ioIn = 3#8 ∧
  ErrCode.code .ioOut = 4#8 ∧ ErrCode.code .illegalCmd = 5#8 ∧ ErrCode.code .sequence = 6#8 ∧
  ErrCode.code .countOverflow = 7#8 ∧ ErrCode.code .treeOverflow = 8#8 ∧ ErrCode.code .truncatedTree = 9#8 ∧
  ErrCode.code .symbolNotCoded = 10#8 ∧ ErrCode.code .degenerateTree = 11#8

/-- 10_state.md R19, R22, R25: what a host read of each defined word but PARAM (see IdAndParamReadTheirConstants) gives while IDLE, STATUS being
the word that StatusFieldsPlaced lays out, with BUSY = 0; and that reading changes only the host. -/
def Obligations.RegisterMapReads : Prop :=
  ∀ s : State, s.eng = .idle →
    (∀ off v : Nat, (off, v) ∈ s.codec.core.registerMap →
      ∃ t, hostLoad (s.codec.params.regBase + off) 4 s = .next t ∧ t.host.lastRead.toNat = v ∧ t.codec = s.codec ∧ t.eng = s.eng) ∧
    (∃ t, hostLoad (s.codec.params.regBase + 0x008) 4 s = .next t ∧ t.host.lastRead = statusWord false s.codec.core ∧
      t.host.lastStatus = statusWord false s.codec.core ∧ t.codec = s.codec ∧ t.eng = s.eng)

/-- 10_state.md R20, R24: ID reads its constant, BUSY or not; PARAM reports the parameters as built and reads 0x01FF0020 with the values of
00_scope.md R8; both ignore writes. -/
def Obligations.IdAndParamReadTheirConstants : Prop :=
  ∀ (s : State) (v : Word),
    (∃ t, hostLoad s.codec.params.regBase 4 s = .next t ∧ t.host.lastRead = 0x48460001#32 ∧
      t.host.lastRead.toNat / 2 ^ 24 = 0x48 ∧ t.host.lastRead.toNat / 2 ^ 16 % 2 ^ 8 = 0x46 ∧
      t.host.lastRead.toNat % 2 ^ 16 = 1 ∧ t.codec = s.codec) ∧
    hostWrite s.codec.params.regBase 4 v s = .next { s with host := { s.host with pc := s.host.pc + 1 } } ∧
    (∃ t, hostLoad (s.codec.params.regBase + 0x00C) 4 s = .next t ∧
      t.host.lastRead.toNat = 32 + (if s.codec.params.packOrder = .lsbFirst then 64 else 0)
        + (if s.codec.params.symOrder = .lsbFirst then 128 else 0) + 256 * s.codec.params.padBit.toNat + 2 ^ 16 * 511 ∧
      (s.codec.params.packOrder = .msbFirst → s.codec.params.symOrder = .msbFirst → s.codec.params.padBit = false →
        t.host.lastRead = 0x01FF0020#32) ∧ t.codec = s.codec) ∧
    hostWrite (s.codec.params.regBase + 0x00C) 4 v s = .next { s with host := { s.host with pc := s.host.pc + 1 } }

/-- 10_state.md R30, R31: writes to every word but CMD are ignored with no side effect; the reserved words read 0; the reserved bits of
STATUS and PARAM read 0, BUSY or not. -/
def Obligations.ReadOnlyAndReservedWords : Prop :=
  ∀ (s : State) (off : Nat), off % 4 = 0 → off ≤ 0xFFC →
    (∀ v, off ≠ 4 → hostWrite (s.codec.params.regBase + off) 4 v s = .next { s with host := { s.host with pc := s.host.pc + 1 } }) ∧
    (0x058 ≤ off → ∃ t, hostLoad (s.codec.params.regBase + off) 4 s = .next t ∧ t.host.lastRead = 0#32) ∧
    (off = 0x008 → ∃ t, hostLoad (s.codec.params.regBase + off) 4 s = .next t ∧
      ∀ j ∈ [11, 15, 20, 21, 22, 23], t.host.lastRead.getLsbD j = false) ∧
    (off = 0x00C → ∃ t, hostLoad (s.codec.params.regBase + off) 4 s = .next t ∧
      ∀ j, 9 ≤ j ∧ j ≤ 15 ∨ 26 ≤ j → t.host.lastRead.getLsbD j = false)

/-- 20_memory.md R45: a host access that is not 32 bits wide, or whose offset is no multiple of 4, is refused. -/
def Obligations.UnsupportedAccessIsRefused : Prop :=
  ∀ (s : State) (off n : Nat) (v : Word), n ≠ 4 ∨ off % 4 ≠ 0 →
    hostLoad (s.codec.params.regBase + off) n s = .refused .unsupportedAccess ∧
    hostWrite (s.codec.params.regBase + off) n v s = .refused .unsupportedAccess

/-- 10_state.md R23, R31: while BUSY, BUSY and OVR read exactly, the reserved bits of STATUS read 0, and its other fields and the words 0x010 to
0x054 read the free value; that this is Config.freeWord at the counter of such reads is the model's choice (log entry 4). While IDLE, no
step of a host that does not write CMD changes the core. 60_exceptions.md R152, 93 S14: attaching an input, at a position within it,
replaces IN and IPOS, and attaching an output replaces OUT by an empty open one, with nothing else of the core or the streams changed;
while BUSY neither has a step. -/
def Obligations.BusyReadsAndIdleHostMoves : Prop :=
  (∀ s : State, s.isBusy = true →
    (∃ t, hostLoad (s.codec.params.regBase + 0x008) 4 s = .next t ∧ t.codec = s.codec ∧ t.host.lastRead.getLsbD 0 = true ∧
      t.host.lastRead.getLsbD 3 = s.codec.core.status.ovr ∧
      ∀ j, j < 32 → j ≠ 0 → j ≠ 3 → t.host.lastRead.getLsbD j =
        if j ∈ [11, 15, 20, 21, 22, 23] then false else (Config.freeWord s.reads).getLsbD j) ∧
    ∀ off, 0x010 ≤ off → off ≤ 0x054 → off % 4 = 0 →
      ∃ t, hostLoad (s.codec.params.regBase + off) 4 s = .next t ∧ t.codec = s.codec ∧ t.host.lastRead = Config.freeWord s.reads) ∧
  (∀ s t : State, s.eng = .idle → s.noReset → step s = .next t →
    (s.host.polling = true ∨
      ∀ w addr n, s.host.prog[s.host.pc]? ≠ some (.word w) ∧
        (s.host.prog[s.host.pc]? = some (.memWrite addr n w) → addr ≠ s.codec.params.regBase + 4)) →
    t.codec.core = s.codec.core ∧ t.eng = .idle) ∧
  (∀ (s : State) bytes pos, s.noReset → s.host.polling = false → s.host.prog[s.host.pc]? = some (.attachIn bytes pos) →
    pos ≤ bytes.length →
    (s.eng = .idle → step s = .next { s with
      resetInput := s.resetInput.tail
      host := { s.host with pc := s.host.pc + 1 }
      codec := { s.codec with io := { s.codec.io with input := bytes, ipos := pos } } }) ∧
    (s.isBusy = true → step s = .refused .attachWhileBusy)) ∧
  (∀ s : State, s.noReset → s.host.polling = false → s.host.prog[s.host.pc]? = some .attachOut →
    (s.eng = .idle → step s = .next { s with
      resetInput := s.resetInput.tail
      host := { s.host with pc := s.host.pc + 1 }
      codec := { s.codec with io := { s.codec.io with output := [], outClosed := false } } }) ∧
    (s.isBusy = true → step s = .refused .attachWhileBusy))

/-- 30_encoding.md R70: a CMD write while BUSY is dropped and sets OVR, with nothing else of the core or the running command changed, and OVR
stays at every step that neither takes a reset nor ends a CLEAR. That the running command is `start`, the codec at its acceptance, which
takes OVR too, is the model's choice (log entry 3). -/
def Obligations.BusyCommandWriteIsDropped : Prop :=
  (∀ s w start txn v, s.eng = .busy w start txn → ∃ t, hostWrite (s.codec.params.regBase + 4) 4 v s = .next t ∧
    t = { s with
      codec := { s.codec with core := { s.codec.core with status := { s.codec.core.status with ovr := true } } }
      eng := .busy w { start with core := { start.core with status := { start.core.status with ovr := true } } } txn
      host := { s.host with pc := s.host.pc + 1 } }) ∧
  (∀ s t, step s = .next t → s.noReset → ¬ (s.runsClear ∧ t.eng = .idle) → s.codec.core.status.ovr = true →
    (∀ w start txn, s.eng = .busy w start txn → start.core.status.ovr = true) →
    t.codec.core.status.ovr = true ∧ ∀ w start txn, t.eng = .busy w start txn → start.core.status.ovr = true)

/-! ## Errors, completion and frames -/

/-- 60_exceptions.md R137, with the tests of 30_encoding.md R68, R71: a failed precondition or an illegal word changes CMD, DONE, ERR, ERRCODE and
TAIL, and nothing else of the machine; where its precondition holds, no command ends in SEQUENCE or ILLEGAL_CMD. -/
def Obligations.PreciseErrorsChangeOnlyTheReport : Prop :=
  (∀ i (s : State), s.prompt → ¬ preconditionOf i s.codec.core →
    exec i s = .next { s with codec := { s.codec with core := s.codec.core.afterPrecise (encode i) .sequence } }) ∧
  (∀ w (s : State), s.prompt → decode w = none →
    writeCmd w s = .next { s with codec := { s.codec with core := s.codec.core.afterPrecise w .illegalCmd } }) ∧
  (∀ i (s t : State), s.eng = .idle → preconditionOf i s.codec.core → exec i s = .next t →
    t.codec.core.status.errcode ≠ .sequence ∧ t.codec.core.status.errcode ≠ .illegalCmd)

/-- 60_exceptions.md R138, R141: every `raise` takes the error exit, which reports the code and flushes the packer (except on IO_OUT, where the
pending bits are dropped): pending bits on an open output are padded and written if the write succeeds, and dropped if it fails. Whatever
happens in the flush, the close is issued: the output ends closed if it was or if the close succeeds, and open otherwise. Nothing else
changes. -/
def Obligations.RuntimeErrorTakesTheErrorExit : Prop :=
  (∀ (body : EngineM Unit) c e c1, body c = .error (.raise e) c1 → withErrorExit body c = errorExit e c1) ∧
  (∀ e c, c.StreamInv → c.io.draws.answered → ∃ c', errorExit e c = .ok () c' ∧
    c'.core = { c.core with
      status := { c.core.status with err := true, errcode := e }
      obuf := 0#8
      obits := 0
      outBytes := c'.core.outBytes } ∧
    c'.params = c.params ∧ c'.io.input = c.io.input ∧ c'.io.ipos = c.io.ipos ∧ c.io.output <+: c'.io.output ∧
    (e = .ioOut ∨ c.core.obits = 0 ∨ c.io.outClosed = true ∨ c.io.draws.pop.1 = .fail →
      c'.io.output = c.io.output ∧ c'.core.outBytes = c.core.outBytes) ∧
    (e ≠ .ioOut → c.core.obits ≠ 0 → c.io.outClosed = false → c.io.draws.pop.1 = .ok →
      c'.io.output.flatMap (byteBits c.params.packOrder) =
        c.outBits ++ List.replicate (8 - c.core.obits.val) c.params.padBit ∧
      c'.core.outBytes = c.core.outBytes + 1#64) ∧
    (c'.io.outClosed = true ↔ c.io.outClosed = true ∨
      (if e = .ioOut ∨ c.core.obits = 0 then c.io.draws else c.io.draws.pop.2).pop.1 = .ok))

/-- 30_encoding.md R73, 60_exceptions.md R140: from a state with the invariant, every command ends once its transactions are answered, and it
ends with DONE and no error, or with exactly one error. -/
def Obligations.EveryAnsweredCommandEnds : Prop :=
  ∀ i (s : State), s.Inv → s.ready → ∃ t, exec i s = .next t ∧ t.eng = .idle ∧
    (t.codec.core.status.done = true ∧ t.codec.core.status.err = false ∧ t.codec.core.status.errcode = .none ∨
      t.codec.core.status.done = false ∧ t.codec.core.status.err = true ∧ t.codec.core.status.errcode ≠ .none)

/-- 30_encoding.md R73: a transaction that is never answered leaves the core BUSY for ever. The first clause runs it from the host's statement
where no transaction is answered at all. The second: where any command, its first transactions answered, meets one that never is, every
later step without a reset leaves it BUSY on that transaction with the streams as they are, and a polling host always has such a step. -/
def Obligations.UnansweredTransactionLeavesTheCoreBusy : Prop :=
  (∀ i (s : State), i ∈ [Instr.count, .encode, .wrmagic, .chkmagic, .close] → s.eng = .idle → s.codec.io.draws.silent →
    s.resetInput = [] → preconditionOf i s.codec.core → s.host.prog = [.word (encode i)] → s.host.pc = 0 →
    s.host.polling = false → ∀ n, ∃ t, Sys2Proof.core.run (n + 1) s = .next t ∧ State.isBusy t = true) ∧
  (∀ i (s t : State) start x, s.eng = .idle → s.codec.io.draws.silentAfterListed → (∀ level ∈ s.resetInput, level = false) →
    exec i s = .next t → t.eng = .busy (encode i) start (some x) → ∀ n,
    (∀ u : State, Sys2Proof.core.run n t = .next u →
      (∃ start', u.eng = .busy (encode i) start' (some x)) ∧ u.codec.io = t.codec.io) ∧
    (s.host.polling = true → ∃ u, Sys2Proof.core.run n t = .next u))

/-- 60_exceptions.md R152, 20_memory.md R43: no command changes the input, the parameters or the host, and none takes back a byte already
written to OUT. -/
def Obligations.CommandsKeepInputHostAndWrittenBytes : Prop :=
  ∀ i s t, exec i s = .next t → t.host = s.host ∧ t.resetInput = s.resetInput ∧ t.reads = s.reads ∧
    t.codec.params = s.codec.params ∧ t.codec.io.input = s.codec.io.input ∧ s.codec.io.output <+: t.codec.io.output ∧
    (s.codec.io.outClosed = true → t.codec.io.outClosed = true ∧ t.codec.io.output = s.codec.io.output)

/-- 40_frequency_counter.md R84: no command other than COUNT and CLEAR writes FREQ. -/
def Obligations.OnlyCountWritesFreq : Prop :=
  ∀ i s t, i ≠ .count → i ≠ .clear → exec i s = .next t → t.codec.core.freq = s.codec.core.freq

/-- The frame of the commands: every register, memory and stream is unchanged by a command that the spec does not say writes it
(10_state.md R19, R32 to R40; the pseudocode of files 40 to 45), whether the command completes, fails or still runs. Two clauses are the
model's choice, where the spec gives no value: that ROOT stays where there is no tree, as when COUNT clears it (log entry 15), and that
all commands but BUILD and CLEAR leave WORK (log entry 16). -/
def Obligations.CommandFrame : Prop :=
  ∀ i s t, exec i s = .next t →
    (i ∉ [Instr.count, .rdtree, .clear] →
      t.codec.core.totalBytes = s.codec.core.totalBytes ∧ t.codec.core.nsym = s.codec.core.nsym) ∧
    (i ∉ [Instr.count, .build, .rdtree, .clear] → t.codec.core.nleaves = s.codec.core.nleaves ∧
      t.codec.core.ninternal = s.codec.core.ninternal ∧ t.codec.core.treeBits = s.codec.core.treeBits ∧
      t.codec.core.node = s.codec.core.node) ∧
    (i ∉ [Instr.build, .rdtree, .clear] → t.codec.core.root = s.codec.core.root) ∧
    (i ∉ [Instr.build, .clear] → t.codec.core.work = s.codec.core.work) ∧
    (i ∉ [Instr.gencodes, .clear] → t.codec.core.codeLen = s.codec.core.codeLen ∧ t.codec.core.codeVal = s.codec.core.codeVal) ∧
    (i ∉ [Instr.count, .build, .gencodes, .rdtree, .clear] → t.codec.core.maxlen = s.codec.core.maxlen) ∧
    (i ∉ [Instr.count, .build, .gencodes, .rdtree, .project, .clear] →
      t.codec.core.payloadBits = s.codec.core.payloadBits ∧ t.codec.core.projectedBits = s.codec.core.projectedBits) ∧
    (i ∉ [Instr.decode, .clear] → t.codec.core.decSyms = s.codec.core.decSyms) ∧
    (i ∉ [Instr.count, .rdtree, .encode, .decode, .chkmagic, .clear] → t.codec.core.inPos = s.codec.core.inPos ∧
      t.codec.core.ibuf = s.codec.core.ibuf ∧ t.codec.core.ibits = s.codec.core.ibits ∧ t.codec.io.ipos = s.codec.io.ipos) ∧
    (i ∈ [Instr.nop, .gencodes, .project] → t.codec.core.obuf = s.codec.core.obuf ∧ t.codec.core.obits = s.codec.core.obits ∧
      t.codec.core.outBytes = s.codec.core.outBytes ∧ t.codec.io.output = s.codec.io.output ∧
      t.codec.io.outClosed = s.codec.io.outClosed) ∧
    (i = .clear → t.codec.io.ipos = s.codec.io.ipos ∧ t.codec.io.output = s.codec.io.output ∧
      t.codec.io.outClosed = s.codec.io.outClosed) ∧
    (i ∈ [Instr.count, .build, .rdtree, .chkmagic] → s.eng = .idle → t.eng = .idle → t.codec.core.status.err = false →
      t.codec.core.obuf = s.codec.core.obuf ∧ t.codec.core.obits = s.codec.core.obits ∧
      t.codec.core.outBytes = s.codec.core.outBytes ∧ t.codec.io.output = s.codec.io.output ∧
      t.codec.io.outClosed = s.codec.io.outClosed)

/-- The frame of the commands on STATUS (10_state.md R22, R32): a validity bit changes only by the commands of R32's table, OVR only by CLEAR,
and CMD takes the command's word, except in CLEAR. -/
def Obligations.StatusFrame : Prop :=
  ∀ i s t, s.eng = .idle → exec i s = .next t →
    (i ≠ .clear → t.codec.core.status.ovr = s.codec.core.status.ovr ∧ t.codec.core.cmd = encode i) ∧
    (i ∉ [Instr.count, .rdtree, .clear] → t.codec.core.status.freqValid = s.codec.core.status.freqValid) ∧
    (i ∉ [Instr.count, .build, .rdtree, .clear] → t.codec.core.status.treeValid = s.codec.core.status.treeValid ∧
      t.codec.core.status.treeBuilt = s.codec.core.status.treeBuilt) ∧
    (i ∉ [Instr.count, .build, .gencodes, .rdtree, .clear] →
      t.codec.core.status.codesValid = s.codec.core.status.codesValid) ∧
    (i ∉ [Instr.count, .build, .gencodes, .project, .rdtree, .clear] →
      t.codec.core.status.sizesValid = s.codec.core.status.sizesValid ∧ t.codec.core.status.smaller = s.codec.core.status.smaller) ∧
    (i ≠ .decode → t.codec.core.status.tail = false)

/-! ## Invariants -/

/-- The invariant holds at reset. -/
def Obligations.ResetHasTheInvariant : Prop := State.reset.Inv

/-- 30_encoding.md R71, 10_state.md R28, R32, 60_exceptions.md R140: every step keeps the validity chain, the zeros of cleared registers and the
one report. -/
def Obligations.StepKeepsTheStatusInvariant : Prop :=
  ∀ s t : State, s.always Codec.StatusInv → step s = .next t → t.always Codec.StatusInv

/-- 10_state.md R39, R41: every step keeps the unwritten bits of OBUF at 0 and IPOS within the input. -/
def Obligations.StepKeepsTheStreamInvariant : Prop :=
  ∀ s t : State, s.always Codec.StreamInv → step s = .next t → t.always Codec.StreamInv

/-- 10_state.md R26, R34, R35: every step keeps the node memory within NODE_CAP, and, when TREE_VALID, one full unshared tree with its sizes. -/
def Obligations.StepKeepsTheTreeInvariant : Prop :=
  ∀ s t : State, s.always Codec.TreeInv → step s = .next t → t.always Codec.TreeInv

/-- Every step keeps the whole invariant, which ties counts, tree and codes together (10_state.md R32, R33; 41_tree_builder.md R94, R95;
42_code_table.md R100). -/
def Obligations.StepKeepsTheInvariant : Prop :=
  ∀ s t : State, s.Inv → step s = .next t → t.Inv

/-- 10_state.md R42, 20_memory.md R49, 00_scope.md R16: from a state with the invariant no step reads an entry without a value, reads past the
end of the input, or overflows the walk stack. -/
def Obligations.StepNeverFaults : Prop :=
  ∀ (s : State) (f : Fault), s.Inv → step s ≠ .fault f

/-! ## Control commands -/

/-- 45_framing_and_control.md R133: NOP completes; it clears ERR, ERRCODE and TAIL, sets DONE, and changes nothing else. -/
def Obligations.NopCompletes : Prop :=
  ∀ s : State, s.prompt →
    exec .nop s = .next { s with codec := { s.codec with core := s.codec.core.afterDone 0x00000000#32 } }

/-- 45_framing_and_control.md R134: CLEAR leaves the core as after reset with STATUS = 0x00000002, and the streams alone. The internal memories,
which R134 says hold no value, are at the model's reset values (log entry 7). -/
def Obligations.ClearResetsTheCore : Prop :=
  ∀ s : State, s.prompt → ∃ t, exec .clear s = .next t ∧
    t = { s with codec := { s.codec with core := { CoreState.reset with status := { Status.reset with done := true } } } } ∧
    statusWord t.isBusy t.codec.core = 0x00000002#32 ∧ t.codec.core.cmd = 0#32

/-! ## COUNT and BUILD -/

/-- 40_frequency_counter.md R83, and the counts of R81: COUNT of at most 2^32 - 1 bytes completes with FREQ, TOTAL_BYTES and NSYM those of the
whole input, wherever it stood, and leaves the input at its end. -/
def Obligations.CountCountsTheInput : Prop :=
  ∀ s : State, s.working → s.codec.io.input.length < 2 ^ 32 → ∃ t, exec .count s = .next t ∧ t.eng = .idle ∧
    (∀ b, (t.codec.core.freq.lookup b).toNat = s.codec.io.input.count b) ∧
    t.codec.core.totalBytes.toNat = s.codec.io.input.length ∧
    t.codec.core.nsym.toNat = allSymbols.countP (fun b => s.codec.io.input.contains b) ∧
    t.codec.io.ipos = s.codec.io.input.length ∧ t.codec.core.inPos.toNat = s.codec.io.input.length ∧
    t.codec.core.ibits = 0 ∧ t.codec.core.status.freqValid = true ∧ t.codec.core.status.done = true ∧
    t.codec.core.status.err = false ∧ t.codec.core.status.errcode = .none ∧ t.codec.core.status.treeValid = false ∧
    t.codec.core.status.treeBuilt = false ∧ t.codec.core.status.codesValid = false ∧ t.codec.core.status.sizesValid = false ∧
    t.codec.core.maxlen = 0#8 ∧ t.codec.core.treeBits = 0#12 ∧ t.codec.core.payloadBits = 0#64

/-- 40_frequency_counter.md R81: more than 2^32 - 1 bytes end COUNT with COUNT_OVERFLOW, before the byte too many is read. -/
def Obligations.CountOverflows : Prop :=
  ∀ s : State, s.working → 2 ^ 32 ≤ s.codec.io.input.length → ∃ t, exec .count s = .next t ∧ t.eng = .idle ∧
    t.codec.core.status.err = true ∧ t.codec.core.status.errcode = .countOverflow ∧ t.codec.core.status.freqValid = false ∧
    t.codec.core.totalBytes.toNat = 2 ^ 32 - 1 ∧ t.codec.core.nsym = 0#9 ∧ t.codec.io.ipos = 2 ^ 32 - 1 ∧
    t.codec.io.outClosed = true

/-- 20_memory.md R49, R50, with the loops of 40_frequency_counter.md R81, 43_tree_codec.md R107, 44_stream_codec.md R114, R118 and
45_framing_and_control.md R130: a rewind that fails, or the failing read of a byte after `k` bytes read, ends the command with IO_IN, IPOS and
IN_POS as they were before that transaction; what the command made of the `k` bytes stays. ENCODE has then written the full bytes of
their codes, and DECODE the symbols of their bits. -/
def Obligations.FailedInputTransactionIsAnInputError : Prop :=
  (∀ i (s : State), i ∈ [Instr.count, .encode, .chkmagic] → s.failsAfter 0 → preconditionOf i s.codec.core →
    ∃ t, exec i s = .next t ∧ t.endedIn .ioIn ∧ t.codec.io.ipos = s.codec.io.ipos ∧
      t.codec.core.inPos = s.codec.core.inPos ∧ t.codec.core.ibits = s.codec.core.ibits) ∧
  (∀ (s : State) k, s.failsAfter (k + 1) → k < s.codec.io.input.length → k < 2 ^ 32 - 1 →
    ∃ t, exec .count s = .next t ∧ t.endedIn .ioIn ∧ t.codec.io.ipos = k ∧ t.codec.core.inPos = BitVec.ofNat 64 k ∧
      t.codec.core.totalBytes.toNat = k ∧
      (∀ b, (t.codec.core.freq.lookup b).toNat = (s.codec.io.input.take k).count b) ∧
      t.codec.core.status.freqValid = false ∧ t.codec.core.nsym = 0#9) ∧
  (∀ (s : State) k, s.failsAfter (k + 1) → k < s.codec.io.input.length → k < 2 →
    s.codec.io.input.take k = ([0x48#8, 0x46#8] : List Byte).take k →
    ∃ t, exec .chkmagic s = .next t ∧ t.endedIn .ioIn ∧ t.codec.io.ipos = k ∧ t.codec.core.inPos = BitVec.ofNat 64 k) ∧
  (∀ (s : State) k pre, pre = s.codec.io.input.take k → s.codec.core.status.codesValid = true → s.codec.io.outClosed = false →
    k < s.codec.io.input.length → (∀ b ∈ pre, s.codec.core.codeLen.lookup b ≠ 0#8) →
    s.failsAfter (k + 1 + (s.codec.core.obits.val + (s.codec.core.encoded pre).length) / 8) →
    ∃ t, exec .encode s = .next t ∧ t.endedIn .ioIn ∧ t.codec.io.ipos = k ∧ t.codec.core.inPos = BitVec.ofNat 64 k ∧
      (s.codec.outBits ++ s.codec.core.encoded pre).take
        (8 * (s.codec.io.output.length + (s.codec.core.obits.val + (s.codec.core.encoded pre).length) / 8)) <+:
        t.codec.io.output.flatMap (byteBits s.codec.params.packOrder)) ∧
  (∀ (s : State) (tr : CodeTree) k read, s.failsAfter k → s.codec.io.ipos + k < s.codec.io.input.length →
    read = s.codec.inBits.take (s.codec.core.ibits.val + 8 * k) → read <+: tr.bits s.codec.params.symOrder →
    read ≠ tr.bits s.codec.params.symOrder → tr.nodesBegun read.length ≤ 511 →
    ∃ t, exec .rdtree s = .next t ∧ t.endedIn .ioIn ∧ t.codec.io.ipos = s.codec.io.ipos + k ∧
      t.codec.core.inPos = s.codec.core.inPos + BitVec.ofNat 64 k ∧ t.codec.core.ibits = 0 ∧
      t.codec.core.status.treeValid = false ∧ t.codec.core.node.length = tr.nodesBegun read.length) ∧
  (∀ (s : State) (tr : CodeTree) k read, read = s.codec.inBits.take (s.codec.core.ibits.val + 8 * k) →
    s.failsAfter (k + (tr.decode read).1.length) → s.codec.io.ipos + k < s.codec.io.input.length →
    s.codec.io.outClosed = false → s.codec.core.status.treeValid = true → s.codec.core.obits = 0 →
    treeOf s.codec.core.node walkDepth s.codec.core.root = some tr → tr.isNode = true →
    ∃ t, exec .decode s = .next t ∧ t.endedIn .ioIn ∧ t.codec.io.ipos = s.codec.io.ipos + k ∧
      t.codec.core.inPos = s.codec.core.inPos + BitVec.ofNat 64 k ∧ t.codec.core.ibits = 0 ∧
      t.codec.io.output = s.codec.io.output ++ (tr.decode read).1 ∧
      t.codec.core.decSyms = BitVec.ofNat 64 (tr.decode read).1.length ∧ t.codec.core.status.tail = false)

/-- 41_tree_builder.md R94: BUILD completes whenever a symbol is present, with one full unshared tree whose root is internal, each present
symbol in exactly one leaf, no other leaf but the placeholder, and 2 * NSYM - 1 nodes (3 with one symbol). -/
def Obligations.BuildMakesOneFullTree : Prop :=
  ∀ s : State, s.prompt → s.codec.core.status.freqValid = true → presentCount s.codec.core.freq ≠ 0 →
    ∃ t tr, exec .build s = .next t ∧ t.eng = .idle ∧ t.codec.core.holds tr ∧ tr.isNode = true ∧
      leavesMatch s.codec.core.freq tr ∧
      t.codec.core.node.length = (if presentCount s.codec.core.freq = 1 then 3 else 2 * presentCount s.codec.core.freq - 1) ∧
      t.codec.core.nleaves.toNat = tr.leaves.length ∧ t.codec.core.ninternal.toNat = tr.internals ∧
      t.codec.core.treeBits.toNat = 9 * tr.leaves.length + tr.internals ∧ t.codec.core.status.treeValid = true ∧
      t.codec.core.status.treeBuilt = true ∧ t.codec.core.status.codesValid = false ∧ t.codec.core.status.sizesValid = false ∧
      t.codec.core.status.done = true ∧ t.codec.core.status.err = false ∧ t.codec.io = s.codec.io

/-- 41_tree_builder.md R95: in the tree BUILD completes every internal weight is the sum of its children's, every real leaf's weight is its
symbol's FREQ, and the root's weight is TOTAL_BYTES, the counts adding up to TOTAL_BYTES as the invariant says. -/
def Obligations.BuildWeightsAddUp : Prop :=
  ∀ s : State, s.prompt → s.codec.core.status.freqValid = true → presentCount s.codec.core.freq ≠ 0 →
    countSum s.codec.core.freq = s.codec.core.totalBytes.toNat →
    ∃ t tr, exec .build s = .next t ∧ t.codec.core.holds tr ∧ tr.weightsAdd ∧ tr.weight = s.codec.core.totalBytes ∧
      ∀ b w, (b, w, false) ∈ tr.leaves → w = s.codec.core.freq.lookup b

/-- 41_tree_builder.md R93: with no symbol present BUILD raises EMPTY_INPUT with nothing allocated, the output is closed, and no later
WRTREE, GENCODES, ENCODE or PROJECT can run. -/
def Obligations.BuildOfNothingFails : Prop :=
  ∀ s : State, s.working → s.codec.core.status.freqValid = true → presentCount s.codec.core.freq = 0 →
    ∃ t, exec .build s = .next t ∧ t.eng = .idle ∧ t.codec.core.status.err = true ∧ t.codec.core.status.errcode = .emptyInput ∧
      t.codec.core.node = [] ∧ t.codec.core.status.treeValid = false ∧ t.codec.core.status.treeBuilt = false ∧
      t.codec.io.outClosed = true ∧
      ∀ i ∈ [Instr.wrtree, .gencodes, .encode, .project], exec i t =
        .next { t with codec := { t.codec with core := t.codec.core.afterPrecise (encode i) .sequence } }

/-- 41_tree_builder.md R88: the two scans select the two lightest trees, on equal weights the one in the lowest slot; when the second stands below
the first. -/
def Obligations.MinScanSelectsTheTwoLightest : Prop :=
  ∀ f : Forest, 2 ≤ f.slots.length →
    f.firstMin < f.slots.length ∧ (∀ k, k < f.slots.length → f.weight f.firstMin ≤ f.weight k) ∧
    (∀ k, k < f.firstMin → f.weight f.firstMin < f.weight k) ∧
    f.secondMin f.firstMin < f.slots.length ∧ f.secondMin f.firstMin ≠ f.firstMin ∧
    (∀ k, k < f.slots.length → k ≠ f.firstMin → f.weight (f.secondMin f.firstMin) ≤ f.weight k) ∧
    (∀ k, k < f.secondMin f.firstMin → k ≠ f.firstMin → f.weight (f.secondMin f.firstMin) < f.weight k) ∧
    f.weight f.firstMin ≤ f.weight (f.secondMin f.firstMin) ∧
    (f.secondMin f.firstMin < f.firstMin ↔
      f.weight f.firstMin < f.weight (f.secondMin f.firstMin) ∧
      ∃ k, k < f.firstMin ∧ ∀ j, j < f.slots.length → j ≠ f.firstMin → f.weight k ≤ f.weight j)

/-- 41_tree_builder.md R87, R89, R90, R91, with the loop of R86: a merge makes the new internal node over the two trees that
MinScanSelectsTheTwoLightest selects and puts it in the lower slot, and the higher slot takes the last tree. BUILD starts with one leaf
for each present symbol, in ascending symbol order, merges while more than two slots remain, and then joins the trees of slots 0 and 1,
left and right (or, with one slot, that tree and the placeholder); the root is the node allocated last. -/
def Obligations.BuildMergesByTheLinearScan : Prop :=
  (∀ f : Forest, 2 ≤ f.slots.length → ∀ m1 m2, m1 = f.firstMin → m2 = f.secondMin m1 →
    f.merge.nodes = f.nodes ++ [.internal (f.weight m1 + f.weight m2) (f.slot m1) (f.slot m2)] ∧
    f.merge.slots.length = f.slots.length - 1 ∧
    f.merge.slots[min m1 m2]? = some (Fin.ofNat 512 f.nodes.length) ∧
    (max m1 m2 ≠ f.slots.length - 1 → f.merge.slots[max m1 m2]? = f.slots[f.slots.length - 1]?) ∧
    ∀ k, k < f.slots.length - 1 → k ≠ m1 → k ≠ m2 → f.merge.slots[k]? = f.slots[k]?) ∧
  (∀ (s : State) present start, s.prompt → s.codec.core.status.freqValid = true →
    present = (allSymbols.filter fun b => s.codec.core.freq.lookup b != 0#32) → present ≠ [] →
    start = Forest.mk (present.map fun b => .leaf b (s.codec.core.freq.lookup b) false)
      ((List.range present.length).map (Fin.ofNat 512)) →
    ∃ (t : State) (merges : Nat) (last : Forest), exec .build s = .next t ∧ t.eng = .idle ∧
      (∀ m, m < merges → 2 < (Nat.repeat Forest.merge m start).slots.length) ∧
      last = Nat.repeat Forest.merge merges start ∧ last.slots.length ≤ 2 ∧
      t.codec.core.node = last.nodes ++
        (if last.slots.length = 2 then [.internal (last.weight 0 + last.weight 1) (last.slot 0) (last.slot 1)]
         else [.leaf 0#8 0#32 true, .internal (last.weight 0) (last.slot 0) (Fin.ofNat 512 last.nodes.length)]) ∧
      t.codec.core.root.val + 1 = t.codec.core.node.length)

/-- 41_tree_builder.md R96: a built tree has depth 1 to 255, at most NSYM - 1 with two or more symbols, and 1 with one. -/
def Obligations.BuiltTreeDepthIsBounded : Prop :=
  ∀ freq t, BuiltFrom freq t →
    1 ≤ t.depth ∧ t.depth ≤ 255 ∧ (2 ≤ presentCount freq → t.depth ≤ presentCount freq - 1) ∧ (presentCount freq = 1 → t.depth = 1)

/-! ## GENCODES and PROJECT -/

/-- 42_code_table.md R98: GENCODES completes on a held tree with internal root, paths of at most 255 edges and each symbol in one real leaf; each real leaf's path
becomes its symbol's code, no other symbol has a code, MAXLEN is the longest, and nothing else changes but the cleared sizes. -/
def Obligations.GencodesBindsThePaths : Prop :=
  ∀ (s : State) tr, s.prompt → s.codec.core.status.treeValid = true → s.codec.core.status.treeBuilt = true →
    treeOf s.codec.core.node walkDepth s.codec.core.root = some tr → tr.isNode = true → tr.depth ≤ 255 →
    ((tr.leaves.filter fun l => !l.2.2).map fun l => l.1).Nodup →
    ∃ t, exec .gencodes s = .next t ∧ t.codec.core.codesOf tr ∧
      (∀ b, (t.codec.core.code b).length ≤ t.codec.core.maxlen.toNat) ∧
      (∃ b, (t.codec.core.code b).length = t.codec.core.maxlen.toNat) ∧
      t = { s with codec := { s.codec with core := { (s.codec.core.afterDone 0x00000003#32) with
        status := { (s.codec.core.afterDone 0x00000003#32).status with codesValid := true, sizesValid := false, smaller := false }
        codeLen := t.codec.core.codeLen
        codeVal := t.codec.core.codeVal
        maxlen := t.codec.core.maxlen
        payloadBits := 0#64
        projectedBits := 0#64 } } }

/-- 42_code_table.md R99, R92: with one present symbol its code is '0', and the placeholder has none, also when that symbol is 0. -/
def Obligations.SingleSymbolGetsTheCodeZero : Prop :=
  ∀ (s : State) b, s.prompt → s.codec.core.status.freqValid = true → s.codec.core.freq.lookup b ≠ 0#32 →
    (∀ b', b' ≠ b → s.codec.core.freq.lookup b' = 0#32) →
    ∃ t u, exec .build s = .next t ∧ exec .gencodes t = .next u ∧ u.codec.core.code b = [false] ∧
      ∀ b', b' ≠ b → u.codec.core.codeLen.lookup b' = 0#8

/-- 42_code_table.md R100: after GENCODES exactly the present symbols have a code, of 1 to 255 bits, and no code is a prefix of another. -/
def Obligations.CodesArePrefixFree : Prop :=
  ∀ s : State, s.Inv → s.prompt → s.codec.core.status.treeBuilt = true → ∃ t, exec .gencodes s = .next t ∧
    (∀ b, t.codec.core.codeLen.lookup b ≠ 0#8 ↔ s.codec.core.freq.lookup b ≠ 0#32) ∧
    (∀ b, s.codec.core.freq.lookup b ≠ 0#32 → 1 ≤ (t.codec.core.code b).length ∧ (t.codec.core.code b).length ≤ 255) ∧
    (∀ b b', b ≠ b' → t.codec.core.codeLen.lookup b ≠ 0#8 → t.codec.core.codeLen.lookup b' ≠ 0#8 →
      ¬ t.codec.core.code b <+: t.codec.core.code b')

/-- 42_code_table.md R101: the Kraft sum of a built tree's codes, times 2^255: 1 with two or more symbols, 1/2 with one. -/
def Obligations.KraftSumOfBuiltCodes : Prop :=
  ∀ s : State, s.Inv → s.codec.core.status.codesValid = true →
    ((allSymbols.filter fun b => s.codec.core.freq.lookup b != 0#32).map
      fun b => 2 ^ (255 - (s.codec.core.codeLen.lookup b).toNat)).sum =
    if presentCount s.codec.core.freq = 1 then 2 ^ 254 else 2 ^ 255

/-- 45_framing_and_control.md R127, and the sizes of R124: PROJECT completes with the exact sums, SMALLER is the strict comparison, and nothing else
changes. -/
def Obligations.ProjectComputesTheSizes : Prop :=
  ∀ s : State, s.prompt → preconditionOf .project s.codec.core → ∃ t, exec .project s = .next t ∧
    t.codec.core.payloadBits.toNat =
      (allSymbols.map fun b => (s.codec.core.freq.lookup b).toNat * (s.codec.core.codeLen.lookup b).toNat).sum ∧
    t.codec.core.projectedBits.toNat = 16 + 8 * ((s.codec.core.treeBits.toNat + t.codec.core.payloadBits.toNat + 7) / 8) ∧
    (t.codec.core.status.smaller = true ↔ t.codec.core.projectedBits.toNat < 8 * s.codec.core.totalBytes.toNat) ∧
    t = { s with codec := { s.codec with core := { (s.codec.core.afterDone 0x00000008#32) with
      status := { (s.codec.core.afterDone 0x00000008#32).status with
        sizesValid := true
        smaller := t.codec.core.status.smaller }
      payloadBits := t.codec.core.payloadBits
      projectedBits := t.codec.core.projectedBits } } }

/-! ## WRTREE and RDTREE -/

/-- 43_tree_codec.md R103: WRTREE completes on an open output with working I/O; it appends the tree's pre-order bits to the output bit stream,
without padding, and changes nothing else. -/
def Obligations.WrtreeAppendsTheTreeBits : Prop :=
  ∀ (s : State) tr, s.working → s.codec.io.outClosed = false → s.codec.core.status.treeValid = true →
    treeOf s.codec.core.node walkDepth s.codec.core.root = some tr →
    ∃ t, exec .wrtree s = .next t ∧ t.eng = .idle ∧
      t.codec.outBits = s.codec.outBits ++ tr.bits s.codec.params.symOrder ∧
      t.codec.core = { (s.codec.core.afterDone 0x00000004#32) with
        obuf := t.codec.core.obuf
        obits := t.codec.core.obits
        outBytes := t.codec.core.outBytes } ∧
      t.codec.core.outBytes = s.codec.core.outBytes + BitVec.ofNat 64 (t.codec.io.output.length - s.codec.io.output.length) ∧
      t.codec.io.input = s.codec.io.input ∧ t.codec.io.ipos = s.codec.io.ipos ∧ t.codec.io.outClosed = false

/-- 43_tree_codec.md R104, R106: WRTREE writes TREE_BITS = 9 * NLEAVES + NINTERNAL bits, which is 10 * NSYM - 1 (19 with one symbol) for a
built tree, and the same bits for any two trees of the same shape and leaf symbols, whatever the weights, the marks and FREQ. -/
def Obligations.WrtreeBitsDependOnTheShapeAlone : Prop :=
  (∀ s t : State, s.Inv → s.working → s.codec.io.outClosed = false → s.codec.core.status.treeValid = true →
    exec .wrtree s = .next t →
    t.codec.outBits.length = s.codec.outBits.length + s.codec.core.treeBits.toNat ∧
    s.codec.core.treeBits.toNat = 9 * s.codec.core.nleaves.toNat + s.codec.core.ninternal.toNat ∧
    (s.codec.core.status.treeBuilt = true → s.codec.core.treeBits.toNat =
      if s.codec.core.nsym.toNat = 1 then 19 else 10 * s.codec.core.nsym.toNat - 1)) ∧
  (∀ (s1 s2 t1 t2 : State) tr1 tr2, s1.working → s2.working → s1.codec.io.outClosed = false → s2.codec.io.outClosed = false →
    s1.codec.core.status.treeValid = true → s2.codec.core.status.treeValid = true →
    treeOf s1.codec.core.node walkDepth s1.codec.core.root = some tr1 →
    treeOf s2.codec.core.node walkDepth s2.codec.core.root = some tr2 → tr1.plain = tr2.plain →
    s1.codec.params = s2.codec.params → exec .wrtree s1 = .next t1 → exec .wrtree s2 = .next t2 →
    ∃ bits, t1.codec.outBits = s1.codec.outBits ++ bits ∧ t2.codec.outBits = s2.codec.outBits ++ bits)

/-- 43_tree_codec.md R107: RDTREE completes where the bit stream goes on with a tree of at most 511 nodes; it holds that tree with PH and weights 0,
takes exactly its bits, and clears all that was derived from an earlier tree or count. -/
def Obligations.RdtreeReadsTheTree : Prop :=
  ∀ (s : State) (tr : CodeTree) rest, s.working → s.codec.inBits = tr.bits s.codec.params.symOrder ++ rest → tr.size ≤ 511 →
    ∃ t, exec .rdtree s = .next t ∧ t.eng = .idle ∧ t.codec.core.holds tr.plain ∧ t.codec.inBits = rest ∧
      t.codec.core.nleaves.toNat = tr.leaves.length ∧ t.codec.core.ninternal.toNat = tr.internals ∧
      t.codec.core.treeBits.toNat = 9 * tr.leaves.length + tr.internals ∧ t.codec.core.status.treeValid = true ∧
      t.codec.core.status.treeBuilt = false ∧ t.codec.core.status.freqValid = false ∧ t.codec.core.status.codesValid = false ∧
      t.codec.core.status.sizesValid = false ∧ t.codec.core.status.done = true ∧ t.codec.core.status.err = false ∧
      t.codec.core.totalBytes = 0#32 ∧ t.codec.core.nsym = 0#9 ∧ t.codec.core.maxlen = 0#8 ∧
      t.codec.core.payloadBits = 0#64 ∧ t.codec.core.projectedBits = 0#64 ∧ s.codec.io.ipos ≤ t.codec.io.ipos ∧
      t.codec.core.inPos = s.codec.core.inPos + BitVec.ofNat 64 (t.codec.io.ipos - s.codec.io.ipos)

/-- 43_tree_codec.md R108: where the bit stream ends inside the tree, before a 512th node has begun, RDTREE raises TRUNCATED_TREE with every bit
read and none past the end; `tr` is any tree, of any size, whose tokens go on from the stream's. -/
def Obligations.TruncatedTreeIsReported : Prop :=
  ∀ (s : State) (tr : CodeTree), s.working → s.codec.io.ipos ≤ s.codec.io.input.length →
    s.codec.inBits <+: tr.bits s.codec.params.symOrder → s.codec.inBits ≠ tr.bits s.codec.params.symOrder →
    tr.nodesBegun s.codec.inBits.length ≤ 511 →
    ∃ t, exec .rdtree s = .next t ∧ t.endedIn .truncatedTree ∧ t.codec.core.status.treeValid = false ∧
      t.codec.core.node.length = tr.nodesBegun s.codec.inBits.length ∧ t.codec.core.nleaves = 0#9 ∧
      t.codec.core.ninternal = 0#9 ∧ t.codec.core.treeBits = 0#12 ∧ t.codec.core.ibits = 0 ∧
      t.codec.io.ipos = s.codec.io.input.length ∧ t.codec.io.outClosed = true

/-- 43_tree_codec.md R109: the structure bit `b` of the 512th node, whatever the 511 before it are, raises TREE_OVERFLOW after it is read and
before a node is allocated; `tr` is any tree whose tokens go on from the bits up to that one. -/
def Obligations.OversizeTreeIsReported : Prop :=
  ∀ (s : State) (tr : CodeTree) pre b rest, s.working → s.codec.inBits = pre ++ b :: rest →
    pre ++ [b] <+: tr.bits s.codec.params.symOrder → tr.nodesBegun pre.length = 511 → tr.nodesBegun (pre.length + 1) = 512 →
    ∃ t, exec .rdtree s = .next t ∧ t.endedIn .treeOverflow ∧ t.codec.core.node.length = 511 ∧ t.codec.inBits = rest ∧
      t.codec.core.status.treeValid = false ∧ t.codec.core.nleaves = 0#9 ∧ t.codec.core.treeBits = 0#12 ∧
      t.codec.io.outClosed = true

/-- 43_tree_codec.md R110, R111: a completed RDTREE numbers its nodes in pre-order from 0 and gives each weight 0; a completed BUILD numbers
children below their parents; and no command shows the numbering: on any other node memory that holds the same tree it does the same,
with NODE and ROOT alone free to differ. -/
def Obligations.NodeNumberingAndReadWeights : Prop :=
  (∀ s t : State, s.eng = .idle → exec .rdtree s = .next t → t.eng = .idle → t.codec.core.status.done = true →
    t.codec.core.root.val = 0 ∧ (∀ n ∈ t.codec.core.node, n.weight = 0#32) ∧
    treeIndices t.codec.core.node walkDepth t.codec.core.root = List.range t.codec.core.node.length ∧
    ∀ (i : Nat) (w : BitVec 32) (l r : NodeIdx), t.codec.core.node[i]? = some (.internal w l r) → i < l.val ∧ i < r.val) ∧
  (∀ s t : State, s.eng = .idle → exec .build s = .next t → t.eng = .idle → t.codec.core.status.done = true →
    ∀ (i : Nat) (w : BitVec 32) (l r : NodeIdx), t.codec.core.node[i]? = some (.internal w l r) → l.val < i ∧ r.val < i) ∧
  (∀ i (s t : State) nodes root tr, s.ready → treeOf s.codec.core.node walkDepth s.codec.core.root = some tr →
    treeOf nodes walkDepth root = some tr → exec i s = .next t →
    ∃ u, exec i { s with codec := { s.codec with core := { s.codec.core with node := nodes, root := root } } } = .next u ∧
      t = { u with codec := { u.codec with core := { u.codec.core with
        node := t.codec.core.node
        root := t.codec.core.root } } })

/-- 43_tree_codec.md R112: the round trip of the tree codec. The bits WRTREE wrote for a tree are read back by RDTREE as the same tree with PH and
weights 0, taking exactly them; the read tree is written as the same bits again, and decodes every bit stream alike. -/
def Obligations.TreeCodecRoundTrip : Prop :=
  ∀ (s t u : State) tr bits rest, s.working → s.codec.io.outClosed = false → s.codec.core.status.treeValid = true →
    s.codec.core.holds tr → s.codec.core.node.length ≤ 511 → exec .wrtree s = .next t →
    t.codec.outBits = s.codec.outBits ++ bits → u.working → u.codec.params = s.codec.params →
    u.codec.io.outClosed = false → u.codec.inBits = bits ++ rest →
    ∃ v x, exec .rdtree u = .next v ∧ v.codec.core.holds tr.plain ∧ v.codec.inBits = rest ∧
      v.codec.core.treeBits.toNat = bits.length ∧
      exec .wrtree v = .next x ∧ x.codec.outBits = v.codec.outBits ++ bits ∧ ∀ bs, tr.plain.decode bs = tr.decode bs

/-! ## ENCODE and DECODE -/

/-- 44_stream_codec.md R114, R115: ENCODE rewinds and appends the code of every input byte, in input order, without padding; R117: for the
input COUNT counted these are exactly the sum of FREQ * CODE_LEN bits. -/
def Obligations.EncodeAppendsTheCodes : Prop :=
  ∀ s : State, s.working → s.codec.io.outClosed = false → s.codec.core.status.codesValid = true →
    (∀ b ∈ s.codec.io.input, s.codec.core.codeLen.lookup b ≠ 0#8) →
    ∃ t, exec .encode s = .next t ∧ t.eng = .idle ∧
      t.codec.outBits = s.codec.outBits ++ s.codec.core.encoded s.codec.io.input ∧
      ((∀ b, (s.codec.core.freq.lookup b).toNat = s.codec.io.input.count b) →
        t.codec.outBits.length = s.codec.outBits.length +
          (allSymbols.map fun b => (s.codec.core.freq.lookup b).toNat * (s.codec.core.codeLen.lookup b).toNat).sum) ∧
      t.codec.io.ipos = s.codec.io.input.length ∧ t.codec.io.outClosed = false ∧
      t.codec.core.inPos = BitVec.ofNat 64 s.codec.io.input.length ∧
      t.codec.core.outBytes = s.codec.core.outBytes + BitVec.ofNat 64 (t.codec.io.output.length - s.codec.io.output.length) ∧
      t.codec.core = { (s.codec.core.afterDone 0x00000006#32) with
        obuf := t.codec.core.obuf
        obits := t.codec.core.obits
        outBytes := t.codec.core.outBytes
        inPos := t.codec.core.inPos
        ibuf := 0#8
        ibits := 0 }

/-- 44_stream_codec.md R116: a byte without a code ends ENCODE with SYMBOL_NOT_CODED before any bit of it is written; the codes before it stay,
and the error exit pads and closes. -/
def Obligations.UncodedByteIsReported : Prop :=
  ∀ (s : State) pre b post, s.working → s.codec.io.outClosed = false → s.codec.core.status.codesValid = true →
    s.codec.io.input = pre ++ b :: post → (∀ x ∈ pre, s.codec.core.codeLen.lookup x ≠ 0#8) →
    s.codec.core.codeLen.lookup b = 0#8 →
    ∃ t k, exec .encode s = .next t ∧ t.eng = .idle ∧ t.codec.core.status.err = true ∧
      t.codec.core.status.errcode = .symbolNotCoded ∧ t.codec.io.ipos = pre.length + 1 ∧ t.codec.io.outClosed = true ∧
      t.codec.core.obits = 0 ∧ k < 8 ∧
      t.codec.io.output.flatMap (byteBits s.codec.params.packOrder) =
        s.codec.outBits ++ s.codec.core.encoded pre ++ List.replicate k s.codec.params.padBit

/-- 44_stream_codec.md R118, R119: DECODE completes on a tree with an internal root; it descends bit by bit to the end of the bit stream, appends the
symbol of each leaf reached, counts them in DEC_SYMS, and sets TAIL exactly when the stream ends inside a descent. -/
def Obligations.DecodeDescendsTheTree : Prop :=
  ∀ (s : State) tr, s.working → s.codec.io.outClosed = false → s.codec.core.status.treeValid = true → s.codec.core.obits = 0 →
    s.codec.io.ipos ≤ s.codec.io.input.length → treeOf s.codec.core.node walkDepth s.codec.core.root = some tr →
    tr.isNode = true →
    ∃ t, exec .decode s = .next t ∧ t.eng = .idle ∧
      t.codec.io.output = s.codec.io.output ++ (tr.decode s.codec.inBits).1 ∧
      t.codec.core.status.tail = (tr.decode s.codec.inBits).2 ∧
      t.codec.core.decSyms = BitVec.ofNat 64 (tr.decode s.codec.inBits).1.length ∧
      t.codec.core.outBytes = s.codec.core.outBytes + t.codec.core.decSyms ∧
      t.codec.io.ipos = s.codec.io.input.length ∧ t.codec.io.outClosed = false ∧
      t.codec.core = { (s.codec.core.afterDone 0x00000007#32) with
        status := { (s.codec.core.afterDone 0x00000007#32).status with tail := t.codec.core.status.tail }
        outBytes := t.codec.core.outBytes
        inPos := s.codec.core.inPos + BitVec.ofNat 64 (s.codec.io.input.length - s.codec.io.ipos)
        decSyms := t.codec.core.decSyms
        ibuf := t.codec.core.ibuf
        ibits := 0 }

/-- 44_stream_codec.md R120: on a tree whose root is a leaf DECODE raises DEGENERATE_TREE before it reads or writes anything. -/
def Obligations.LeafRootIsReported : Prop :=
  ∀ (s : State) b w ph, s.working → s.codec.core.status.treeValid = true → s.codec.core.obits = 0 →
    s.codec.core.node[s.codec.core.root.val]? = some (.leaf b w ph) →
    ∃ t, exec .decode s = .next t ∧ t.eng = .idle ∧ t.codec.core.status.err = true ∧
      t.codec.core.status.errcode = .degenerateTree ∧ t.codec.core.decSyms = 0#64 ∧ t.codec.io.ipos = s.codec.io.ipos ∧
      t.codec.core.ibits = s.codec.core.ibits ∧ t.codec.core.inPos = s.codec.core.inPos ∧
      t.codec.io.output = s.codec.io.output ∧ t.codec.io.outClosed = true

/-- 44_stream_codec.md R121: pad bits of value 0 after the codes of the symbols S are decoded too: `k / d0` more copies of the leftmost leaf's symbol,
and TAIL exactly when `d0` does not divide `k`. -/
def Obligations.PadBitsAreDecoded : Prop :=
  ∀ (s : State) tr (path : Byte → List Bool) (S : List Byte) (k : Nat), s.working → s.codec.io.outClosed = false →
    s.codec.core.status.treeValid = true → s.codec.core.obits = 0 → s.codec.io.ipos ≤ s.codec.io.input.length →
    treeOf s.codec.core.node walkDepth s.codec.core.root = some tr → tr.isNode = true →
    (∀ b ∈ S, ∃ w ph, tr.follow (path b) = some (.leaf b w ph)) →
    s.codec.inBits = S.flatMap path ++ List.replicate k false → S.length + k < 2 ^ 64 →
    1 ≤ tr.leftDepth ∧
    ∃ t, exec .decode s = .next t ∧ t.eng = .idle ∧
      t.codec.io.output = s.codec.io.output ++ S ++ List.replicate (k / tr.leftDepth) tr.leftSymbol ∧
      (t.codec.core.status.tail = true ↔ k % tr.leftDepth ≠ 0) ∧
      t.codec.core.decSyms.toNat = S.length + k / tr.leftDepth

/-! ## Framing -/

/-- 45_framing_and_control.md R129, 20_memory.md R51: WRMAGIC appends 0x48 0x46; if the first write fails, as it does on a closed sink, OUT and
OUT_BYTES stay as they were; if the second fails, 0x48 stays and is counted. -/
def Obligations.WrmagicWritesTheMarker : Prop :=
  ∀ s : State, s.eng = .idle → s.codec.core.obits = 0 →
    (s.codec.io.draws.allOk → s.codec.io.outClosed = false → ∃ t, exec .wrmagic s = .next t ∧ t.eng = .idle ∧
      t.codec.core = { (s.codec.core.afterDone 0x00000009#32) with outBytes := s.codec.core.outBytes + 2#64 } ∧
      t.codec.io = { s.codec.io with output := s.codec.io.output ++ [0x48#8, 0x46#8], draws := t.codec.io.draws }) ∧
    (s.writeFailsAfter 0 0 → ∃ t, exec .wrmagic s = .next t ∧ t.endedIn .ioOut ∧ t.codec.io.output = s.codec.io.output ∧
      t.codec.core.outBytes = s.codec.core.outBytes) ∧
    (s.writeFailsAfter 0 1 → ∃ t, exec .wrmagic s = .next t ∧ t.endedIn .ioOut ∧
      t.codec.io.output = s.codec.io.output ++ [0x48#8] ∧ t.codec.core.outBytes = s.codec.core.outBytes + 1#64)

/-- 45_framing_and_control.md R130: CHKMAGIC with working I/O passes exactly on an input that begins 0x48 0x46, leaving IPOS at 2, and otherwise raises
FORMAT at the first byte that is missing or differs, with the output closed and, when no bit is pending, nothing written. -/
def Obligations.ChkmagicChecksTheMarker : Prop :=
  ∀ s : State, s.working → ∃ t, exec .chkmagic s = .next t ∧ t.eng = .idle ∧ t.codec.core.ibits = 0 ∧
    t.codec.core.inPos.toNat = t.codec.io.ipos ∧
    (([0x48#8, 0x46#8] : List Byte) <+: s.codec.io.input → t.codec.io.ipos = 2 ∧
      t.codec.core = { (s.codec.core.afterDone 0x0000000A#32) with inPos := 2#64, ibuf := 0#8, ibits := 0 } ∧
      t.codec.io.output = s.codec.io.output ∧ t.codec.io.outClosed = s.codec.io.outClosed) ∧
    (¬ ([0x48#8, 0x46#8] : List Byte) <+: s.codec.io.input → t.codec.core.status.err = true ∧
      t.codec.core.status.errcode = .format ∧ t.codec.core.status.done = false ∧ t.codec.io.outClosed = true ∧
      (s.codec.core.obits = 0 → t.codec.io.output = s.codec.io.output) ∧
      t.codec.io.ipos = (match s.codec.io.input with
        | [] => 0
        | [_] => 1
        | b :: _ :: _ => if b = 0x48#8 then 2 else 1))

/-- 45_framing_and_control.md R131, 20_memory.md R56: CLOSE completes on an open output with working I/O; it pads the packer's bits to a byte, writes it, and
closes. With OBITS = 0 it writes nothing, also on a closed sink. A close that fails is IO_OUT, with the padded byte kept if there
was one (for the byte's own failing write see FailedByteWriteIsAnOutputError). -/
def Obligations.ClosePadsAndCloses : Prop :=
  ∀ s : State, s.eng = .idle →
    (s.codec.io.draws.allOk → s.codec.io.outClosed = false → ∃ t, exec .close s = .next t ∧ t.eng = .idle ∧
      t.codec.io.output.flatMap (byteBits s.codec.params.packOrder) =
        s.codec.outBits ++ List.replicate ((8 - s.codec.core.obits.val) % 8) s.codec.params.padBit ∧
      t.codec.io.outClosed = true ∧ t.codec.io.ipos = s.codec.io.ipos ∧
      t.codec.core.outBytes = s.codec.core.outBytes + (if s.codec.core.obits = 0 then 0#64 else 1#64) ∧
      t.codec.core = { (s.codec.core.afterDone 0x0000000B#32) with
        obuf := if s.codec.core.obits = 0 then s.codec.core.obuf else 0#8
        obits := 0
        outBytes := t.codec.core.outBytes }) ∧
    (s.codec.io.draws.allOk → s.codec.core.obits = 0 → ∃ t, exec .close s = .next t ∧ t.eng = .idle ∧
      t.codec.io.output = s.codec.io.output ∧ t.codec.io.outClosed = true ∧
      t.codec.core = s.codec.core.afterDone 0x0000000B#32) ∧
    (s.failsAfter 0 → s.codec.core.obits = 0 →
      ∃ t, exec .close s = .next t ∧ t.endedIn .ioOut ∧ t.codec.io.output = s.codec.io.output ∧
        t.codec.core.outBytes = s.codec.core.outBytes) ∧
    (s.failsAfter 1 → s.codec.core.obits ≠ 0 → s.codec.io.outClosed = false →
      ∃ t, exec .close s = .next t ∧ t.endedIn .ioOut ∧ t.codec.core.obits = 0 ∧
        t.codec.io.output.flatMap (byteBits s.codec.params.packOrder) =
          s.codec.outBits ++ List.replicate (8 - s.codec.core.obits.val) s.codec.params.padBit ∧
        t.codec.core.outBytes = s.codec.core.outBytes + 1#64)

/-- 44_stream_codec.md R122, 45_framing_and_control.md R125: the commands of COMPRESS take a non-empty input S to a file of PROJECTED_BITS / 8 bytes, and the
commands of DECOMPRESS take that file to S followed by what the pad bits spell: `k / d0` copies of the leftmost leaf's symbol when PAD_BIT is 0, so to S
itself exactly when `k < d0`. -/
def Obligations.CompressedInputDecompresses : Prop :=
  ∀ (s : State) (S : List Byte), s.working → s.codec.io.outClosed = false → s.codec.io.output = [] → s.codec.core.obits = 0 →
    s.codec.io.input = S → S ≠ [] → S.length < 2 ^ 32 →
    ∃ s1 s2 s3 s4 s5 s6 s7 s8, exec .count s = .next s1 ∧ exec .build s1 = .next s2 ∧ exec .gencodes s2 = .next s3 ∧
      exec .project s3 = .next s4 ∧ exec .wrmagic s4 = .next s5 ∧ exec .wrtree s5 = .next s6 ∧ exec .encode s6 = .next s7 ∧
      exec .close s7 = .next s8 ∧ s8.codec.core.status.done = true ∧ s8.codec.io.outClosed = true ∧
      s4.codec.core.projectedBits.toNat = 8 * s8.codec.io.output.length ∧
      ∀ u : State, u.working → u.codec.params = s.codec.params → u.codec.io.outClosed = false → u.codec.io.output = [] →
        u.codec.core.obits = 0 → u.codec.io.input = s8.codec.io.output →
        ∃ u1 u2 u3 u4, exec .chkmagic u = .next u1 ∧ exec .rdtree u1 = .next u2 ∧ exec .decode u2 = .next u3 ∧
          exec .close u3 = .next u4 ∧ u4.codec.core.status.done = true ∧ S <+: u4.codec.io.output ∧
          (s.codec.params.padBit = false → ∃ tr, s2.codec.core.holds tr ∧
            ∀ k, k = (8 - (s2.codec.core.treeBits.toNat + s4.codec.core.payloadBits.toNat) % 8) % 8 →
              u4.codec.io.output = S ++ List.replicate (k / tr.leftDepth) tr.leftSymbol ∧
              (u4.codec.io.output = S ↔ k < tr.leftDepth))

/-! ## Failing writes -/

/-- 20_memory.md R51, with 43_tree_codec.md R103, 44_stream_codec.md R114, R118 and 45_framing_and_control.md R131: the failing write of a byte, by its
draw or on a closed output, ends WRTREE, ENCODE, DECODE and CLOSE with IO_OUT. The `n` bytes written before it stay, OUT and OUT_BYTES count
no other, and the pending bits are dropped (60_exceptions.md R138); DECODE has counted the symbols it wrote. -/
def Obligations.FailedByteWriteIsAnOutputError : Prop :=
  (∀ (s : State) (tr : CodeTree) n, s.writeFailsAfter 0 n → s.codec.core.status.treeValid = true →
    treeOf s.codec.core.node walkDepth s.codec.core.root = some tr →
    8 * (n + 1) ≤ s.codec.core.obits.val + (tr.bits s.codec.params.symOrder).length →
    ∃ t, exec .wrtree s = .next t ∧ t.endedIn .ioOut ∧ t.codec.core.obits = 0 ∧
      t.codec.io.output.flatMap (byteBits s.codec.params.packOrder) =
        (s.codec.outBits ++ tr.bits s.codec.params.symOrder).take (8 * (s.codec.io.output.length + n)) ∧
      t.codec.core.outBytes = s.codec.core.outBytes + BitVec.ofNat 64 n ∧ t.codec.io.ipos = s.codec.io.ipos) ∧
  (∀ (s : State) pre b post n, s.writeFailsAfter (pre.length + 2) n → s.codec.core.status.codesValid = true →
    s.codec.io.input = pre ++ b :: post → (∀ x ∈ pre ++ [b], s.codec.core.codeLen.lookup x ≠ 0#8) →
    s.codec.core.obits.val + (s.codec.core.encoded pre).length < 8 * (n + 1) →
    8 * (n + 1) ≤ s.codec.core.obits.val + (s.codec.core.encoded (pre ++ [b])).length →
    ∃ t, exec .encode s = .next t ∧ t.endedIn .ioOut ∧ t.codec.core.obits = 0 ∧
      t.codec.io.output.flatMap (byteBits s.codec.params.packOrder) =
        (s.codec.outBits ++ s.codec.core.encoded (pre ++ [b])).take (8 * (s.codec.io.output.length + n)) ∧
      t.codec.core.outBytes = s.codec.core.outBytes + BitVec.ofNat 64 n ∧ t.codec.io.ipos = pre.length + 1 ∧
      t.codec.core.inPos = BitVec.ofNat 64 (pre.length + 1)) ∧
  (∀ (s : State) (tr : CodeTree) read rest syms b,
    s.writeFailsAfter ((read.length + 7 - s.codec.core.ibits.val) / 8) syms.length → s.codec.core.status.treeValid = true →
    s.codec.core.obits = 0 → s.codec.io.ipos ≤ s.codec.io.input.length →
    treeOf s.codec.core.node walkDepth s.codec.core.root = some tr → tr.isNode = true → s.codec.inBits = read ++ rest →
    tr.decode read = (syms ++ [b], false) →
    ∃ t, exec .decode s = .next t ∧ t.endedIn .ioOut ∧ t.codec.io.output = s.codec.io.output ++ syms ∧
      t.codec.core.outBytes = s.codec.core.outBytes + BitVec.ofNat 64 syms.length ∧
      t.codec.core.decSyms = BitVec.ofNat 64 syms.length ∧ t.codec.inBits = rest ∧ t.codec.core.status.tail = false) ∧
  (∀ s : State, s.writeFailsAfter 0 0 → s.codec.core.obits ≠ 0 →
    ∃ t, exec .close s = .next t ∧ t.endedIn .ioOut ∧ t.codec.core.obits = 0 ∧ t.codec.io.output = s.codec.io.output ∧
      t.codec.core.outBytes = s.codec.core.outBytes)
end

