-- ==== Sys2Proof/Laws/State.lean ====
section
/-! SUPPORT. What each update of the state does to each field, one simp lemma per update, so that no proof unfolds one. -/

namespace Sys2Proof.Machine

/-! ## The codec and the state -/

@[simp] theorem Codec.mapCore_core (f : CoreState → CoreState) (c : Codec) : (c.mapCore f).core = f c.core := rfl
@[simp] theorem Codec.mapCore_io (f : CoreState → CoreState) (c : Codec) : (c.mapCore f).io = c.io := rfl
@[simp] theorem Codec.mapCore_params (f : CoreState → CoreState) (c : Codec) : (c.mapCore f).params = c.params := rfl
@[simp] theorem Codec.mapIo_core (f : Streams → Streams) (c : Codec) : (c.mapIo f).core = c.core := rfl
@[simp] theorem Codec.mapIo_io (f : Streams → Streams) (c : Codec) : (c.mapIo f).io = f c.io := rfl
@[simp] theorem Codec.mapIo_params (f : Streams → Streams) (c : Codec) : (c.mapIo f).params = c.params := rfl

@[simp] theorem Codec.accept_core (w : Word) (c : Codec) : (c.accept w).core = acceptWord w c.core := rfl
@[simp] theorem Codec.accept_io (w : Word) (c : Codec) : (c.accept w).io = c.io := rfl
@[simp] theorem Codec.accept_params (w : Word) (c : Codec) : (c.accept w).params = c.params := rfl

@[simp] theorem Codec.advanceInput_core (c : Codec) :
    c.advanceInput.core = { c.core with inPos := c.core.inPos + 1#64 } := rfl
@[simp] theorem Codec.advanceInput_io (c : Codec) : c.advanceInput.io = { c.io with ipos := c.io.ipos + 1 } := rfl
@[simp] theorem Codec.advanceInput_params (c : Codec) : c.advanceInput.params = c.params := rfl
@[simp] theorem Codec.rewound_core (c : Codec) :
    c.rewound.core = { c.core with inPos := 0#64, ibuf := 0#8, ibits := 0 } := rfl
@[simp] theorem Codec.rewound_io (c : Codec) : c.rewound.io = { c.io with ipos := 0 } := rfl
@[simp] theorem Codec.rewound_params (c : Codec) : c.rewound.params = c.params := rfl
@[simp] theorem Codec.appended_core (b : Byte) (c : Codec) :
    (c.appended b).core = { c.core with outBytes := c.core.outBytes + 1#64 } := rfl
@[simp] theorem Codec.appended_io (b : Byte) (c : Codec) :
    (c.appended b).io = { c.io with output := c.io.output ++ [b] } := rfl
@[simp] theorem Codec.appended_params (b : Byte) (c : Codec) : (c.appended b).params = c.params := rfl

@[simp] theorem State.suspend_codec (w : Word) (x : Option Txn) (io : Streams) (s : State) :
    (s.suspend w x io).codec = { (s.codec.accept w) with io := io } := rfl
@[simp] theorem State.suspend_eng (w : Word) (x : Option Txn) (io : Streams) (s : State) :
    (s.suspend w x io).eng = .busy w s.codec x := rfl
@[simp] theorem State.suspend_rest (w : Word) (x : Option Txn) (io : Streams) (s : State) :
    (s.suspend w x io).host = s.host ∧ (s.suspend w x io).resetInput = s.resetInput ∧ (s.suspend w x io).reads = s.reads :=
  ⟨rfl, rfl, rfl⟩
@[simp] theorem State.sampleReset_fields (s : State) :
    s.sampleReset.codec = s.codec ∧ s.sampleReset.eng = s.eng ∧ s.sampleReset.host = s.host ∧
      s.sampleReset.resetInput = s.resetInput.tail ∧ s.sampleReset.reads = s.reads :=
  ⟨rfl, rfl, rfl, rfl, rfl⟩
@[simp] theorem State.nextStmt_fields (s : State) :
    s.nextStmt.codec = s.codec ∧ s.nextStmt.eng = s.eng ∧ s.nextStmt.host = { s.host with pc := s.host.pc + 1 } ∧
      s.nextStmt.resetInput = s.resetInput ∧ s.nextStmt.reads = s.reads :=
  ⟨rfl, rfl, rfl, rfl, rfl⟩
@[simp] theorem State.beginWord_fields (s : State) :
    s.beginWord.codec = s.codec ∧ s.beginWord.eng = s.eng ∧
      s.beginWord.host = { s.host with pc := s.host.pc + 1, polling := true } ∧
      s.beginWord.resetInput = s.resetInput ∧ s.beginWord.reads = s.reads :=
  ⟨rfl, rfl, rfl, rfl, rfl⟩

/-! ## Core state, field by field -/

@[simp] theorem acceptWord_fields (w : Word) (k : CoreState) :
    (acceptWord w k).cmd = w ∧
      (acceptWord w k).status = { k.status with done := false, err := false, errcode := .none, tail := false } ∧
      (acceptWord w k).totalBytes = k.totalBytes ∧ (acceptWord w k).nsym = k.nsym ∧ (acceptWord w k).nleaves = k.nleaves ∧
      (acceptWord w k).ninternal = k.ninternal ∧ (acceptWord w k).treeBits = k.treeBits ∧
      (acceptWord w k).maxlen = k.maxlen ∧ (acceptWord w k).payloadBits = k.payloadBits ∧
      (acceptWord w k).projectedBits = k.projectedBits ∧ (acceptWord w k).outBytes = k.outBytes ∧
      (acceptWord w k).inPos = k.inPos ∧ (acceptWord w k).decSyms = k.decSyms ∧ (acceptWord w k).freq = k.freq ∧
      (acceptWord w k).node = k.node ∧ (acceptWord w k).root = k.root ∧ (acceptWord w k).work = k.work ∧
      (acceptWord w k).codeLen = k.codeLen ∧ (acceptWord w k).codeVal = k.codeVal ∧ (acceptWord w k).obuf = k.obuf ∧
      (acceptWord w k).obits = k.obits ∧ (acceptWord w k).ibuf = k.ibuf ∧ (acceptWord w k).ibits = k.ibits :=
  ⟨rfl, rfl, rfl, rfl, rfl, rfl, rfl, rfl, rfl, rfl, rfl, rfl, rfl, rfl, rfl, rfl, rfl, rfl, rfl, rfl, rfl, rfl, rfl⟩

@[simp] theorem setDone_fields (k : CoreState) :
    (setDone k).cmd = k.cmd ∧ (setDone k).status = { k.status with done := true } ∧ (setDone k).totalBytes = k.totalBytes ∧
      (setDone k).nsym = k.nsym ∧ (setDone k).nleaves = k.nleaves ∧ (setDone k).ninternal = k.ninternal ∧
      (setDone k).treeBits = k.treeBits ∧ (setDone k).maxlen = k.maxlen ∧ (setDone k).payloadBits = k.payloadBits ∧
      (setDone k).projectedBits = k.projectedBits ∧ (setDone k).outBytes = k.outBytes ∧ (setDone k).inPos = k.inPos ∧
      (setDone k).decSyms = k.decSyms ∧ (setDone k).freq = k.freq ∧ (setDone k).node = k.node ∧ (setDone k).root = k.root ∧
      (setDone k).work = k.work ∧ (setDone k).codeLen = k.codeLen ∧ (setDone k).codeVal = k.codeVal ∧
      (setDone k).obuf = k.obuf ∧ (setDone k).obits = k.obits ∧ (setDone k).ibuf = k.ibuf ∧ (setDone k).ibits = k.ibits :=
  ⟨rfl, rfl, rfl, rfl, rfl, rfl, rfl, rfl, rfl, rfl, rfl, rfl, rfl, rfl, rfl, rfl, rfl, rfl, rfl, rfl, rfl, rfl, rfl⟩

@[simp] theorem setError_fields (e : ErrCode) (k : CoreState) :
    (setError e k).cmd = k.cmd ∧ (setError e k).status = { k.status with err := true, errcode := e } ∧
      (setError e k).totalBytes = k.totalBytes ∧ (setError e k).nsym = k.nsym ∧ (setError e k).nleaves = k.nleaves ∧
      (setError e k).ninternal = k.ninternal ∧ (setError e k).treeBits = k.treeBits ∧ (setError e k).maxlen = k.maxlen ∧
      (setError e k).payloadBits = k.payloadBits ∧ (setError e k).projectedBits = k.projectedBits ∧
      (setError e k).outBytes = k.outBytes ∧ (setError e k).inPos = k.inPos ∧ (setError e k).decSyms = k.decSyms ∧
      (setError e k).freq = k.freq ∧ (setError e k).node = k.node ∧ (setError e k).root = k.root ∧
      (setError e k).work = k.work ∧ (setError e k).codeLen = k.codeLen ∧ (setError e k).codeVal = k.codeVal ∧
      (setError e k).obuf = k.obuf ∧ (setError e k).obits = k.obits ∧ (setError e k).ibuf = k.ibuf ∧
      (setError e k).ibits = k.ibits :=
  ⟨rfl, rfl, rfl, rfl, rfl, rfl, rfl, rfl, rfl, rfl, rfl, rfl, rfl, rfl, rfl, rfl, rfl, rfl, rfl, rfl, rfl, rfl, rfl⟩

@[simp] theorem setOvr_fields (k : CoreState) :
    (setOvr k).cmd = k.cmd ∧ (setOvr k).status = { k.status with ovr := true } ∧ (setOvr k).totalBytes = k.totalBytes ∧
      (setOvr k).nsym = k.nsym ∧ (setOvr k).nleaves = k.nleaves ∧ (setOvr k).ninternal = k.ninternal ∧
      (setOvr k).treeBits = k.treeBits ∧ (setOvr k).maxlen = k.maxlen ∧ (setOvr k).payloadBits = k.payloadBits ∧
      (setOvr k).projectedBits = k.projectedBits ∧ (setOvr k).outBytes = k.outBytes ∧ (setOvr k).inPos = k.inPos ∧
      (setOvr k).decSyms = k.decSyms ∧ (setOvr k).freq = k.freq ∧ (setOvr k).node = k.node ∧ (setOvr k).root = k.root ∧
      (setOvr k).work = k.work ∧ (setOvr k).codeLen = k.codeLen ∧ (setOvr k).codeVal = k.codeVal ∧
      (setOvr k).obuf = k.obuf ∧ (setOvr k).obits = k.obits ∧ (setOvr k).ibuf = k.ibuf ∧ (setOvr k).ibits = k.ibits :=
  ⟨rfl, rfl, rfl, rfl, rfl, rfl, rfl, rfl, rfl, rfl, rfl, rfl, rfl, rfl, rfl, rfl, rfl, rfl, rfl, rfl, rfl, rfl, rfl⟩

@[simp] theorem setTail_fields (k : CoreState) :
    (setTail k).cmd = k.cmd ∧ (setTail k).status = { k.status with tail := true } ∧ (setTail k).totalBytes = k.totalBytes ∧
      (setTail k).nsym = k.nsym ∧ (setTail k).nleaves = k.nleaves ∧ (setTail k).ninternal = k.ninternal ∧
      (setTail k).treeBits = k.treeBits ∧ (setTail k).maxlen = k.maxlen ∧ (setTail k).payloadBits = k.payloadBits ∧
      (setTail k).projectedBits = k.projectedBits ∧ (setTail k).outBytes = k.outBytes ∧ (setTail k).inPos = k.inPos ∧
      (setTail k).decSyms = k.decSyms ∧ (setTail k).freq = k.freq ∧ (setTail k).node = k.node ∧ (setTail k).root = k.root ∧
      (setTail k).work = k.work ∧ (setTail k).codeLen = k.codeLen ∧ (setTail k).codeVal = k.codeVal ∧
      (setTail k).obuf = k.obuf ∧ (setTail k).obits = k.obits ∧ (setTail k).ibuf = k.ibuf ∧ (setTail k).ibits = k.ibits :=
  ⟨rfl, rfl, rfl, rfl, rfl, rfl, rfl, rfl, rfl, rfl, rfl, rfl, rfl, rfl, rfl, rfl, rfl, rfl, rfl, rfl, rfl, rfl, rfl⟩

@[simp] theorem clearFreq_fields (k : CoreState) :
    (clearFreq k).cmd = k.cmd ∧ (clearFreq k).status = { k.status with freqValid := false } ∧
      (clearFreq k).totalBytes = 0#32 ∧ (clearFreq k).nsym = 0#9 ∧ (clearFreq k).nleaves = k.nleaves ∧
      (clearFreq k).ninternal = k.ninternal ∧ (clearFreq k).treeBits = k.treeBits ∧ (clearFreq k).maxlen = k.maxlen ∧
      (clearFreq k).payloadBits = k.payloadBits ∧ (clearFreq k).projectedBits = k.projectedBits ∧
      (clearFreq k).outBytes = k.outBytes ∧ (clearFreq k).inPos = k.inPos ∧ (clearFreq k).decSyms = k.decSyms ∧
      (clearFreq k).freq = k.freq ∧ (clearFreq k).node = k.node ∧ (clearFreq k).root = k.root ∧
      (clearFreq k).work = k.work ∧ (clearFreq k).codeLen = k.codeLen ∧ (clearFreq k).codeVal = k.codeVal ∧
      (clearFreq k).obuf = k.obuf ∧ (clearFreq k).obits = k.obits ∧ (clearFreq k).ibuf = k.ibuf ∧
      (clearFreq k).ibits = k.ibits :=
  ⟨rfl, rfl, rfl, rfl, rfl, rfl, rfl, rfl, rfl, rfl, rfl, rfl, rfl, rfl, rfl, rfl, rfl, rfl, rfl, rfl, rfl, rfl, rfl⟩

@[simp] theorem clearTree_fields (k : CoreState) :
    (clearTree k).cmd = k.cmd ∧ (clearTree k).status = { k.status with treeValid := false } ∧
      (clearTree k).totalBytes = k.totalBytes ∧ (clearTree k).nsym = k.nsym ∧ (clearTree k).nleaves = 0#9 ∧
      (clearTree k).ninternal = 0#9 ∧ (clearTree k).treeBits = 0#12 ∧ (clearTree k).maxlen = k.maxlen ∧
      (clearTree k).payloadBits = k.payloadBits ∧ (clearTree k).projectedBits = k.projectedBits ∧
      (clearTree k).outBytes = k.outBytes ∧ (clearTree k).inPos = k.inPos ∧ (clearTree k).decSyms = k.decSyms ∧
      (clearTree k).freq = k.freq ∧ (clearTree k).node = [] ∧ (clearTree k).root = k.root ∧ (clearTree k).work = k.work ∧
      (clearTree k).codeLen = k.codeLen ∧ (clearTree k).codeVal = k.codeVal ∧ (clearTree k).obuf = k.obuf ∧
      (clearTree k).obits = k.obits ∧ (clearTree k).ibuf = k.ibuf ∧ (clearTree k).ibits = k.ibits :=
  ⟨rfl, rfl, rfl, rfl, rfl, rfl, rfl, rfl, rfl, rfl, rfl, rfl, rfl, rfl, rfl, rfl, rfl, rfl, rfl, rfl, rfl, rfl, rfl⟩

@[simp] theorem clearBuilt_fields (k : CoreState) :
    (clearBuilt k).cmd = k.cmd ∧ (clearBuilt k).status = { k.status with treeBuilt := false } ∧
      (clearBuilt k).totalBytes = k.totalBytes ∧ (clearBuilt k).nsym = k.nsym ∧ (clearBuilt k).nleaves = k.nleaves ∧
      (clearBuilt k).ninternal = k.ninternal ∧ (clearBuilt k).treeBits = k.treeBits ∧ (clearBuilt k).maxlen = k.maxlen ∧
      (clearBuilt k).payloadBits = k.payloadBits ∧ (clearBuilt k).projectedBits = k.projectedBits ∧
      (clearBuilt k).outBytes = k.outBytes ∧ (clearBuilt k).inPos = k.inPos ∧ (clearBuilt k).decSyms = k.decSyms ∧
      (clearBuilt k).freq = k.freq ∧ (clearBuilt k).node = k.node ∧ (clearBuilt k).root = k.root ∧
      (clearBuilt k).work = k.work ∧ (clearBuilt k).codeLen = k.codeLen ∧ (clearBuilt k).codeVal = k.codeVal ∧
      (clearBuilt k).obuf = k.obuf ∧ (clearBuilt k).obits = k.obits ∧ (clearBuilt k).ibuf = k.ibuf ∧
      (clearBuilt k).ibits = k.ibits :=
  ⟨rfl, rfl, rfl, rfl, rfl, rfl, rfl, rfl, rfl, rfl, rfl, rfl, rfl, rfl, rfl, rfl, rfl, rfl, rfl, rfl, rfl, rfl, rfl⟩

@[simp] theorem clearCodes_fields (k : CoreState) :
    (clearCodes k).cmd = k.cmd ∧ (clearCodes k).status = { k.status with codesValid := false } ∧
      (clearCodes k).totalBytes = k.totalBytes ∧ (clearCodes k).nsym = k.nsym ∧ (clearCodes k).nleaves = k.nleaves ∧
      (clearCodes k).ninternal = k.ninternal ∧ (clearCodes k).treeBits = k.treeBits ∧ (clearCodes k).maxlen = 0#8 ∧
      (clearCodes k).payloadBits = k.payloadBits ∧ (clearCodes k).projectedBits = k.projectedBits ∧
      (clearCodes k).outBytes = k.outBytes ∧ (clearCodes k).inPos = k.inPos ∧ (clearCodes k).decSyms = k.decSyms ∧
      (clearCodes k).freq = k.freq ∧ (clearCodes k).node = k.node ∧ (clearCodes k).root = k.root ∧
      (clearCodes k).work = k.work ∧ (clearCodes k).codeLen = k.codeLen ∧ (clearCodes k).codeVal = k.codeVal ∧
      (clearCodes k).obuf = k.obuf ∧ (clearCodes k).obits = k.obits ∧ (clearCodes k).ibuf = k.ibuf ∧
      (clearCodes k).ibits = k.ibits :=
  ⟨rfl, rfl, rfl, rfl, rfl, rfl, rfl, rfl, rfl, rfl, rfl, rfl, rfl, rfl, rfl, rfl, rfl, rfl, rfl, rfl, rfl, rfl, rfl⟩

@[simp] theorem clearSizes_fields (k : CoreState) :
    (clearSizes k).cmd = k.cmd ∧ (clearSizes k).status = { k.status with sizesValid := false, smaller := false } ∧
      (clearSizes k).totalBytes = k.totalBytes ∧ (clearSizes k).nsym = k.nsym ∧ (clearSizes k).nleaves = k.nleaves ∧
      (clearSizes k).ninternal = k.ninternal ∧ (clearSizes k).treeBits = k.treeBits ∧ (clearSizes k).maxlen = k.maxlen ∧
      (clearSizes k).payloadBits = 0#64 ∧ (clearSizes k).projectedBits = 0#64 ∧ (clearSizes k).outBytes = k.outBytes ∧
      (clearSizes k).inPos = k.inPos ∧ (clearSizes k).decSyms = k.decSyms ∧ (clearSizes k).freq = k.freq ∧
      (clearSizes k).node = k.node ∧ (clearSizes k).root = k.root ∧ (clearSizes k).work = k.work ∧
      (clearSizes k).codeLen = k.codeLen ∧ (clearSizes k).codeVal = k.codeVal ∧ (clearSizes k).obuf = k.obuf ∧
      (clearSizes k).obits = k.obits ∧ (clearSizes k).ibuf = k.ibuf ∧ (clearSizes k).ibits = k.ibits :=
  ⟨rfl, rfl, rfl, rfl, rfl, rfl, rfl, rfl, rfl, rfl, rfl, rfl, rfl, rfl, rfl, rfl, rfl, rfl, rfl, rfl, rfl, rfl, rfl⟩

@[simp] theorem packBit_fields (o : BitOrder) (b : Bool) (k : CoreState) :
    (packBit o b k).cmd = k.cmd ∧ (packBit o b k).status = k.status ∧ (packBit o b k).totalBytes = k.totalBytes ∧
      (packBit o b k).nsym = k.nsym ∧ (packBit o b k).nleaves = k.nleaves ∧ (packBit o b k).ninternal = k.ninternal ∧
      (packBit o b k).treeBits = k.treeBits ∧ (packBit o b k).maxlen = k.maxlen ∧
      (packBit o b k).payloadBits = k.payloadBits ∧ (packBit o b k).projectedBits = k.projectedBits ∧
      (packBit o b k).outBytes = k.outBytes ∧ (packBit o b k).inPos = k.inPos ∧ (packBit o b k).decSyms = k.decSyms ∧
      (packBit o b k).freq = k.freq ∧ (packBit o b k).node = k.node ∧ (packBit o b k).root = k.root ∧
      (packBit o b k).work = k.work ∧ (packBit o b k).codeLen = k.codeLen ∧ (packBit o b k).codeVal = k.codeVal ∧
      (packBit o b k).obuf = putBit k.obuf (bitPos o k.obits.val) b ∧ (packBit o b k).obits = k.obits ∧
      (packBit o b k).ibuf = k.ibuf ∧ (packBit o b k).ibits = k.ibits :=
  ⟨rfl, rfl, rfl, rfl, rfl, rfl, rfl, rfl, rfl, rfl, rfl, rfl, rfl, rfl, rfl, rfl, rfl, rfl, rfl, rfl, rfl, rfl, rfl⟩

@[simp] theorem dropPending_fields (k : CoreState) :
    (dropPending k).cmd = k.cmd ∧ (dropPending k).status = k.status ∧ (dropPending k).totalBytes = k.totalBytes ∧
      (dropPending k).nsym = k.nsym ∧ (dropPending k).nleaves = k.nleaves ∧ (dropPending k).ninternal = k.ninternal ∧
      (dropPending k).treeBits = k.treeBits ∧ (dropPending k).maxlen = k.maxlen ∧
      (dropPending k).payloadBits = k.payloadBits ∧ (dropPending k).projectedBits = k.projectedBits ∧
      (dropPending k).outBytes = k.outBytes ∧ (dropPending k).inPos = k.inPos ∧ (dropPending k).decSyms = k.decSyms ∧
      (dropPending k).freq = k.freq ∧ (dropPending k).node = k.node ∧ (dropPending k).root = k.root ∧
      (dropPending k).work = k.work ∧ (dropPending k).codeLen = k.codeLen ∧ (dropPending k).codeVal = k.codeVal ∧
      (dropPending k).obuf = 0#8 ∧ (dropPending k).obits = 0 ∧ (dropPending k).ibuf = k.ibuf ∧
      (dropPending k).ibits = k.ibits :=
  ⟨rfl, rfl, rfl, rfl, rfl, rfl, rfl, rfl, rfl, rfl, rfl, rfl, rfl, rfl, rfl, rfl, rfl, rfl, rfl, rfl, rfl, rfl, rfl⟩

@[simp] theorem dropBit_fields (k : CoreState) :
    (dropBit k).cmd = k.cmd ∧ (dropBit k).status = k.status ∧ (dropBit k).totalBytes = k.totalBytes ∧
      (dropBit k).nsym = k.nsym ∧ (dropBit k).nleaves = k.nleaves ∧ (dropBit k).ninternal = k.ninternal ∧
      (dropBit k).treeBits = k.treeBits ∧ (dropBit k).maxlen = k.maxlen ∧ (dropBit k).payloadBits = k.payloadBits ∧
      (dropBit k).projectedBits = k.projectedBits ∧ (dropBit k).outBytes = k.outBytes ∧ (dropBit k).inPos = k.inPos ∧
      (dropBit k).decSyms = k.decSyms ∧ (dropBit k).freq = k.freq ∧ (dropBit k).node = k.node ∧ (dropBit k).root = k.root ∧
      (dropBit k).work = k.work ∧ (dropBit k).codeLen = k.codeLen ∧ (dropBit k).codeVal = k.codeVal ∧
      (dropBit k).obuf = k.obuf ∧ (dropBit k).obits = k.obits ∧ (dropBit k).ibuf = k.ibuf ∧
      (dropBit k).ibits = k.ibits - 1 :=
  ⟨rfl, rfl, rfl, rfl, rfl, rfl, rfl, rfl, rfl, rfl, rfl, rfl, rfl, rfl, rfl, rfl, rfl, rfl, rfl, rfl, rfl, rfl, rfl⟩

@[simp] theorem startCount_fields (k : CoreState) :
    (startCount k).cmd = k.cmd ∧ (startCount k).status = k.status ∧ (startCount k).totalBytes = 0#32 ∧
      (startCount k).nsym = k.nsym ∧ (startCount k).nleaves = k.nleaves ∧ (startCount k).ninternal = k.ninternal ∧
      (startCount k).treeBits = k.treeBits ∧ (startCount k).maxlen = k.maxlen ∧ (startCount k).payloadBits = k.payloadBits ∧
      (startCount k).projectedBits = k.projectedBits ∧ (startCount k).outBytes = k.outBytes ∧
      (startCount k).inPos = k.inPos ∧ (startCount k).decSyms = k.decSyms ∧ (startCount k).freq = Table.fill 0#32 ∧
      (startCount k).node = k.node ∧ (startCount k).root = k.root ∧ (startCount k).work = k.work ∧
      (startCount k).codeLen = k.codeLen ∧ (startCount k).codeVal = k.codeVal ∧ (startCount k).obuf = k.obuf ∧
      (startCount k).obits = k.obits ∧ (startCount k).ibuf = k.ibuf ∧ (startCount k).ibits = k.ibits :=
  ⟨rfl, rfl, rfl, rfl, rfl, rfl, rfl, rfl, rfl, rfl, rfl, rfl, rfl, rfl, rfl, rfl, rfl, rfl, rfl, rfl, rfl, rfl, rfl⟩

@[simp] theorem countByte_fields (b : Byte) (k : CoreState) :
    (countByte b k).cmd = k.cmd ∧ (countByte b k).status = k.status ∧ (countByte b k).totalBytes = k.totalBytes + 1#32 ∧
      (countByte b k).nsym = k.nsym ∧ (countByte b k).nleaves = k.nleaves ∧ (countByte b k).ninternal = k.ninternal ∧
      (countByte b k).treeBits = k.treeBits ∧ (countByte b k).maxlen = k.maxlen ∧
      (countByte b k).payloadBits = k.payloadBits ∧ (countByte b k).projectedBits = k.projectedBits ∧
      (countByte b k).outBytes = k.outBytes ∧ (countByte b k).inPos = k.inPos ∧ (countByte b k).decSyms = k.decSyms ∧
      (countByte b k).freq = Table.update k.freq b (Table.lookup k.freq b + 1#32) ∧ (countByte b k).node = k.node ∧
      (countByte b k).root = k.root ∧ (countByte b k).work = k.work ∧ (countByte b k).codeLen = k.codeLen ∧
      (countByte b k).codeVal = k.codeVal ∧ (countByte b k).obuf = k.obuf ∧ (countByte b k).obits = k.obits ∧
      (countByte b k).ibuf = k.ibuf ∧ (countByte b k).ibits = k.ibits :=
  ⟨rfl, rfl, rfl, rfl, rfl, rfl, rfl, rfl, rfl, rfl, rfl, rfl, rfl, rfl, rfl, rfl, rfl, rfl, rfl, rfl, rfl, rfl, rfl⟩

@[simp] theorem finishCount_fields (k : CoreState) :
    (finishCount k).cmd = k.cmd ∧ (finishCount k).status = { k.status with freqValid := true } ∧
      (finishCount k).totalBytes = k.totalBytes ∧ (finishCount k).nsym = BitVec.ofNat 9 (presentCount k.freq) ∧
      (finishCount k).nleaves = k.nleaves ∧ (finishCount k).ninternal = k.ninternal ∧
      (finishCount k).treeBits = k.treeBits ∧ (finishCount k).maxlen = k.maxlen ∧
      (finishCount k).payloadBits = k.payloadBits ∧ (finishCount k).projectedBits = k.projectedBits ∧
      (finishCount k).outBytes = k.outBytes ∧ (finishCount k).inPos = k.inPos ∧ (finishCount k).decSyms = k.decSyms ∧
      (finishCount k).freq = k.freq ∧ (finishCount k).node = k.node ∧ (finishCount k).root = k.root ∧
      (finishCount k).work = k.work ∧ (finishCount k).codeLen = k.codeLen ∧ (finishCount k).codeVal = k.codeVal ∧
      (finishCount k).obuf = k.obuf ∧ (finishCount k).obits = k.obits ∧ (finishCount k).ibuf = k.ibuf ∧
      (finishCount k).ibits = k.ibits :=
  ⟨rfl, rfl, rfl, rfl, rfl, rfl, rfl, rfl, rfl, rfl, rfl, rfl, rfl, rfl, rfl, rfl, rfl, rfl, rfl, rfl, rfl, rfl, rfl⟩

@[simp] theorem storeForest_fields (f : Forest) (k : CoreState) :
    (storeForest f k).cmd = k.cmd ∧ (storeForest f k).status = k.status ∧ (storeForest f k).totalBytes = k.totalBytes ∧
      (storeForest f k).nsym = k.nsym ∧ (storeForest f k).nleaves = k.nleaves ∧ (storeForest f k).ninternal = k.ninternal ∧
      (storeForest f k).treeBits = k.treeBits ∧ (storeForest f k).maxlen = k.maxlen ∧
      (storeForest f k).payloadBits = k.payloadBits ∧ (storeForest f k).projectedBits = k.projectedBits ∧
      (storeForest f k).outBytes = k.outBytes ∧ (storeForest f k).inPos = k.inPos ∧ (storeForest f k).decSyms = k.decSyms ∧
      (storeForest f k).freq = k.freq ∧ (storeForest f k).node = f.nodes ∧
      (storeForest f k).root = Fin.ofNat 512 (f.nodes.length - 1) ∧ (storeForest f k).work = f.slots ∧
      (storeForest f k).codeLen = k.codeLen ∧ (storeForest f k).codeVal = k.codeVal ∧ (storeForest f k).obuf = k.obuf ∧
      (storeForest f k).obits = k.obits ∧ (storeForest f k).ibuf = k.ibuf ∧ (storeForest f k).ibits = k.ibits :=
  ⟨rfl, rfl, rfl, rfl, rfl, rfl, rfl, rfl, rfl, rfl, rfl, rfl, rfl, rfl, rfl, rfl, rfl, rfl, rfl, rfl, rfl, rfl, rfl⟩

@[simp] theorem setTreeSize_fields (k : CoreState) :
    (setTreeSize k).cmd = k.cmd ∧ (setTreeSize k).status = k.status ∧ (setTreeSize k).totalBytes = k.totalBytes ∧
      (setTreeSize k).nsym = k.nsym ∧ (setTreeSize k).nleaves = BitVec.ofNat 9 (leafCount k.node) ∧
      (setTreeSize k).ninternal = BitVec.ofNat 9 (k.node.length - leafCount k.node) ∧
      (setTreeSize k).treeBits = BitVec.ofNat 12 (9 * leafCount k.node + (k.node.length - leafCount k.node)) ∧
      (setTreeSize k).maxlen = k.maxlen ∧ (setTreeSize k).payloadBits = k.payloadBits ∧
      (setTreeSize k).projectedBits = k.projectedBits ∧ (setTreeSize k).outBytes = k.outBytes ∧
      (setTreeSize k).inPos = k.inPos ∧ (setTreeSize k).decSyms = k.decSyms ∧ (setTreeSize k).freq = k.freq ∧
      (setTreeSize k).node = k.node ∧ (setTreeSize k).root = k.root ∧ (setTreeSize k).work = k.work ∧
      (setTreeSize k).codeLen = k.codeLen ∧ (setTreeSize k).codeVal = k.codeVal ∧ (setTreeSize k).obuf = k.obuf ∧
      (setTreeSize k).obits = k.obits ∧ (setTreeSize k).ibuf = k.ibuf ∧ (setTreeSize k).ibits = k.ibits :=
  ⟨rfl, rfl, rfl, rfl, rfl, rfl, rfl, rfl, rfl, rfl, rfl, rfl, rfl, rfl, rfl, rfl, rfl, rfl, rfl, rfl, rfl, rfl, rfl⟩

@[simp] theorem setBuilt_fields (k : CoreState) :
    (setBuilt k).cmd = k.cmd ∧ (setBuilt k).status = { k.status with treeValid := true, treeBuilt := true } ∧
      (setBuilt k).totalBytes = k.totalBytes ∧ (setBuilt k).nsym = k.nsym ∧ (setBuilt k).nleaves = k.nleaves ∧
      (setBuilt k).ninternal = k.ninternal ∧ (setBuilt k).treeBits = k.treeBits ∧ (setBuilt k).maxlen = k.maxlen ∧
      (setBuilt k).payloadBits = k.payloadBits ∧ (setBuilt k).projectedBits = k.projectedBits ∧
      (setBuilt k).outBytes = k.outBytes ∧ (setBuilt k).inPos = k.inPos ∧ (setBuilt k).decSyms = k.decSyms ∧
      (setBuilt k).freq = k.freq ∧ (setBuilt k).node = k.node ∧ (setBuilt k).root = k.root ∧ (setBuilt k).work = k.work ∧
      (setBuilt k).codeLen = k.codeLen ∧ (setBuilt k).codeVal = k.codeVal ∧ (setBuilt k).obuf = k.obuf ∧
      (setBuilt k).obits = k.obits ∧ (setBuilt k).ibuf = k.ibuf ∧ (setBuilt k).ibits = k.ibits :=
  ⟨rfl, rfl, rfl, rfl, rfl, rfl, rfl, rfl, rfl, rfl, rfl, rfl, rfl, rfl, rfl, rfl, rfl, rfl, rfl, rfl, rfl, rfl, rfl⟩

@[simp] theorem storeCodes_fields (c : Codes) (k : CoreState) :
    (storeCodes c k).cmd = k.cmd ∧ (storeCodes c k).status = { k.status with codesValid := true } ∧
      (storeCodes c k).totalBytes = k.totalBytes ∧ (storeCodes c k).nsym = k.nsym ∧ (storeCodes c k).nleaves = k.nleaves ∧
      (storeCodes c k).ninternal = k.ninternal ∧ (storeCodes c k).treeBits = k.treeBits ∧
      (storeCodes c k).maxlen = BitVec.ofNat 8 (maxCodeLen c.len) ∧ (storeCodes c k).payloadBits = k.payloadBits ∧
      (storeCodes c k).projectedBits = k.projectedBits ∧ (storeCodes c k).outBytes = k.outBytes ∧
      (storeCodes c k).inPos = k.inPos ∧ (storeCodes c k).decSyms = k.decSyms ∧ (storeCodes c k).freq = k.freq ∧
      (storeCodes c k).node = k.node ∧ (storeCodes c k).root = k.root ∧ (storeCodes c k).work = k.work ∧
      (storeCodes c k).codeLen = c.len ∧ (storeCodes c k).codeVal = c.val ∧ (storeCodes c k).obuf = k.obuf ∧
      (storeCodes c k).obits = k.obits ∧ (storeCodes c k).ibuf = k.ibuf ∧ (storeCodes c k).ibits = k.ibits :=
  ⟨rfl, rfl, rfl, rfl, rfl, rfl, rfl, rfl, rfl, rfl, rfl, rfl, rfl, rfl, rfl, rfl, rfl, rfl, rfl, rfl, rfl, rfl, rfl⟩

@[simp] theorem allocNode_fields (k : CoreState) :
    (allocNode k).cmd = k.cmd ∧ (allocNode k).status = k.status ∧ (allocNode k).totalBytes = k.totalBytes ∧
      (allocNode k).nsym = k.nsym ∧ (allocNode k).nleaves = k.nleaves ∧ (allocNode k).ninternal = k.ninternal ∧
      (allocNode k).treeBits = k.treeBits ∧ (allocNode k).maxlen = k.maxlen ∧ (allocNode k).payloadBits = k.payloadBits ∧
      (allocNode k).projectedBits = k.projectedBits ∧ (allocNode k).outBytes = k.outBytes ∧ (allocNode k).inPos = k.inPos ∧
      (allocNode k).decSyms = k.decSyms ∧ (allocNode k).freq = k.freq ∧
      (allocNode k).node = k.node ++ [.leaf 0#8 0#32 false] ∧ (allocNode k).root = k.root ∧ (allocNode k).work = k.work ∧
      (allocNode k).codeLen = k.codeLen ∧ (allocNode k).codeVal = k.codeVal ∧ (allocNode k).obuf = k.obuf ∧
      (allocNode k).obits = k.obits ∧ (allocNode k).ibuf = k.ibuf ∧ (allocNode k).ibits = k.ibits :=
  ⟨rfl, rfl, rfl, rfl, rfl, rfl, rfl, rfl, rfl, rfl, rfl, rfl, rfl, rfl, rfl, rfl, rfl, rfl, rfl, rfl, rfl, rfl, rfl⟩

@[simp] theorem writeNode_fields (i : NodeIdx) (n : Node) (k : CoreState) :
    (writeNode i n k).cmd = k.cmd ∧ (writeNode i n k).status = k.status ∧ (writeNode i n k).totalBytes = k.totalBytes ∧
      (writeNode i n k).nsym = k.nsym ∧ (writeNode i n k).nleaves = k.nleaves ∧ (writeNode i n k).ninternal = k.ninternal ∧
      (writeNode i n k).treeBits = k.treeBits ∧ (writeNode i n k).maxlen = k.maxlen ∧
      (writeNode i n k).payloadBits = k.payloadBits ∧ (writeNode i n k).projectedBits = k.projectedBits ∧
      (writeNode i n k).outBytes = k.outBytes ∧ (writeNode i n k).inPos = k.inPos ∧ (writeNode i n k).decSyms = k.decSyms ∧
      (writeNode i n k).freq = k.freq ∧ (writeNode i n k).node = k.node.set i.val n ∧ (writeNode i n k).root = k.root ∧
      (writeNode i n k).work = k.work ∧ (writeNode i n k).codeLen = k.codeLen ∧ (writeNode i n k).codeVal = k.codeVal ∧
      (writeNode i n k).obuf = k.obuf ∧ (writeNode i n k).obits = k.obits ∧ (writeNode i n k).ibuf = k.ibuf ∧
      (writeNode i n k).ibits = k.ibits :=
  ⟨rfl, rfl, rfl, rfl, rfl, rfl, rfl, rfl, rfl, rfl, rfl, rfl, rfl, rfl, rfl, rfl, rfl, rfl, rfl, rfl, rfl, rfl, rfl⟩

@[simp] theorem setRoot_fields (r : NodeIdx) (k : CoreState) :
    (setRoot r k).cmd = k.cmd ∧ (setRoot r k).status = k.status ∧ (setRoot r k).totalBytes = k.totalBytes ∧
      (setRoot r k).nsym = k.nsym ∧ (setRoot r k).nleaves = k.nleaves ∧ (setRoot r k).ninternal = k.ninternal ∧
      (setRoot r k).treeBits = k.treeBits ∧ (setRoot r k).maxlen = k.maxlen ∧ (setRoot r k).payloadBits = k.payloadBits ∧
      (setRoot r k).projectedBits = k.projectedBits ∧ (setRoot r k).outBytes = k.outBytes ∧ (setRoot r k).inPos = k.inPos ∧
      (setRoot r k).decSyms = k.decSyms ∧ (setRoot r k).freq = k.freq ∧ (setRoot r k).node = k.node ∧
      (setRoot r k).root = r ∧ (setRoot r k).work = k.work ∧ (setRoot r k).codeLen = k.codeLen ∧
      (setRoot r k).codeVal = k.codeVal ∧ (setRoot r k).obuf = k.obuf ∧ (setRoot r k).obits = k.obits ∧
      (setRoot r k).ibuf = k.ibuf ∧ (setRoot r k).ibits = k.ibits :=
  ⟨rfl, rfl, rfl, rfl, rfl, rfl, rfl, rfl, rfl, rfl, rfl, rfl, rfl, rfl, rfl, rfl, rfl, rfl, rfl, rfl, rfl, rfl, rfl⟩

@[simp] theorem setRead_fields (k : CoreState) :
    (setRead k).cmd = k.cmd ∧ (setRead k).status = { k.status with treeValid := true } ∧
      (setRead k).totalBytes = k.totalBytes ∧ (setRead k).nsym = k.nsym ∧ (setRead k).nleaves = k.nleaves ∧
      (setRead k).ninternal = k.ninternal ∧ (setRead k).treeBits = k.treeBits ∧ (setRead k).maxlen = k.maxlen ∧
      (setRead k).payloadBits = k.payloadBits ∧ (setRead k).projectedBits = k.projectedBits ∧
      (setRead k).outBytes = k.outBytes ∧ (setRead k).inPos = k.inPos ∧ (setRead k).decSyms = k.decSyms ∧
      (setRead k).freq = k.freq ∧ (setRead k).node = k.node ∧ (setRead k).root = k.root ∧ (setRead k).work = k.work ∧
      (setRead k).codeLen = k.codeLen ∧ (setRead k).codeVal = k.codeVal ∧ (setRead k).obuf = k.obuf ∧
      (setRead k).obits = k.obits ∧ (setRead k).ibuf = k.ibuf ∧ (setRead k).ibits = k.ibits :=
  ⟨rfl, rfl, rfl, rfl, rfl, rfl, rfl, rfl, rfl, rfl, rfl, rfl, rfl, rfl, rfl, rfl, rfl, rfl, rfl, rfl, rfl, rfl, rfl⟩

@[simp] theorem countSymbol_fields (k : CoreState) :
    (countSymbol k).cmd = k.cmd ∧ (countSymbol k).status = k.status ∧ (countSymbol k).totalBytes = k.totalBytes ∧
      (countSymbol k).nsym = k.nsym ∧ (countSymbol k).nleaves = k.nleaves ∧ (countSymbol k).ninternal = k.ninternal ∧
      (countSymbol k).treeBits = k.treeBits ∧ (countSymbol k).maxlen = k.maxlen ∧
      (countSymbol k).payloadBits = k.payloadBits ∧ (countSymbol k).projectedBits = k.projectedBits ∧
      (countSymbol k).outBytes = k.outBytes ∧ (countSymbol k).inPos = k.inPos ∧ (countSymbol k).decSyms = k.decSyms + 1#64 ∧
      (countSymbol k).freq = k.freq ∧ (countSymbol k).node = k.node ∧ (countSymbol k).root = k.root ∧
      (countSymbol k).work = k.work ∧ (countSymbol k).codeLen = k.codeLen ∧ (countSymbol k).codeVal = k.codeVal ∧
      (countSymbol k).obuf = k.obuf ∧ (countSymbol k).obits = k.obits ∧ (countSymbol k).ibuf = k.ibuf ∧
      (countSymbol k).ibits = k.ibits :=
  ⟨rfl, rfl, rfl, rfl, rfl, rfl, rfl, rfl, rfl, rfl, rfl, rfl, rfl, rfl, rfl, rfl, rfl, rfl, rfl, rfl, rfl, rfl, rfl⟩

@[simp] theorem storeSizes_fields (k : CoreState) :
    (storeSizes k).cmd = k.cmd ∧
      (storeSizes k).status = { k.status with smaller := decide (projectedSize k < 8 * k.totalBytes.toNat), sizesValid := true } ∧
      (storeSizes k).totalBytes = k.totalBytes ∧ (storeSizes k).nsym = k.nsym ∧ (storeSizes k).nleaves = k.nleaves ∧
      (storeSizes k).ninternal = k.ninternal ∧ (storeSizes k).treeBits = k.treeBits ∧ (storeSizes k).maxlen = k.maxlen ∧
      (storeSizes k).payloadBits = BitVec.ofNat 64 (payloadSize k) ∧
      (storeSizes k).projectedBits = BitVec.ofNat 64 (projectedSize k) ∧ (storeSizes k).outBytes = k.outBytes ∧
      (storeSizes k).inPos = k.inPos ∧ (storeSizes k).decSyms = k.decSyms ∧ (storeSizes k).freq = k.freq ∧
      (storeSizes k).node = k.node ∧ (storeSizes k).root = k.root ∧ (storeSizes k).work = k.work ∧
      (storeSizes k).codeLen = k.codeLen ∧ (storeSizes k).codeVal = k.codeVal ∧ (storeSizes k).obuf = k.obuf ∧
      (storeSizes k).obits = k.obits ∧ (storeSizes k).ibuf = k.ibuf ∧ (storeSizes k).ibits = k.ibits :=
  ⟨rfl, rfl, rfl, rfl, rfl, rfl, rfl, rfl, rfl, rfl, rfl, rfl, rfl, rfl, rfl, rfl, rfl, rfl, rfl, rfl, rfl, rfl, rfl⟩

end Sys2Proof.Machine
end

