-- ==== Sys2Proof/Laws/Ops.lean ====
section
/-! SUPPORT. What each shared operation can do, said once: the draws, the stream transactions, the run of a command, and the host's
accesses. Proofs about commands cite these instead of unfolding the operations. -/

namespace Sys2Proof.Machine

/-! ## Sequencing in the engine -/

theorem engine_bind_ok {ε α β : Type} {x : EStateM ε Codec α} {f : α → EStateM ε Codec β} {c c' : Codec} {b : β} :
    (x >>= f) c = .ok b c' ↔ ∃ a c1, x c = .ok a c1 ∧ f a c1 = .ok b c' := by
  simp only [bind, EStateM.bind]
  cases x c <;> simp

theorem engine_bind_error {ε α β : Type} {x : EStateM ε Codec α} {f : α → EStateM ε Codec β} {c c' : Codec} {e : ε} :
    (x >>= f) c = .error e c' ↔ x c = .error e c' ∨ ∃ a c1, x c = .ok a c1 ∧ f a c1 = .error e c' := by
  simp only [bind, EStateM.bind]
  cases x c <;> simp

/-- A computation followed by another, where the first one's result is known. -/
theorem engine_bind_of_ok {ε α β : Type} {x : EStateM ε Codec α} {f : α → EStateM ε Codec β} {c c1 : Codec} {a : α}
    (h : x c = .ok a c1) : (x >>= f) c = f a c1 := by
  simp only [bind, EStateM.bind, h]

/-- A computation followed by another, where the first one ends early. -/
theorem engine_bind_of_error {ε α β : Type} {x : EStateM ε Codec α} {f : α → EStateM ε Codec β} {c c1 : Codec} {e : ε}
    (h : x c = .error e c1) : (x >>= f) c = .error e c1 := by
  simp only [bind, EStateM.bind, h]

@[simp] theorem pure_apply {ε α : Type} (a : α) (c : Codec) : (pure a : EStateM ε Codec α) c = .ok a c := rfl
@[simp] theorem get_apply {ε : Type} (c : Codec) : (get : EStateM ε Codec Codec) c = .ok c c := rfl
@[simp] theorem set_apply {ε : Type} (c c' : Codec) : (set c' : EStateM ε Codec PUnit) c = .ok () c' := rfl
@[simp] theorem modify_apply {ε : Type} (f : Codec → Codec) (c : Codec) :
    (modify f : EStateM ε Codec PUnit) c = .ok () (f c) := rfl
@[simp] theorem modifyCore_apply (f : CoreState → CoreState) (c : Codec) : modifyCore f c = .ok () (c.mapCore f) := rfl
@[simp] theorem getCore_apply (c : Codec) : getCore c = .ok c.core c := rfl
@[simp] theorem getParams_apply (c : Codec) : getParams c = .ok c.params c := rfl
@[simp] theorem raise_apply {α : Type} (e : ErrCode) (c : Codec) : (raise e : EngineM α) c = .error (.raise e) c := rfl
@[simp] theorem crash_apply {α : Type} (f : Fault) (c : Codec) :
    (crash f : EngineM α) c = .error (.halt (.fault f)) c := rfl
@[simp] theorem binAtEnd_apply (c : Codec) : binAtEnd c = .ok c.io.atEnd c := rfl
@[simp] theorem bitAtEnd_apply (c : Codec) : bitAtEnd c = .ok c.bitAtEnd c := rfl
@[simp] theorem complete_apply (c : Codec) : complete c = .ok () (c.mapCore setDone) := rfl

theorem quiet_ok {α : Type} {x : QuietM α} {c c' : Codec} {a : α} : quiet x c = .ok a c' ↔ x c = .ok a c' := by
  simp only [quiet, EStateM.adaptExcept]
  cases x c <;> simp

theorem quiet_error {α : Type} {x : QuietM α} {c c' : Codec} {e : Stop} :
    quiet x c = .error e c' ↔ ∃ h, e = .halt h ∧ x c = .error h c' := by
  simp only [quiet, EStateM.adaptExcept]
  cases x c <;> simp [eq_comm]

/-- The value of a walk is used, or its fault stops the machine. -/
@[simp] theorem need_ok {α : Type} (a : α) (c : Codec) : need (.ok a) c = .ok a c := rfl
@[simp] theorem need_error {α : Type} (f : Fault) (c : Codec) :
    (need (.error f) : EngineM α) c = .error (.halt (.fault f)) c := rfl

/-! ## The environment's draws -/

theorem Draws.allOk.answered {d : Draws} (h : d.allOk) : d.answered :=
  ⟨fun hw => by simpa using h.1 _ hw, by simp [h.2]⟩

theorem Draws.pop_allOk {d : Draws} (h : d.allOk) : d.pop.1 = .ok ∧ d.pop.2.allOk := by
  obtain ⟨l, r⟩ := d
  cases l with
  | nil => exact ⟨h.2, h⟩
  | cons x xs => exact ⟨h.1 x (by simp), fun y hy => h.1 y (List.mem_cons_of_mem _ hy), h.2⟩

@[simp] theorem Draws.okFor_zero (d : Draws) : d.okFor 0 = true := rfl
@[simp] theorem Draws.after_zero (d : Draws) : d.after 0 = d := rfl
@[simp] theorem Draws.okFor_succ (n : Nat) (d : Draws) : d.okFor (n + 1) = (d.pop.1 == .ok && d.pop.2.okFor n) := rfl
@[simp] theorem Draws.after_succ (n : Nat) (d : Draws) : d.after (n + 1) = d.pop.2.after n := rfl

/-- Working I/O is success for as long as one likes. -/
theorem Draws.allOk.okFor {d : Draws} (h : d.allOk) (n : Nat) : d.okFor n = true := by
  induction n generalizing d with
  | zero => rfl
  | succ n ih => simp [(pop_allOk h).1, ih (pop_allOk h).2]

/-- Taken `n` and then `m` draws at a time. -/
theorem Draws.okFor_add (n m : Nat) (d : Draws) : d.okFor (n + m) = (d.okFor n && (d.after n).okFor m) := by
  induction n generalizing d with
  | zero => simp
  | succ n ih => simp [Nat.succ_add, ih, Bool.and_assoc]

theorem Draws.after_add (n m : Nat) (d : Draws) : d.after (n + m) = (d.after n).after m := by
  induction n generalizing d with
  | zero => simp
  | succ n ih => simp [Nat.succ_add, ih]

theorem Draws.pop_answered {d : Draws} (h : d.answered) : d.pop.1 ≠ .wait ∧ d.pop.2.answered := by
  obtain ⟨l, r⟩ := d
  cases l with
  | nil => simp_all [Draws.pop, Draws.answered]
  | cons x xs =>
    obtain ⟨h1, h2⟩ := h
    simp only [List.mem_cons, not_or] at h1
    exact ⟨Ne.symm h1.1, h1.2, h2⟩

theorem Draws.pop_silent {d : Draws} (h : d.silent) : d.pop.1 = .wait := by
  obtain ⟨l, r⟩ := d
  cases l <;> simp_all [Draws.pop, Draws.silent]

/-- Where the environment answers, no listed `wait` stands at the head. -/
theorem Draws.answered.head_ne {d : Draws} (h : d.answered) : d.listed.head? ≠ some .wait := fun hh =>
  h.1 (List.mem_of_mem_head? hh)

/-! ## Stream transactions -/

/-- The codec after a draw. -/
abbrev Codec.drawn (c : Codec) : Codec := c.mapIo fun io => { io with draws := io.draws.pop.2 }

theorem transact_ok {c : Codec} (t : Txn) (h : c.io.draws.pop.1 = .ok) : transact t c = .ok true c.drawn := by
  rcases hp : c.io.draws.pop with ⟨x, ds⟩
  simp_all [transact, Codec.mapIo]

theorem transact_fail {c : Codec} (t : Txn) (h : c.io.draws.pop.1 = .fail) : transact t c = .ok false c.drawn := by
  rcases hp : c.io.draws.pop with ⟨x, ds⟩
  simp_all [transact, Codec.mapIo]

theorem transact_wait {c : Codec} (t : Txn) (h : c.io.draws.pop.1 = .wait) : transact t c = .error (.wait t) c.drawn := by
  rcases hp : c.io.draws.pop with ⟨x, ds⟩
  simp_all [transact, Codec.mapIo]

/-- All that a transaction can do. -/
theorem transact_cases (t : Txn) (c : Codec) :
    (c.io.draws.pop.1 = .ok ∧ transact t c = .ok true c.drawn) ∨
    (c.io.draws.pop.1 = .fail ∧ transact t c = .ok false c.drawn) ∨
    (c.io.draws.pop.1 = .wait ∧ transact t c = .error (.wait t) c.drawn) := by
  cases h : c.io.draws.pop.1 with
  | ok => exact .inl ⟨rfl, transact_ok t h⟩
  | fail => exact .inr (.inl ⟨rfl, transact_fail t h⟩)
  | wait => exact .inr (.inr ⟨rfl, transact_wait t h⟩)

theorem takeByte_some {c : Codec} {b : Byte} (h : c.io.input[c.io.ipos]? = some b) : takeByte c = .ok b c.advanceInput := by
  simp only [takeByte, h]

theorem takeByte_none {c : Codec} (h : c.io.input[c.io.ipos]? = none) :
    takeByte c = .error (.halt (.fault .readPastEnd)) c := by
  simp only [takeByte, h]

theorem binRead_ok {c : Codec} {b : Byte} (hd : c.io.draws.pop.1 = .ok) (h : c.io.input[c.io.ipos]? = some b) :
    binRead c = .ok b c.drawn.advanceInput := by
  rw [binRead, engine_bind_of_ok (quiet_ok.2 (transact_ok .read hd))]
  exact takeByte_some h

theorem binRead_fail {c : Codec} (hd : c.io.draws.pop.1 = .fail) : binRead c = .error (.raise .ioIn) c.drawn := by
  rw [binRead, engine_bind_of_ok (quiet_ok.2 (transact_fail .read hd))]
  rfl

theorem binRead_wait {c : Codec} (hd : c.io.draws.pop.1 = .wait) :
    binRead c = .error (.halt (.wait .read)) c.drawn := by
  rw [binRead, engine_bind_of_error (quiet_error.2 ⟨_, rfl, transact_wait .read hd⟩)]

theorem binRewind_ok {c : Codec} (hd : c.io.draws.pop.1 = .ok) : binRewind c = .ok () c.drawn.rewound := by
  rw [binRewind, engine_bind_of_ok (quiet_ok.2 (transact_ok .rewind hd))]
  rfl

theorem binRewind_fail {c : Codec} (hd : c.io.draws.pop.1 = .fail) : binRewind c = .error (.raise .ioIn) c.drawn := by
  rw [binRewind, engine_bind_of_ok (quiet_ok.2 (transact_fail .rewind hd))]
  rfl

theorem binRewind_wait {c : Codec} (hd : c.io.draws.pop.1 = .wait) :
    binRewind c = .error (.halt (.wait .rewind)) c.drawn := by
  rw [binRewind, engine_bind_of_error (quiet_error.2 ⟨_, rfl, transact_wait .rewind hd⟩)]

theorem tryWrite_ok {c : Codec} (b : Byte) (hd : c.io.draws.pop.1 = .ok) (ho : c.io.outClosed = false) :
    tryWrite b c = .ok true (c.drawn.appended b) := by
  rw [tryWrite, engine_bind_of_ok (transact_ok _ hd), engine_bind_of_ok (get_apply _)]
  simp [ho, engine_bind_of_ok (set_apply _ _)]

theorem tryWrite_fail {c : Codec} (b : Byte) (hd : c.io.draws.pop.1 = .fail) : tryWrite b c = .ok false c.drawn := by
  rw [tryWrite, engine_bind_of_ok (transact_fail _ hd), engine_bind_of_ok (get_apply _)]
  simp

theorem tryWrite_closed {c : Codec} (b : Byte) (hd : c.io.draws.pop.1 ≠ .wait) (ho : c.io.outClosed = true) :
    tryWrite b c = .ok false c.drawn := by
  rcases transact_cases (.write b) c with ⟨-, h⟩ | ⟨-, h⟩ | ⟨h, -⟩
  · rw [tryWrite, engine_bind_of_ok h, engine_bind_of_ok (get_apply _)]
    simp [ho]
  · rw [tryWrite, engine_bind_of_ok h, engine_bind_of_ok (get_apply _)]
    simp
  · exact absurd h hd

theorem tryWrite_wait {c : Codec} (b : Byte) (hd : c.io.draws.pop.1 = .wait) :
    tryWrite b c = .error (.wait (.write b)) c.drawn := by
  rw [tryWrite, engine_bind_of_error (transact_wait _ hd)]

/-- All that a byte write can do. -/
theorem tryWrite_cases (b : Byte) (c : Codec) :
    (c.io.outClosed = false ∧ tryWrite b c = .ok true (c.drawn.appended b)) ∨
    tryWrite b c = .ok false c.drawn ∨ (c.io.draws.pop.1 = .wait ∧ tryWrite b c = .error (.wait (.write b)) c.drawn) := by
  cases h : c.io.draws.pop.1 with
  | ok =>
    cases ho : c.io.outClosed with
    | false => exact .inl ⟨rfl, tryWrite_ok b h ho⟩
    | true => exact .inr (.inl (tryWrite_closed b (by simp [h]) ho))
  | fail => exact .inr (.inl (tryWrite_fail b h))
  | wait => exact .inr (.inr ⟨rfl, tryWrite_wait b h⟩)

theorem boutWrite_ok {c : Codec} (b : Byte) (hd : c.io.draws.pop.1 = .ok) (ho : c.io.outClosed = false) :
    boutWrite b c = .ok () (c.drawn.appended b) := by
  rw [boutWrite, engine_bind_of_ok (quiet_ok.2 (tryWrite_ok b hd ho))]
  rfl

theorem boutWrite_of_false {b : Byte} {c c1 : Codec} (h : tryWrite b c = .ok false c1) :
    boutWrite b c = .error (.raise .ioOut) c1 := by
  rw [boutWrite, engine_bind_of_ok (quiet_ok.2 h)]
  rfl

theorem boutWrite_wait {c : Codec} (b : Byte) (hd : c.io.draws.pop.1 = .wait) :
    boutWrite b c = .error (.halt (.wait (.write b))) c.drawn := by
  rw [boutWrite, engine_bind_of_error (quiet_error.2 ⟨_, rfl, tryWrite_wait b hd⟩)]

theorem tryClose_ok {c : Codec} (hd : c.io.draws.pop.1 = .ok) :
    tryClose c = .ok true (c.drawn.mapIo fun io => { io with outClosed := true }) := by
  rw [tryClose, engine_bind_of_ok (transact_ok _ hd)]
  rfl

theorem tryClose_fail {c : Codec} (hd : c.io.draws.pop.1 = .fail) : tryClose c = .ok false c.drawn := by
  rw [tryClose, engine_bind_of_ok (transact_fail _ hd)]
  rfl

theorem tryClose_wait {c : Codec} (hd : c.io.draws.pop.1 = .wait) : tryClose c = .error (.wait .close) c.drawn := by
  rw [tryClose, engine_bind_of_error (transact_wait _ hd)]

/-! ## The run of a command -/

theorem withErrorExit_ok {body : EngineM Unit} {c c' : Codec} (h : body c = .ok () c') : withErrorExit body c = .ok () c' := by
  simp only [withErrorExit, h]

theorem withErrorExit_halt {body : EngineM Unit} {c c' : Codec} {x : Halt} (h : body c = .error (.halt x) c') :
    withErrorExit body c = .error x c' := by
  simp only [withErrorExit, h]

theorem afterAccept_of_pre {pre : CoreState → Bool} {c : Codec} (clear : CoreState → CoreState) (body : EngineM Unit)
    (h : pre c.core = true) : afterAccept pre clear body c = withErrorExit body (c.mapCore clear) := by
  simp [afterAccept, h]

theorem afterAccept_of_not_pre {pre : CoreState → Bool} {c : Codec} (clear : CoreState → CoreState) (body : EngineM Unit)
    (h : pre c.core = false) : afterAccept pre clear body c = .ok () (preciseError .sequence c) := by
  simp [afterAccept, h]

/-- A run that reaches its end, with no listed `wait` before it, leaves ENG idle. -/
theorem settle_done {w : Word} {s : State} {c : Codec} (h : c.io.draws.listed.head? ≠ some .wait) :
    settle w s (.ok () c) = .next { s with codec := c, eng := .idle } := by
  unfold settle
  split
  · simp_all
  · simp_all
  · split
    · simp_all
    · simp_all

/-- All that the end of a command's run can be: done, or suspended at a `wait`. -/
theorem settle_next {w : Word} {s t : State} {r : EStateM.Result Halt Codec Unit} (h : settle w s r = .next t) :
    (∃ c, r = .ok () c ∧ t = { s with codec := c, eng := .idle }) ∨
    (∃ c ds, r = .ok () c ∧ c.io.draws.listed = .wait :: ds ∧
      t = s.suspend w none { c.io with draws := { c.io.draws with listed := ds } }) ∨
    (∃ c x, r = .error (.wait x) c ∧ t = s.suspend w (some x) c.io) := by
  unfold settle at h
  split at h
  · cases h
  · rename_i x c
    exact .inr (.inr ⟨c, x, rfl, by simpa using h.symm⟩)
  · rename_i c
    split at h
    · rename_i ds hd
      exact .inr (.inl ⟨c, ds, rfl, hd, by simpa using h.symm⟩)
    · exact .inl ⟨c, rfl, by simpa using h.symm⟩

theorem writeWord_busy {w v : Word} {start : Codec} {x : Option Txn} {s : State} (after : QuietM Unit)
    (h : s.eng = .busy v start x) : writeWord w after s = .next s.dropWrite := by
  simp only [writeWord, h]

theorem writeWord_idle {s : State} (w : Word) (after : QuietM Unit) (h : s.eng = .idle) :
    writeWord w after s = settle w s (after (s.codec.accept w)) := by
  simp only [writeWord, h]

theorem dropWrite_busy {w : Word} {start : Codec} {x : Option Txn} {s : State} (h : s.eng = .busy w start x) :
    s.dropWrite = { s with codec := s.codec.mapCore setOvr, eng := .busy w (start.mapCore setOvr) x } := by
  simp only [State.dropWrite, h]

/-- A command issued while ENG is idle with its precondition met runs its rule from the cleared state. -/
theorem issue_of_pre {i : Instr} {pre : CoreState → Bool} {s : State} (clear : CoreState → CoreState) (body : EngineM Unit)
    (hs : s.eng = .idle) (hp : pre (acceptWord (encode i) s.codec.core) = true) :
    issue i pre clear body s =
      settle (encode i) s (withErrorExit body ((s.codec.accept (encode i)).mapCore clear)) := by
  rw [issue, writeWord_idle _ _ hs, afterAccept_of_pre _ _ (by simpa using hp)]

/-- A command issued while ENG is idle without its precondition ends in SEQUENCE. -/
theorem issue_of_not_pre {i : Instr} {pre : CoreState → Bool} {s : State} (clear : CoreState → CoreState) (body : EngineM Unit)
    (hs : s.eng = .idle) (hp : pre (acceptWord (encode i) s.codec.core) = false) :
    issue i pre clear body s =
      settle (encode i) s (.ok () (preciseError .sequence (s.codec.accept (encode i)))) := by
  rw [issue, writeWord_idle _ _ hs, afterAccept_of_not_pre _ _ (by simpa using hp)]

theorem issue_busy {i : Instr} {v : Word} {start : Codec} {x : Option Txn} {s : State} (pre : CoreState → Bool)
    (clear : CoreState → CoreState) (body : EngineM Unit) (h : s.eng = .busy v start x) :
    issue i pre clear body s = .next s.dropWrite := writeWord_busy _ h

/-- All that a command can do when the machine goes on. -/
theorem issue_next {i : Instr} {pre : CoreState → Bool} {clear : CoreState → CoreState} {body : EngineM Unit} {s t : State}
    (h : issue i pre clear body s = .next t) :
    (s.isBusy = true ∧ t = s.dropWrite) ∨
    (s.eng = .idle ∧ ∃ r, r = afterAccept pre clear body (s.codec.accept (encode i)) ∧
      settle (encode i) s r = .next t) := by
  cases hs : s.eng with
  | idle => exact .inr ⟨rfl, _, rfl, by rw [← writeWord_idle _ _ hs]; exact h⟩
  | busy v start x =>
    rw [issue_busy _ _ _ hs] at h
    exact .inl ⟨by simp [State.isBusy, hs], by simpa using h.symm⟩

/-! ## Preconditions and acceptance -/

/-- Acceptance does not change what a precondition tests. -/
@[simp] theorem preconditions_accept (w : Word) (k : CoreState) :
    preBuild (acceptWord w k) = preBuild k ∧ preGencodes (acceptWord w k) = preGencodes k ∧
      preWrtree (acceptWord w k) = preWrtree k ∧ preEncode (acceptWord w k) = preEncode k ∧
      preDecode (acceptWord w k) = preDecode k ∧ preProject (acceptWord w k) = preProject k ∧
      preWrmagic (acceptWord w k) = preWrmagic k ∧ preNone (acceptWord w k) = preNone k :=
  ⟨rfl, rfl, rfl, rfl, rfl, rfl, rfl, rfl⟩

/-! ## Tables -/

@[simp] theorem Table.lookup_update_self {α : Type} (t : Table α) (b : Byte) (v : α) : (t.update b v).lookup b = v := by
  simp [Table.lookup, Table.update]

theorem Table.lookup_update_ne {α : Type} (t : Table α) {b b' : Byte} (v : α) (h : b' ≠ b) :
    (t.update b v).lookup b' = t.lookup b' := by
  have : b.toNat ≠ b'.toNat := fun hh => h (BitVec.eq_of_toNat_eq hh.symm)
  simp [Table.lookup, Table.update, this]

@[simp] theorem Table.lookup_fill {α : Type} (v : α) (b : Byte) : (Table.fill v).lookup b = v := by
  simp [Table.lookup, Table.fill]

theorem mem_allSymbols (b : Byte) : b ∈ allSymbols := by
  simp only [allSymbols, List.mem_map, List.mem_range]
  exact ⟨b.toNat, b.isLt, by simp⟩

theorem allSymbols_nodup : allSymbols.Nodup := by
  unfold allSymbols
  refine List.Nodup.map_on ?_ List.nodup_range
  intro x hx y hy h
  simp only [List.mem_range] at hx hy
  have := congrArg BitVec.toNat h
  simp only [BitVec.toNat_ofNat] at this
  omega

theorem allSymbols_length : allSymbols.length = 256 := by simp [allSymbols]

theorem allSymbols_getElem {i : Nat} (h : i < allSymbols.length) : allSymbols[i] = BitVec.ofNat 8 i := by simp [allSymbols]

/-- A table is the list of its lookups. -/
theorem Table.toList_eq {α : Type} (t : Table α) : t.toList = allSymbols.map t.lookup := by
  refine List.ext_getElem (by simp [allSymbols_length]) fun i h1 h2 => ?_
  have hi : i < 256 := by simpa using h1
  simp [Table.lookup, allSymbols_getElem, Nat.mod_eq_of_lt hi]

theorem Table.entries_eq {α : Type} (t : Table α) : t.entries = allSymbols.map fun s => (s, t.lookup s) := by
  rw [Table.entries, Table.toList_eq]
  simpa using List.zip_map' (f := id) (g := t.lookup) (l := allSymbols)

theorem presentCount_eq (freq : Table (BitVec 32)) :
    presentCount freq = allSymbols.countP fun s => freq.lookup s != 0#32 := by
  rw [presentCount, Table.entries_eq, List.countP_map]
  rfl

theorem presentLeaves_eq (freq : Table (BitVec 32)) : presentLeaves freq =
    (allSymbols.filter fun s => freq.lookup s != 0#32).map fun s => .leaf s (freq.lookup s) false := by
  rw [presentLeaves, Table.entries_eq, List.filter_map, List.map_map]
  rfl

theorem payloadSize_eq (k : CoreState) :
    payloadSize k = (allSymbols.map fun s => (k.freq.lookup s).toNat * (k.codeLen.lookup s).toNat).sum := by
  rw [payloadSize, Table.toList_eq, Table.toList_eq, List.zip_map', List.map_map]
  rfl

theorem maxCodeLen_eq (len : Table (BitVec 8)) :
    maxCodeLen len = (allSymbols.map fun s => (len.lookup s).toNat).foldl max 0 := by
  rw [maxCodeLen, Table.toList_eq, List.map_map]
  rfl

/-! ## The host's accesses -/

/-- All that a host read does: it takes the value in, and counts an unspecified read. -/
theorem hostRead_frame (off : Nat) (s : State) :
    (s.hostRead off).codec = s.codec ∧ (s.hostRead off).eng = s.eng ∧ (s.hostRead off).resetInput = s.resetInput ∧
      (s.hostRead off).host.prog = s.host.prog ∧ (s.hostRead off).host.pc = s.host.pc ∧
      (s.hostRead off).host.polling = s.host.polling := by
  unfold State.hostRead State.readOffset HostSide.noteRead
  split <;> split <;> simp

/-- A poll changes only what the host has read. -/
theorem poll_frame (s : State) : s.poll.codec = s.codec ∧ s.poll.eng = s.eng ∧ s.poll.resetInput = s.resetInput ∧
    s.poll.host.prog = s.host.prog ∧ s.poll.host.pc = s.host.pc := by
  obtain ⟨h1, h2, h3, h4, h5, -⟩ := hostRead_frame 0x008 s
  exact ⟨h1, h2, h3, h4, h5⟩

/-- The offset of an aligned word access of the block. -/
theorem blockOffset_of {p : Params} {off : Nat} (ha : off % 4 = 0) (hl : off ≤ 0xFFC) :
    blockOffset p (p.regBase + off) 4 = some off := by
  simp [blockOffset, ha, hl]

end Sys2Proof.Machine
end

