-- ==== Sys2Proof/Laws/Bits.lean ====
section
/-! SUPPORT. The bit packer and unpacker as operations on bit strings: with working I/O a bit write appends to the output bit stream, a
bit read takes the first bit of the input bit stream (spec/20_memory.md R54 to R58). -/

namespace Sys2Proof.Machine

/-! ## Bits of a byte -/

theorem bitPos_lt (order : BitOrder) {k : Nat} (h : k < 8) : bitPos order k < 8 := by
  cases order <;> simp [bitPos, h]
  omega

theorem bitPos_inj (order : BitOrder) {j k : Nat} (hj : j < 8) (hk : k < 8) : bitPos order j = bitPos order k ↔ j = k := by
  cases order
  · simp only [bitPos]; omega
  · rfl

theorem putBit_getLsbD (x : Byte) {pos : Nat} (hp : pos < 8) (b : Bool) (j : Nat) :
    (putBit x pos b).getLsbD j = if j = pos then b else x.getLsbD j := by
  unfold putBit
  by_cases hj : j < 8
  · cases b <;> by_cases h : j = pos <;> simp [h, hp, hj] <;> omega
  · have : j ≠ pos := by omega
    have hx : x.getLsbD j = false := BitVec.getLsbD_of_ge x j (by omega)
    cases b <;> simp [this, hj, hx]

@[simp] theorem byteBits_length (order : BitOrder) (b : Byte) : (byteBits order b).length = 8 := by simp [byteBits]

@[simp] theorem pendingBits_length (order : BitOrder) (k : CoreState) : (pendingBits order k).length = k.obits.val := by
  simp [pendingBits]

@[simp] theorem unreadBits_length (order : BitOrder) (k : CoreState) : (unreadBits order k).length = k.ibits.val := by
  simp [unreadBits]

/-- The bits of a byte with `n` bits placed and one more written next. -/
theorem range_map_putBit (order : BitOrder) (x : Byte) (b : Bool) {n : Nat} (hn : n < 8) :
    (List.range (n + 1)).map (fun j => (putBit x (bitPos order n) b).getLsbD (bitPos order j)) =
      (List.range n).map (fun j => x.getLsbD (bitPos order j)) ++ [b] := by
  rw [List.range_succ, List.map_append]
  congr 1
  · refine List.map_congr_left fun j hj => ?_
    have hj : j < n := List.mem_range.1 hj
    rw [putBit_getLsbD _ (bitPos_lt order hn), if_neg]
    rw [bitPos_inj order (by omega) hn]
    omega
  · simp [putBit_getLsbD _ (bitPos_lt order hn)]

/-! ## Writing bits -/

/-- `c'` is `c` with `bits` appended to its output bit stream and nothing else changed. -/
structure Wrote (bits : List Bool) (c c' : Codec) : Prop where
  outBits : c'.outBits = c.outBits ++ bits
  core : c'.core = { c.core with obuf := c'.core.obuf, obits := c'.core.obits, outBytes := c'.core.outBytes }
  params : c'.params = c.params
  input : c'.io.input = c.io.input
  ipos : c'.io.ipos = c.io.ipos
  outClosed : c'.io.outClosed = c.io.outClosed
  grows : c.io.output <+: c'.io.output
  outBytes : c'.core.outBytes = c.core.outBytes + BitVec.ofNat 64 (c'.io.output.length - c.io.output.length)
  draws : c'.io.draws.allOk

theorem Wrote.refl {c : Codec} (h : c.io.draws.allOk) : Wrote [] c c :=
  ⟨by simp, rfl, rfl, rfl, rfl, rfl, List.prefix_rfl, by simp, h⟩

theorem Wrote.trans {b1 b2 : List Bool} {c c1 c2 : Codec} (h1 : Wrote b1 c c1) (h2 : Wrote b2 c1 c2) :
    Wrote (b1 ++ b2) c c2 where
  outBits := by rw [h2.outBits, h1.outBits, List.append_assoc]
  core := by rw [h2.core, h1.core]
  params := h2.params.trans h1.params
  input := h2.input.trans h1.input
  ipos := h2.ipos.trans h1.ipos
  outClosed := h2.outClosed.trans h1.outClosed
  grows := h1.grows.trans h2.grows
  outBytes := by
    have e1 := h1.grows.length_le
    have e2 := h2.grows.length_le
    rw [h2.outBytes, h1.outBytes, BitVec.add_assoc, ← BitVec.ofNat_add]
    congr 2
    omega
  draws := h2.draws

/-- A bit write on an open output with working I/O. -/
theorem bitWrite_ok {c : Codec} (b : Bool) (hd : c.io.draws.allOk) (ho : c.io.outClosed = false) :
    ∃ c', bitWrite b c = .ok () c' ∧ Wrote [b] c c' := by
  obtain ⟨hp, hr⟩ := Draws.pop_allOk hd
  have hlt := c.core.obits.isLt
  by_cases h7 : c.core.obits.val = 7
  · refine ⟨((c.mapCore (packBit c.params.packOrder b)).drawn.appended
      (packBit c.params.packOrder b c.core).obuf).mapCore dropPending, ?_, ?_⟩
    · have hw := tryWrite_ok (c := c.mapCore (packBit c.params.packOrder b)) (packBit c.params.packOrder b c.core).obuf hp ho
      have : tryBitWrite b c = .ok true (((c.mapCore (packBit c.params.packOrder b)).drawn.appended
          (packBit c.params.packOrder b c.core).obuf).mapCore dropPending) := by
        rw [tryBitWrite, engine_bind_of_ok (modify_apply _ _), engine_bind_of_ok (get_apply _)]
        rw [if_pos (show (c.mapCore (packBit c.params.packOrder b)).core.obits.val = 7 from h7)]
        rw [engine_bind_of_ok (show tryWrite (c.mapCore (packBit c.params.packOrder b)).core.obuf _ = _ from hw)]
        rfl
      rw [bitWrite, engine_bind_of_ok (quiet_ok.2 this)]
      rfl
    · have key := range_map_putBit c.params.packOrder c.core.obuf b (n := 7) (by omega)
      refine ⟨?_, ?_, rfl, rfl, rfl, rfl, ?_, ?_, hr⟩
      · simp [Codec.outBits, packBit, dropPending, pendingBits, byteBits, h7] at key ⊢
        exact key
      · simp [packBit, dropPending]
      · simp
      · simp [packBit, dropPending]
  · refine ⟨(c.mapCore (packBit c.params.packOrder b)).mapCore fun k => { k with obits := k.obits + 1 }, ?_, ?_⟩
    · have : tryBitWrite b c = .ok true
          ((c.mapCore (packBit c.params.packOrder b)).mapCore fun k => { k with obits := k.obits + 1 }) := by
        rw [tryBitWrite, engine_bind_of_ok (modify_apply _ _), engine_bind_of_ok (get_apply _)]
        rw [if_neg (show ¬ (c.mapCore (packBit c.params.packOrder b)).core.obits.val = 7 from h7)]
        rfl
      rw [bitWrite, engine_bind_of_ok (quiet_ok.2 this)]
      rfl
    · have hv : (c.core.obits + 1).val = c.core.obits.val + 1 := by
        rw [Fin.val_add]
        simp only [Fin.val_one]
        omega
      have key := range_map_putBit c.params.packOrder c.core.obuf b (n := c.core.obits.val) (by omega)
      refine ⟨?_, ?_, rfl, rfl, rfl, rfl, ?_, ?_, hd⟩
      · simp only [Codec.outBits, Codec.mapCore_core, Codec.mapCore_io, Codec.mapCore_params, packBit, pendingBits, hv, key,
          List.append_assoc]
      · simp [packBit]
      · simp
      · simp [packBit]

/-- The writing of a bit string on an open output with working I/O. -/
theorem bitWrites_ok (bits : List Bool) {c : Codec} (hd : c.io.draws.allOk) (ho : c.io.outClosed = false) :
    ∃ c', bitWrites bits c = .ok () c' ∧ Wrote bits c c' := by
  induction bits generalizing c with
  | nil => exact ⟨c, rfl, .refl hd⟩
  | cons b bs ih =>
    obtain ⟨c1, h1, w1⟩ := bitWrite_ok b hd ho
    obtain ⟨c2, h2, w2⟩ := ih w1.draws (w1.outClosed.trans ho)
    refine ⟨c2, ?_, w1.trans w2⟩
    rw [bitWrites, engine_bind_of_ok h1, h2]

/-! ## Reading bits -/

/-- `c'` is `c` with `bits` taken from its input bit stream and nothing else changed. -/
structure Took (bits : List Bool) (c c' : Codec) : Prop where
  inBits : c.inBits = bits ++ c'.inBits
  core : c'.core = { c.core with ibuf := c'.core.ibuf, ibits := c'.core.ibits, inPos := c'.core.inPos }
  params : c'.params = c.params
  io : c'.io = { c.io with ipos := c'.io.ipos, draws := c'.io.draws }
  ipos : c.io.ipos ≤ c'.io.ipos
  inPos : c'.core.inPos = c.core.inPos + BitVec.ofNat 64 (c'.io.ipos - c.io.ipos)
  within : c.io.ipos ≤ c.io.input.length → c'.io.ipos ≤ c'.io.input.length
  draws : c'.io.draws.allOk

theorem Took.refl {c : Codec} (h : c.io.draws.allOk) : Took [] c c :=
  ⟨by simp, rfl, rfl, rfl, Nat.le_refl _, by simp, id, h⟩

theorem Took.trans {b1 b2 : List Bool} {c c1 c2 : Codec} (h1 : Took b1 c c1) (h2 : Took b2 c1 c2) :
    Took (b1 ++ b2) c c2 where
  inBits := by rw [h1.inBits, h2.inBits, List.append_assoc]
  core := by rw [h2.core, h1.core]
  params := h2.params.trans h1.params
  io := by rw [h2.io, h1.io]
  ipos := Nat.le_trans h1.ipos h2.ipos
  inPos := by
    have e1 := h1.ipos
    have e2 := h2.ipos
    rw [h2.inPos, h1.inPos, BitVec.add_assoc, ← BitVec.ofNat_add]
    congr 2
    omega
  within := fun h => h2.within (h1.within h)
  draws := h2.draws

/-- The bit stream is at its end exactly when no bit of it is left. -/
theorem bitAtEnd_iff {c : Codec} (h : c.io.ipos ≤ c.io.input.length) : c.bitAtEnd = true ↔ c.inBits = [] := by
  have hl : c.inBits.length = c.core.ibits.val + 8 * (c.io.input.length - c.io.ipos) := by
    simp only [Codec.inBits, List.length_append, unreadBits_length, List.length_flatMap, byteBits_length]
    simp [Nat.mul_comm]
  rw [← List.length_eq_zero_iff, hl]
  simp only [Codec.bitAtEnd, Streams.atEnd, Bool.and_eq_true, beq_iff_eq]
  omega

/-- The unread bits of a unpacker with at least one: the next bit, then the rest. -/
theorem unreadBits_cons (order : BitOrder) (k : CoreState) (h : k.ibits.val ≠ 0) :
    unreadBits order k = nextBit order k :: unreadBits order (dropBit k) := by
  obtain ⟨n, hn⟩ : ∃ n, k.ibits.val = n + 1 := ⟨k.ibits.val - 1, by omega⟩
  have hlt := k.ibits.isLt
  have hv : (k.ibits - 1).val = n := by
    rw [Fin.val_sub]
    simp only [Fin.val_one]
    omega
  simp only [unreadBits, nextBit, dropBit, hv, hn, List.range_succ_eq_map, List.map_cons, List.map_map, Nat.add_zero]
  congr 1
  refine List.map_congr_left fun j hj => ?_
  have hj : j < n := List.mem_range.1 hj
  simp only [Function.comp]
  congr 2
  omega

/-- A bit read with working I/O, where a bit is left. -/
theorem bitRead_ok {c : Codec} {b : Bool} {rest : List Bool} (hd : c.io.draws.allOk) (h : c.inBits = b :: rest) :
    ∃ c', bitRead c = .ok b c' ∧ Took [b] c c' ∧ c'.inBits = rest := by
  suffices hs : ∃ c', bitRead c = .ok b c' ∧ Took [b] c c' by
    obtain ⟨c', h1, h2⟩ := hs
    have := h2.inBits
    rw [h] at this
    exact ⟨c', h1, h2, by simpa using this.symm⟩
  obtain ⟨hp, hr⟩ := Draws.pop_allOk hd
  by_cases h0 : c.core.ibits.val = 0
  · have hz : unreadBits c.params.packOrder c.core = [] := by simp [unreadBits, h0]
    cases hi : c.io.input[c.io.ipos]? with
    | none =>
      have : c.io.input.drop c.io.ipos = [] := List.drop_eq_nil_of_le (List.getElem?_eq_none_iff.1 hi)
      simp [Codec.inBits, hz, this] at h
    | some x =>
      have hlt : c.io.ipos < c.io.input.length := (List.getElem?_eq_some_iff.1 hi).1
      have hx : c.io.input.drop c.io.ipos = x :: c.io.input.drop (c.io.ipos + 1) := by
        rw [List.drop_eq_getElem_cons hlt]
        congr 1
        simpa [hlt] using hi
      have hf : fillUnpacker c = .ok () (c.drawn.advanceInput.mapCore fun k => { k with ibuf := x, ibits := 8 }) := by
        rw [fillUnpacker, engine_bind_of_ok (getCore_apply _)]
        simp only [h0, if_true]
        rw [engine_bind_of_ok (binRead_ok hp hi)]
        rfl
      have hb : unreadBits c.params.packOrder { c.core with inPos := c.core.inPos + 1#64, ibuf := x, ibits := 8 } =
          byteBits c.params.packOrder x := by simp [unreadBits, byteBits]
      have hn : c.inBits = unreadBits c.params.packOrder { c.core with inPos := c.core.inPos + 1#64, ibuf := x, ibits := 8 } ++
          (c.io.input.drop (c.io.ipos + 1)).flatMap (byteBits c.params.packOrder) := by
        rw [hb, Codec.inBits, hz, hx]
        simp
      rw [unreadBits_cons _ _ (by simp)] at hn
      rw [hn] at h
      simp only [List.cons_append, List.cons.injEq] at h
      refine ⟨(c.drawn.advanceInput.mapCore fun k => { k with ibuf := x, ibits := 8 }).mapCore dropBit, ?_, ?_⟩
      · rw [bitRead, engine_bind_of_ok hf, engine_bind_of_ok (get_apply _), engine_bind_of_ok (modifyCore_apply _ _)]
        simp [h.1.symm]
      · refine ⟨?_, ?_, rfl, rfl, ?_, ?_, ?_, hr⟩
        · rw [hn, h.1]
          rfl
        · simp [dropBit]
        · simp
        · simp [dropBit]
        · simp; omega
  · have hn : c.inBits = nextBit c.params.packOrder c.core :: (c.mapCore dropBit).inBits := by
      simp [Codec.inBits, unreadBits_cons _ _ h0]
    have hf : fillUnpacker c = .ok () c := by
      rw [fillUnpacker, engine_bind_of_ok (getCore_apply _)]
      simp [h0]
    rw [hn] at h
    simp only [List.cons.injEq] at h
    refine ⟨c.mapCore dropBit, ?_, ?_⟩
    · rw [bitRead, engine_bind_of_ok hf, engine_bind_of_ok (get_apply _), engine_bind_of_ok (modifyCore_apply _ _)]
      simp [h.1.symm]
    · exact ⟨by simp [hn, h.1], by simp [dropBit], rfl, rfl, by simp, by simp [dropBit], id, hd⟩

end Sys2Proof.Machine
end

