-- ==== Sys2Proof/Laws/Keeps.lean ====
section
/-! SUPPORT. The one induction behind frames and invariants: a relation between the codec before and after, kept by the parts of a
computation, is kept by the computation, however it ends. A frame takes a relation of equalities; an invariant `P` takes
`fun c c' => P c → P c'`. -/

namespace Sys2Proof.Machine

/-- The codec in which a computation ended. -/
def endOf {ε α : Type} (r : EStateM.Result ε Codec α) : Codec :=
  match r with
  | .ok _ c => c
  | .error _ c => c

/-- However `x` ends, the codec it ends in stands in `R` to the one it began in. -/
def Keeps (R : Codec → Codec → Prop) {ε α : Type} (x : EStateM ε Codec α) : Prop := ∀ c, R c (endOf (x c))

/-- Nothing done, and one thing done after another, stand in the relation. -/
structure Composes (R : Codec → Codec → Prop) : Prop where
  refl : ∀ c, R c c
  trans : ∀ {a b c}, R a b → R b c → R a c

/-- The relation of an invariant. -/
theorem composes_of_invariant (P : Codec → Prop) : Composes fun c c' => P c → P c' :=
  ⟨fun _ h => h, fun h1 h2 h => h2 (h1 h)⟩

/-- Two relations at once. -/
theorem Composes.and {R S : Codec → Codec → Prop} (hR : Composes R) (hS : Composes S) :
    Composes fun c c' => R c c' ∧ S c c' :=
  ⟨fun c => ⟨hR.refl c, hS.refl c⟩, fun h1 h2 => ⟨hR.trans h1.1 h2.1, hS.trans h1.2 h2.2⟩⟩

/-- The relation of a frame: a view of the codec does not change. -/
theorem composes_of_view {α : Type} (f : Codec → α) : Composes fun c c' => f c' = f c :=
  ⟨fun _ => rfl, fun h1 h2 => h2.trans h1⟩

section
variable {R : Codec → Codec → Prop}

theorem Keeps.of_ok {ε α : Type} {x : EStateM ε Codec α} (h : Keeps R x) {c c' : Codec} {a : α} (hx : x c = .ok a c') :
    R c c' := by
  have := h c
  rwa [hx] at this

theorem Keeps.of_error {ε α : Type} {x : EStateM ε Codec α} (h : Keeps R x) {c c' : Codec} {e : ε}
    (hx : x c = .error e c') : R c c' := by
  have := h c
  rwa [hx] at this

theorem keeps_modify {ε : Type} {f : Codec → Codec} (h : ∀ c, R c (f c)) :
    Keeps R (modify f : EStateM ε Codec PUnit) := fun c => h c

theorem keeps_modifyCore {f : CoreState → CoreState} (h : ∀ c, R c (c.mapCore f)) : Keeps R (modifyCore f) := fun c => h c

theorem keeps_quiet {α : Type} {x : QuietM α} (h : Keeps R x) : Keeps R (quiet x) := fun c => by
  have := h c
  simp only [quiet, EStateM.adaptExcept]
  cases hx : x c <;> simpa [hx, endOf] using this

theorem keeps_transact (hd : ∀ c, R c c.drawn) (t : Txn) : Keeps R (transact t) := fun c => by
  rcases transact_cases t c with ⟨-, h⟩ | ⟨-, h⟩ | ⟨-, h⟩ <;> rw [h] <;> exact hd c

namespace Composes
variable (hR : Composes R)
include hR

theorem keeps_pure {ε α : Type} (a : α) : Keeps R (pure a : EStateM ε Codec α) := fun c => hR.refl c

theorem keeps_get {ε : Type} : Keeps R (get : EStateM ε Codec Codec) := fun c => hR.refl c

theorem keeps_getCore : Keeps R getCore := fun c => hR.refl c

theorem keeps_getParams : Keeps R getParams := fun c => hR.refl c

theorem keeps_binAtEnd : Keeps R binAtEnd := fun c => hR.refl c

theorem keeps_bitAtEnd : Keeps R bitAtEnd := fun c => hR.refl c

theorem keeps_raise {α : Type} (e : ErrCode) : Keeps R (raise e : EngineM α) := fun c => hR.refl c

theorem keeps_crash {α : Type} (f : Fault) : Keeps R (crash f : EngineM α) := fun c => hR.refl c

theorem keeps_need {α : Type} (x : Except Fault α) : Keeps R (need x) := fun c => by
  cases x <;> exact hR.refl c

theorem keeps_bind {ε α β : Type} {x : EStateM ε Codec α} {f : α → EStateM ε Codec β} (hx : Keeps R x)
    (hf : ∀ a, Keeps R (f a)) : Keeps R (x >>= f) := fun c => by
  have h1 := hx c
  cases hr : x c with
  | ok a c1 =>
    rw [engine_bind_of_ok hr]
    rw [hr] at h1
    exact hR.trans h1 (hf a c1)
  | error e c1 =>
    rw [engine_bind_of_error hr]
    rw [hr] at h1
    exact h1

/-! ## Transactions -/

theorem keeps_takeByte (ha : ∀ c, R c c.advanceInput) : Keeps R takeByte := fun c => by
  cases h : c.io.input[c.io.ipos]? with
  | none => rw [takeByte_none h]; exact hR.refl c
  | some b => rw [takeByte_some h]; exact ha c

theorem keeps_binRead (hd : ∀ c, R c c.drawn) (ha : ∀ c, R c c.advanceInput) : Keeps R binRead :=
  hR.keeps_bind (keeps_quiet (keeps_transact hd _)) fun ok => by
    cases ok
    · exact hR.keeps_raise _
    · exact hR.keeps_takeByte ha

theorem keeps_binRewind (hd : ∀ c, R c c.drawn) (hr : ∀ c, R c c.rewound) : Keeps R binRewind :=
  hR.keeps_bind (keeps_quiet (keeps_transact hd _)) fun ok => by
    cases ok
    · exact hR.keeps_raise _
    · exact keeps_modify hr

theorem keeps_tryWrite (hd : ∀ c, R c c.drawn) (hw : ∀ b c, R c (c.appended b)) (b : Byte) : Keeps R (tryWrite b) := fun c => by
  rcases tryWrite_cases b c with ⟨-, h⟩ | h | ⟨-, h⟩ <;> rw [h]
  · exact hR.trans (hd c) (hw b _)
  · exact hd c
  · exact hd c

theorem keeps_boutWrite {b : Byte} (h : Keeps R (tryWrite b)) : Keeps R (boutWrite b) :=
  hR.keeps_bind (keeps_quiet h) fun ok => by
    cases ok
    · exact hR.keeps_raise _
    · exact hR.keeps_pure _

theorem keeps_tryClose (hd : ∀ c, R c c.drawn) (hc : ∀ c, R c (c.mapIo fun io => { io with outClosed := true })) :
    Keeps R tryClose :=
  hR.keeps_bind (keeps_transact hd _) fun ok => by
    cases ok
    · exact hR.keeps_pure _
    · exact hR.keeps_bind (keeps_modify hc) fun _ => hR.keeps_pure _

theorem keeps_boutClose (h : Keeps R tryClose) : Keeps R boutClose :=
  hR.keeps_bind (keeps_quiet h) fun ok => by
    cases ok
    · exact hR.keeps_raise _
    · exact hR.keeps_pure _

/-! ## Bits -/

/-- A bit write, from its parts; for a relation that only the whole bit write keeps, prove `Keeps R (tryBitWrite b)` directly. -/
theorem keeps_tryBitWrite (hw : ∀ b, Keeps R (tryWrite b))
    (hp : ∀ b c, R c (c.mapCore (packBit c.params.packOrder b))) (hz : ∀ c, R c (c.mapCore dropPending))
    (hi : ∀ c, R c (c.mapCore fun k => { k with obits := k.obits + 1 })) (b : Bool) : Keeps R (tryBitWrite b) :=
  hR.keeps_bind (keeps_modify (hp b)) fun _ => hR.keeps_bind hR.keeps_get fun c => by
    split
    · refine hR.keeps_bind (hw _) fun ok => ?_
      cases ok
      · exact hR.keeps_pure _
      · exact hR.keeps_bind (keeps_modify hz) fun _ => hR.keeps_pure _
    · exact hR.keeps_bind (keeps_modify hi) fun _ => hR.keeps_pure _

theorem keeps_bitWrite {b : Bool} (h : Keeps R (tryBitWrite b)) : Keeps R (bitWrite b) :=
  hR.keeps_bind (keeps_quiet h) fun ok => by
    cases ok
    · exact hR.keeps_raise _
    · exact hR.keeps_pure _

theorem keeps_bitWrites (h : ∀ b, Keeps R (tryBitWrite b)) (bits : List Bool) : Keeps R (bitWrites bits) := by
  induction bits with
  | nil => exact hR.keeps_pure _
  | cons b bs ih => exact hR.keeps_bind (hR.keeps_bitWrite (h b)) fun _ => ih

theorem keeps_bitFlushLoop (h : ∀ b, Keeps R (tryBitWrite b)) (n : Nat) : Keeps R (bitFlushLoop n) := by
  induction n with
  | zero => exact hR.keeps_pure _
  | succ n ih =>
    refine hR.keeps_bind hR.keeps_get fun c => ?_
    split
    · exact hR.keeps_pure _
    · exact hR.keeps_bind (hR.keeps_bitWrite (h _)) fun _ => ih

theorem keeps_bitFlush (h : ∀ b, Keeps R (tryBitWrite b)) : Keeps R bitFlush := hR.keeps_bitFlushLoop h 7

theorem keeps_bitRead (hb : Keeps R binRead) (hf : ∀ b c, R c (c.mapCore fun k => { k with ibuf := b, ibits := 8 }))
    (hz : ∀ c, R c (c.mapCore dropBit)) : Keeps R bitRead := by
  refine hR.keeps_bind (hR.keeps_bind hR.keeps_getCore fun k => ?_) fun _ => hR.keeps_bind hR.keeps_get fun c =>
    hR.keeps_bind (keeps_modifyCore hz) fun _ => hR.keeps_pure _
  split
  · exact hR.keeps_bind hb fun b => keeps_modifyCore (hf b)
  · exact hR.keeps_pure _

/-! ## Errors and commands -/

theorem keeps_flushIgnoring (h : ∀ b, Keeps R (tryBitWrite b)) (hz : ∀ c, R c (c.mapCore dropPending)) (n : Nat) :
    Keeps R (flushIgnoring n) := by
  induction n with
  | zero => exact hR.keeps_pure _
  | succ n ih =>
    refine hR.keeps_bind hR.keeps_get fun c => ?_
    split
    · exact hR.keeps_pure _
    · refine hR.keeps_bind (h _) fun ok => ?_
      cases ok
      · exact keeps_modify hz
      · exact ih

theorem keeps_errorExit (he : ∀ e c, R c (c.mapCore (setError e))) (h : ∀ b, Keeps R (tryBitWrite b))
    (hz : ∀ c, R c (c.mapCore dropPending)) (hc : Keeps R tryClose) (e : ErrCode) : Keeps R (errorExit e) := by
  refine hR.keeps_bind (keeps_modify (he e)) fun _ => hR.keeps_bind ?_ fun _ => hR.keeps_bind hc fun _ => hR.keeps_pure _
  unfold settlePending
  split
  · exact keeps_modify hz
  · exact hR.keeps_flushIgnoring h hz 7

theorem keeps_withErrorExit {body : EngineM Unit} (hb : Keeps R body) (he : ∀ e, Keeps R (errorExit e)) :
    Keeps R (withErrorExit body) := fun c => by
  have h1 := hb c
  unfold withErrorExit
  split
  · rename_i h; rw [h] at h1; exact h1
  · rename_i e c' h
    rw [h] at h1
    exact hR.trans h1 (he e c')
  · rename_i h; rw [h] at h1; exact h1

theorem keeps_afterAccept {pre : CoreState → Bool} {clear : CoreState → CoreState} {body : EngineM Unit}
    (hs : ∀ c, R c (preciseError .sequence c)) (hc : ∀ c, R c (c.mapCore clear)) (hb : Keeps R (withErrorExit body)) :
    Keeps R (afterAccept pre clear body) := fun c => by
  unfold afterAccept
  split
  · exact hR.trans (hc c) (hb _)
  · exact hs c

end Composes
end

/-- A relation that the acceptance and the rest of a command keep holds of the codec a finished command leaves. -/
theorem issue_keeps {R : Codec → Codec → Prop} {i : Instr} {pre : CoreState → Bool} {clear : CoreState → CoreState}
    {body : EngineM Unit} {s t : State} (hR : Composes R) (ha : ∀ c, R c (c.accept (encode i)))
    (hb : Keeps R (afterAccept pre clear body)) (hs : s.eng = .idle) (h : issue i pre clear body s = .next t)
    (ht : t.eng = .idle) : R s.codec t.codec := by
  rcases issue_next h with ⟨hbusy, -⟩ | ⟨-, r, hr, hset⟩
  · simp [State.isBusy, hs] at hbusy
  · rcases settle_next hset with ⟨c, hc, rfl⟩ | ⟨c, ds, -, -, rfl⟩ | ⟨c, x, -, rfl⟩
    · exact hR.trans (ha _) (hb.of_ok (hr.symm.trans hc))
    · simp at ht
    · simp at ht

end Sys2Proof.Machine
end

