-- ==== Sys2Proof/Laws/PerInstr.lean ====
section
/-! SUPPORT. What holds of each command as syntax, one lemma per constructor. -/

namespace Sys2Proof.Laws.CommandWord

/-- The word of a command: well formed, RSVD zero, OPCODE the opcode alone, and no other command's opcode (spec/30_encoding.md R66, R67). -/
def Statement (i : Instr) : Prop :=
  i.wellFormed = true ∧ wellFormedCommand (encode i) = true ∧ rsvdField (encode i) = 0#24 ∧
    opcodeField (encode i) = opcodeOf i ∧ ∀ j : Instr, opcodeOf j = opcodeOf i → j = i

/-- Every part of the statement is a closed fact about one opcode. -/
theorem of_parts {i : Instr} (hc : wellFormedCommand (encode i) = true) (ho : ∀ j : Instr, opcodeOf j = opcodeOf i → j = i) :
    Statement i :=
  ⟨by cases i <;> rfl, hc, by cases i <;> rfl, by cases i <;> rfl, ho⟩

theorem nop : Statement .nop := of_parts (by decide) (by intro j; cases j <;> decide)
theorem count : Statement .count := of_parts (by decide) (by intro j; cases j <;> decide)
theorem build : Statement .build := of_parts (by decide) (by intro j; cases j <;> decide)
theorem gencodes : Statement .gencodes := of_parts (by decide) (by intro j; cases j <;> decide)
theorem wrtree : Statement .wrtree := of_parts (by decide) (by intro j; cases j <;> decide)
theorem rdtree : Statement .rdtree := of_parts (by decide) (by intro j; cases j <;> decide)
theorem encode : Statement .encode := of_parts (by decide) (by intro j; cases j <;> decide)
theorem decode : Statement .decode := of_parts (by decide) (by intro j; cases j <;> decide)
theorem project : Statement .project := of_parts (by decide) (by intro j; cases j <;> decide)
theorem wrmagic : Statement .wrmagic := of_parts (by decide) (by intro j; cases j <;> decide)
theorem chkmagic : Statement .chkmagic := of_parts (by decide) (by intro j; cases j <;> decide)
theorem close : Statement .close := of_parts (by decide) (by intro j; cases j <;> decide)
theorem clear : Statement .clear := of_parts (by decide) (by intro j; cases j <;> decide)

end Sys2Proof.Laws.CommandWord
end

