-- ==== Sys2Proof/Laws/Tree.lean ====
section
/-! SUPPORT. The recursive walks over the node memory, said in terms of the tree it holds (spec/42_code_table.md R98,
43_tree_codec.md R103): a walk of a node memory that holds a tree is the walk of that tree. -/

namespace Sys2Proof.Machine

/-- A held tree, taken apart at its root. -/
theorem treeOf_succ {nodes : List Node} {n : Nat} {i : NodeIdx} {t : CodeTree} (h : treeOf nodes (n + 1) i = some t) :
    (∃ s w ph, nodeAt nodes i = some (.leaf s w ph) ∧ t = .leaf s w ph) ∨
    (∃ w l r tl tr, nodeAt nodes i = some (.internal w l r) ∧ treeOf nodes n l = some tl ∧ treeOf nodes n r = some tr ∧
      t = .node w tl tr) := by
  rw [treeOf] at h
  split at h
  · cases h
  · rename_i s w ph hn
    exact .inl ⟨s, w, ph, hn, by simpa using h.symm⟩
  · rename_i w l r hn
    split at h
    · rename_i tl tr hl hr
      exact .inr ⟨w, l, r, tl, tr, hn, hl, hr, by simpa using h.symm⟩
    · cases h

/-- A walk of no depth holds nothing. -/
@[simp] theorem treeOf_zero (nodes : List Node) (i : NodeIdx) : treeOf nodes 0 i = none := rfl

/-- The bits written for a held tree are its pre-order tokens. -/
theorem serialize_treeOf (order : BitOrder) {nodes : List Node} {n : Nat} {i : NodeIdx} {t : CodeTree}
    (h : treeOf nodes n i = some t) : serialize order nodes n i = .ok (t.bits order) := by
  induction n generalizing i t with
  | zero => simp at h
  | succ n ih =>
    rcases treeOf_succ h with ⟨s, w, ph, hn, rfl⟩ | ⟨w, l, r, tl, tr, hn, hl, hr, rfl⟩
    · simp [serialize, hn, CodeTree.bits]
    · simp [serialize, hn, ih hl, ih hr, CodeTree.bits]

/-- The codes a walk of a tree binds: each real leaf's path, from left to right. -/
def bindTree (t : CodeTree) (p : List Bool) (c : Codes) : Codes :=
  match t with
  | .leaf s _ ph => if ph then c else c.bindPath s p
  | .node _ l r => bindTree r (p ++ [true]) (bindTree l (p ++ [false]) c)

/-- The walk of a held tree binds the tree's paths. -/
theorem walkCodes_treeOf {nodes : List Node} {n : Nat} {i : NodeIdx} {t : CodeTree} (h : treeOf nodes n i = some t)
    (p : List Bool) (c : Codes) : walkCodes nodes n i p c = .ok (bindTree t p c) := by
  induction n generalizing i t p c with
  | zero => simp at h
  | succ n ih =>
    rcases treeOf_succ h with ⟨s, w, ph, hn, rfl⟩ | ⟨w, l, r, tl, tr, hn, hl, hr, rfl⟩
    · simp [walkCodes, hn, bindTree]
    · simp [walkCodes, hn, ih hl, ih hr, bindTree]

/-- A held tree stays the same read to a greater depth. -/
theorem treeOf_mono {nodes : List Node} {n m : Nat} {i : NodeIdx} {t : CodeTree} (hnm : n ≤ m)
    (h : treeOf nodes n i = some t) : treeOf nodes m i = some t := by
  induction n generalizing m i t with
  | zero => simp at h
  | succ n ih =>
    obtain ⟨m, rfl⟩ : ∃ k, m = k + 1 := ⟨m - 1, by omega⟩
    have hle : n ≤ m := by omega
    rcases treeOf_succ h with ⟨s, w, ph, hn, rfl⟩ | ⟨w, l, r, tl, tr, hn, hl, hr, rfl⟩
    · simp [treeOf, hn]
    · simp [treeOf, hn, ih hle hl, ih hle hr]

/-- A tree held in a node memory is held when more nodes are allocated. -/
theorem treeOf_append {nodes : List Node} (more : List Node) {n : Nat} {i : NodeIdx} {t : CodeTree}
    (h : treeOf nodes n i = some t) : treeOf (nodes ++ more) n i = some t := by
  induction n generalizing i t with
  | zero => simp at h
  | succ n ih =>
    have key : ∀ x, nodeAt nodes i = some x → nodeAt (nodes ++ more) i = some x := fun x hx => by
      simp only [nodeAt] at hx ⊢
      rw [List.getElem?_append_left (List.getElem?_eq_some_iff.1 hx).1, hx]
    rcases treeOf_succ h with ⟨s, w, ph, hn, rfl⟩ | ⟨w, l, r, tl, tr, hn, hl, hr, rfl⟩
    · simp [treeOf, key _ hn]
    · simp [treeOf, key _ hn, ih hl, ih hr]

/-- A full tree has one leaf more than it has internal nodes. -/
theorem CodeTree.leaves_length (t : CodeTree) : t.leaves.length = t.internals + 1 := by
  induction t with
  | leaf => rfl
  | node w l r hl hr => simp only [leaves, internals, List.length_append]; omega

/-- The number of bits of a tree's pre-order tokens. -/
theorem CodeTree.bits_length (order : BitOrder) (t : CodeTree) :
    (t.bits order).length = 9 * t.leaves.length + t.internals := by
  induction t with
  | leaf => simp [bits, leaves, internals, symbolBits]
  | node w l r hl hr => simp only [bits, leaves, internals, List.length_cons, List.length_append] at *; omega

/-- No node has begun before the first bit. -/
@[simp] theorem CodeTree.nodesBegun_zero (t : CodeTree) : t.nodesBegun 0 = 0 := by cases t <;> rfl

/-- A tree of one leaf has begun with its first bit. -/
@[simp] theorem CodeTree.nodesBegun_leaf (s : Byte) (w : BitVec 32) (ph : Bool) (n : Nat) :
    (CodeTree.leaf s w ph).nodesBegun (n + 1) = 1 := rfl

/-- Below an internal node, the left subtree begins after its bit, and the right one after the left. -/
theorem CodeTree.nodesBegun_node (w : BitVec 32) (l r : CodeTree) (order : BitOrder) (n : Nat) :
    (CodeTree.node w l r).nodesBegun (n + 1) = 1 + l.nodesBegun n + r.nodesBegun (n - (l.bits order).length) := by
  rw [bits_length]; rfl

/-- No more nodes have begun than the tree has. -/
theorem CodeTree.nodesBegun_le_size (t : CodeTree) (n : Nat) : t.nodesBegun n ≤ t.size := by
  induction t generalizing n with
  | leaf => cases n <;> simp [size, leaves, internals]
  | node w l r hl hr =>
    cases n with
    | zero => simp
    | succ n =>
      rw [nodesBegun_node w l r .msbFirst n]
      have h1 := hl n
      have h2 := hr (n - (l.bits .msbFirst).length)
      simp only [size, leaves, internals, List.length_append] at *
      omega

/-- All have begun by the last bit. -/
theorem CodeTree.nodesBegun_bits (order : BitOrder) (t : CodeTree) {n : Nat} (h : (t.bits order).length ≤ n) : t.nodesBegun n = t.size := by
  induction t generalizing n with
  | leaf s w ph =>
    cases n with
    | zero => simp [bits] at h
    | succ n => simp [size, leaves, internals]
  | node w l r hl hr =>
    simp only [bits, List.length_cons, List.length_append] at h
    obtain ⟨n, rfl⟩ : ∃ m, n = m + 1 := ⟨n - 1, by omega⟩
    rw [nodesBegun_node w l r order n, hl (by omega), hr (by omega)]
    simp only [size, leaves, internals, List.length_append]
    omega

/-- What serialization drops does not change the tokens. -/
theorem CodeTree.bits_plain (order : BitOrder) (t : CodeTree) : t.plain.bits order = t.bits order := by
  induction t with
  | leaf => rfl
  | node w l r hl hr => simp [plain, bits, hl, hr]

end Sys2Proof.Machine
end

