-- ==== Sys2Proof/Tests/Slice0.lean ====
section
/-! SUPPORT. Tests with expected results from spec/30_encoding.md and spec/95_test_vectors.md, the smoke tests of well-formedness, and for
every obligation with hypotheses a state and operands that meet them. -/

namespace Sys2Proof.Tests
open Sys2Proof Sys2Proof.Machine

-- Each `decide +kernel` waits for all earlier declarations to be checked; elaborated in parallel, the tests of this file would hold
-- one thread each.
set_option Elab.async false

/-! ## Decoding: words written out from 30_encoding.md R66, R67 (RSVD 24 zero bits, then the opcode) -/

theorem test_decode_nop : decode 0b00000000000000000000000000000000#32 = some .nop := by decide
theorem test_decode_count : decode 0b00000000000000000000000000000001#32 = some .count := by decide
theorem test_decode_build : decode 0b00000000000000000000000000000010#32 = some .build := by decide
theorem test_decode_gencodes : decode 0b00000000000000000000000000000011#32 = some .gencodes := by decide
theorem test_decode_wrtree : decode 0b00000000000000000000000000000100#32 = some .wrtree := by decide
theorem test_decode_rdtree : decode 0b00000000000000000000000000000101#32 = some .rdtree := by decide
theorem test_decode_encode : decode 0b00000000000000000000000000000110#32 = some .encode := by decide
theorem test_decode_decode : decode 0b00000000000000000000000000000111#32 = some .decode := by decide
theorem test_decode_project : decode 0b00000000000000000000000000001000#32 = some .project := by decide
theorem test_decode_wrmagic : decode 0b00000000000000000000000000001001#32 = some .wrmagic := by decide
theorem test_decode_chkmagic : decode 0b00000000000000000000000000001010#32 = some .chkmagic := by decide
theorem test_decode_close : decode 0b00000000000000000000000000001011#32 = some .close := by decide
theorem test_decode_clear : decode 0b00000000000000000000000000001111#32 = some .clear := by decide

/-- 30_encoding.md R68 and 95 2.11: the illegal words named there. -/
theorem test_decode_illegal :
    [0x0000000C#32, 0x0000000D#32, 0x0000000E#32, 0x00000010#32, 0x000000FF#32, 0x00000100#32, 0x80000001#32].map decode =
      List.replicate 7 none := by decide

theorem test_decodeTableWord : decodeTableWord 32 0x0F = some .clear ∧ decodeTableWord 32 0x10F = none := by decide

/-! ## Well-formedness refuses ill-formed terms -/

theorem test_wellFormedCommand_reserved_bits : wellFormedCommand 0x00000101#32 = false := by decide
theorem test_wellFormedCommand_unused_opcode : wellFormedCommand 0x0000000C#32 = false := by decide
theorem test_wellFormedAccess_width : wellFormedAccess 0 0x008 2 = false := by decide
theorem test_wellFormedAccess_alignment : wellFormedAccess 0 0x006 4 = false := by decide
theorem test_wellFormedAccess_above_block : wellFormedAccess 0 0x1000 4 = false := by decide
theorem test_wellFormedAccess_below_block : wellFormedAccess 0x2000 0x1FFC 4 = false := by decide
theorem test_wellFormed_branch_target : HostStmt.wellFormed 0 2 (.branch .err 1 2) = false := by decide
theorem test_wellFormed_attach_position : HostStmt.wellFormed 0 1 (.attachIn [0x41#8] 2) = false := by decide
theorem test_wellFormedProgram_bad_statement : wellFormedProgram 0 [.word 1#32, .memRead 3 4, .stop] = false := by decide
theorem test_wellFormed_accepts : Instr.count.wellFormed = true ∧ wellFormedCommand 0x0F#32 = true ∧
    wellFormedProgram 0 [.word 0x100#32, .memWrite 4 4 1#32, .memRead 0xFFC 4, .branch .err 1 5, .attachIn [0x41#8] 1, .stop] = true := by
  decide

/-! ## Small states -/

/-- The bytes `A A A B B C` (95 1.1). -/
def aaabbc : List Byte := [0x41#8, 0x41#8, 0x41#8, 0x42#8, 0x42#8, 0x43#8]

/-- The file of `A A A B B C` (95 1.1). -/
def aaabbcFile : List Byte := [0x48#8, 0x46#8, 0x90#8, 0x64#8, 0x32#8, 0x10#8, 0xF8#8]

/-- An input at a position, and a fresh output. -/
def openIo (input : List Byte) (pos : Nat) : Streams := { Streams.initial with input := input, ipos := pos }

/-- Other answers of the environment. -/
def answering (listed : List Draw) (rest : Draw) (io : Streams) : Streams := { io with draws := { listed, rest } }

/-- The idle machine with that core and those streams. -/
def machine (k : CoreState) (io : Streams) : State := { State.reset with codec := { core := k, io := io, params := Params.ofSpec } }

/-- The machine with that host program. -/
def programmed (prog : List HostStmt) (s : State) : State := { s with host := { HostSide.initial with prog := prog } }

/-- The machine running COUNT, the core and streams as at its start. -/
def counting (txn : Option Txn) (s : State) : State := { s with eng := .busy 0x00000001#32 s.codec txn }

/-- After COUNT of `A A A B B C`. -/
def countedK : CoreState :=
  { CoreState.reset with
    status := { Status.reset with done := true, freqValid := true }
    freq := ((Table.fill 0#32).update 0x41#8 3#32 |>.update 0x42#8 2#32 |>.update 0x43#8 1#32)
    totalBytes := 6#32
    nsym := 3#9
    inPos := 6#64 }

/-- After BUILD of it (95 2.2). -/
def builtK : CoreState :=
  { countedK with
    status := { countedK.status with treeValid := true, treeBuilt := true }
    node := [.leaf 0x41#8 3#32 false, .leaf 0x42#8 2#32 false, .leaf 0x43#8 1#32 false, .internal 3#32 2 1, .internal 6#32 0 3]
    root := 4
    nleaves := 3#9
    ninternal := 2#9
    treeBits := 29#12 }

/-- The tree of `A A A B B C` (95 1.1). -/
def builtTree : CodeTree :=
  .node 6#32 (.leaf 0x41#8 3#32 false) (.node 3#32 (.leaf 0x43#8 1#32 false) (.leaf 0x42#8 2#32 false))

/-- After GENCODES of it (95 2.3). -/
def codedK : CoreState :=
  { builtK with
    status := { builtK.status with codesValid := true }
    codeLen := ((Table.fill 0#8).update 0x41#8 1#8 |>.update 0x42#8 2#8 |>.update 0x43#8 2#8)
    codeVal := ((Table.fill 0#255).update 0x42#8 3#255 |>.update 0x43#8 2#255)
    maxlen := 2#8 }

/-- The tree RDTREE reads back (95 2.5). -/
def readTree : CodeTree :=
  .node 0#32 (.leaf 0x41#8 0#32 false) (.node 0#32 (.leaf 0x43#8 0#32 false) (.leaf 0x42#8 0#32 false))

/-- After CHKMAGIC and RDTREE of its file (95 2.5). -/
def readK : CoreState :=
  { CoreState.reset with
    status := { Status.reset with done := true, treeValid := true }
    node := [.internal 0#32 1 2, .leaf 0x41#8 0#32 false, .internal 0#32 3 4, .leaf 0x43#8 0#32 false, .leaf 0x42#8 0#32 false]
    nleaves := 3#9
    ninternal := 2#9
    treeBits := 29#12
    inPos := 6#64
    ibuf := 0x10#8
    ibits := 3 }

/-- One present symbol, 00 three times, counted (95 2.1). -/
def singleK : CoreState :=
  { countedK with freq := (Table.fill 0#32).update 0x00#8 3#32, totalBytes := 3#32, nsym := 1#9, inPos := 3#64 }

/-- One present symbol, 00 eight times, after GENCODES (95 2.3, 2.8). -/
def singleCodedK : CoreState :=
  { codedK with freq := (Table.fill 0#32).update 0x00#8 8#32, totalBytes := 8#32, nsym := 1#9, inPos := 8#64, nleaves := 2#9,
                ninternal := 1#9, treeBits := 19#12, codeLen := (Table.fill 0#8).update 0x00#8 1#8 }

/-- A read tree whose root is a leaf (95 2.5, the file `48 46 20 80`). -/
def leafRootK : CoreState :=
  { readK with node := [.leaf 0x41#8 0#32 false], nleaves := 1#9, ninternal := 0#9, treeBits := 9#12, inPos := 4#64, ibits := 7 }

/-- What holds of the next state, if there is one. -/
def nextHas (p : State → Bool) (o : Host.Outcome State Fault Refusal) : Bool :=
  match o with
  | .next t => p t
  | .fault _ => false
  | .refused _ => false

theorem next_of_nextHas {p : State → Bool} {o : Host.Outcome State Fault Refusal} (h : nextHas p o = true) :
    ∃ t, o = .next t ∧ p t = true := by
  cases o <;> simp_all [nextHas]

/-- STATUS, IN_POS, OUT and OUT_CLOSED of the next state. -/
def shows (status inPos : Nat) (out : List Byte) (closed : Bool) (t : State) : Bool :=
  (statusWord t.isBusy t.codec.core).toNat == status && t.codec.core.inPos.toNat == inPos && t.codec.io.output == out &&
    t.codec.io.outClosed == closed

/-! ## One step of each command, against 95 section 2 -/

/-- 95 2.1, IPOS = 4 at attach. -/
theorem test_count : nextHas (fun t => shows 0x12 6 [] false t && t.codec.core.totalBytes == 6#32 && t.codec.core.nsym == 3#9 &&
    [0x41#8, 0x42#8, 0x43#8, 0x44#8].map t.codec.core.freq.lookup == [3#32, 2#32, 1#32, 0#32])
    (exec .count (machine CoreState.reset (openIo aaabbc 4))) = true := by decide +kernel

/-- 95 2.1, the rewind draw fails. -/
theorem test_count_rewind_fails : nextHas (shows 0x03000004 0 [] true)
    (exec .count (machine CoreState.reset (answering [.fail] .ok (openIo aaabbc 0)))) = true := by decide +kernel

/-- 95 2.2, `AAABBC`. -/
theorem test_build : nextHas (fun t => shows 0x72 6 [] false t && t.codec.core.node == builtK.node && t.codec.core.root == 4 &&
    t.codec.core.treeBits == 29#12) (exec .build (machine countedK (openIo aaabbc 6))) = true := by decide +kernel

/-- 95 2.2, one symbol: the placeholder on the right. -/
theorem test_build_single : nextHas (fun t => t.codec.core.root == 2 && t.codec.core.node ==
    [.leaf 0x00#8 3#32 false, .leaf 0#8 0#32 true, .internal 3#32 0 1])
    (exec .build (machine singleK (openIo [] 0))) = true := by decide +kernel

/-- 95 2.3, `AAABBC`. -/
theorem test_gencodes : nextHas (fun t => shows 0xF2 6 [] false t && t.codec.core.maxlen == 2#8 &&
    [0x41#8, 0x42#8, 0x43#8].map t.codec.core.code == [[false], [true, true], [true, false]])
    (exec .gencodes (machine builtK (openIo aaabbc 6))) = true := by decide +kernel

/-- 95 2.3, after RDTREE. -/
theorem test_gencodes_needs_built : nextHas (shows 0x06030024 6 [] false)
    (exec .gencodes (machine readK (openIo aaabbcFile 6))) = true := by decide +kernel

/-- 95 2.4, with no WRMAGIC first. -/
theorem test_wrtree : nextHas (fun t => t.codec.io.output == [0x90#8, 0x64#8, 0x32#8] && t.codec.core.obits == 5)
    (exec .wrtree (machine builtK (openIo aaabbc 6))) = true := by decide +kernel

/-- 95 2.4, the first byte write draw fails. -/
theorem test_wrtree_write_fails : nextHas (fun t => shows 0x040000F4 6 [] true t && t.codec.core.obits == 0)
    (exec .wrtree (machine codedK (answering [.fail] .ok (openIo aaabbc 6)))) = true := by decide +kernel

/-- 95 2.5, the `AAABBC` file. -/
theorem test_rdtree : nextHas (fun t => shows 0x00030022 6 [] false t && t.codec.core.node == readK.node &&
    t.codec.core.nleaves == 3#9 && t.codec.core.treeBits == 29#12)
    (exec .rdtree (machine { CoreState.reset with inPos := 2#64 } (openIo aaabbcFile 2))) = true := by decide +kernel

/-- 95 2.5, `48 46 80`. -/
theorem test_rdtree_truncated : nextHas (fun t => shows 0x09000004 3 [] true t && t.codec.core.node.length == 2)
    (exec .rdtree (machine { CoreState.reset with inPos := 2#64 } (openIo [0x48#8, 0x46#8, 0x80#8] 2))) = true := by
  decide +kernel

/-- 95 P5: ENCODE of `AAABBC` without a tree before it. -/
theorem test_encode : nextHas (shows 0x000010F2 6 [0x1F#8] false) (exec .encode (machine codedK (openIo aaabbc 6))) = true := by
  decide +kernel

/-- 95 2.6, a byte without a code after `A`. -/
theorem test_encode_uncoded : nextHas (shows 0x0A0000F4 2 [0x00#8] true)
    (exec .encode (machine codedK (openIo [0x41#8, 0x5A#8] 0))) = true := by decide +kernel

/-- 95 2.7, the `AAABBC` file. -/
theorem test_decode : nextHas (fun t => shows 0x22 7 (aaabbc ++ [0x41#8, 0x41#8]) false t && t.codec.core.decSyms == 8#64)
    (exec .decode (machine readK (openIo aaabbcFile 6))) = true := by decide +kernel

/-- 95 2.7, `48 46 20 80`. -/
theorem test_decode_leaf_root : nextHas (shows 0x0B070024 4 [] true)
    (exec .decode (machine leafRootK (openIo [0x48#8, 0x46#8, 0x20#8, 0x80#8] 4))) = true := by decide +kernel

/-- 95 2.8, `AAABBC`. -/
theorem test_project : nextHas (fun t => shows 0x1F2 6 [] false t && t.codec.core.payloadBits == 9#64 &&
    t.codec.core.projectedBits == 56#64) (exec .project (machine codedK (openIo aaabbc 6))) = true := by decide +kernel

/-- 95 2.8, one symbol, n = 8. -/
theorem test_project_smaller : nextHas (fun t => shows 0x3F2 8 [] false t && t.codec.core.payloadBits == 8#64 &&
    t.codec.core.projectedBits == 48#64) (exec .project (machine singleCodedK (openIo [] 0))) = true := by decide +kernel

/-- 95 2.9, a fresh output. -/
theorem test_wrmagic : nextHas (fun t => shows 0x02 0 [0x48#8, 0x46#8] false t && t.codec.core.outBytes == 2#64)
    (exec .wrmagic (machine CoreState.reset (openIo [] 0))) = true := by decide +kernel

/-- 95 P5, WRMAGIC with OBITS = 1. -/
theorem test_wrmagic_needs_aligned_output : nextHas (shows 0x060010F4 6 [] false)
    (exec .wrmagic (machine { codedK with obits := 1 } (openIo aaabbc 6))) = true := by decide +kernel

/-- 95 2.9, the `AAABBC` file. -/
theorem test_chkmagic : nextHas (shows 0x02 2 [] false)
    (exec .chkmagic (machine CoreState.reset (openIo aaabbcFile 5))) = true := by decide +kernel

/-- 95 2.9, `58 46`: the second byte is not read. -/
theorem test_chkmagic_first_byte : nextHas (shows 0x02000004 1 [] true)
    (exec .chkmagic (machine CoreState.reset (openIo [0x58#8, 0x46#8] 0))) = true := by decide +kernel

/-- 95 2.10, OBITS = 6 with `111110` pending. -/
theorem test_close : nextHas (shows 0x02 0 [0xF8#8] true)
    (exec .close (machine { CoreState.reset with obuf := 0xF8#8, obits := 6 } (openIo [] 0))) = true := by decide +kernel

/-- 95 2.10, OBITS = 0. -/
theorem test_close_aligned : nextHas (shows 0x02 0 [] true) (exec .close (machine CoreState.reset (openIo [] 0))) = true := by
  decide +kernel

/-- 95 2.10, NOP after EMPTY_INPUT. -/
theorem test_nop : nextHas (shows 0x12 0 [] false)
    (exec .nop (machine { CoreState.reset with status := { Status.reset with err := true, freqValid := true, errcode := .emptyInput } }
      (openIo [] 0))) = true := by decide +kernel

/-- 95 2.10, CLEAR with five bits pending and `90 64 32` written. -/
theorem test_clear : nextHas (fun t => shows 0x02 0 [0x90#8, 0x64#8, 0x32#8] false t && t.codec.core.cmd == 0#32 &&
    t.codec.core.obits == 0 && t.codec.core.totalBytes == 0#32)
    (exec .clear (machine { codedK with obits := 5, cmd := 4#32 }
      { openIo aaabbc 6 with output := [0x90#8, 0x64#8, 0x32#8] })) = true := by decide +kernel

/-- 95 2.11: an illegal word after COUNT and BUILD. -/
theorem test_illegal_word : nextHas (fun t => shows 0x05000074 6 [] false t && t.codec.core.cmd == 0x100#32)
    (writeCmd 0x100#32 (machine builtK (openIo aaabbc 6))) = true := by decide +kernel

/-- 95 2.11: the registers read ID, PARAM and reserved words; a 16-bit and an unaligned access have no step. -/
theorem test_reads :
    ([(0x000, 0x48460001#32), (0x00C, 0x01FF0020#32), (0x008, 0#32), (0x058, 0#32), (0xFFC, 0#32)].all
      fun x => nextHas (fun t => t.host.lastRead == x.2) (hostLoad x.1 4 State.reset)) = true ∧
    hostLoad 0x008 2 State.reset = .refused .unsupportedAccess ∧ hostLoad 0x006 4 State.reset = .refused .unsupportedAccess := by
  refine ⟨by decide +kernel, rfl, rfl⟩

/-- 10_state.md R31: bits 11, 15 and 23:20 of STATUS read 0 while BUSY, whatever the free value, here all ones. -/
theorem test_busy_reserved_bits : busyStatusWord true 0xFFFFFFFF#32 = 0xFF0F77FF#32 ∧ busyStatusWord false 0#32 = 0x00000001#32 := by
  decide

/-- 60_exceptions.md R135: the codes in the order of its table. -/
theorem test_error_codes : [ErrCode.none, .emptyInput, .format, .ioIn, .ioOut, .illegalCmd, .sequence, .countOverflow, .treeOverflow,
    .truncatedTree, .symbolNotCoded, .degenerateTree].map ErrCode.code = (List.range 12).map (BitVec.ofNat 8) := by decide

/-- The next step runs the placed command, from reset. -/
theorem test_withFetchWord : nextHas (fun t => shows 0x02 0 [0x48#8, 0x46#8] false t && t.host.polling)
    (step (State.reset.withFetchWord 32 0x09)) = true := by decide +kernel

/-- 95 2.11: a host that writes BUILD while COUNT is BUSY; BUILD is dropped and OVR set. -/
theorem test_dropped_write : nextHas (fun t => t.isBusy && t.codec.core.status.ovr)
    (step (programmed [.memWrite 4 4 2#32]
      (counting (some .rewind) (machine CoreState.reset (answering [.wait, .wait] .ok (openIo aaabbc 0)))))) = true := by
  decide +kernel

/-! ## Witnesses: for every obligation with hypotheses, a state and operands that meet them -/

/-- A run that goes on, with what the next state shows. -/
theorem next_with {p : State → Prop} [DecidablePred p] {o : Host.Outcome State Fault Refusal}
    (h : nextHas (fun t => decide (p t)) o = true) : ∃ t, o = .next t ∧ p t := by
  obtain ⟨t, h1, h2⟩ := next_of_nextHas h
  exact ⟨t, h1, of_decide_eq_true h2⟩

/-- The machine with the reset input asserted at its next step. -/
def inReset (s : State) : State := { s with resetInput := [true] }

/-- BUSY with COUNT waiting for its rewind, the host between two statements. -/
def waiting : State := counting (some .rewind) (machine CoreState.reset (answering [.wait] .ok (openIo aaabbc 0)))

/-! ### The invariant, on a built and coded tree -/

theorem builtK_lookups (b : Byte) : countedK.freq.lookup b =
    if b = 0x43#8 then 1#32 else if b = 0x42#8 then 2#32 else if b = 0x41#8 then 3#32 else 0#32 := by
  unfold countedK
  by_cases h3 : b = 0x43#8
  · simp [h3]
  · by_cases h2 : b = 0x42#8
    · simp [h2, Table.lookup_update_ne]
    · by_cases h1 : b = 0x41#8
      · simp [h1, Table.lookup_update_ne]
      · simp [h1, h2, h3, Table.lookup_update_ne]

theorem builtK_holds : builtK.holds builtTree := by
  refine ⟨by decide +kernel, by decide +kernel, by decide +kernel⟩

theorem singleK_lookups (b : Byte) : singleK.freq.lookup b = if b = 0x00#8 then 3#32 else 0#32 := by
  unfold singleK
  by_cases h : b = 0x00#8
  · simp [h]
  · simp [h, Table.lookup_update_ne]

theorem countedK_present : presentCount countedK.freq = 3 ∧ countSum countedK.freq = 6 := by
  simp only [presentCount_eq, countSum, builtK_lookups]
  decide +kernel

theorem singleK_present : presentCount singleK.freq = 1 ∧ countSum singleK.freq = 3 := by
  simp only [presentCount_eq, countSum, singleK_lookups]
  decide +kernel

theorem builtTree_builtFrom : BuiltFrom countedK.freq builtTree := by
  refine ⟨rfl, ?_, ?_⟩
  · simp [builtTree, CodeTree.weightsAdd, CodeTree.weight]
  · unfold leavesMatch
    rw [if_neg (by rw [countedK_present.1]; decide)]
    simp only [builtK_lookups]
    decide +kernel

theorem codedK_code (b : Byte) : codedK.code b =
    if b = 0x43#8 then [true, false] else if b = 0x42#8 then [true, true] else if b = 0x41#8 then [false] else [] := by
  unfold CoreState.code codedK
  by_cases h3 : b = 0x43#8
  · simp [h3]; decide
  · by_cases h2 : b = 0x42#8
    · simp [h2, Table.lookup_update_ne]; decide
    · by_cases h1 : b = 0x41#8
      · simp [h1, Table.lookup_update_ne]; decide
      · simp [h1, h2, h3, Table.lookup_update_ne]; decide

theorem codedK_codesOf : codedK.codesOf builtTree := by
  constructor
  · intro b hb
    rw [codedK_code] at hb ⊢
    split
    · next h => exact ⟨1#32, by rw [h]; rfl⟩
    · next h3 =>
      split
      · next h => exact ⟨2#32, by rw [h]; rfl⟩
      · next h2 =>
        split
        · next h => exact ⟨3#32, by rw [h]; rfl⟩
        · next h1 => simp [h1, h2, h3] at hb
  · intro b w p hp
    rcases p with _ | ⟨_ | _, _ | ⟨_ | _, _ | ⟨x, p⟩⟩⟩ <;> simp [builtTree, CodeTree.follow] at hp
    all_goals rw [codedK_code, ← hp.1]; decide

theorem codedK_counts : codedK.node.length ≤ Config.nodeCap ∧ countSum codedK.freq = codedK.totalBytes.toNat ∧
    codedK.nsym.toNat = presentCount codedK.freq :=
  ⟨by decide +kernel, countedK_present.2, countedK_present.1.symm⟩

theorem codedK_status : codedK.validityChain ∧ codedK.clearedRegs ∧ codedK.oneReport := by
  unfold CoreState.validityChain CoreState.clearedRegs CoreState.oneReport
  decide +kernel

theorem codedK_inv (io : Streams) (h : io.ipos ≤ io.input.length) :
    Codec.Inv { core := codedK, io := io, params := Params.ofSpec } := by
  refine ⟨codedK_status, ⟨?_, h⟩, ⟨codedK_counts.1, fun _ => ⟨builtTree, builtK_holds, rfl, rfl, rfl⟩⟩,
    ⟨fun _ => codedK_counts.2, fun _ => ⟨builtTree, builtK_holds, builtTree_builtFrom, fun _ => codedK_codesOf⟩⟩⟩
  intro j _ _
  simp [codedK, builtK, countedK, CoreState.reset]

/-- A machine with a built and coded tree has the invariant. -/
theorem machine_codedK_inv (io : Streams) (h : io.ipos ≤ io.input.length) : (machine codedK io).Inv :=
  ⟨codedK_inv io h, fun _ _ _ h => nomatch h⟩

/-- So has one that runs a command over such a tree. -/
theorem counting_codedK_inv (x : Option Txn) (io : Streams) (h : io.ipos ≤ io.input.length) :
    (counting x (machine codedK io)).Inv := by
  refine ⟨codedK_inv io h, ?_⟩
  intro w start txn hb
  cases hb
  exact codedK_inv io h

/-! ### Encoding, reset, registers, the host -/

theorem witness_EveryWordIsOneCommandOrIllegal : decode 0x0000000C#32 = none ∧ decode 0xFFFFFF00#32 = none ∧ State.reset.prompt := by
  decide +kernel

theorem witness_StepRunsTheFetchedCommand :
    (∃ s : State, s.noReset ∧ s.eng = .idle ∧ s.host.polling = false ∧ s.host.prog[s.host.pc]? = some (.word 0x01#32) ∧
      decode 0x01#32 = some .count) ∧
    (∃ s : State, s.noReset ∧ s.eng = .idle ∧ s.host.polling = false ∧
      s.host.prog[s.host.pc]? = some (.memWrite (s.codec.params.regBase + 4) 4 0x0F#32) ∧ decode 0x0F#32 = some .clear) :=
  ⟨⟨programmed [.word 0x01#32] State.reset, by decide +kernel⟩, ⟨programmed [.memWrite 4 4 0x0F#32] State.reset, by decide +kernel⟩⟩

theorem witness_StepGoesOnWithTheRunningCommand : waiting.noReset ∧ waiting.isBusy = true ∧
    hostMove { waiting with resetInput := waiting.resetInput.tail } = .next waiting ∧
    waiting.eng = .busy 0x01#32 waiting.codec (some .rewind) ∧ decode 0x01#32 = some .count :=
  ⟨rfl, rfl, rfl, rfl, rfl⟩

theorem witness_ResetSetsTheCoreAndKeepsTheStreams :
    (inReset State.reset).resetAsserted = true ∧ ∀ w start x, (inReset State.reset).eng ≠ .busy w start (some x) :=
  ⟨rfl, fun _ _ _ h => nomatch h⟩

/-- Every transaction, with the next draw success, failure, or no answer. -/
theorem witness_ResetAbandonsTheRunningCommand (x : Txn) (d : Draw) :
    let s := inReset (counting (some x) (machine codedK (answering [d] .ok (openIo aaabbc 6))))
    s.resetAsserted = true ∧ s.eng = .busy 0x01#32 s.codec (some x) ∧ s.codec.io.draws.pop.1 = d :=
  ⟨rfl, rfl, rfl⟩

/-- The first and the last word of the map. -/
theorem witness_RegisterMapReads : State.reset.eng = .idle ∧
    (0x000, 0x48460001) ∈ State.reset.codec.core.registerMap ∧ (0x054, 0) ∈ State.reset.codec.core.registerMap := by decide +kernel

theorem witness_IdAndParamReadTheirConstants : State.reset.codec.params.packOrder = .msbFirst ∧
    State.reset.codec.params.symOrder = .msbFirst ∧ State.reset.codec.params.padBit = false := by decide +kernel

/-- Each clause at an end of its range. -/
theorem witness_ReadOnlyAndReservedWords :
    (∀ off ∈ [0x000, 0x008, 0x00C, 0x058, 0xFFC], off % 4 = 0 ∧ off ≤ 0xFFC ∧ off ≠ 4) ∧ 0x058 ≤ 0x058 ∧ 0x058 ≤ 0xFFC := by
  decide +kernel

theorem witness_UnsupportedAccessIsRefused : ((2 : Nat) ≠ 4 ∨ (8 : Nat) % 4 ≠ 0) ∧ ((4 : Nat) ≠ 4 ∨ (6 : Nat) % 4 ≠ 0) := by decide

/-- Each clause; the attaches idle and busy, at both ends of the new input. -/
theorem witness_BusyReadsAndIdleHostMoves : waiting.isBusy = true ∧
    (∀ off ∈ [0x010, 0x054], 0x010 ≤ off ∧ off ≤ 0x054 ∧ off % 4 = 0) ∧
    (∃ s t : State, s.eng = .idle ∧ s.noReset ∧ step s = .next t ∧ s.host.polling = true) ∧
    (∃ s t : State, s.eng = .idle ∧ s.noReset ∧ step s = .next t ∧ ∀ w addr n, s.host.prog[s.host.pc]? ≠ some (.word w) ∧
      (s.host.prog[s.host.pc]? = some (.memWrite addr n w) → addr ≠ s.codec.params.regBase + 4)) ∧
    (∀ pos ∈ [0, 6], ∀ s ∈ [State.reset, waiting], let a := programmed [.attachIn aaabbc pos] s
      a.noReset ∧ a.host.polling = false ∧ a.host.prog[a.host.pc]? = some (.attachIn aaabbc pos) ∧ pos ≤ aaabbc.length ∧
        (a.eng = .idle ∨ a.isBusy = true)) ∧
    (∀ s ∈ [State.reset, waiting], let a := programmed [.attachOut] s
      a.noReset ∧ a.host.polling = false ∧ a.host.prog[a.host.pc]? = some .attachOut ∧ (a.eng = .idle ∨ a.isBusy = true)) := by
  refine ⟨rfl, by decide, ⟨{ State.reset with host := { HostSide.initial with polling := true } }, _, rfl, rfl, rfl, rfl⟩,
    ⟨programmed [.memWrite 8 4 2#32] State.reset, _, rfl, rfl, rfl, fun w addr n => ⟨?_, ?_⟩⟩, by decide +kernel, by decide +kernel⟩
  · simp [programmed, HostSide.initial]
  · intro h
    simp only [programmed, HostSide.initial, List.getElem?_cons_zero, Option.some.injEq, HostStmt.memWrite.injEq] at h
    rw [← h.1]
    decide

/-- OVR set, COUNT and CLEAR running and going on, and an idle core. -/
theorem witness_BusyCommandWriteIsDropped : waiting.eng = .busy 0x01#32 waiting.codec (some .rewind) ∧
    (∀ w ∈ [0x01#32, encode .clear], ∃ s t : State, step s = .next t ∧ s.noReset ∧ ¬ (s.runsClear ∧ t.eng = .idle) ∧
      s.codec.core.status.ovr = true ∧ ∃ start txn, s.eng = .busy w start txn ∧ start.core.status.ovr = true) ∧
    (∃ s t : State, step s = .next t ∧ s.noReset ∧ ¬ (s.runsClear ∧ t.eng = .idle) ∧ s.codec.core.status.ovr = true ∧
      s.eng = .idle) := by
  refine ⟨rfl, ?_, ?_⟩
  · intro w hw
    let s := machine { CoreState.reset with status := { Status.reset with ovr := true } } (answering [.wait, .wait] .ok (openIo aaabbc 0))
    have key : nextHas (fun t => t.isBusy) (step { s with eng := .busy w s.codec none }) = true := by
      simp only [List.mem_cons, List.not_mem_nil, or_false] at hw
      rcases hw with rfl | rfl <;> decide +kernel
    obtain ⟨t, h, hb⟩ := next_of_nextHas key
    exact ⟨_, t, h, rfl, fun hc => by simp [State.isBusy, hc.2] at hb, rfl, _, _, rfl, rfl⟩
  · refine ⟨machine { CoreState.reset with status := { Status.reset with ovr := true } } (openIo [] 0), _, rfl, rfl, ?_, rfl, rfl⟩
    rintro ⟨⟨_, _, h⟩ | ⟨_, _, h⟩, _⟩ <;> simp [machine, State.reset, HostSide.initial] at h

/-! ### Errors, completion, frames -/

theorem witness_PreciseErrorsChangeOnlyTheReport : State.reset.prompt ∧ ¬ preconditionOf .build State.reset.codec.core ∧
    decode 0x0C#32 = none ∧ (∃ t, State.reset.eng = .idle ∧ preconditionOf .nop State.reset.codec.core ∧ exec .nop State.reset = .next t) := by
  refine ⟨by decide +kernel, ?_, by decide, _, rfl, trivial, rfl⟩
  unfold preconditionOf
  decide +kernel

/-- A body that raises; and a codec for each case of the error exit: IO_OUT, no pending bit, a closed output, and pending bits on an open
output whose write succeeds or fails. -/
theorem witness_RuntimeErrorTakesTheErrorExit :
    (∃ c, (raise .format : EngineM Unit) c = .error (.raise .format) c) ∧
    ∀ closed ∈ [false, true], ∀ obits ∈ [(0 : Fin 8), 5], ∀ d ∈ [Draw.ok, .fail],
      let c : Codec := { core := { CoreState.reset with obits := obits }
                         io := { answering [d] .ok (openIo aaabbc 6) with outClosed := closed }
                         params := Params.ofSpec }
      c.StreamInv ∧ c.io.draws.answered ∧ c.io.draws.pop.1 = d ∧ c.io.outClosed = closed ∧ c.core.obits = obits := by
  refine ⟨⟨State.reset.codec, rfl⟩, ?_⟩
  intro closed _ obits _ d hd
  refine ⟨⟨?_, Nat.le_refl 6⟩, ?_, rfl, rfl, rfl⟩
  · intro j _ _
    simp [CoreState.reset]
  · simp only [List.mem_cons, List.not_mem_nil, or_false] at hd
    rcases hd with rfl | rfl
    · exact (show (answering [.ok] .ok (openIo aaabbc 6)).draws.answered by decide)
    · exact (show (answering [.fail] .ok (openIo aaabbc 6)).draws.answered by decide)

theorem witness_EveryAnsweredCommandEnds : ∃ s : State, s.Inv ∧ s.ready :=
  ⟨machine codedK (answering [.ok, .fail] .fail (openIo aaabbc 6)), machine_codedK_inv _ (by decide), by decide +kernel⟩

/-- Every command of the statement, with listed `wait` draws and without. -/
theorem witness_UnansweredTransactionLeavesTheCoreBusy :
    ∀ i ∈ [Instr.count, .encode, .wrmagic, .chkmagic, .close], ∀ l ∈ [[], [Draw.wait]],
      let s := programmed [.word (encode i)] (machine codedK (answering l .wait (openIo aaabbc 6)))
      s.eng = .idle ∧ s.codec.io.draws.silent ∧ s.resetInput = [] ∧ preconditionOf i s.codec.core ∧
        s.host.prog = [.word (encode i)] ∧ s.host.pc = 0 ∧ s.host.polling = false := by
  intro i hi l hl
  simp only [List.mem_cons, List.not_mem_nil, or_false] at hi hl
  rcases hl with rfl | rfl <;> rcases hi with rfl | rfl | rfl | rfl | rfl <;>
    exact ⟨rfl, by decide, rfl, by unfold preconditionOf; decide +kernel, rfl, rfl, rfl⟩

/-- RDTREE with one byte read and the next never answered, its host polling. -/
theorem witness_UnansweredAfterAnsweredTransactions :
    let s := { machine CoreState.reset (answering [.ok] .wait (openIo aaabbcFile 2)) with host := { HostSide.initial with polling := true } }
    s.eng = .idle ∧ s.codec.io.draws.silentAfterListed ∧ (∀ level ∈ s.resetInput, level = false) ∧ s.host.polling = true ∧
      ∃ t, exec .rdtree s = .next t ∧ t.eng = .busy (encode .rdtree) s.codec (some .read) := by
  refine ⟨by decide, by decide, by decide, rfl, ?_⟩
  exact next_with (p := fun t => t.eng = .busy (encode .rdtree) _ (some .read)) (by decide +kernel)

/-- ENCODE runs: the frames, which ask for a next state, speak of it. -/
theorem witness_CommandsKeepInputHostAndWrittenBytes :
    ∃ t, exec .encode (machine codedK (openIo aaabbc 6)) = .next t ∧ t.codec.io.output = [0x1F#8] :=
  next_with (p := fun t => t.codec.io.output = [0x1F#8]) (by decide +kernel)

/-- On a closed output, too. -/
theorem witness_CommandsKeepAClosedOutput :
    ∃ t, exec .encode (machine codedK { openIo aaabbc 6 with outClosed := true }) = .next t ∧ t.codec.io.output = [] :=
  next_with (p := fun t => t.codec.io.output = []) (by decide +kernel)

theorem witness_OnlyCountWritesFreq : Instr.wrtree ≠ .count ∧ Instr.wrtree ≠ .clear ∧
    ∃ t, exec .wrtree (machine builtK (openIo aaabbc 6)) = .next t ∧ t.codec.core.obits = 5 :=
  ⟨by decide, by decide, next_with (p := fun t => t.codec.core.obits = 5) (by decide +kernel)⟩

theorem witness_CommandFrame : ∃ t, exec .rdtree (machine CoreState.reset (openIo aaabbcFile 2)) = .next t ∧
    (machine CoreState.reset (openIo aaabbcFile 2)).eng = .idle ∧ t.eng = .idle ∧ t.codec.core.status.err = false := by
  obtain ⟨t, h, h1, h2⟩ := next_with (p := fun t => t.eng = .idle ∧ t.codec.core.status.err = false)
    (o := exec .rdtree (machine CoreState.reset (openIo aaabbcFile 2))) (by decide +kernel)
  exact ⟨t, h, rfl, h1, h2⟩

theorem witness_StatusFrame : ∃ t, (machine readK (openIo aaabbcFile 6)).eng = .idle ∧
    exec .decode (machine readK (openIo aaabbcFile 6)) = .next t ∧ t.codec.core.status.done = true := by
  obtain ⟨t, h, h1⟩ := next_with (p := fun t => t.codec.core.status.done = true)
    (o := exec .decode (machine readK (openIo aaabbcFile 6))) (by decide +kernel)
  exact ⟨t, rfl, h, h1⟩

/-! ### Invariants -/

/-- A machine with a coded tree, its host about to issue WRTREE; and one running COUNT over such a tree. -/
theorem witness_StepKeepsTheInvariant :
    (∃ s t : State, s.Inv ∧ step s = .next t ∧ t.codec.core.obits = 5) ∧
    (∃ s t : State, s.Inv ∧ s.isBusy = true ∧ step s = .next t ∧ t.isBusy = true) := by
  constructor
  · obtain ⟨t, h, h1⟩ := next_with (p := fun t => t.codec.core.obits = 5)
      (o := step (programmed [.word 0x04#32] (machine codedK (openIo aaabbc 6)))) (by decide +kernel)
    exact ⟨_, t, ⟨codedK_inv _ (by decide), by intro _ _ _ h; cases h⟩, h, h1⟩
  · obtain ⟨t, h, h1⟩ := next_with (p := fun t => t.isBusy = true)
      (o := step (counting (some .rewind) (machine codedK (answering [.wait, .wait] .ok (openIo aaabbc 6))))) (by decide +kernel)
    exact ⟨_, t, counting_codedK_inv _ _ (by decide), rfl, h, h1⟩

theorem witness_StepKeepsTheStatusInvariant : ∃ s t : State, s.always Codec.StatusInv ∧ step s = .next t := by
  obtain ⟨⟨s, t, hi, h, -⟩, -⟩ := witness_StepKeepsTheInvariant
  exact ⟨s, t, ⟨hi.1.1, fun w st x hb => (hi.2 w st x hb).1⟩, h⟩

theorem witness_StepKeepsTheStreamInvariant : ∃ s t : State, s.always Codec.StreamInv ∧ step s = .next t := by
  obtain ⟨⟨s, t, hi, h, -⟩, -⟩ := witness_StepKeepsTheInvariant
  exact ⟨s, t, ⟨hi.1.2.1, fun w st x hb => (hi.2 w st x hb).2.1⟩, h⟩

theorem witness_StepKeepsTheTreeInvariant : ∃ s t : State, s.always Codec.TreeInv ∧ step s = .next t := by
  obtain ⟨⟨s, t, hi, h, -⟩, -⟩ := witness_StepKeepsTheInvariant
  exact ⟨s, t, ⟨hi.1.2.2.1, fun w st x hb => (hi.2 w st x hb).2.2.1⟩, h⟩

theorem witness_StepNeverFaults : (programmed [.word 0x07#32] (machine codedK (openIo aaabbc 0))).Inv :=
  ⟨codedK_inv _ (by decide), by intro _ _ _ h; cases h⟩

/-! ### Commands -/

theorem witness_NopCompletes : (machine codedK (openIo aaabbc 6)).prompt := by decide +kernel

theorem witness_ClearResetsTheCore : (machine { codedK with obits := 5 } (openIo aaabbc 6)).prompt := by decide +kernel

/-- A non-empty and an empty input. -/
theorem witness_CountCountsTheInput : (machine codedK (openIo aaabbc 4)).working ∧ aaabbc.length < 2 ^ 32 ∧
    (machine codedK (openIo [] 0)).working := by decide +kernel

theorem witness_CountOverflows (n : Nat) (h : 2 ^ 32 ≤ n) :
    let s := machine CoreState.reset (openIo (List.replicate n 0x41#8) 0)
    s.working ∧ 2 ^ 32 ≤ s.codec.io.input.length := by
  refine ⟨⟨rfl, (show (openIo [] 0).draws.allOk by decide)⟩, ?_⟩
  simpa [machine, openIo] using h

theorem witness_FailedRewindIsAnInputError : ∀ i ∈ [Instr.count, .encode, .chkmagic],
    let s := machine codedK (answering [.fail] .ok (openIo aaabbc 6))
    s.failsAfter 0 ∧ preconditionOf i s.codec.core := by
  intro i hi
  simp only [List.mem_cons, List.not_mem_nil, or_false] at hi
  rcases hi with rfl | rfl | rfl <;> exact ⟨by decide +kernel, by unfold preconditionOf; decide +kernel⟩

/-- The first and the last byte of COUNT's pass, and each byte of the marker. -/
theorem witness_FailedReadOfAByte : ∀ x ∈ [(aaabbc, 0), (aaabbc, 5), ([0x48#8, 0x46#8], 0), ([0x48#8, 0x46#8], 1)],
    let s := machine codedK (answering (List.replicate (x.2 + 1) .ok ++ [.fail]) .ok (openIo x.1 0))
    s.failsAfter (x.2 + 1) ∧ x.2 < s.codec.io.input.length ∧ x.2 < 2 ^ 32 - 1 ∧
      (x.2 < 2 → x.1 = [0x48#8, 0x46#8] → s.codec.io.input.take x.2 = ([0x48#8, 0x46#8] : List Byte).take x.2) := by decide +kernel

/-- ENCODE at its first byte, and at its last with 6 pending bits, after one byte written. -/
theorem witness_FailedReadInEncode : ∀ x ∈ [((0 : Fin 8), 0, 0), (6, 5, 1)],
    let s := machine { codedK with obits := x.1 } (answering (List.replicate (x.2.1 + 1 + x.2.2) .ok ++ [.fail]) .ok (openIo aaabbc 0))
    s.codec.core.status.codesValid = true ∧ s.codec.io.outClosed = false ∧ x.2.1 < s.codec.io.input.length ∧
      (∀ b ∈ s.codec.io.input.take x.2.1, s.codec.core.codeLen.lookup b ≠ 0#8) ∧
      s.failsAfter (x.2.1 + 1 + (s.codec.core.obits.val + (s.codec.core.encoded (s.codec.io.input.take x.2.1)).length) / 8) := by
  decide +kernel

/-- RDTREE at the first and at the last byte of the tree of `90 64 32 10`, and DECODE at the byte after it. -/
theorem witness_FailedReadOfTheUnpacker :
    (∀ k ∈ [0, 3],
      let s := machine CoreState.reset (answering (List.replicate k .ok ++ [.fail]) .ok (openIo aaabbcFile 2))
      let read := s.codec.inBits.take (s.codec.core.ibits.val + 8 * k)
      s.failsAfter k ∧ s.codec.io.ipos + k < s.codec.io.input.length ∧ read <+: builtTree.bits s.codec.params.symOrder ∧
        read ≠ builtTree.bits s.codec.params.symOrder ∧ builtTree.nodesBegun read.length ≤ 511) ∧
    (let s := machine readK (answering [.ok, .ok, .ok, .fail] .ok (openIo aaabbcFile 6))
     let read := s.codec.inBits.take (s.codec.core.ibits.val + 8 * 0)
     s.failsAfter (0 + (readTree.decode read).1.length) ∧ s.codec.io.ipos + 0 < s.codec.io.input.length ∧
       s.codec.io.outClosed = false ∧ s.codec.core.status.treeValid = true ∧ s.codec.core.obits = 0 ∧
       treeOf s.codec.core.node walkDepth s.codec.core.root = some readTree ∧ readTree.isNode = true) := by decide +kernel

/-- Three present symbols, and one. -/
theorem witness_BuildMakesOneFullTree : ∀ k ∈ [countedK, singleK], (machine k (openIo aaabbc 6)).prompt ∧
    k.status.freqValid = true ∧ presentCount k.freq ≠ 0 := by
  intro k hk
  simp only [List.mem_cons, List.not_mem_nil, or_false] at hk
  rcases hk with rfl | rfl
  · exact ⟨by decide, rfl, by simp [countedK_present.1]⟩
  · exact ⟨by decide, rfl, by simp [singleK_present.1]⟩

theorem witness_BuildWeightsAddUp : ∀ k ∈ [countedK, singleK], (machine k (openIo aaabbc 6)).prompt ∧
    k.status.freqValid = true ∧ presentCount k.freq ≠ 0 ∧ countSum k.freq = k.totalBytes.toNat := by
  intro k hk
  obtain ⟨h1, h2, h3⟩ := witness_BuildMakesOneFullTree k hk
  simp only [List.mem_cons, List.not_mem_nil, or_false] at hk
  rcases hk with rfl | rfl
  · exact ⟨h1, h2, h3, countedK_present.2⟩
  · exact ⟨h1, h2, h3, singleK_present.2⟩

theorem witness_BuildOfNothingFails :
    let k := { CoreState.reset with status := { Status.reset with done := true, freqValid := true } }
    (machine k (openIo [] 0)).working ∧ k.status.freqValid = true ∧ presentCount k.freq = 0 := by
  refine ⟨by decide, rfl, ?_⟩
  simp [presentCount_eq, CoreState.reset, Table.lookup]

/-- Two slots, and five. -/
theorem witness_MinScanSelectsTheTwoLightest :
    2 ≤ (Forest.mk builtK.node [3, 0]).slots.length ∧ 2 ≤ (Forest.mk builtK.node [0, 1, 2, 3, 4]).slots.length := by decide

theorem witness_BuildMergesByTheLinearScan :
    (∃ f : Forest, 2 ≤ f.slots.length ∧ ∃ m1 m2, m1 = f.firstMin ∧ m2 = f.secondMin m1 ∧ m1 = 2 ∧ m2 = 1) ∧
    ∀ k ∈ [countedK, singleK], (machine k (openIo aaabbc 6)).prompt ∧ k.status.freqValid = true ∧
      (allSymbols.filter fun b => k.freq.lookup b != 0#32) ≠ [] := by
  refine ⟨⟨⟨builtK.node, [0, 1, 2]⟩, by decide, _, _, rfl, rfl, by decide +kernel⟩, fun k hk => ?_⟩
  obtain ⟨h1, h2, h3⟩ := witness_BuildMakesOneFullTree k hk
  refine ⟨h1, h2, fun h => h3 ?_⟩
  rw [presentCount_eq, List.countP_eq_length_filter, h]
  rfl

/-- Three present symbols, and one. -/
theorem witness_BuiltTreeDepthIsBounded : BuiltFrom countedK.freq builtTree ∧ 2 ≤ presentCount countedK.freq ∧
    BuiltFrom singleK.freq (.node 3#32 (.leaf 0x00#8 3#32 false) (.leaf 0#8 0#32 true)) ∧ presentCount singleK.freq = 1 := by
  refine ⟨builtTree_builtFrom, by simp [countedK_present.1], ⟨rfl, ?_, ?_⟩, singleK_present.1⟩
  · simp [CodeTree.weightsAdd, CodeTree.weight]
  · unfold leavesMatch
    rw [if_pos singleK_present.1]
    exact ⟨0x00#8, 3#32, by simp [singleK_lookups], by simp [singleK_lookups], rfl⟩

theorem witness_GencodesBindsThePaths :
    let s := machine builtK (openIo aaabbc 6)
    s.prompt ∧ s.codec.core.status.treeValid = true ∧ s.codec.core.status.treeBuilt = true ∧
      treeOf s.codec.core.node walkDepth s.codec.core.root = some builtTree ∧ builtTree.isNode = true ∧ builtTree.depth ≤ 255 ∧
      ((builtTree.leaves.filter fun l => !l.2.2).map fun l => l.1).Nodup := by decide +kernel

theorem witness_SingleSymbolGetsTheCodeZero : (machine singleK (openIo [] 0)).prompt ∧ singleK.status.freqValid = true ∧
    singleK.freq.lookup 0x00#8 ≠ 0#32 ∧ ∀ b', b' ≠ 0x00#8 → singleK.freq.lookup b' = 0#32 :=
  ⟨by decide, rfl, by simp [singleK_lookups], fun b' h => by simp [singleK_lookups, h]⟩

theorem witness_CodesArePrefixFree : (machine codedK (openIo aaabbc 6)).Inv ∧ (machine codedK (openIo aaabbc 6)).prompt ∧
    codedK.status.treeBuilt = true := ⟨machine_codedK_inv _ (by decide), by decide +kernel, rfl⟩

theorem witness_KraftSumOfBuiltCodes : (machine codedK (openIo aaabbc 6)).Inv ∧ codedK.status.codesValid = true :=
  ⟨machine_codedK_inv _ (by decide), rfl⟩

theorem witness_ProjectComputesTheSizes : (machine codedK (openIo aaabbc 6)).prompt ∧
    preconditionOf .project (machine codedK (openIo aaabbc 6)).codec.core :=
  ⟨by decide +kernel, by unfold preconditionOf; decide +kernel⟩

theorem witness_WrtreeAppendsTheTreeBits :
    let s := machine builtK (openIo aaabbc 6)
    s.working ∧ s.codec.io.outClosed = false ∧ s.codec.core.status.treeValid = true ∧
      treeOf s.codec.core.node walkDepth s.codec.core.root = some builtTree := by decide +kernel

/-- The built tree and the read one: the same shape and symbols, other weights. -/
theorem witness_WrtreeBitsDependOnTheShapeAlone : ∃ s1 s2 t1 t2 : State, s1.Inv ∧ s1.working ∧ s2.working ∧
    s1.codec.io.outClosed = false ∧ s2.codec.io.outClosed = false ∧ s1.codec.core.status.treeValid = true ∧
    s2.codec.core.status.treeValid = true ∧ treeOf s1.codec.core.node walkDepth s1.codec.core.root = some builtTree ∧
    treeOf s2.codec.core.node walkDepth s2.codec.core.root = some readTree ∧ builtTree.plain = readTree.plain ∧
    s1.codec.params = s2.codec.params ∧ exec .wrtree s1 = .next t1 ∧ exec .wrtree s2 = .next t2 ∧
    s1.codec.core.status.treeBuilt = true := by
  obtain ⟨t1, h1, -⟩ := next_of_nextHas (p := fun _ => true) (o := exec .wrtree (machine codedK (openIo aaabbc 6)))
    (by decide +kernel)
  obtain ⟨t2, h2, -⟩ := next_of_nextHas (p := fun _ => true) (o := exec .wrtree (machine readK (openIo aaabbcFile 6)))
    (by decide +kernel)
  exact ⟨machine codedK (openIo aaabbc 6), machine readK (openIo aaabbcFile 6), t1, t2, machine_codedK_inv _ (by decide),
    by decide, by decide, rfl, rfl, rfl, rfl, by decide +kernel, by decide +kernel, by decide, rfl, h1, h2, rfl⟩

/-- The bits of `90 64 32 10 F8` are the tree's, then eleven more (95 1.1, 2.5). -/
theorem witness_RdtreeReadsTheTree :
    let s := machine codedK (openIo aaabbcFile 2)
    s.working ∧ builtTree.size ≤ 511 ∧ s.codec.inBits = builtTree.bits s.codec.params.symOrder ++
      [false, false, false, true, true, true, true, true, false, false, false] := by decide +kernel

/-- A tree that goes down `n` left edges. -/
def leftChain (n : Nat) : CodeTree := Nat.repeat (fun t => .node 0#32 t (.leaf 0x41#8 0#32 false)) n (.leaf 0x00#8 0#32 false)

/-- The stream ends before the first token (95 2.5, `48 46`), inside the first leaf (`48 46 80`), and, 256 and 504 internal tokens being open,
after 32 and 63 bytes of `FF`, where no tree of 511 nodes goes on. -/
theorem witness_TruncatedTreeIsReported :
    ∀ x ∈ [([], 1), ([0x80#8], 1), (List.replicate 32 0xFF#8, 256), (List.replicate 63 0xFF#8, 504)],
      let s := machine CoreState.reset (openIo ([0x48#8, 0x46#8] ++ x.1) 2)
      let tr := leftChain x.2
      s.working ∧ s.codec.io.ipos ≤ s.codec.io.input.length ∧
        s.codec.inBits <+: tr.bits s.codec.params.symOrder ∧ s.codec.inBits ≠ tr.bits s.codec.params.symOrder ∧
        tr.nodesBegun s.codec.inBits.length ≤ 511 := by
  decide +kernel

/-- A tree that goes down `n` right edges, with a leaf `A` on the left of each. -/
def rightChain (n : Nat) : CodeTree := Nat.repeat (fun t => .node 0#32 (.leaf 0x41#8 0#32 false) t) n (.leaf 0x00#8 0#32 false)

/-- 64 bytes of `FF` after the marker (95 2.5): 512 internal tokens. -/
theorem witness_OversizeTreeIsReported :
    let s := machine CoreState.reset (openIo ([0x48#8, 0x46#8] ++ List.replicate 64 0xFF#8) 2)
    let tr := leftChain 512
    let pre := List.replicate 511 true
    s.working ∧ s.codec.inBits = pre ++ true :: [] ∧ pre ++ [true] <+: tr.bits s.codec.params.symOrder ∧
      tr.nodesBegun pre.length = 511 ∧ tr.nodesBegun (pre.length + 1) = 512 := by decide +kernel

/-- Internal nodes and leaves in turn, four of each in the five bytes `90 64 19 06 41`: the 512th node is a leaf. -/
theorem witness_OversizeTreeWithLeaves :
    let s := machine CoreState.reset (openIo ((List.replicate 63 [0x90#8, 0x64#8, 0x19#8, 0x06#8, 0x41#8]).flatten ++
      [0x90#8, 0x64#8, 0x19#8, 0x06#8]) 0)
    let tr := rightChain 256
    let pre := s.codec.inBits.take 2551
    s.working ∧ s.codec.inBits = pre ++ false :: [] ∧ pre ++ [false] <+: tr.bits s.codec.params.symOrder ∧
      tr.nodesBegun pre.length = 511 ∧ tr.nodesBegun (pre.length + 1) = 512 := by decide +kernel

theorem witness_NodeNumberingAndReadWeights :
    (∃ s t : State, s.eng = .idle ∧ exec .rdtree s = .next t ∧ t.eng = .idle ∧ t.codec.core.status.done = true) ∧
    (∃ s t : State, s.eng = .idle ∧ exec .build s = .next t ∧ t.eng = .idle ∧ t.codec.core.status.done = true) ∧
    (∃ s t : State, s.ready ∧ treeOf s.codec.core.node walkDepth s.codec.core.root = some builtTree ∧
      treeOf [.internal 6#32 2 1, .internal 3#32 3 4, .leaf 0x41#8 3#32 false, .leaf 0x43#8 1#32 false, .leaf 0x42#8 2#32 false]
        walkDepth 0 = some builtTree ∧ exec .wrtree s = .next t ∧ t.codec.core.obits = 5) := by
  refine ⟨?_, ?_, ?_⟩
  · obtain ⟨t, h, h1, h2⟩ := next_with (p := fun t => t.eng = .idle ∧ t.codec.core.status.done = true)
      (o := exec .rdtree (machine CoreState.reset (openIo aaabbcFile 2))) (by decide +kernel)
    exact ⟨_, t, rfl, h, h1, h2⟩
  · obtain ⟨t, h, h1, h2⟩ := next_with (p := fun t => t.eng = .idle ∧ t.codec.core.status.done = true)
      (o := exec .build (machine countedK (openIo aaabbc 6))) (by decide +kernel)
    exact ⟨_, t, rfl, h, h1, h2⟩
  · obtain ⟨t, h, h1⟩ := next_with (p := fun t => t.codec.core.obits = 5)
      (o := exec .wrtree (machine builtK (openIo aaabbc 6))) (by decide +kernel)
    exact ⟨_, t, by decide +kernel, by decide +kernel, by decide +kernel, h, h1⟩

/-- WRTREE of the built tree on an empty output; a second machine with those bits, padded to bytes, and `F8` (95 2.4, 2.5). -/
theorem witness_TreeCodecRoundTrip : ∃ s t u : State, s.working ∧ s.codec.io.outClosed = false ∧
    s.codec.core.status.treeValid = true ∧ s.codec.core.holds builtTree ∧ s.codec.core.node.length ≤ 511 ∧
    exec .wrtree s = .next t ∧ t.codec.outBits = s.codec.outBits ++ builtTree.bits .msbFirst ∧ u.working ∧
    u.codec.params = s.codec.params ∧ u.codec.io.outClosed = false ∧
    u.codec.inBits = builtTree.bits .msbFirst ++ [false, false, false, true, true, true, true, true, false, false, false] := by
  obtain ⟨t, h, h1⟩ := next_with
    (p := fun t => t.codec.outBits = (machine builtK (openIo aaabbc 6)).codec.outBits ++ builtTree.bits .msbFirst)
    (o := exec .wrtree (machine builtK (openIo aaabbc 6))) (by decide +kernel)
  exact ⟨machine builtK (openIo aaabbc 6), t, machine CoreState.reset (openIo aaabbcFile 2), by decide, rfl, rfl, builtK_holds,
    by decide, h, h1, by decide, rfl, rfl, by decide +kernel⟩

/-- Every input byte has a code, and the counts are the input's. -/
theorem witness_EncodeAppendsTheCodes :
    let s := machine codedK (openIo aaabbc 6)
    s.working ∧ s.codec.io.outClosed = false ∧ s.codec.core.status.codesValid = true ∧
      (∀ b ∈ s.codec.io.input, s.codec.core.codeLen.lookup b ≠ 0#8) ∧
      ∀ b, (s.codec.core.freq.lookup b).toNat = s.codec.io.input.count b := by
  refine ⟨by decide, rfl, rfl, by decide +kernel, fun b => ?_⟩
  show (countedK.freq.lookup b).toNat = aaabbc.count b
  rw [builtK_lookups]
  by_cases h3 : b = 0x43#8
  · rw [h3]; decide
  · by_cases h2 : b = 0x42#8
    · rw [h2]; decide
    · by_cases h1 : b = 0x41#8
      · rw [h1]; decide
      · simp [h1, h2, h3, aaabbc, Ne.symm h1, Ne.symm h2, Ne.symm h3]

/-- The byte without a code comes first, and after an `A`. -/
theorem witness_UncodedByteIsReported : ∀ pre ∈ [[], [0x41#8]],
    let s := machine codedK (openIo (pre ++ 0x5A#8 :: []) 0)
    s.working ∧ s.codec.io.outClosed = false ∧ s.codec.core.status.codesValid = true ∧
      s.codec.io.input = pre ++ 0x5A#8 :: [] ∧ (∀ x ∈ pre, s.codec.core.codeLen.lookup x ≠ 0#8) ∧
      s.codec.core.codeLen.lookup 0x5A#8 = 0#8 := by decide +kernel

theorem witness_DecodeDescendsTheTree :
    let s := machine readK (openIo aaabbcFile 6)
    s.working ∧ s.codec.io.outClosed = false ∧ s.codec.core.status.treeValid = true ∧ s.codec.core.obits = 0 ∧
      s.codec.io.ipos ≤ s.codec.io.input.length ∧
      treeOf s.codec.core.node walkDepth s.codec.core.root = some readTree ∧ readTree.isNode = true := by decide +kernel

/-- What DECODE makes of the file's bits, from 95 2.7. -/
theorem test_tree_decode : readTree.decode (machine readK (openIo aaabbcFile 6)).codec.inBits =
    (aaabbc ++ [0x41#8, 0x41#8], false) := by decide +kernel

theorem witness_LeafRootIsReported :
    let s := machine leafRootK (openIo [0x48#8, 0x46#8, 0x20#8, 0x80#8] 4)
    s.working ∧ s.codec.core.status.treeValid = true ∧ s.codec.core.obits = 0 ∧
      s.codec.core.node[s.codec.core.root.val]? = some (.leaf 0x41#8 0#32 false) := by decide +kernel

/-- The codes of `A A A B B C` and two pad bits (95 1.1). -/
theorem witness_PadBitsAreDecoded :
    let s := machine readK (openIo aaabbcFile 6)
    s.working ∧ s.codec.io.outClosed = false ∧ s.codec.core.status.treeValid = true ∧ s.codec.core.obits = 0 ∧
      s.codec.io.ipos ≤ s.codec.io.input.length ∧
      treeOf s.codec.core.node walkDepth s.codec.core.root = some readTree ∧ readTree.isNode = true ∧
      (∀ b ∈ aaabbc, ∃ w ph, readTree.follow (codedK.code b) = some (.leaf b w ph)) ∧
      s.codec.inBits = aaabbc.flatMap codedK.code ++ List.replicate 2 false ∧ aaabbc.length + 2 < 2 ^ 64 := by
  refine ⟨by decide, rfl, rfl, rfl, by decide, by decide +kernel, rfl, ?_, by decide +kernel, by decide⟩
  intro b hb
  simp only [aaabbc, List.mem_cons, List.not_mem_nil, or_false] at hb
  refine ⟨0#32, false, ?_⟩
  rcases hb with rfl | rfl | rfl | rfl | rfl | rfl <;> rw [codedK_code] <;> rfl

/-- Working I/O on an open output; the first write fails, by its draw and on a closed output; the second write fails. -/
theorem witness_WrmagicWritesTheMarker :
    let s := machine codedK (openIo [] 0)
    let f := machine codedK (answering [] .fail (openIo [] 0))
    let c := machine codedK { openIo [] 0 with outClosed := true }
    let g := machine codedK (answering [.ok] .fail (openIo [] 0))
    (s.eng = .idle ∧ s.codec.core.obits = 0 ∧ s.codec.io.draws.allOk ∧ s.codec.io.outClosed = false) ∧
    (f.codec.core.obits = 0 ∧ f.writeFailsAfter 0 0) ∧ (c.codec.core.obits = 0 ∧ c.writeFailsAfter 0 0) ∧
    (g.codec.core.obits = 0 ∧ g.writeFailsAfter 0 1) := by
  refine ⟨?_, ?_, ?_, ?_⟩ <;> decide +kernel

/-- The marker, and each way to miss it: no byte, one byte, a wrong first byte, a wrong second byte. -/
theorem witness_ChkmagicChecksTheMarker :
    (machine codedK (openIo aaabbcFile 7)).working ∧ ([0x48#8, 0x46#8] : List Byte) <+: aaabbcFile ∧
    ∀ input ∈ [[], [0x48#8], [0x58#8, 0x46#8], [0x48#8, 0x58#8]],
      (machine codedK (openIo input 0)).working ∧ ¬ ([0x48#8, 0x46#8] : List Byte) <+: input := by decide +kernel

/-- Five bits pending on an open output; no bit pending on a closed one; a close that fails, with no bit pending and after the byte written. -/
theorem witness_ClosePadsAndCloses :
    let s := machine { codedK with obits := 5 } (openIo [] 0)
    let c := machine codedK { openIo [] 0 with outClosed := true }
    let f := machine codedK (answering [.fail] .ok (openIo [] 0))
    let g := machine { codedK with obits := 5 } (answering [.ok, .fail] .ok (openIo [] 0))
    (s.eng = .idle ∧ s.codec.io.draws.allOk ∧ s.codec.io.outClosed = false) ∧
    (c.eng = .idle ∧ c.codec.io.draws.allOk ∧ c.codec.core.obits = 0) ∧ (f.failsAfter 0 ∧ f.codec.core.obits = 0) ∧
    (g.failsAfter 1 ∧ g.codec.core.obits ≠ 0 ∧ g.codec.io.outClosed = false) := by
  refine ⟨?_, ?_, ?_, ?_⟩ <;> decide +kernel

/-- WRTREE at its first and third byte, on an open output and on a closed one; ENCODE at the byte that the first `B` of `A A A B B C` fills,
with 4 pending bits; DECODE at its first and third symbol; CLOSE with pending bits. -/
theorem witness_FailedByteWriteIsAnOutputError :
    (∀ x ∈ [(0, false), (2, false), (0, true)],
      let s := machine codedK { answering (List.replicate x.1 .ok ++ [.fail]) .ok (openIo aaabbc 6) with outClosed := x.2 }
      s.writeFailsAfter 0 x.1 ∧ s.codec.core.status.treeValid = true ∧
        treeOf s.codec.core.node walkDepth s.codec.core.root = some builtTree ∧
        8 * (x.1 + 1) ≤ s.codec.core.obits.val + (builtTree.bits s.codec.params.symOrder).length) ∧
    (∀ closed ∈ [false, true],
      let pre : List Byte := [0x41#8, 0x41#8, 0x41#8]
      let s := machine { codedK with obits := 4 }
        { answering (List.replicate 5 .ok ++ [.fail]) .ok (openIo aaabbc 0) with outClosed := closed }
      s.writeFailsAfter (pre.length + 2) 0 ∧ s.codec.core.status.codesValid = true ∧
        s.codec.io.input = pre ++ 0x42#8 :: [0x42#8, 0x43#8] ∧ (∀ x ∈ pre ++ [0x42#8], s.codec.core.codeLen.lookup x ≠ 0#8) ∧
        s.codec.core.obits.val + (s.codec.core.encoded pre).length < 8 * (0 + 1) ∧
        8 * (0 + 1) ≤ s.codec.core.obits.val + (s.codec.core.encoded (pre ++ [0x42#8])).length) ∧
    (∀ n ∈ [0, 2],
      let s := machine readK (answering (List.replicate n .ok ++ [.fail]) .ok (openIo aaabbcFile 6))
      let read := List.replicate (n + 1) false
      s.writeFailsAfter ((read.length + 7 - s.codec.core.ibits.val) / 8) (List.replicate n 0x41#8).length ∧
        s.codec.core.status.treeValid = true ∧ s.codec.core.obits = 0 ∧ s.codec.io.ipos ≤ s.codec.io.input.length ∧
        treeOf s.codec.core.node walkDepth s.codec.core.root = some readTree ∧ readTree.isNode = true ∧
        s.codec.inBits = read ++ s.codec.inBits.drop (n + 1) ∧
        readTree.decode read = (List.replicate n 0x41#8 ++ [0x41#8], false)) ∧
    (let s := machine { codedK with obits := 5 } (answering [.fail] .ok (openIo [] 0))
     s.writeFailsAfter 0 0 ∧ s.codec.core.obits ≠ 0) := by
  refine ⟨?_, ?_, ?_, ?_⟩ <;> decide +kernel

/-- The compressing side on `A A A B B C`, and the decompressing side on whatever was written. -/
theorem witness_CompressedInputDecompresses :
    let s := machine CoreState.reset (openIo aaabbc 0)
    (s.working ∧ s.codec.io.outClosed = false ∧ s.codec.io.output = [] ∧ s.codec.core.obits = 0 ∧ s.codec.io.input = aaabbc ∧
      aaabbc ≠ [] ∧ aaabbc.length < 2 ^ 32 ∧ s.codec.params.padBit = false) ∧
    ∀ written : List Byte, let u := machine CoreState.reset (openIo written 0)
      u.working ∧ u.codec.params = s.codec.params ∧ u.codec.io.outClosed = false ∧ u.codec.io.output = [] ∧
        u.codec.core.obits = 0 ∧ u.codec.io.input = written :=
  ⟨by decide +kernel, fun _ => ⟨⟨rfl, (show (openIo [] 0).draws.allOk by decide)⟩, rfl, rfl, rfl, rfl, rfl⟩⟩

end Sys2Proof.Tests
end

/-! PROOFS. The host's accesses to the words of the block that no command writes (spec/10_state.md R20, R24, R30, R31). -/

namespace Sys2Proof.Machine

/-! ## What a host access does -/

/-- A write to any word but CMD does nothing (10_state.md R30). -/
theorem hostWrite_ignored {off : Nat} (s : State) (v : Word) (ha : off % 4 = 0) (hl : off ≤ 0xFFC) (hc : off ≠ cmdOffset) :
    hostWrite (s.codec.params.regBase + off) 4 v s = .next s.nextStmt := by
  simp [hostWrite, blockOffset_of ha hl, hc]

@[simp] theorem HostSide.noteRead_lastRead (off : Nat) (v : Word) (h : HostSide) : (h.noteRead off v).lastRead = v := by
  unfold HostSide.noteRead
  split <;> rfl

/-- A read of a word of the block gives the host that word, and leaves the codec and the engine as they were. -/
theorem hostLoad_reads {off : Nat} (s : State) (ha : off % 4 = 0) (hl : off ≤ 0xFFC) :
    ∃ t, hostLoad (s.codec.params.regBase + off) 4 s = .next t ∧ t.host.lastRead = (s.readOffset off).1 ∧
      t.codec = s.codec ∧ t.eng = s.eng := by
  obtain ⟨hcodec, heng, -⟩ := hostRead_frame off s
  exact ⟨(s.hostRead off).nextStmt, by simp [hostLoad, blockOffset_of ha hl], by simp [State.hostRead], hcodec, heng⟩

/-! ## The words read -/

/-- Of the block, only STATUS and the words 0x010 to 0x054 read otherwise while BUSY (10_state.md R23). -/
theorem readOffset_exact {off : Nat} (s : State) (hs : off ≠ 0x008) (hv : ¬ (0x010 ≤ off ∧ off ≤ 0x054)) :
    (s.readOffset off).1 = regWord s.codec.core s.codec.params off := by
  unfold State.readOffset
  split
  · rw [busyRegWord, if_neg hs, if_neg hv]
  · rfl

/-- STATUS reads as its word while IDLE, and with its fields but BUSY and OVR free while BUSY (10_state.md R22, R23). -/
theorem readOffset_status (s : State) : (s.readOffset 0x008).1 =
    if s.isBusy then busyStatusWord s.codec.core.status.ovr (Config.freeWord s.reads) else statusWord false s.codec.core := by
  unfold State.readOffset
  split <;> rfl

/-- The words above the last defined one are reserved (10_state.md R19, R31). -/
theorem regWord_reserved (k : CoreState) (p : Params) {off : Nat} (h : 0x058 ≤ off) : regWord k p off = 0#32 := by
  unfold regWord
  split
  case h_23 => rfl
  all_goals omega

/-! ## The reserved bits -/

/-- Bits 11, 15 and 23:20 are the zero pieces of the STATUS word (10_state.md R22, R31). -/
theorem statusWord_reserved (busy : Bool) (k : CoreState) {j : Nat} (hj : j ∈ [11, 15, 20, 21, 22, 23]) :
    (statusWord busy k).getLsbD j = false := by
  simp only [statusWord, BitVec.getLsbD_append]
  simp only [List.mem_cons, List.not_mem_nil, or_false] at hj
  rcases hj with rfl | rfl | rfl | rfl | rfl | rfl <;> simp

/-- They are zero pieces of the word read while BUSY too, whatever the free value. -/
theorem busyStatusWord_reserved (ovr : Bool) (free : Word) {j : Nat} (hj : j ∈ [11, 15, 20, 21, 22, 23]) :
    (busyStatusWord ovr free).getLsbD j = false := by
  simp only [busyStatusWord, BitVec.getLsbD_append]
  simp only [List.mem_cons, List.not_mem_nil, or_false] at hj
  rcases hj with rfl | rfl | rfl | rfl | rfl | rfl <;> simp

/-- Bits 15:9 and 31:26 of PARAM are the two zero pieces, above four fields and above all six (10_state.md R24). -/
theorem paramWord_reserved (p : Params) {j : Nat} (hj : 9 ≤ j ∧ j ≤ 15 ∨ 26 ≤ j) : (paramWord p).getLsbD j = false := by
  simp only [paramWord, BitVec.getLsbD_append]
  rcases hj with ⟨h9, h15⟩ | h26
  · iterate 4 rw [if_neg (by omega)]
    rw [if_pos (by omega), BitVec.getLsbD_zero]
  · iterate 6 rw [if_neg (by omega)]
    rw [BitVec.getLsbD_zero]

/-! ## The value of PARAM -/

/-- PARAM is fixed by its three two-valued parameters (10_state.md R24). -/
theorem paramWord_toNat (p : Params) : (paramWord p).toNat = 32 + (if p.packOrder = .lsbFirst then 64 else 0)
    + (if p.symOrder = .lsbFirst then 128 else 0) + 256 * p.padBit.toNat + 2 ^ 16 * 511 := by
  obtain ⟨pack, sym, pad, -⟩ := p
  cases pack <;> cases sym <;> cases pad <;> simp [paramWord, Config.nodeCap] <;> decide

/-- PARAM with the values of 00_scope.md R8. -/
theorem paramWord_ofSpec {p : Params} (hpack : p.packOrder = .msbFirst) (hsym : p.symOrder = .msbFirst)
    (hpad : p.padBit = false) : paramWord p = 0x01FF0020#32 := by
  simp [← BitVec.toNat_inj, paramWord_toNat, hpack, hsym, hpad]

/-! ## The obligations -/

/-- Settles O10, by the words that a read gives BUSY or not and by their reserved bits. -/
theorem readOnlyAndReservedWords : Obligations.ReadOnlyAndReservedWords := by
  intro s off ha hl
  obtain ⟨t, hload, hread, -, -⟩ := hostLoad_reads s ha hl
  refine ⟨fun v hc => hostWrite_ignored s v ha hl hc, fun h58 => ⟨t, hload, ?_⟩, ?_, ?_⟩
  · rw [hread, readOffset_exact s (by omega) (by omega), regWord_reserved _ _ h58]
  · rintro rfl
    refine ⟨t, hload, fun j hj => ?_⟩
    rw [hread, readOffset_status]
    split
    · exact busyStatusWord_reserved _ _ hj
    · exact statusWord_reserved _ _ hj
  · rintro rfl
    refine ⟨t, hload, fun j hj => ?_⟩
    rw [hread, readOffset_exact s (by decide) (by decide)]
    exact paramWord_reserved _ hj

/-- Settles O9: both words are read exactly, BUSY or not, and neither is CMD. -/
theorem idAndParamReadTheirConstants : Obligations.IdAndParamReadTheirConstants := by
  intro s v
  obtain ⟨t, hload, hread, hcodec, -⟩ := hostLoad_reads (off := 0x000) s (by decide) (by decide)
  obtain ⟨u, uload, uread, ucodec, -⟩ := hostLoad_reads (off := 0x00C) s (by decide) (by decide)
  have hid : t.host.lastRead = 0x48460001#32 := hread.trans (readOffset_exact s (by decide) (by decide))
  have hparam : u.host.lastRead = paramWord s.codec.params := uread.trans (readOffset_exact s (by decide) (by decide))
  refine ⟨⟨t, hload, hid, by rw [hid]; rfl, by rw [hid]; rfl, by rw [hid]; rfl, hcodec⟩,
    hostWrite_ignored (off := 0x000) s v (by decide) (by decide) (by decide), ⟨u, uload, ?_, ?_, ucodec⟩,
    hostWrite_ignored s v (by decide) (by decide) (by decide)⟩
  · rw [hparam, paramWord_toNat]
  · intro hpack hsym hpad
    rw [hparam, paramWord_ofSpec hpack hsym hpad]

end Sys2Proof.Machine

/-! PROOFS. The host's accesses that the block does not support (spec/20_memory.md R45). -/

namespace Sys2Proof.Machine

/-- An access of another width, or at an offset that is no multiple of 4, has no offset in the block (20_memory.md R45). -/
theorem blockOffset_unsupported {p : Params} {off n : Nat} (h : n ≠ 4 ∨ off % 4 ≠ 0) :
    blockOffset p (p.regBase + off) n = none := by
  rw [blockOffset, Nat.add_sub_cancel_left]
  refine if_neg ?_
  rintro ⟨hwidth, -, haligned, -⟩
  exact h.elim (· hwidth) (· haligned)

/-- A read at an address without an offset in the block is refused. -/
theorem hostLoad_refused {s : State} {addr n : Nat} (h : blockOffset s.codec.params addr n = none) :
    hostLoad addr n s = .refused .unsupportedAccess := by
  rw [hostLoad, h]

/-- So is a write, whatever its value. -/
theorem hostWrite_refused {s : State} {addr n : Nat} (v : Word) (h : blockOffset s.codec.params addr n = none) :
    hostWrite addr n v s = .refused .unsupportedAccess := by
  rw [hostWrite, h]

/-- Settles O11: such an access has no offset in the block, and the host's reads and writes are refused without one. -/
theorem unsupportedAccessIsRefused : Obligations.UnsupportedAccessIsRefused := by
  intro s off n v h
  have hnone := blockOffset_unsupported (p := s.codec.params) h
  exact ⟨hostLoad_refused hnone, hostWrite_refused v hnone⟩

end Sys2Proof.Machine

/-! PROOFS. The decoder on every 32-bit word, and the write of an illegal one (spec/30_encoding.md R66 to R68;
spec/60_exceptions.md R137). -/

namespace Sys2Proof

/-! ## The fields of a command word -/

/-- RSVD as a number: the word without its low byte (30_encoding.md R66). -/
theorem rsvdField_toNat (w : Word) : (rsvdField w).toNat = w.toNat / 256 := by
  rw [rsvdField, BitVec.extractLsb'_toNat, Nat.shiftRight_eq_div_pow]
  exact Nat.mod_eq_of_lt (by omega)

/-- OPCODE as a number: the low byte of the word (30_encoding.md R66). -/
theorem opcodeField_toNat (w : Word) : (opcodeField w).toNat = w.toNat % 256 := by
  rw [opcodeField, BitVec.extractLsb'_toNat, Nat.shiftRight_zero]

theorem rsvdField_eq_zero_iff (w : Word) : rsvdField w = 0#24 ↔ w.toNat / 256 = 0 := by
  rw [← BitVec.toNat_inj, rsvdField_toNat, BitVec.toNat_zero]

/-! ## The two readings of the opcode map -/

/-- The map read from the opcode inverts the map read from the command, and gives no command for any other opcode
(30_encoding.md R67). -/
theorem decodeOpcode_eq_some_iff {op : BitVec 8} {i : Instr} : decodeOpcode op = some i ↔ op.toNat = (opcodeOf i).toNat := by
  constructor
  · intro h
    unfold decodeOpcode at h
    split at h
    case h_14 => cases h
    all_goals
      cases h
      assumption
  · intro h
    rw [BitVec.eq_of_toNat_eq h]
    cases i <;> rfl

/-- The opcodes that no command has (30_encoding.md R68). -/
theorem decodeOpcode_eq_none_iff {op : BitVec 8} :
    decodeOpcode op = none ↔ op.toNat = 0x0C ∨ op.toNat = 0x0D ∨ op.toNat = 0x0E ∨ 0x10 ≤ op.toNat := by
  unfold decodeOpcode
  split
  case h_14 =>
    refine iff_of_true rfl ?_
    simp only [imp_false] at *
    omega
  all_goals exact iff_of_false (Option.some_ne_none _) (by omega)

/-! ## The decoder -/

theorem decode_eq_some_iff {w : Word} {i : Instr} :
    decode w = some i ↔ w.toNat / 256 = 0 ∧ w.toNat % 256 = (opcodeOf i).toNat := by
  rw [← rsvdField_eq_zero_iff, ← opcodeField_toNat, ← decodeOpcode_eq_some_iff, decode,
    Option.ite_none_right_eq_some]

theorem decode_eq_none_iff {w : Word} : decode w = none ↔
    w.toNat / 256 ≠ 0 ∨ w.toNat % 256 = 0x0C ∨ w.toNat % 256 = 0x0D ∨ w.toNat % 256 = 0x0E ∨ 0x10 ≤ w.toNat % 256 := by
  rw [← opcodeField_toNat, ← decodeOpcode_eq_none_iff, ne_eq, ← rsvdField_eq_zero_iff, decode]
  by_cases h : rsvdField w = 0#24
  · simp [h]
  · simp [h]

end Sys2Proof

namespace Sys2Proof.Machine

/-! ## The write of an illegal word -/

/-- A precise error right after the acceptance of its word leaves the report of 60_exceptions.md R137. -/
theorem preciseError_accept (e : ErrCode) (w : Word) (c : Codec) :
    preciseError e (c.accept w) = { c with core := c.core.afterPrecise w e } := rfl

theorem writeCmd_illegal {w : Word} (s : State) (h : decode w = none) : writeCmd w s = writeIllegal w s := by
  rw [writeCmd, h]

/-- With ENG idle and no host move before its end, an illegal word ends in ILLEGAL_CMD (30_encoding.md R68). -/
theorem writeIllegal_prompt (w : Word) {s : State} (hs : s.prompt) :
    writeIllegal w s = .next { s with codec := { s.codec with core := s.codec.core.afterPrecise w .illegalCmd } } := by
  obtain ⟨hidle, hdraws⟩ := hs
  have hrun : writeIllegal w s = settle w s (.ok () (preciseError .illegalCmd (s.codec.accept w))) :=
    writeWord_idle _ _ hidle
  have hdone := settle_done (w := w) (s := s) (c := preciseError .illegalCmd (s.codec.accept w)) hdraws
  rw [hrun, hdone, ← hidle, preciseError_accept]

/-- Settles O2: the decoder tests RSVD and reads the opcode map, and an illegal word is answered by the precise error alone. -/
theorem everyWordIsOneCommandOrIllegal : Obligations.EveryWordIsOneCommandOrIllegal := fun w =>
  ⟨fun _ => decode_eq_some_iff, decode_eq_none_iff, fun s h hs => (writeCmd_illegal s h).trans (writeIllegal_prompt w hs)⟩

end Sys2Proof.Machine

/-! PROOFS. A relation between the codec before and after, kept by the updates that a command's rule makes, is kept by the rule
(the pseudocode of spec/41_tree_builder.md to spec/45_framing_and_control.md). Each lemma names the updates of its rule. -/

namespace Sys2Proof.Machine

namespace Composes
variable {R : Codec → Codec → Prop} (hR : Composes R)
include hR

/-- A branch on a computed truth value. -/
theorem keeps_branch {ε α : Type} {x : EStateM ε Codec Bool} {yes no : EStateM ε Codec α} (hx : Keeps R x) (hyes : Keeps R yes)
    (hno : Keeps R no) : Keeps R (x >>= fun b => if b = true then yes else no) :=
  hR.keeps_bind hx fun b => by
    cases b with
    | true => exact hyes
    | false => exact hno

/-! ## Commands without stream transactions -/

theorem keeps_projectBody (hsizes : ∀ c, R c (c.mapCore storeSizes)) (hdone : Keeps R complete) : Keeps R projectBody :=
  hR.keeps_bind (keeps_modifyCore hsizes) fun _ => hdone

theorem keeps_gencodesBody (hcodes : ∀ x c, R c (c.mapCore (storeCodes x))) (hdone : Keeps R complete) : Keeps R gencodesBody :=
  hR.keeps_bind hR.keeps_getCore fun _ => hR.keeps_bind (hR.keeps_need _) fun x =>
    hR.keeps_bind (keeps_modifyCore (hcodes x)) fun _ => hdone

theorem keeps_buildBody (hempty : ∀ c, R c (c.mapCore fun k => { k with node := [], work := [] }))
    (hforest : ∀ f c, R c (c.mapCore (storeForest f))) (hsize : ∀ c, R c (c.mapCore setTreeSize))
    (hbuilt : ∀ c, R c (c.mapCore setBuilt)) (hdone : Keeps R complete) : Keeps R buildBody := by
  refine hR.keeps_bind (keeps_modifyCore hempty) fun _ => hR.keeps_bind hR.keeps_getCore fun k => ?_
  cases buildForest k.freq with
  | none => exact hR.keeps_raise _
  | some f =>
    exact hR.keeps_bind (keeps_modifyCore (hforest f)) fun _ => hR.keeps_bind (keeps_modifyCore hsize) fun _ =>
      hR.keeps_bind (keeps_modifyCore hbuilt) fun _ => hdone

/-! ## Commands that write bytes or bits -/

theorem keeps_writeBytes (hwrite : ∀ b, Keeps R (boutWrite b)) (bs : List Byte) : Keeps R (writeBytes bs) := by
  induction bs with
  | nil => exact hR.keeps_pure _
  | cons b bs ih => exact hR.keeps_bind (hwrite b) fun _ => ih

theorem keeps_wrmagicBody (hwrite : ∀ b, Keeps R (boutWrite b)) (hdone : Keeps R complete) : Keeps R wrmagicBody :=
  hR.keeps_bind (hR.keeps_writeBytes hwrite _) fun _ => hdone

theorem keeps_closeBody (hbits : ∀ b, Keeps R (tryBitWrite b)) (hclose : Keeps R boutClose) (hdone : Keeps R complete) :
    Keeps R closeBody :=
  hR.keeps_bind (hR.keeps_bitFlush hbits) fun _ => hR.keeps_bind hclose fun _ => hdone

theorem keeps_wrtreeBody (hbits : ∀ b, Keeps R (tryBitWrite b)) (hdone : Keeps R complete) : Keeps R wrtreeBody :=
  hR.keeps_bind hR.keeps_getCore fun _ => hR.keeps_bind hR.keeps_getParams fun _ => hR.keeps_bind (hR.keeps_need _) fun bits =>
    hR.keeps_bind (hR.keeps_bitWrites hbits bits) fun _ => hdone

/-! ## Commands that rewind the input and read its bytes -/

theorem keeps_checkBytes (hread : Keeps R binRead) (bs : List Byte) : Keeps R (checkBytes bs) := by
  induction bs with
  | nil => exact hR.keeps_pure _
  | cons m bs ih =>
    refine hR.keeps_branch hR.keeps_binAtEnd (hR.keeps_raise _) (hR.keeps_bind hread fun b => ?_)
    split
    · exact hR.keeps_raise _
    · exact ih

theorem keeps_chkmagicBody (hrewind : Keeps R binRewind) (hread : Keeps R binRead) (hdone : Keeps R complete) :
    Keeps R chkmagicBody :=
  hR.keeps_bind hrewind fun _ => hR.keeps_bind (hR.keeps_checkBytes hread _) fun _ => hdone

theorem keeps_encodeByte (hbits : ∀ b, Keeps R (tryBitWrite b)) (b : Byte) : Keeps R (encodeByte b) := by
  refine hR.keeps_bind hR.keeps_getCore fun k => ?_
  split
  · exact hR.keeps_raise _
  · exact hR.keeps_bitWrites hbits _

theorem keeps_encodeLoop (hread : Keeps R binRead) (hbits : ∀ b, Keeps R (tryBitWrite b)) (n : Nat) : Keeps R (encodeLoop n) := by
  induction n with
  | zero => exact hR.keeps_branch hR.keeps_binAtEnd (hR.keeps_pure _) (hR.keeps_crash _)
  | succ n ih =>
    exact hR.keeps_branch hR.keeps_binAtEnd (hR.keeps_pure _)
      (hR.keeps_bind hread fun b => hR.keeps_bind (hR.keeps_encodeByte hbits b) fun _ => ih)

theorem keeps_encodeBody (hrewind : Keeps R binRewind) (hread : Keeps R binRead) (hbits : ∀ b, Keeps R (tryBitWrite b))
    (hdone : Keeps R complete) : Keeps R encodeBody :=
  hR.keeps_bind hrewind fun _ => hR.keeps_bind hR.keeps_get fun _ =>
    hR.keeps_bind (hR.keeps_encodeLoop hread hbits _) fun _ => hdone

/-! ## Commands that read the input's bits -/

theorem keeps_descend (hbit : Keeps R bitRead) (n : Nat) (i : NodeIdx) : Keeps R (descend n i) := by
  induction n generalizing i with
  | zero =>
    unfold descend
    refine hR.keeps_bind hR.keeps_getCore fun k => ?_
    split
    · exact hR.keeps_crash _
    · exact hR.keeps_pure _
    · exact hR.keeps_branch hR.keeps_bitAtEnd (hR.keeps_pure _) (hR.keeps_crash _)
  | succ n ih =>
    unfold descend
    refine hR.keeps_bind hR.keeps_getCore fun k => ?_
    split
    · exact hR.keeps_crash _
    · exact hR.keeps_pure _
    · exact hR.keeps_branch hR.keeps_bitAtEnd (hR.keeps_pure _) (hR.keeps_bind hbit fun _ => ih _)

theorem keeps_decodeLoop (hbit : Keeps R bitRead) (hwrite : ∀ b, Keeps R (boutWrite b)) (htail : ∀ c, R c (c.mapCore setTail))
    (hcount : ∀ c, R c (c.mapCore countSymbol)) (n : Nat) : Keeps R (decodeLoop n) := by
  induction n with
  | zero => exact hR.keeps_branch hR.keeps_bitAtEnd (hR.keeps_pure _) (hR.keeps_crash _)
  | succ n ih =>
    refine hR.keeps_branch hR.keeps_bitAtEnd (hR.keeps_pure _)
      (hR.keeps_bind hR.keeps_getCore fun k => hR.keeps_bind (hR.keeps_descend hbit _ _) fun leaf => ?_)
    cases leaf with
    | none => exact keeps_modifyCore htail
    | some s => exact hR.keeps_bind (hwrite s) fun _ => hR.keeps_bind (keeps_modifyCore hcount) fun _ => ih

theorem keeps_decodeBody (hzero : ∀ c, R c (c.mapCore fun k => { k with decSyms := 0#64 })) (hbit : Keeps R bitRead)
    (hwrite : ∀ b, Keeps R (boutWrite b)) (htail : ∀ c, R c (c.mapCore setTail)) (hcount : ∀ c, R c (c.mapCore countSymbol))
    (hdone : Keeps R complete) : Keeps R decodeBody := by
  refine hR.keeps_bind (keeps_modifyCore hzero) fun _ => hR.keeps_bind hR.keeps_get fun c => ?_
  split
  · exact hR.keeps_crash _
  · exact hR.keeps_raise _
  · exact hR.keeps_bind (hR.keeps_decodeLoop hbit hwrite htail hcount _) fun _ => hdone

theorem keeps_treeBit (hbit : Keeps R bitRead) : Keeps R treeBit :=
  hR.keeps_branch hR.keeps_bitAtEnd (hR.keeps_raise _) hbit

theorem keeps_readSymbolFrom (hbit : Keeps R bitRead) (k n : Nat) (s : Byte) : Keeps R (readSymbolFrom k n s) := by
  induction n generalizing k s with
  | zero => exact hR.keeps_pure _
  | succ n ih => exact hR.keeps_bind hR.keeps_getParams fun _ => hR.keeps_bind (hR.keeps_treeBit hbit) fun _ => ih _ _

theorem keeps_readNode (hbit : Keeps R bitRead) (halloc : ∀ c, R c (c.mapCore allocNode))
    (hnode : ∀ i x c, R c (c.mapCore (writeNode i x))) (n : Nat) : Keeps R (readNode n) := by
  induction n with
  | zero => exact hR.keeps_crash _
  | succ n ih =>
    have hput : ∀ i x, Keeps R (modifyCore (writeNode i x)) := fun i x => keeps_modifyCore (hnode i x)
    refine hR.keeps_bind (hR.keeps_treeBit hbit) fun b => hR.keeps_bind hR.keeps_getCore fun k => ?_
    split
    · exact hR.keeps_raise _
    · refine hR.keeps_bind (keeps_modifyCore halloc) fun _ => ?_
      cases b with
      | true =>
        exact hR.keeps_bind (hput _ _) fun _ => hR.keeps_bind ih fun _ => hR.keeps_bind (hput _ _) fun _ =>
          hR.keeps_bind ih fun _ => hR.keeps_bind (hput _ _) fun _ => hR.keeps_pure _
      | false =>
        exact hR.keeps_bind (hR.keeps_readSymbolFrom hbit 0 8 0#8) fun _ => hR.keeps_bind (hput _ _) fun _ => hR.keeps_pure _

theorem keeps_rdtreeBody (hempty : ∀ c, R c (c.mapCore fun k => { k with node := [] })) (hnode : Keeps R (readNode walkDepth))
    (hroot : ∀ r c, R c (c.mapCore (setRoot r))) (hsize : ∀ c, R c (c.mapCore setTreeSize))
    (hread : ∀ c, R c (c.mapCore setRead)) (hdone : Keeps R complete) : Keeps R rdtreeBody :=
  hR.keeps_bind (keeps_modifyCore hempty) fun _ => hR.keeps_bind hnode fun r =>
    hR.keeps_bind (keeps_modifyCore (hroot r)) fun _ => hR.keeps_bind (keeps_modifyCore hsize) fun _ =>
      hR.keeps_bind (keeps_modifyCore hread) fun _ => hdone

end Composes

/-- A view of the core that acceptance, a dropped write and the rest of a command keep is kept by the command, whether it ends,
still runs, or is dropped while another runs. -/
theorem issue_keeps_view {α : Type} {view : CoreState → α} {i : Instr} {pre : CoreState → Bool}
    {clear : CoreState → CoreState} {body : EngineM Unit} {s t : State} (hovr : ∀ k, view (setOvr k) = view k)
    (haccept : ∀ k, view (acceptWord (encode i) k) = view k)
    (hafter : Keeps (fun c c' => view c'.core = view c.core) (afterAccept pre clear body))
    (h : issue i pre clear body s = .next t) : view t.codec.core = view s.codec.core := by
  rcases issue_next h with ⟨hbusy, rfl⟩ | ⟨-, r, hr, hset⟩
  · cases hs : s.eng with
    | idle => simp [State.isBusy, hs] at hbusy
    | busy w start x =>
      rw [dropWrite_busy hs]
      exact hovr _
  · rcases settle_next hset with ⟨c, hc, rfl⟩ | ⟨c, ds, -, -, rfl⟩ | ⟨c, x, -, rfl⟩
    · exact (hafter.of_ok (hr.symm.trans hc)).trans (haccept _)
    · exact haccept _
    · exact haccept _

end Sys2Proof.Machine

/-! PROOFS. The commands that leave FREQ alone (spec/40_frequency_counter.md R84). -/

namespace Sys2Proof.Machine

/-- FREQ is the same before and after. -/
def SameFreq (c c' : Codec) : Prop := c'.core.freq = c.core.freq

theorem composes_sameFreq : Composes SameFreq := composes_of_view fun c => c.core.freq

/-! ## The shared operations -/

theorem sameFreq_complete : Keeps SameFreq complete := keeps_modifyCore fun _ => rfl

theorem sameFreq_binRead : Keeps SameFreq binRead := composes_sameFreq.keeps_binRead (fun _ => rfl) fun _ => rfl

theorem sameFreq_binRewind : Keeps SameFreq binRewind := composes_sameFreq.keeps_binRewind (fun _ => rfl) fun _ => rfl

theorem sameFreq_bitRead : Keeps SameFreq bitRead :=
  composes_sameFreq.keeps_bitRead sameFreq_binRead (fun _ _ => rfl) fun _ => rfl

theorem sameFreq_tryWrite (b : Byte) : Keeps SameFreq (tryWrite b) :=
  composes_sameFreq.keeps_tryWrite (fun _ => rfl) (fun _ _ => rfl) b

theorem sameFreq_boutWrite (b : Byte) : Keeps SameFreq (boutWrite b) :=
  composes_sameFreq.keeps_boutWrite (sameFreq_tryWrite b)

theorem sameFreq_tryBitWrite (b : Bool) : Keeps SameFreq (tryBitWrite b) :=
  composes_sameFreq.keeps_tryBitWrite sameFreq_tryWrite (fun _ _ => rfl) (fun _ => rfl) (fun _ => rfl) b

theorem sameFreq_tryClose : Keeps SameFreq tryClose := composes_sameFreq.keeps_tryClose (fun _ => rfl) fun _ => rfl

theorem sameFreq_errorExit (e : ErrCode) : Keeps SameFreq (errorExit e) :=
  composes_sameFreq.keeps_errorExit (fun _ _ => rfl) sameFreq_tryBitWrite (fun _ => rfl) sameFreq_tryClose e

/-- A command whose clearing and whose rule leave FREQ alone leaves it alone, however it goes. -/
theorem issue_sameFreq {i : Instr} {pre : CoreState → Bool} {clear : CoreState → CoreState} {body : EngineM Unit} {s t : State}
    (hclear : ∀ k, (clear k).freq = k.freq) (hbody : Keeps SameFreq body) (h : issue i pre clear body s = .next t) :
    t.codec.core.freq = s.codec.core.freq :=
  issue_keeps_view (view := CoreState.freq) (fun _ => rfl) (fun _ => rfl)
    (composes_sameFreq.keeps_afterAccept (fun _ => rfl) (fun c => hclear c.core)
      (composes_sameFreq.keeps_withErrorExit hbody sameFreq_errorExit)) h

/-! ## The rules -/

theorem sameFreq_buildBody : Keeps SameFreq buildBody :=
  composes_sameFreq.keeps_buildBody (fun _ => rfl) (fun _ _ => rfl) (fun _ => rfl) (fun _ => rfl) sameFreq_complete

theorem sameFreq_gencodesBody : Keeps SameFreq gencodesBody :=
  composes_sameFreq.keeps_gencodesBody (fun _ _ => rfl) sameFreq_complete

theorem sameFreq_wrtreeBody : Keeps SameFreq wrtreeBody :=
  composes_sameFreq.keeps_wrtreeBody sameFreq_tryBitWrite sameFreq_complete

theorem sameFreq_rdtreeBody : Keeps SameFreq rdtreeBody :=
  composes_sameFreq.keeps_rdtreeBody (fun _ => rfl)
    (composes_sameFreq.keeps_readNode sameFreq_bitRead (fun _ => rfl) (fun _ _ _ => rfl) _) (fun _ _ => rfl) (fun _ => rfl)
    (fun _ => rfl) sameFreq_complete

theorem sameFreq_encodeBody : Keeps SameFreq encodeBody :=
  composes_sameFreq.keeps_encodeBody sameFreq_binRewind sameFreq_binRead sameFreq_tryBitWrite sameFreq_complete

theorem sameFreq_decodeBody : Keeps SameFreq decodeBody :=
  composes_sameFreq.keeps_decodeBody (fun _ => rfl) sameFreq_bitRead sameFreq_boutWrite (fun _ => rfl) (fun _ => rfl)
    sameFreq_complete

theorem sameFreq_projectBody : Keeps SameFreq projectBody :=
  composes_sameFreq.keeps_projectBody (fun _ => rfl) sameFreq_complete

theorem sameFreq_wrmagicBody : Keeps SameFreq wrmagicBody :=
  composes_sameFreq.keeps_wrmagicBody sameFreq_boutWrite sameFreq_complete

theorem sameFreq_chkmagicBody : Keeps SameFreq chkmagicBody :=
  composes_sameFreq.keeps_chkmagicBody sameFreq_binRewind sameFreq_binRead sameFreq_complete

theorem sameFreq_closeBody : Keeps SameFreq closeBody :=
  composes_sameFreq.keeps_closeBody sameFreq_tryBitWrite (composes_sameFreq.keeps_boutClose sameFreq_tryClose) sameFreq_complete

/-- Settles O19: neither what a command but COUNT and CLEAR clears nor its rule writes FREQ. -/
theorem onlyCountWritesFreq : Obligations.OnlyCountWritesFreq := by
  intro i s t hcount hclear h
  cases i with
  | count => exact absurd rfl hcount
  | clear => exact absurd rfl hclear
  | nop => exact issue_sameFreq (fun _ => rfl) sameFreq_complete h
  | build => exact issue_sameFreq (clear := clearDerived) (fun _ => rfl) sameFreq_buildBody h
  | gencodes => exact issue_sameFreq (clear := clearCodesSizes) (fun _ => rfl) sameFreq_gencodesBody h
  | wrtree => exact issue_sameFreq (fun _ => rfl) sameFreq_wrtreeBody h
  | rdtree => exact issue_sameFreq (clear := clearAll) (fun _ => rfl) sameFreq_rdtreeBody h
  | encode => exact issue_sameFreq (fun _ => rfl) sameFreq_encodeBody h
  | decode => exact issue_sameFreq (fun _ => rfl) sameFreq_decodeBody h
  | project => exact issue_sameFreq (fun _ => rfl) sameFreq_projectBody h
  | wrmagic => exact issue_sameFreq (fun _ => rfl) sameFreq_wrmagicBody h
  | chkmagic => exact issue_sameFreq (fun _ => rfl) sameFreq_chkmagicBody h
  | close => exact issue_sameFreq (fun _ => rfl) sameFreq_closeBody h

end Sys2Proof.Machine

/-! PROOFS. COUNT counts the bytes it reads (spec/40_frequency_counter.md R81, R83). -/

namespace Sys2Proof.Machine

/-! ## The bytes of the loop, one by one and together -/

/-- The codec after one more byte is read and counted (40_frequency_counter.md R81). -/
def Codec.countedByte (c : Codec) (b : Byte) : Codec := c.drawn.advanceInput.mapCore (countByte b)

/-- The codec after the bytes `bs` are read and counted. -/
def Codec.counted (bs : List Byte) (c : Codec) : Codec := bs.foldl Codec.countedByte c

@[simp] theorem Codec.counted_nil (c : Codec) : c.counted [] = c := rfl
@[simp] theorem Codec.counted_cons (b : Byte) (bs : List Byte) (c : Codec) :
    c.counted (b :: bs) = (c.countedByte b).counted bs := rfl

@[simp] theorem Codec.countedByte_io (c : Codec) (b : Byte) :
    (c.countedByte b).io = { c.io with ipos := c.io.ipos + 1, draws := c.io.draws.pop.2 } := rfl
@[simp] theorem Codec.countedByte_totalBytes (c : Codec) (b : Byte) :
    (c.countedByte b).core.totalBytes = c.core.totalBytes + 1#32 := rfl
@[simp] theorem Codec.countedByte_inPos (c : Codec) (b : Byte) : (c.countedByte b).core.inPos = c.core.inPos + 1#64 := rfl

theorem Codec.countedByte_lookup (c : Codec) (b b' : Byte) : (c.countedByte b).core.freq.lookup b' =
    c.core.freq.lookup b' + BitVec.ofNat 32 ([b].count b') := by
  change (c.core.freq.update b (c.core.freq.lookup b + 1#32)).lookup b' = _
  by_cases h : b' = b
  · subst h
    simp
  · rw [Table.lookup_update_ne _ _ h, List.count_singleton]
    simp [Ne.symm h]

/-- The streams after `bs`: the position moved on, and a draw taken for each byte. -/
theorem Codec.counted_io (bs : List Byte) (c : Codec) : (c.counted bs).io =
    { c.io with ipos := c.io.ipos + bs.length, draws := c.io.draws.after bs.length } := by
  induction bs generalizing c with
  | nil => rfl
  | cons b bs ih => simp [ih, Nat.add_assoc, Nat.add_comm 1]

theorem Codec.counted_params (bs : List Byte) (c : Codec) : (c.counted bs).params = c.params := by
  induction bs generalizing c with
  | nil => rfl
  | cons b bs ih => exact ih _

/-- Of the core, counting writes FREQ, TOTAL_BYTES and IN_POS alone. -/
theorem Codec.counted_core (bs : List Byte) (c : Codec) : (c.counted bs).core =
    { c.core with
      freq := (c.counted bs).core.freq, totalBytes := (c.counted bs).core.totalBytes, inPos := (c.counted bs).core.inPos } := by
  induction bs generalizing c with
  | nil => rfl
  | cons b bs ih => exact ih _

theorem Codec.counted_totalBytes (bs : List Byte) (c : Codec) :
    (c.counted bs).core.totalBytes = c.core.totalBytes + BitVec.ofNat 32 bs.length := by
  induction bs generalizing c with
  | nil => simp
  | cons b bs ih =>
    rw [counted_cons, ih, countedByte_totalBytes, BitVec.add_assoc, ← BitVec.ofNat_add, List.length_cons, Nat.add_comm]

theorem Codec.counted_inPos (bs : List Byte) (c : Codec) :
    (c.counted bs).core.inPos = c.core.inPos + BitVec.ofNat 64 bs.length := by
  induction bs generalizing c with
  | nil => simp
  | cons b bs ih =>
    rw [counted_cons, ih, countedByte_inPos, BitVec.add_assoc, ← BitVec.ofNat_add, List.length_cons, Nat.add_comm]

/-- Every symbol's count grows by how often it is among `bs`. -/
theorem Codec.counted_lookup (bs : List Byte) (c : Codec) (b' : Byte) :
    (c.counted bs).core.freq.lookup b' = c.core.freq.lookup b' + BitVec.ofNat 32 (bs.count b') := by
  induction bs generalizing c with
  | nil => simp
  | cons b bs ih =>
    rw [counted_cons, ih, countedByte_lookup, BitVec.add_assoc, ← BitVec.ofNat_add, ← List.count_append, List.singleton_append]

/-! ## The loop -/

theorem countLoop_atEnd (n : Nat) {c : Codec} (h : c.io.ipos = c.io.input.length) : countLoop n c = .ok () c := by
  unfold countLoop
  rw [engine_bind_of_ok (binAtEnd_apply c), if_pos (by simp [Streams.atEnd, h])]
  rfl

/-- A byte read while TOTAL_BYTES is below its greatest value is counted, and the loop goes on. -/
theorem countLoop_byte (n : Nat) {c : Codec} {b : Byte} (hb : c.io.input[c.io.ipos]? = some b) (hd : c.io.draws.pop.1 = .ok)
    (ht : c.core.totalBytes ≠ BitVec.allOnes 32) : countLoop (n + 1) c = countLoop n (c.countedByte b) := by
  have hlt : c.io.ipos < c.io.input.length := (List.getElem?_eq_some_iff.1 hb).1
  conv_lhs => unfold countLoop
  rw [engine_bind_of_ok (binAtEnd_apply c), if_neg (by simp [Streams.atEnd, Nat.ne_of_lt hlt])]
  change (getCore >>= _) c = _
  rw [engine_bind_of_ok (getCore_apply c), if_neg ht, engine_bind_of_ok (binRead_ok hd hb),
    engine_bind_of_ok (modifyCore_apply _ _)]
  rfl

/-- The loop counts the bytes `bs` next in the input, as long as their reads succeed and TOTAL_BYTES can hold their number. -/
theorem countLoop_bytes (n : Nat) (bs : List Byte) {c : Codec} (hbs : bs <+: c.io.input.drop c.io.ipos)
    (hd : c.io.draws.okFor bs.length = true) (ht : c.core.totalBytes.toNat + bs.length < 2 ^ 32) :
    countLoop (bs.length + n) c = countLoop n (c.counted bs) := by
  induction bs generalizing c with
  | nil => simp
  | cons b bs ih =>
    obtain ⟨rest, hrest⟩ := hbs
    rw [List.length_cons] at ht hd ⊢
    rw [Draws.okFor_succ, Bool.and_eq_true, beq_iff_eq] at hd
    have hb : c.io.input[c.io.ipos]? = some b := by
      rw [← List.head?_drop, ← hrest]; rfl
    have htail : c.io.input.drop (c.io.ipos + 1) = bs ++ rest := by
      rw [← List.tail_drop, ← hrest]; rfl
    have hfull : c.core.totalBytes ≠ BitVec.allOnes 32 := fun h => by
      rw [h, BitVec.toNat_allOnes] at ht
      omega
    have hnext : (c.countedByte b).core.totalBytes.toNat = c.core.totalBytes.toNat + 1 := by
      rw [Codec.countedByte_totalBytes, BitVec.toNat_add]
      exact Nat.mod_eq_of_lt (by simp; omega)
    rw [Nat.add_right_comm, countLoop_byte _ hb hd.1 hfull, Codec.counted_cons]
    exact ih ⟨rest, htail.symm⟩ hd.2 (by omega)

/-! ## The rule -/

/-- The codec when COUNT begins its loop: the input rewound, and nothing counted (40_frequency_counter.md R81). -/
def Codec.beginCount (c : Codec) : Codec := c.drawn.rewound.mapCore startCount

/-- Once the rewind succeeds, the rule of COUNT is its loop from the first byte. -/
theorem countBody_rewound {c : Codec} (hd : c.io.draws.pop.1 = .ok) : countBody c =
    (do countLoop c.io.input.length; modifyCore finishCount; complete) c.beginCount := by
  rw [countBody, engine_bind_of_ok (binRewind_ok hd), engine_bind_of_ok (modifyCore_apply _ _), engine_bind_of_ok (get_apply _)]
  rfl

/-- The codec when the rule of COUNT has counted its whole input and completed. -/
def Codec.wholeCounted (c : Codec) : Codec := ((c.beginCount.counted c.io.input).mapCore finishCount).mapCore setDone

/-- COUNT of an input that TOTAL_BYTES can count, its transactions succeeding. -/
theorem countBody_whole {c : Codec} (hd : c.io.draws.okFor (c.io.input.length + 1) = true) (hl : c.io.input.length < 2 ^ 32) :
    countBody c = .ok () c.wholeCounted := by
  rw [Draws.okFor_succ, Bool.and_eq_true, beq_iff_eq] at hd
  have hloop : countLoop c.io.input.length c.beginCount = .ok () (c.beginCount.counted c.io.input) := by
    have hbytes := countLoop_bytes 0 c.io.input (c := c.beginCount) ⟨[], List.append_nil _⟩ hd.2
      (by simpa [Codec.beginCount] using hl)
    rw [← Nat.add_zero c.io.input.length, hbytes]
    exact countLoop_atEnd 0 (by simp [Codec.counted_io, Codec.beginCount])
  rw [countBody_rewound hd.1, engine_bind_of_ok hloop, engine_bind_of_ok (modifyCore_apply _ _), complete_apply]
  rfl

/-! ## What is counted -/

/-- Working I/O goes on working. -/
theorem Draws.allOk.after {d : Draws} (h : d.allOk) (n : Nat) : (d.after n).allOk := by
  induction n generalizing d with
  | zero => exact h
  | succ n ih => exact ih (pop_allOk h).2

/-- A table of the counts of `bs` has as many present symbols as `bs` has different bytes. -/
theorem presentCount_of_counts {freq : Table (BitVec 32)} {bs : List Byte}
    (h : ∀ b, (freq.lookup b).toNat = bs.count b) : presentCount freq = allSymbols.countP fun b => bs.contains b := by
  rw [presentCount_eq]
  refine List.countP_congr fun b _ => ?_
  have hcount : freq.lookup b = 0#32 ↔ bs.count b = 0 := by
    rw [← BitVec.toNat_inj, h b, BitVec.toNat_zero]
  rw [bne_iff_ne, ne_eq, hcount, List.count_eq_zero, not_not, List.contains_iff_mem]

theorem presentCount_le (freq : Table (BitVec 32)) : presentCount freq ≤ 256 := by
  rw [presentCount_eq, ← allSymbols_length]
  exact List.countP_le_length

theorem Codec.beginCount_counted_lookup (c : Codec) {bs : List Byte} (hl : bs.length < 2 ^ 32) (b : Byte) :
    ((c.beginCount.counted bs).core.freq.lookup b).toNat = bs.count b := by
  have hle : bs.count b ≤ bs.length := List.count_le_length
  simp only [counted_lookup, beginCount, mapCore_core, startCount_fields, Table.lookup_fill, BitVec.zero_add, BitVec.toNat_ofNat]
  exact Nat.mod_eq_of_lt (by omega)

theorem Codec.beginCount_counted_totalBytes (c : Codec) {bs : List Byte} (hl : bs.length < 2 ^ 32) :
    (c.beginCount.counted bs).core.totalBytes.toNat = bs.length := by
  simp only [counted_totalBytes, beginCount, mapCore_core, startCount_fields, BitVec.zero_add, BitVec.toNat_ofNat]
  exact Nat.mod_eq_of_lt hl

theorem Codec.beginCount_counted_inPos (c : Codec) {bs : List Byte} (hl : bs.length < 2 ^ 64) :
    (c.beginCount.counted bs).core.inPos.toNat = bs.length := by
  simp only [counted_inPos, beginCount, mapCore_core, startCount_fields, rewound_core, BitVec.zero_add, BitVec.toNat_ofNat]
  exact Nat.mod_eq_of_lt hl

/-- The codec in which the rule of COUNT runs: the word accepted, and all validity bits cleared (10_state.md R32). -/
abbrev State.acceptedCount (s : State) : Codec := (s.codec.accept (encode .count)).mapCore clearAll

/-- COUNT of an input that TOTAL_BYTES can count completes. -/
theorem exec_count_whole {s : State} (hs : s.working) (hl : s.codec.io.input.length < 2 ^ 32) : exec .count s =
    .next { s with codec := s.acceptedCount.wholeCounted, eng := .idle } := by
  obtain ⟨hidle, hdraws⟩ := hs
  have hbody := countBody_whole (c := s.acceptedCount) (hdraws.okFor _) hl
  have hlast : s.acceptedCount.wholeCounted.io.draws.allOk := by
    rw [Codec.wholeCounted, Codec.mapCore_io, Codec.mapCore_io, Codec.counted_io]
    exact (Draws.pop_allOk hdraws).2.after _
  have hrun : exec .count s = settle (encode .count) s (withErrorExit countBody s.acceptedCount) :=
    issue_of_pre _ _ hidle rfl
  rw [hrun, withErrorExit_ok hbody]
  exact settle_done hlast.answered.head_ne

/-- Settles O30: the loop counts the whole rewound input, whose length TOTAL_BYTES can hold, and the rule completes. -/
theorem countCountsTheInput : Obligations.CountCountsTheInput := by
  intro s hs hl
  have hlookup := Codec.beginCount_counted_lookup s.acceptedCount hl
  refine ⟨_, exec_count_whole hs hl, rfl, hlookup, Codec.beginCount_counted_totalBytes _ hl, ?_, ?_,
    Codec.beginCount_counted_inPos _ (Nat.lt_trans hl (by decide)), ?_⟩
  · change (BitVec.ofNat 9 (presentCount _)).toNat = _
    rw [← presentCount_of_counts hlookup, BitVec.toNat_ofNat]
    exact Nat.mod_eq_of_lt (Nat.lt_of_le_of_lt (presentCount_le _) (by decide))
  · change (Codec.counted _ _).io.ipos = _
    rw [Codec.counted_io]
    exact Nat.zero_add _
  · rw [Codec.wholeCounted, Codec.mapCore_core, Codec.mapCore_core, Codec.counted_core]
    exact ⟨rfl, rfl, rfl, rfl, rfl, rfl, rfl, rfl, rfl, rfl, rfl, rfl⟩

end Sys2Proof.Machine

/-! PROOFS. The linear scan of BUILD and its merges (spec/41_tree_builder.md R86, R88 to R90). -/

namespace Sys2Proof.Machine

/-! ## The two scans -/

/-- `m` is the lowest of the allowed slots below `n` that have the least weight (41_tree_builder.md R88). -/
structure LeastSlot (w : Nat → BitVec 32) (allowed : Nat → Prop) (n m : Nat) : Prop where
  lt : m < n
  isAllowed : allowed m
  least : ∀ k, k < n → allowed k → w m ≤ w k
  lowest : ∀ k, k < m → allowed k → w m < w k

/-- A scan from the lowest allowed slot, which replaces its candidate only on a strictly smaller weight, finds the least slot. -/
theorem foldl_leastSlot (w : Nat → BitVec 32) (allowed : Nat → Prop) [DecidablePred allowed] {m0 n : Nat} (h0 : allowed m0)
    (hbelow : ∀ k, k < m0 → ¬ allowed k) (hn : m0 < n) :
    LeastSlot w allowed n ((List.range n).foldl (fun m k => if allowed k ∧ w k < w m then k else m) m0) := by
  suffices h : ∀ n, ∃ m, (List.range n).foldl (fun m k => if allowed k ∧ w k < w m then k else m) m0 = m ∧ (m = m0 ∨ m < n) ∧
      allowed m ∧ (∀ k, k < n → allowed k → w m ≤ w k) ∧ ∀ k, k < m → allowed k → w m < w k by
    obtain ⟨m, hm, hlt, hallowed, hleast, hlowest⟩ := h n
    rw [hm]
    exact ⟨by omega, hallowed, hleast, hlowest⟩
  intro n
  induction n with
  | zero => exact ⟨m0, rfl, .inl rfl, h0, fun k hk => absurd hk (Nat.not_lt_zero k), fun k hk ha => absurd ha (hbelow k hk)⟩
  | succ n ih =>
    obtain ⟨m, hm, hlt, hallowed, hleast, hlowest⟩ := ih
    rw [List.range_succ, List.foldl_append, hm]
    by_cases hnew : allowed n ∧ w n < w m
    · have hbeats : ∀ k, k < n → allowed k → w n < w k := fun k hk ha =>
        BitVec.lt_def.2 (Nat.lt_of_lt_of_le (BitVec.lt_def.1 hnew.2) (BitVec.le_def.1 (hleast k hk ha)))
      refine ⟨n, if_pos hnew, .inr (Nat.lt_succ_self n), hnew.1, fun k hk ha => ?_, hbeats⟩
      rcases Nat.lt_succ_iff_lt_or_eq.1 hk with hk | rfl
      · exact BitVec.le_of_lt (hbeats k hk ha)
      · exact BitVec.le_refl _
    · refine ⟨m, if_neg hnew, by omega, hallowed, fun k hk ha => ?_, hlowest⟩
      rcases Nat.lt_succ_iff_lt_or_eq.1 hk with hk | rfl
      · exact hleast k hk ha
      · exact BitVec.not_lt.1 fun hlt => hnew ⟨ha, hlt⟩

/-- m1 is the lowest slot of least weight (41_tree_builder.md R88). -/
theorem Forest.firstMin_leastSlot {f : Forest} (h : 0 < f.slots.length) :
    LeastSlot f.weight (fun _ => True) f.slots.length f.firstMin := by
  simpa [Forest.firstMin] using
    foldl_leastSlot f.weight (fun _ => True) trivial (fun k hk => absurd hk (Nat.not_lt_zero k)) h

/-- m2 is the lowest slot of least weight among the others (41_tree_builder.md R88). -/
theorem Forest.secondMin_leastSlot {f : Forest} (h : 2 ≤ f.slots.length) (m1 : Nat) :
    LeastSlot f.weight (fun k => k ≠ m1) f.slots.length (f.secondMin m1) := by
  refine foldl_leastSlot f.weight (fun k => k ≠ m1) ?_ ?_ ?_
  · split <;> omega
  · intro k hk
    split at hk <;> omega
  · split <;> omega

/-- Settles O36: each scan finds the least slot of those it allows, and the second slot is below the first exactly when a lightest
of the others is. -/
theorem minScanSelectsTheTwoLightest : Obligations.MinScanSelectsTheTwoLightest := by
  intro f hf
  obtain ⟨hlt1, -, hleast1, hlowest1⟩ := Forest.firstMin_leastSlot (f := f) (by omega)
  obtain ⟨hlt2, hne, hleast2, hlowest2⟩ := Forest.secondMin_leastSlot hf f.firstMin
  refine ⟨hlt1, fun k hk => hleast1 k hk trivial, fun k hk => hlowest1 k hk trivial, hlt2, hne, hleast2, hlowest2,
    hleast1 _ hlt2 trivial, fun hbelow => ⟨hlowest1 _ hbelow trivial, _, hbelow, hleast2⟩, ?_⟩
  rintro ⟨-, k, hk, hlightest⟩
  by_contra hnot
  have hstrict := hlowest2 k (by omega) (by omega)
  exact absurd (hlightest _ hlt2 hne) (BitVec.not_le.2 hstrict)

/-! ## The slots of a merge -/

/-- The slots `i` and `j` replaced: `x` in the lower one, `last` in the higher one, and the last slot dropped
(41_tree_builder.md R90). -/
def mergeSlots {α : Type} (l : List α) (i j : Nat) (x last : α) : List α :=
  ((l.set (min i j) x).set (max i j) last).dropLast

section
variable {α β : Type} {l : List α} {i j : Nat} (x last : α)

@[simp] theorem mergeSlots_length : (mergeSlots l i j x last).length = l.length - 1 := by simp [mergeSlots]

theorem mergeSlots_comm : mergeSlots l i j x last = mergeSlots l j i x last := by
  rw [mergeSlots, mergeSlots, min_comm, max_comm]

theorem mergeSlots_map (g : α → β) : (mergeSlots l i j x last).map g = mergeSlots (l.map g) i j (g x) (g last) := by
  simp [mergeSlots, List.map_dropLast]

theorem mergeSlots_lower (hne : i ≠ j) (hj : max i j < l.length) : (mergeSlots l i j x last)[min i j]? = some x := by
  rw [mergeSlots, List.getElem?_dropLast, if_pos (by simp; omega), List.getElem?_set_ne (by omega),
    List.getElem?_set_self (by omega)]

theorem mergeSlots_higher (hj : max i j < l.length - 1) : (mergeSlots l i j x last)[max i j]? = some last := by
  rw [mergeSlots, List.getElem?_dropLast, if_pos (by simpa using hj), List.getElem?_set_self (by simp; omega)]

theorem mergeSlots_other {k : Nat} (hk : k < l.length - 1) (hi : k ≠ i) (hj : k ≠ j) :
    (mergeSlots l i j x last)[k]? = l[k]? := by
  rw [mergeSlots, List.getElem?_dropLast, if_pos (by simpa using hk), List.getElem?_set_ne (by omega),
    List.getElem?_set_ne (by omega)]

/-- The last element put in slot `j` takes its place: slot `j` is erased, up to order. -/
theorem dropLast_set_perm (hj : j < l.length) (hlast : l[l.length - 1]? = some last) :
    ((l.set j last).dropLast).Perm (l.eraseIdx j) := by
  obtain ⟨l', z, rfl⟩ : ∃ l' z, l = l' ++ [z] := ⟨_, _, (List.dropLast_append_getLast (by rintro rfl; simp at hj)).symm⟩
  obtain rfl : z = last := by simpa using hlast
  by_cases hj' : j < l'.length
  · rw [List.set_append_left _ _ hj', List.dropLast_concat, List.eraseIdx_append_of_lt_length hj']
    exact (List.set_perm_cons_eraseIdx hj' z).trans (List.perm_append_singleton z _).symm
  · obtain rfl : j = l'.length := by simp at hj; omega
    simp [List.eraseIdx_append_of_length_le]

/-- Up to order, a merge takes the two elements out and puts the new one in. -/
theorem mergeSlots_perm {a b : α} (hne : i ≠ j) (hi : l[i]? = some a) (hj : l[j]? = some b)
    (hlast : l[l.length - 1]? = some last) :
    ∃ rest, l.Perm (a :: b :: rest) ∧ (mergeSlots l i j x last).Perm (x :: rest) := by
  wlog hij : i < j generalizing i j a b
  · obtain ⟨rest, h1, h2⟩ := this hne.symm hj hi (by omega)
    exact ⟨rest, h1.trans (List.Perm.swap a b rest), by rwa [mergeSlots_comm]⟩
  obtain ⟨hjl, rfl⟩ := List.getElem?_eq_some_iff.1 hj
  have hil : i < (l.eraseIdx j).length := by rw [List.length_eraseIdx_of_lt hjl]; omega
  have ha : (l.eraseIdx j)[i] = a := by
    rw [List.getElem_eraseIdx_of_lt _ hij]
    exact (List.getElem?_eq_some_iff.1 hi).2
  refine ⟨(l.eraseIdx j).eraseIdx i, ?_, ?_⟩
  · have h1 := List.getElem_cons_eraseIdx_perm hjl
    have h2 := List.getElem_cons_eraseIdx_perm hil
    rw [ha] at h2
    exact (h1.symm.trans (h2.symm.cons _)).trans (List.Perm.swap _ _ _)
  · rw [mergeSlots, min_eq_left hij.le, max_eq_right hij.le]
    have hlast' : (l.set i x)[(l.set i x).length - 1]? = some last := by
      rw [List.length_set, List.getElem?_set_ne (by omega), hlast]
    have h1 := dropLast_set_perm last (l := l.set i x) (by simpa using hjl) hlast'
    rw [List.eraseIdx_set_gt hij] at h1
    exact h1.trans (List.set_perm_cons_eraseIdx hil x)

end

/-! ## The merge, and BUILD as merges -/

/-- The forest once the trees of two slots are joined: the new node takes the lower slot, the last tree the higher one. -/
def Forest.joinAt (f : Forest) (m1 m2 : Nat) : Forest :=
  { nodes := f.nodes ++ [f.join m1 m2]
    slots := mergeSlots f.slots m1 m2 (nextIdx f.nodes) (f.slot (f.slots.length - 1)) }

/-- A merge joins the trees of the two slots that the scans select (41_tree_builder.md R89, R90). -/
theorem Forest.merge_eq_joinAt (f : Forest) : f.merge = f.joinAt f.firstMin (f.secondMin f.firstMin) := rfl

@[simp] theorem Forest.merge_slots_length (f : Forest) : f.merge.slots.length = f.slots.length - 1 := by
  simp [merge_eq_joinAt, joinAt]

theorem Forest.getElem?_slot {f : Forest} {k : Nat} (h : k < f.slots.length) : f.slots[k]? = some (f.slot k) := by
  simp [slot, h]

theorem mergeLoop_of_lt {f : Forest} (n : Nat) (h : 2 < f.slots.length) : mergeLoop (n + 1) f = mergeLoop n f.merge := by
  rw [mergeLoop, if_pos h]

theorem mergeLoop_of_le {f : Forest} (n : Nat) (h : f.slots.length ≤ 2) : mergeLoop n f = f := by
  cases n with
  | zero => rfl
  | succ n => rw [mergeLoop, if_neg (by omega)]

/-- With fuel enough, the loop leaves two trees, or the one there was. -/
theorem mergeLoop_slots_length {f : Forest} {n : Nat} (h : f.slots.length ≤ n + 2) :
    (mergeLoop n f).slots.length = min f.slots.length 2 := by
  induction n generalizing f with
  | zero => rw [mergeLoop_of_le 0 h]; omega
  | succ n ih =>
    by_cases hlt : 2 < f.slots.length
    · rw [mergeLoop_of_lt n hlt, ih (by simp; omega), Forest.merge_slots_length]
      omega
    · rw [mergeLoop_of_le _ (by omega)]
      omega

theorem repeat_apply {α : Type} (g : α → α) (n : Nat) (a : α) : Nat.repeat g n (g a) = g (Nat.repeat g n a) := by
  induction n with
  | zero => rfl
  | succ n ih => rw [Nat.repeat, Nat.repeat, ih]

/-- The loop is the merge repeated, each time with more than two trees left. -/
theorem mergeLoop_eq_repeat (n : Nat) (f : Forest) : ∃ merges, mergeLoop n f = Nat.repeat Forest.merge merges f ∧
    ∀ m, m < merges → 2 < (Nat.repeat Forest.merge m f).slots.length := by
  induction n generalizing f with
  | zero => exact ⟨0, rfl, fun m hm => absurd hm (Nat.not_lt_zero m)⟩
  | succ n ih =>
    by_cases hlt : 2 < f.slots.length
    · obtain ⟨merges, heq, hmore⟩ := ih f.merge
      refine ⟨merges + 1, by rw [mergeLoop_of_lt n hlt, heq, repeat_apply, Nat.repeat], fun m hm => ?_⟩
      cases m with
      | zero => exact hlt
      | succ m =>
        rw [Nat.repeat, ← repeat_apply Forest.merge]
        exact hmore m (by omega)
    · exact ⟨0, mergeLoop_of_le _ (by omega), fun m hm => absurd hm (Nat.not_lt_zero m)⟩

/-- A merge slot by slot (41_tree_builder.md R89, R90). -/
theorem Forest.merge_slots {f : Forest} (h : 2 ≤ f.slots.length) {m1 m2 : Nat} (h1 : m1 = f.firstMin) (h2 : m2 = f.secondMin m1) :
    f.merge.nodes = f.nodes ++ [.internal (f.weight m1 + f.weight m2) (f.slot m1) (f.slot m2)] ∧
    f.merge.slots.length = f.slots.length - 1 ∧
    f.merge.slots[min m1 m2]? = some (Fin.ofNat 512 f.nodes.length) ∧
    (max m1 m2 ≠ f.slots.length - 1 → f.merge.slots[max m1 m2]? = f.slots[f.slots.length - 1]?) ∧
    ∀ k, k < f.slots.length - 1 → k ≠ m1 → k ≠ m2 → f.merge.slots[k]? = f.slots[k]? := by
  subst h1 h2
  have hlt1 := (Forest.firstMin_leastSlot (f := f) (by omega)).lt
  obtain ⟨hlt2, hne, -, -⟩ := Forest.secondMin_leastSlot h f.firstMin
  refine ⟨rfl, f.merge_slots_length, mergeSlots_lower _ _ (Ne.symm hne) (by omega), fun hlast => ?_,
    fun k hk h1 h2 => mergeSlots_other _ _ hk h1 h2⟩
  rw [Forest.getElem?_slot (k := f.slots.length - 1) (by omega)]
  exact mergeSlots_higher (l := f.slots) _ _ (by omega)

end Sys2Proof.Machine

/-! PROOFS. BUILD stores what the merges and the last join leave (spec/41_tree_builder.md R86, R87, R91, R92). -/

namespace Sys2Proof.Machine

/-! ## What BUILD makes of the counts -/

/-- The symbols of non-zero count, in ascending order (41_tree_builder.md R87). -/
def presentSymbols (freq : Table (BitVec 32)) : List Byte := allSymbols.filter fun s => freq.lookup s != 0#32

theorem presentSymbols_length (freq : Table (BitVec 32)) : (presentSymbols freq).length = presentCount freq := by
  rw [presentCount_eq, List.countP_eq_length_filter, presentSymbols]

/-- The working collection starts with the present symbols' leaves, slot k holding NODE[k] (41_tree_builder.md R87). -/
theorem startForest_eq (freq : Table (BitVec 32)) : startForest freq =
    { nodes := (presentSymbols freq).map fun s => .leaf s (freq.lookup s) false
      slots := (List.range (presentSymbols freq).length).map (Fin.ofNat 512) } := by
  simp [startForest, presentLeaves_eq, presentSymbols]

@[simp] theorem startForest_nodes_length (freq : Table (BitVec 32)) : (startForest freq).nodes.length = presentCount freq := by
  simp [startForest_eq, presentSymbols_length]

@[simp] theorem startForest_slots_length (freq : Table (BitVec 32)) : (startForest freq).slots.length = presentCount freq := by
  simp [startForest_eq, presentSymbols_length]

/-- The working collection when the merges are over (41_tree_builder.md R86). -/
def mergedForest (freq : Table (BitVec 32)) : Forest := mergeLoop (presentCount freq) (startForest freq)

/-- What BUILD leaves in NODE and WORK when a symbol is present (41_tree_builder.md R86). -/
def builtForest (freq : Table (BitVec 32)) : Forest :=
  { nodes := rootJoin (mergedForest freq), slots := (mergedForest freq).slots }

theorem buildForest_none {freq : Table (BitVec 32)} (h : presentCount freq = 0) : buildForest freq = none := by
  simp [buildForest, h]

theorem buildForest_some {freq : Table (BitVec 32)} (h : presentCount freq ≠ 0) : buildForest freq = some (builtForest freq) := by
  simp [buildForest, h, builtForest, mergedForest]

theorem mergedForest_slots_length (freq : Table (BitVec 32)) : (mergedForest freq).slots.length = min (presentCount freq) 2 := by
  rw [mergedForest, mergeLoop_slots_length (by simp), startForest_slots_length]

/-- A merge allocates one node and drops one slot. -/
theorem mergeLoop_count (n : Nat) (f : Forest) :
    (mergeLoop n f).nodes.length + (mergeLoop n f).slots.length = f.nodes.length + f.slots.length := by
  induction n generalizing f with
  | zero => rfl
  | succ n ih =>
    by_cases hlt : 2 < f.slots.length
    · rw [mergeLoop_of_lt n hlt, ih, Forest.merge_slots_length, Forest.merge_eq_joinAt, Forest.joinAt, List.length_append,
        List.length_singleton]
      omega
    · rw [mergeLoop_of_le _ (by omega)]

/-- NNODES of a built tree (41_tree_builder.md R94). -/
theorem builtForest_length {freq : Table (BitVec 32)} (h : presentCount freq ≠ 0) :
    (builtForest freq).nodes.length = if presentCount freq = 1 then 3 else 2 * presentCount freq - 1 := by
  have hslots := mergedForest_slots_length freq
  have hcount := mergeLoop_count (presentCount freq) (startForest freq)
  rw [← mergedForest, startForest_nodes_length, startForest_slots_length] at hcount
  rw [builtForest, rootJoin]
  by_cases h1 : presentCount freq = 1
  · rw [if_neg (by omega), if_pos h1, List.length_append, List.length_cons, List.length_singleton]
    omega
  · rw [if_pos (by omega), if_neg h1, List.length_append, List.length_singleton]
    omega

/-- A built tree has at least one node and at most NODE_CAP. -/
theorem builtForest_bounds {freq : Table (BitVec 32)} (h : presentCount freq ≠ 0) :
    1 ≤ (builtForest freq).nodes.length ∧ (builtForest freq).nodes.length ≤ Config.nodeCap := by
  have hle := presentCount_le freq
  rw [builtForest_length h, Config.nodeCap]
  split <;> omega

/-! ## The rule of BUILD -/

/-- NODE and WORK emptied, as BUILD starts them (41_tree_builder.md R86). -/
def emptyForest (k : CoreState) : CoreState := { k with node := [], work := [] }

/-- The codec when the rule of BUILD has stored what it made and completed (41_tree_builder.md R86). -/
def Codec.built (f : Forest) (c : Codec) : Codec :=
  ((((c.mapCore emptyForest).mapCore (storeForest f)).mapCore setTreeSize).mapCore setBuilt).mapCore setDone

theorem buildBody_some {c : Codec} {f : Forest} (h : buildForest c.core.freq = some f) : buildBody c = .ok () (c.built f) := by
  rw [buildBody, engine_bind_of_ok (modifyCore_apply _ _), engine_bind_of_ok (getCore_apply _)]
  simp only [Codec.mapCore_core, h]
  rw [engine_bind_of_ok (modifyCore_apply _ _), engine_bind_of_ok (modifyCore_apply _ _),
    engine_bind_of_ok (modifyCore_apply _ _), complete_apply]
  rfl

theorem buildBody_none {c : Codec} (h : buildForest c.core.freq = none) :
    buildBody c = .error (.raise .emptyInput) (c.mapCore emptyForest) := by
  rw [buildBody, engine_bind_of_ok (modifyCore_apply _ _), engine_bind_of_ok (getCore_apply _)]
  simp only [Codec.mapCore_core, h]
  rfl

/-- The codec in which the rule of BUILD runs: the word accepted, and all validity bits but FREQ_VALID cleared (10_state.md R32). -/
abbrev State.acceptedBuild (s : State) : Codec := (s.codec.accept (encode .build)).mapCore clearDerived

/-- BUILD runs its rule when FREQ_VALID is set. -/
theorem exec_build {s : State} (hs : s.eng = .idle) (hv : s.codec.core.status.freqValid = true) :
    exec .build s = settle (encode .build) s (withErrorExit buildBody s.acceptedBuild) := issue_of_pre _ _ hs hv

/-- BUILD with a present symbol completes with the tree of the merged collection. -/
theorem exec_build_present {s : State} (hs : s.prompt) (hv : s.codec.core.status.freqValid = true)
    (hp : presentCount s.codec.core.freq ≠ 0) :
    exec .build s = .next { s with codec := s.acceptedBuild.built (builtForest s.codec.core.freq), eng := .idle } := by
  obtain ⟨hidle, hdraws⟩ := hs
  rw [exec_build hidle hv, withErrorExit_ok (buildBody_some (c := s.acceptedBuild) (buildForest_some hp))]
  exact settle_done hdraws

/-- Settles O37: a merge slot by slot, and BUILD as the loop of merges from the leaves, with the root joined last. -/
theorem buildMergesByTheLinearScan : Obligations.BuildMergesByTheLinearScan := by
  refine ⟨fun f h m1 m2 h1 h2 => Forest.merge_slots h h1 h2, ?_⟩
  rintro s present start hs hv rfl hne rfl
  have hp : presentCount s.codec.core.freq ≠ 0 := by
    rw [← presentSymbols_length, ne_eq, List.length_eq_zero_iff]
    exact hne
  obtain ⟨merges, heq, hmore⟩ := mergeLoop_eq_repeat (presentCount s.codec.core.freq) (startForest s.codec.core.freq)
  refine ⟨_, merges, mergedForest s.codec.core.freq, exec_build_present hs hv hp, rfl, ?_, ?_, ?_, ?_, ?_⟩
  · rwa [startForest_eq] at hmore
  · rw [mergedForest, heq, startForest_eq]
    rfl
  · rw [mergedForest_slots_length]
    exact min_le_right _ _
  · change rootJoin _ = _
    rw [rootJoin]
    split <;> rfl
  · change ((builtForest _).nodes.length - 1) % 512 + 1 = (builtForest _).nodes.length
    obtain ⟨hpos, hcap⟩ := builtForest_bounds hp
    rw [Config.nodeCap] at hcap
    rw [Nat.mod_eq_of_lt (by omega)]
    omega

end Sys2Proof.Machine

/-! PROOFS. The trees of BUILD's working collection: each join keeps them unshared, with all leaves and with exact weights
(spec/41_tree_builder.md R89, R91, R92, R95). -/

namespace Sys2Proof.Machine

/-! ## Nodes allocated beside held trees -/

theorem nodeAt_append {nodes : List Node} (more : List Node) {i : NodeIdx} {x : Node} (h : nodeAt nodes i = some x) :
    nodeAt (nodes ++ more) i = some x := by
  simp only [nodeAt] at h ⊢
  rw [List.getElem?_append_left (List.getElem?_eq_some_iff.1 h).1, h]

theorem nextIdx_val {nodes : List Node} (h : nodes.length < 512) : (nextIdx nodes).val = nodes.length := Nat.mod_eq_of_lt h

/-- The node allocated next is read back. -/
theorem nodeAt_nextIdx {nodes : List Node} (x : Node) (h : nodes.length < 512) : nodeAt (nodes ++ [x]) (nextIdx nodes) = some x := by
  simp [nodeAt, nextIdx_val h]

/-- The nodes below a held tree's root are the same when more are allocated, and read to a greater depth. -/
theorem treeIndices_append {nodes : List Node} (more : List Node) {n m : Nat} {i : NodeIdx} {t : CodeTree} (hnm : n ≤ m)
    (h : treeOf nodes n i = some t) : treeIndices (nodes ++ more) m i = treeIndices nodes n i := by
  induction n generalizing m i t with
  | zero => simp at h
  | succ n ih =>
    obtain ⟨m, rfl⟩ : ∃ k, m = k + 1 := ⟨m - 1, by omega⟩
    have hle : n ≤ m := by omega
    rcases treeOf_succ h with ⟨s, w, ph, hn, -⟩ | ⟨w, l, r, tl, tr, hn, hl, hr, -⟩
    · simp [treeIndices, hn, nodeAt_append more hn]
    · simp [treeIndices, hn, nodeAt_append more hn, ih hle hl, ih hle hr]

/-- The root of a held tree is an allocated node of the tree's weight. -/
theorem nodeAt_of_treeOf {nodes : List Node} {n : Nat} {i : NodeIdx} {t : CodeTree} (h : treeOf nodes n i = some t) :
    ∃ x, nodeAt nodes i = some x ∧ x.weight = t.weight := by
  cases n with
  | zero => simp at h
  | succ n =>
    rcases treeOf_succ h with ⟨s, w, ph, hn, rfl⟩ | ⟨w, l, r, tl, tr, hn, -, -, rfl⟩
    · exact ⟨_, hn, rfl⟩
    · exact ⟨_, hn, rfl⟩

/-- A leaf is a held tree of one node. -/
theorem treeOf_of_leaf {nodes : List Node} {i : NodeIdx} {s : Byte} {w : BitVec 32} {ph : Bool} (n : Nat)
    (h : nodeAt nodes i = some (.leaf s w ph)) :
    treeOf nodes (n + 1) i = some (.leaf s w ph) ∧ treeIndices nodes (n + 1) i = [i.val] := by
  simp [treeOf, treeIndices, h]

/-- The node allocated next over two held trees holds the tree over them. -/
theorem treeOf_join {nodes : List Node} {n : Nat} {l r : NodeIdx} {tl tr : CodeTree} (w : BitVec 32)
    (hl : treeOf nodes n l = some tl) (hr : treeOf nodes n r = some tr) (hroom : nodes.length < 512) :
    treeOf (nodes ++ [.internal w l r]) (n + 1) (nextIdx nodes) = some (.node w tl tr) ∧
    treeIndices (nodes ++ [.internal w l r]) (n + 1) (nextIdx nodes) =
      nodes.length :: (treeIndices nodes n l ++ treeIndices nodes n r) := by
  have hn := nodeAt_nextIdx (.internal w l r) hroom
  constructor
  · simp only [treeOf, hn, treeOf_append _ hl, treeOf_append _ hr]
  · simp only [treeIndices, hn, nextIdx_val hroom, treeIndices_append _ (Nat.le_refl n) hl, treeIndices_append _ (Nat.le_refl n) hr]

/-! ## Weights -/

/-- The sum of the weights of leaves. -/
def leafSum (leaves : List (Byte × BitVec 32 × Bool)) : Nat := (leaves.map fun l => l.2.1.toNat).sum

@[simp] theorem leafSum_append (l1 l2 : List (Byte × BitVec 32 × Bool)) : leafSum (l1 ++ l2) = leafSum l1 + leafSum l2 := by
  simp [leafSum]

theorem leafSum_perm {l1 l2 : List (Byte × BitVec 32 × Bool)} (h : l1.Perm l2) : leafSum l1 = leafSum l2 :=
  (h.map _).sum_eq

/-- Every internal weight is the sum of its children's, and so the root's is the sum of the leaves' (41_tree_builder.md R95). -/
def CodeTree.Exact (t : CodeTree) : Prop := t.weightsAdd ∧ t.weight.toNat = leafSum t.leaves

theorem CodeTree.exact_leaf (s : Byte) (w : BitVec 32) (ph : Bool) : (CodeTree.leaf s w ph).Exact :=
  ⟨trivial, by simp [leafSum, leaves, weight]⟩

/-- The tree over two exact trees is exact when the sum of its leaves' weights is a weight. -/
theorem CodeTree.exact_node {l r : CodeTree} (hl : l.Exact) (hr : r.Exact)
    (hsum : leafSum l.leaves + leafSum r.leaves < 2 ^ 32) : (CodeTree.node (l.weight + r.weight) l r).Exact := by
  obtain ⟨hladd, hlw⟩ := hl
  obtain ⟨hradd, hrw⟩ := hr
  have hw : (l.weight + r.weight).toNat = l.weight.toNat + r.weight.toNat := by
    rw [BitVec.toNat_add]
    exact Nat.mod_eq_of_lt (by omega)
  refine ⟨⟨hw, hladd, hradd⟩, ?_⟩
  change (l.weight + r.weight).toNat = leafSum (l.leaves ++ r.leaves)
  rw [hw, leafSum_append, hlw, hrw]

/-! ## The trees of the working collection -/

/-- The slots of `f` hold the trees `ts`, which share no node and together use every node allocated; `ls` are their leaves, up to
order. -/
structure Forest.Planted (ls : List (Byte × BitVec 32 × Bool)) (f : Forest) (ts : List CodeTree) : Prop where
  held : f.slots.map (treeOf f.nodes f.nodes.length) = ts.map some
  covers : (f.slots.flatMap (treeIndices f.nodes f.nodes.length)).Perm (List.range f.nodes.length)
  leaves : (ts.flatMap CodeTree.leaves).Perm ls
  leafCount : Machine.leafCount f.nodes = ls.length
  exact : leafSum ls < 2 ^ 32 → ∀ t ∈ ts, t.Exact

@[simp] theorem Forest.joinAt_nodes (f : Forest) (m1 m2 : Nat) : (f.joinAt m1 m2).nodes = f.nodes ++ [f.join m1 m2] := rfl
@[simp] theorem Forest.joinAt_slots (f : Forest) (m1 m2 : Nat) : (f.joinAt m1 m2).slots =
    mergeSlots f.slots m1 m2 (nextIdx f.nodes) (f.slot (f.slots.length - 1)) := rfl

/-- Trees with two of them joined have the same leaves, up to order. -/
theorem leaves_join_perm {ts ts' rest : List CodeTree} {w : BitVec 32} {l r : CodeTree} (h : ts.Perm (l :: r :: rest))
    (h' : ts'.Perm (.node w l r :: rest)) : (ts'.flatMap CodeTree.leaves).Perm (ts.flatMap CodeTree.leaves) := by
  refine (h'.flatMap_right _).trans (List.Perm.trans ?_ (h.flatMap_right _).symm)
  simp [CodeTree.leaves]

/-- Exact trees with two of them joined are exact, when the sum of all leaves' weights is a weight. -/
theorem exact_join {ts ts' rest : List CodeTree} {l r : CodeTree} (h : ts.Perm (l :: r :: rest))
    (h' : ts'.Perm (.node (l.weight + r.weight) l r :: rest)) (hsum : leafSum (ts.flatMap CodeTree.leaves) < 2 ^ 32)
    (hexact : ∀ t ∈ ts, t.Exact) : ∀ t ∈ ts', t.Exact := by
  have hsplit := leafSum_perm (h.flatMap_right CodeTree.leaves)
  simp only [List.flatMap_cons, leafSum_append] at hsplit
  intro t ht
  rcases List.mem_cons.1 (h'.mem_iff.1 ht) with rfl | ht
  · exact CodeTree.exact_node (hexact l (h.mem_iff.2 (by simp))) (hexact r (h.mem_iff.2 (by simp))) (by omega)
  · exact hexact t (h.mem_iff.2 (by simp [ht]))

namespace Forest.Planted
variable {ls : List (Byte × BitVec 32 × Bool)} {f : Forest} {ts : List CodeTree}

theorem length_eq (h : f.Planted ls ts) : f.slots.length = ts.length := by
  simpa using congrArg List.length h.held

theorem slot_lt (h : f.Planted ls ts) {k : Nat} {t : CodeTree} (hk : ts[k]? = some t) : k < f.slots.length := by
  rw [h.length_eq]
  exact (List.getElem?_eq_some_iff.1 hk).1

theorem treeOf_slot (h : f.Planted ls ts) {k : Nat} {t : CodeTree} (hk : ts[k]? = some t) :
    treeOf f.nodes f.nodes.length (f.slot k) = some t := by
  have := congrArg (fun l => l[k]?) h.held
  simpa [Forest.getElem?_slot (h.slot_lt hk), hk] using this

theorem weight_eq (h : f.Planted ls ts) {k : Nat} {t : CodeTree} (hk : ts[k]? = some t) : f.weight k = t.weight := by
  obtain ⟨x, hx, hw⟩ := nodeAt_of_treeOf (h.treeOf_slot hk)
  rw [Forest.weight, hx]
  exact hw

/-- Allocating one more node leaves what the slots hold as it was. -/
theorem alloc (h : f.Planted ls ts) (x : Node) {i : NodeIdx} (hi : i ∈ f.slots) :
    treeOf (f.nodes ++ [x]) (f.nodes.length + 1) i = treeOf f.nodes f.nodes.length i ∧
    treeIndices (f.nodes ++ [x]) (f.nodes.length + 1) i = treeIndices f.nodes f.nodes.length i := by
  obtain ⟨k, hk⟩ := List.getElem?_of_mem hi
  obtain ⟨t, ht⟩ : ∃ t, ts[k]? = some t := by
    have hlt := (List.getElem?_eq_some_iff.1 hk).1
    rw [h.length_eq] at hlt
    exact ⟨_, List.getElem?_eq_getElem hlt⟩
  have hslot : f.slot k = i := by simp [Forest.slot, hk]
  have htree := h.treeOf_slot ht
  rw [hslot] at htree
  exact ⟨by rw [htree, treeOf_mono (Nat.le_succ _) (treeOf_append _ htree)], treeIndices_append _ (Nat.le_succ _) htree⟩

/-- The nodes below the slots, once two slots' trees are joined: those of before, and the new one. -/
theorem joinAt_covers (h : f.Planted ls ts) {m1 m2 : Nat} {t1 t2 : CodeTree} (hne : m1 ≠ m2) (h1 : ts[m1]? = some t1)
    (h2 : ts[m2]? = some t2) (hroom : f.nodes.length < 512) :
    ((f.joinAt m1 m2).slots.flatMap (treeIndices (f.joinAt m1 m2).nodes (f.nodes.length + 1))).Perm
      (List.range (f.nodes.length + 1)) := by
  have hlt1 := h.slot_lt h1
  obtain ⟨rest, hold, hmerged⟩ := mergeSlots_perm (nextIdx f.nodes) _ hne (Forest.getElem?_slot hlt1)
    (Forest.getElem?_slot (h.slot_lt h2)) (Forest.getElem?_slot (k := f.slots.length - 1) (by omega))
  have hindices := (treeOf_join (f.weight m1 + f.weight m2) (h.treeOf_slot h1) (h.treeOf_slot h2) hroom).2
  have hsame := List.flatMap_congr fun i (hi : i ∈ rest) =>
    (h.alloc (f.join m1 m2) (hold.mem_iff.2 (List.mem_cons_of_mem _ (List.mem_cons_of_mem _ hi)))).2
  have hcovers := (hold.flatMap_right (treeIndices f.nodes f.nodes.length)).symm.trans h.covers
  simp only [List.flatMap_cons, ← List.append_assoc] at hcovers
  rw [joinAt_slots, joinAt_nodes, List.range_succ]
  refine (hmerged.flatMap_right _).trans ?_
  rw [List.flatMap_cons, hsame, Forest.join, hindices]
  exact (hcovers.cons _).trans (List.perm_append_singleton _ _).symm

/-- Joining two slots' trees keeps the collection planted, with the new tree in place of the two. -/
theorem joinAt (h : f.Planted ls ts) {m1 m2 : Nat} {t1 t2 last : CodeTree} (hne : m1 ≠ m2) (h1 : ts[m1]? = some t1)
    (h2 : ts[m2]? = some t2) (hlast : ts[ts.length - 1]? = some last) (hroom : f.nodes.length < 512) :
    (f.joinAt m1 m2).Planted ls (mergeSlots ts m1 m2 (.node (t1.weight + t2.weight) t1 t2) last) := by
  have hnew := (treeOf_join (t1.weight + t2.weight) (h.treeOf_slot h1) (h.treeOf_slot h2) hroom).1
  obtain ⟨rest, hold, hmerged⟩ := mergeSlots_perm (.node (t1.weight + t2.weight) t1 t2) _ hne h1 h2 hlast
  refine ⟨?_, ?_, (leaves_join_perm hold hmerged).trans h.leaves, ?_, fun hsum => ?_⟩
  · have hsame := List.map_congr_left fun i hi => (h.alloc (f.join m1 m2) hi).1
    have hmoved := h.alloc (f.join m1 m2) (List.mem_of_getElem? (Forest.getElem?_slot (h.slot_lt hlast)))
    rw [joinAt_slots, joinAt_nodes, List.length_append, List.length_singleton, mergeSlots_map, mergeSlots_map, hsame, h.held,
      h.length_eq, hmoved.1, h.treeOf_slot hlast, Forest.join, h.weight_eq h1, h.weight_eq h2, hnew]
  · rw [joinAt_nodes, List.length_append, List.length_singleton]
    exact h.joinAt_covers hne h1 h2 hroom
  · have hcount := h.leafCount
    simp only [Machine.leafCount] at hcount ⊢
    rw [joinAt_nodes, List.countP_append, hcount]
    rfl
  · exact exact_join hold hmerged (by rwa [leafSum_perm h.leaves]) (h.exact hsum)

/-- A merge keeps the collection planted. -/
theorem merge (h : f.Planted ls ts) (h2 : 2 ≤ f.slots.length) (hroom : f.nodes.length < 512) :
    ∃ ts', f.merge.Planted ls ts' := by
  have hlt1 := (Forest.firstMin_leastSlot (f := f) (by omega)).lt
  obtain ⟨hlt2, hne, -, -⟩ := Forest.secondMin_leastSlot h2 f.firstMin
  rw [h.length_eq] at hlt1 hlt2
  exact ⟨_, h.joinAt (Ne.symm hne) (List.getElem?_eq_getElem hlt1) (List.getElem?_eq_getElem hlt2)
    (List.getElem?_eq_getElem (by omega)) hroom⟩

/-- The loop of merges keeps the collection planted, each merge taking one node and freeing one slot. -/
theorem mergeLoop (h : f.Planted ls ts) (n : Nat) (hroom : f.nodes.length + f.slots.length ≤ 512) :
    ∃ ts', (Machine.mergeLoop n f).Planted ls ts' := by
  induction n generalizing f ts with
  | zero => exact ⟨ts, h⟩
  | succ n ih =>
    by_cases hlt : 2 < f.slots.length
    · obtain ⟨ts', h'⟩ := h.merge (by omega) (by omega)
      rw [mergeLoop_of_lt n hlt]
      refine ih h' ?_
      rw [Forest.merge_slots_length, Forest.merge_eq_joinAt, joinAt_nodes, List.length_append, List.length_singleton]
      omega
    · rw [mergeLoop_of_le _ (by omega)]
      exact ⟨ts, h⟩

end Forest.Planted

/-! ## The placeholder -/

/-- The working collection with the placeholder leaf as one more tree (41_tree_builder.md R92). -/
def Forest.withPlaceholder (f : Forest) : Forest := { nodes := f.nodes ++ [placeholder], slots := f.slots ++ [nextIdx f.nodes] }

/-- The placeholder is planted beside the trees; it adds no weight. -/
theorem Forest.Planted.withPlaceholder {ls : List (Byte × BitVec 32 × Bool)} {f : Forest} {ts : List CodeTree}
    (h : f.Planted ls ts) (hroom : f.nodes.length < 512) :
    f.withPlaceholder.Planted (ls ++ [(0#8, 0#32, true)]) (ts ++ [.leaf 0#8 0#32 true]) := by
  obtain ⟨hnew, hindices⟩ := treeOf_of_leaf f.nodes.length (nodeAt_nextIdx placeholder hroom)
  rw [nextIdx_val hroom] at hindices
  refine ⟨?_, ?_, ?_, ?_, fun hsum t ht => ?_⟩
  · have hsame := List.map_congr_left fun i hi => (h.alloc placeholder hi).1
    simp only [Forest.withPlaceholder, List.length_append, List.length_singleton, List.map_append, List.map_singleton, hsame,
      h.held, hnew]
  · have hsame := List.flatMap_congr fun i hi => (h.alloc placeholder hi).2
    simp only [Forest.withPlaceholder, List.length_append, List.length_singleton, List.flatMap_append, List.flatMap_singleton,
      hsame, hindices, List.range_succ]
    exact h.covers.append_right _
  · rw [List.flatMap_append, List.flatMap_singleton]
    exact h.leaves.append_right _
  · have hcount := h.leafCount
    simp only [Machine.leafCount] at hcount ⊢
    rw [Forest.withPlaceholder, List.countP_append, hcount, List.length_append]
    rfl
  · rcases List.mem_append.1 ht with ht | ht
    · exact h.exact (by rwa [leafSum_append] at hsum) t ht
    · rw [List.mem_singleton.1 ht]
      exact CodeTree.exact_leaf _ _ _

end Sys2Proof.Machine

/-! PROOFS. BUILD makes one full tree of the present symbols (spec/41_tree_builder.md R94, R95). -/

namespace Sys2Proof.Machine

/-! ## The collection that BUILD starts with -/

/-- The leaves of the present symbols, as a tree lists them. -/
def presentEntries (freq : Table (BitVec 32)) : List (Byte × BitVec 32 × Bool) :=
  (presentSymbols freq).map fun s => (s, freq.lookup s, false)

/-- The present symbols' counts are all the counts there are. -/
theorem leafSum_presentEntries (freq : Table (BitVec 32)) : leafSum (presentEntries freq) = countSum freq := by
  rw [leafSum, presentEntries, List.map_map, countSum, presentSymbols]
  induction allSymbols with
  | nil => rfl
  | cons s l ih =>
    by_cases h : freq.lookup s = 0#32
    · simpa [h] using ih
    · simpa [h] using ih

/-- Slot k of the start holds the leaf of the k-th present symbol, and so a tree of one node (41_tree_builder.md R87). -/
theorem startForest_tree (freq : Table (BitVec 32)) {k : Nat} (hk : k < (presentSymbols freq).length) :
    treeOf (startForest freq).nodes (startForest freq).nodes.length (Fin.ofNat 512 k) =
      some (.leaf (presentSymbols freq)[k] (freq.lookup (presentSymbols freq)[k]) false) ∧
    treeIndices (startForest freq).nodes (startForest freq).nodes.length (Fin.ofNat 512 k) = [k] := by
  have hle := presentCount_le freq
  have hlen := presentSymbols_length freq
  have hval : (Fin.ofNat 512 k : NodeIdx).val = k := Nat.mod_eq_of_lt (by omega)
  have hleaf : nodeAt (startForest freq).nodes (Fin.ofNat 512 k) =
      some (.leaf (presentSymbols freq)[k] (freq.lookup (presentSymbols freq)[k]) false) := by
    rw [nodeAt, hval, startForest_eq, List.getElem?_map, List.getElem?_eq_getElem hk]
    rfl
  obtain ⟨n, hn⟩ : ∃ n, (startForest freq).nodes.length = n + 1 :=
    ⟨presentCount freq - 1, by rw [startForest_nodes_length]; omega⟩
  rw [hn]
  have hheld := treeOf_of_leaf n hleaf
  rwa [hval] at hheld

/-- The working collection starts planted with one leaf for each present symbol. -/
theorem startForest_planted (freq : Table (BitVec 32)) : (startForest freq).Planted (presentEntries freq)
    ((presentSymbols freq).map fun s => .leaf s (freq.lookup s) false) := by
  have hslots : (startForest freq).slots = (List.range (presentSymbols freq).length).map (Fin.ofNat 512) := by
    rw [startForest_eq]
  refine ⟨?_, ?_, ?_, ?_, fun _ t ht => ?_⟩
  · refine List.ext_getElem (by simp [presentSymbols_length]) fun k hk hk' => ?_
    simp only [List.length_map] at hk'
    simp only [hslots, List.getElem_map, List.getElem_range]
    exact (startForest_tree freq hk').1
  · have hone := List.flatMap_congr fun k (hk : k ∈ List.range (presentSymbols freq).length) =>
      (startForest_tree freq (List.mem_range.1 hk)).2
    rw [hslots, List.flatMap_map, hone, startForest_nodes_length, presentSymbols_length, List.flatMap_singleton']
  · rw [List.flatMap_map, presentEntries, List.map_eq_flatMap]
    exact .refl _
  · rw [leafCount, startForest_eq, presentEntries, List.countP_map, List.length_map]
    exact List.countP_eq_length.2 fun _ _ => rfl
  · obtain ⟨s, -, rfl⟩ := List.mem_map.1 ht
    exact CodeTree.exact_leaf _ _ _

/-! ## The tree that BUILD makes -/

/-- The nodes are one full unshared tree, whose root is the node allocated last (41_tree_builder.md R86, R94). -/
structure RootedTree (nodes : List Node) (t : CodeTree) : Prop where
  held : treeOf nodes walkDepth (Fin.ofNat 512 (nodes.length - 1)) = some t
  unshared : (treeIndices nodes walkDepth (Fin.ofNat 512 (nodes.length - 1))).Nodup
  size : t.size = nodes.length
  leafCount : leafCount nodes = t.leaves.length

/-- A collection of one tree, read to the depth of every walk: the tree and its nodes are the whole node memory. -/
theorem Forest.Planted.only {ls : List (Byte × BitVec 32 × Bool)} {f : Forest} {t : CodeTree} {i : NodeIdx} (h : f.Planted ls [t])
    (hslots : f.slots = [i]) (hcap : f.nodes.length ≤ Config.nodeCap) :
    treeOf f.nodes walkDepth i = some t ∧ (treeIndices f.nodes walkDepth i).Nodup ∧ t.leaves.Perm ls := by
  have htree : treeOf f.nodes f.nodes.length i = some t := by simpa [hslots] using h.held
  have hcovers : (treeIndices f.nodes f.nodes.length i).Perm (List.range f.nodes.length) := by simpa [hslots] using h.covers
  have hdeep : f.nodes.length ≤ walkDepth := Nat.le_succ_of_le hcap
  have hindices := treeIndices_append [] hdeep htree
  rw [List.append_nil] at hindices
  exact ⟨treeOf_mono hdeep htree, by rw [hindices]; exact hcovers.nodup_iff.2 List.nodup_range, by simpa using h.leaves⟩

/-- Two planted trees joined are one rooted tree, of all their leaves and with exact weights. -/
theorem Forest.Planted.rooted {ls : List (Byte × BitVec 32 × Bool)} {f : Forest} {t0 t1 : CodeTree} (h : f.Planted ls [t0, t1])
    (hroom : f.nodes.length < Config.nodeCap) (hcount : f.nodes.length + 2 = 2 * ls.length) :
    ∃ t, t = .node (t0.weight + t1.weight) t0 t1 ∧ RootedTree (f.nodes ++ [f.join 0 1]) t ∧ t.leaves.Perm ls ∧
      (leafSum ls < 2 ^ 32 → t.Exact) := by
  have hjoined : (f.joinAt 0 1).Planted ls [.node (t0.weight + t1.weight) t0 t1] :=
    h.joinAt (by decide) rfl rfl rfl (Nat.lt_succ_of_lt hroom)
  have hslots : (f.joinAt 0 1).slots = [nextIdx f.nodes] := by
    obtain ⟨a, b, hab⟩ := List.length_eq_two.1 h.length_eq
    rw [joinAt_slots, hab]
    rfl
  have hlen : (f.nodes ++ [f.join 0 1]).length = f.nodes.length + 1 := List.length_append
  have hroot : (Fin.ofNat 512 ((f.nodes ++ [f.join 0 1]).length - 1) : NodeIdx) = nextIdx f.nodes := by
    rw [hlen]
    rfl
  obtain ⟨htree, hnodup, hall⟩ := hjoined.only hslots (by rw [joinAt_nodes, hlen]; exact hroom)
  refine ⟨_, rfl, ⟨by rwa [hroot], by rwa [hroot], ?_, ?_⟩, hall, fun hsum => hjoined.exact hsum _ (List.mem_singleton.2 rfl)⟩
  · have hfull := CodeTree.leaves_length (.node (t0.weight + t1.weight) t0 t1)
    have hnumber := hall.length_eq
    rw [CodeTree.size, hlen]
    omega
  · rw [← joinAt_nodes, hjoined.leafCount, hall.length_eq]

/-- The root over one tree and the placeholder is the join of the two (41_tree_builder.md R92). -/
theorem Forest.Planted.rootJoin_single {ls : List (Byte × BitVec 32 × Bool)} {f : Forest} {t : CodeTree} (h : f.Planted ls [t])
    (hroom : f.nodes.length < 512) :
    rootJoin f = f.withPlaceholder.nodes ++ [f.withPlaceholder.join 0 1] := by
  have hplaced := h.withPlaceholder hroom
  obtain ⟨a, ha⟩ := List.length_eq_one_iff.1 h.length_eq
  have hslot0 : f.withPlaceholder.slot 0 = f.slot 0 := by simp [Forest.slot, Forest.withPlaceholder, ha]
  have hslot1 : f.withPlaceholder.slot 1 = nextIdx f.nodes := by simp [Forest.slot, Forest.withPlaceholder, ha]
  rw [rootJoin, if_neg (by simp [h.length_eq]), Forest.join, hplaced.weight_eq (k := 0) rfl, hplaced.weight_eq (k := 1) rfl,
    hslot0, hslot1, h.weight_eq (k := 0) rfl]
  simp [Forest.withPlaceholder, CodeTree.weight]

/-- `nodes` are a tree that BUILD makes from the counts (41_tree_builder.md R94, R95). -/
structure BuildsTree (freq : Table (BitVec 32)) (nodes : List Node) (t : CodeTree) : Prop where
  rooted : RootedTree nodes t
  isNode : t.isNode = true
  leaves : leavesMatch freq t
  exact : countSum freq < 2 ^ 32 → t.weightsAdd ∧ t.weight.toNat = countSum freq

/-- One present symbol: its leaf and the placeholder under the root (41_tree_builder.md R92). -/
theorem builtForest_tree_single {freq : Table (BitVec 32)} (h : presentCount freq = 1) :
    ∃ t, BuildsTree freq (builtForest freq).nodes t := by
  have hlen := presentSymbols_length freq
  rw [h] at hlen
  obtain ⟨s, hs⟩ := List.length_eq_one_iff.1 hlen
  have hstart := startForest_planted freq
  rw [hs] at hstart
  have hentries : presentEntries freq = [(s, freq.lookup s, false)] := by rw [presentEntries, hs]; rfl
  have hnodes := startForest_nodes_length freq
  rw [h] at hnodes
  have hmerged : mergedForest freq = startForest freq := mergeLoop_of_le _ (by rw [startForest_slots_length]; omega)
  obtain ⟨t, ht, hrooted, hleaves, hexact⟩ := (hstart.withPlaceholder (by omega)).rooted
    (by rw [Forest.withPlaceholder, List.length_append, hnodes]; decide)
    (by rw [Forest.withPlaceholder, List.length_append, hnodes, hentries]; rfl)
  rw [← hstart.rootJoin_single (by omega), ← hmerged] at hrooted
  have hsum : leafSum (presentEntries freq ++ [(0#8, 0#32, true)]) = countSum freq := by
    rw [leafSum_append, leafSum_presentEntries]
    simp [leafSum]
  have hpresent : freq.lookup s ≠ 0#32 := by
    have hmem : s ∈ presentSymbols freq := by simp [hs]
    simpa [presentSymbols] using (List.mem_filter.1 hmem).2
  refine ⟨t, hrooted, by rw [ht]; rfl, ?_, fun hlt => ?_⟩
  · rw [leavesMatch, if_pos h]
    exact ⟨s, freq.lookup s, hpresent, rfl, by simpa [CodeTree.weight] using ht⟩
  · rw [hsum] at hexact
    obtain ⟨hadd, hweight⟩ := hexact hlt
    exact ⟨hadd, by rw [hweight, leafSum_perm hleaves, hsum]⟩

/-- Two present symbols or more: the last two trees under the root (41_tree_builder.md R91). -/
theorem builtForest_tree_many {freq : Table (BitVec 32)} (h : 2 ≤ presentCount freq) :
    ∃ t, BuildsTree freq (builtForest freq).nodes t := by
  have hle := presentCount_le freq
  have hcount := mergeLoop_count (presentCount freq) (startForest freq)
  rw [startForest_nodes_length, startForest_slots_length] at hcount
  obtain ⟨ts, hplanted⟩ := (startForest_planted freq).mergeLoop (presentCount freq)
    (by rw [startForest_nodes_length, startForest_slots_length]; omega)
  rw [← mergedForest] at hplanted hcount
  have htwo : (mergedForest freq).slots.length = 2 := by rw [mergedForest_slots_length]; omega
  obtain ⟨t0, t1, rfl⟩ := List.length_eq_two.1 (hplanted.length_eq.symm.trans htwo)
  have hentries : (presentEntries freq).length = presentCount freq := by
    rw [presentEntries, List.length_map, presentSymbols_length]
  obtain ⟨t, ht, hrooted, hleaves, hexact⟩ := hplanted.rooted (by rw [Config.nodeCap]; omega) (by omega)
  refine ⟨t, ?_, by rw [ht]; rfl, ?_, fun hlt => ?_⟩
  · rwa [builtForest, rootJoin, if_pos htwo]
  · rwa [leavesMatch, if_neg (by omega)]
  · rw [leafSum_presentEntries] at hexact
    obtain ⟨hadd, hweight⟩ := hexact hlt
    exact ⟨hadd, by rw [hweight, leafSum_perm hleaves, leafSum_presentEntries]⟩

/-- Whenever a symbol is present, the nodes of BUILD are one full tree of the present symbols. -/
theorem builtForest_tree {freq : Table (BitVec 32)} (h : presentCount freq ≠ 0) :
    ∃ t, BuildsTree freq (builtForest freq).nodes t := by
  by_cases h1 : presentCount freq = 1
  · exact builtForest_tree_single h1
  · exact builtForest_tree_many (by omega)

/-- In a node memory of at most NODE_CAP entries that is one tree, the size registers hold that tree's sizes (10_state.md R26). -/
theorem RootedTree.setTreeSize {k : CoreState} {t : CodeTree} (h : RootedTree k.node t) (hcap : k.node.length ≤ Config.nodeCap) :
    (setTreeSize k).nleaves.toNat = t.leaves.length ∧ (setTreeSize k).ninternal.toNat = t.internals ∧
    (setTreeSize k).treeBits.toNat = 9 * t.leaves.length + t.internals := by
  have hfull := t.leaves_length
  have hsize := h.size
  rw [Config.nodeCap] at hcap
  rw [CodeTree.size] at hsize
  simp only [setTreeSize_fields, h.leafCount, BitVec.toNat_ofNat]
  omega

/-- Settles O33: the nodes of the merged collection are one tree, and BUILD stores them with their sizes. -/
theorem buildMakesOneFullTree : Obligations.BuildMakesOneFullTree := by
  intro s hs hv hp
  obtain ⟨tr, hrooted, hnode, hleaves, -⟩ := builtForest_tree hp
  obtain ⟨hnleaves, hninternal, htreeBits⟩ :=
    hrooted.setTreeSize (k := storeForest (builtForest s.codec.core.freq) (emptyForest s.acceptedBuild.core))
      (builtForest_bounds hp).2
  exact ⟨_, tr, exec_build_present hs hv hp, rfl, ⟨hrooted.held, hrooted.unshared, hrooted.size⟩, hnode, hleaves,
    builtForest_length hp, hnleaves, hninternal, htreeBits, rfl, rfl, rfl, rfl, rfl, rfl, rfl⟩

/-- A leaf of a built tree that is not the placeholder has its symbol's count (41_tree_builder.md R95). -/
theorem leavesMatch.weight_eq {freq : Table (BitVec 32)} {t : CodeTree} (h : leavesMatch freq t) {b : Byte} {w : BitVec 32}
    (hb : (b, w, false) ∈ t.leaves) : w = freq.lookup b := by
  rw [leavesMatch] at h
  split at h
  · obtain ⟨s, v, -, rfl, rfl⟩ := h
    simp only [CodeTree.leaves, List.mem_append, List.mem_singleton, Prod.mk.injEq] at hb
    rcases hb with ⟨rfl, rfl, -⟩ | ⟨-, -, hfalse⟩
    · rfl
    · cases hfalse
  · obtain ⟨s, -, heq⟩ := List.mem_map.1 (h.mem_iff.1 hb)
    cases heq
    rfl

/-- Settles O34: the counts add up to a 32-bit number, so no sum of weights in the tree overflows. -/
theorem buildWeightsAddUp : Obligations.BuildWeightsAddUp := by
  intro s hs hv hp hsum
  obtain ⟨tr, hrooted, -, hleaves, hexact⟩ := builtForest_tree hp
  obtain ⟨hadd, hweight⟩ := hexact (by rw [hsum]; exact BitVec.isLt _)
  exact ⟨_, tr, exec_build_present hs hv hp, ⟨hrooted.held, hrooted.unshared, hrooted.size⟩, hadd,
    BitVec.eq_of_toNat_eq (hweight.trans hsum), fun b w hb => hleaves.weight_eq hb⟩

end Sys2Proof.Machine

/-! PROOFS. The error exit ends when the environment answers (spec/60_exceptions.md R138), and BUILD of an empty input
(spec/41_tree_builder.md R93). -/

namespace Sys2Proof.Machine

/-! ## Computations that the environment lets end -/

/-- From draws with the property `P` the computation ends, and the draws left have it too. `P` is that every transaction to come is
answered, or that every one succeeds. -/
def Answers (P : Draws → Prop) {α : Type} (x : QuietM α) : Prop :=
  ∀ c, P c.io.draws → ∃ a c', x c = .ok a c' ∧ P c'.io.draws

section
variable {P : Draws → Prop}

theorem answers_pure {α : Type} (a : α) : Answers P (pure a : QuietM α) := fun c hc => ⟨a, c, rfl, hc⟩

theorem answers_get : Answers P (get : QuietM Codec) := fun c hc => ⟨c, c, rfl, hc⟩

theorem answers_modifyCore (f : Codec → CoreState → CoreState) :
    Answers P (modify fun c => c.mapCore (f c) : QuietM Unit) := fun c hc => ⟨(), c.mapCore (f c), rfl, hc⟩

theorem answers_bind {α β : Type} {x : QuietM α} {f : α → QuietM β} (hx : Answers P x) (hf : ∀ a, Answers P (f a)) :
    Answers P (x >>= f) := fun c hc => by
  obtain ⟨a, c1, h1, hc1⟩ := hx c hc
  obtain ⟨b, c2, h2, hc2⟩ := hf a c1 hc1
  exact ⟨b, c2, (engine_bind_of_ok h1).trans h2, hc2⟩

variable (hP : ∀ {d : Draws}, P d → d.pop.1 ≠ .wait ∧ P d.pop.2)
include hP

theorem answers_tryWrite (b : Byte) : Answers P (tryWrite b) := fun c hc => by
  obtain ⟨hanswer, hrest⟩ := hP hc
  rcases tryWrite_cases b c with ⟨-, h⟩ | h | ⟨hwait, -⟩
  · exact ⟨_, _, h, hrest⟩
  · exact ⟨_, _, h, hrest⟩
  · exact absurd hwait hanswer

theorem answers_tryBitWrite (b : Bool) : Answers P (tryBitWrite b) := by
  refine answers_bind (answers_modifyCore fun c => packBit c.params.packOrder b) fun _ => answers_bind answers_get fun c => ?_
  split
  · refine answers_bind (answers_tryWrite hP _) fun ok => ?_
    cases ok with
    | true => exact answers_bind (answers_modifyCore fun _ => dropPending) fun _ => answers_pure _
    | false => exact answers_pure _
  · exact answers_bind (answers_modifyCore fun _ k => { k with obits := k.obits + 1 }) fun _ => answers_pure _

theorem answers_flushIgnoring (n : Nat) : Answers P (flushIgnoring n) := by
  induction n with
  | zero => exact answers_pure _
  | succ n ih =>
    refine answers_bind answers_get fun c => ?_
    split
    · exact answers_pure _
    · refine answers_bind (answers_tryBitWrite hP _) fun ok => ?_
      cases ok with
      | true => exact ih
      | false => exact answers_modifyCore fun _ => dropPending

theorem answers_settlePending (e : ErrCode) : Answers P (settlePending e) := by
  unfold settlePending
  split
  · exact answers_modifyCore fun _ => dropPending
  · exact answers_flushIgnoring hP 7

end

/-! ## The error exit with working I/O -/

/-- The core but for the packer and OUT_BYTES, which alone a flush writes (20_memory.md R51, R55). -/
def CoreState.unpacked (k : CoreState) : CoreState := { k with obuf := 0#8, obits := 0, outBytes := 0#64 }

theorem settlePending_unpacked (e : ErrCode) : Keeps (fun c c' => c'.core.unpacked = c.core.unpacked) (settlePending e) := by
  have hR := composes_of_view fun c => c.core.unpacked
  have hdrop : ∀ c : Codec, (c.mapCore dropPending).core.unpacked = c.core.unpacked := fun _ => rfl
  unfold settlePending
  split
  · exact keeps_modify hdrop
  · exact hR.keeps_flushIgnoring
      (hR.keeps_tryBitWrite (hR.keeps_tryWrite (fun _ => rfl) fun _ _ => rfl) (fun _ _ => rfl) hdrop fun _ => rfl) hdrop 7

/-- With working I/O the error exit reports the error, closes the output and leaves the core but for the packer as it was
(60_exceptions.md R138). -/
theorem errorExit_working (e : ErrCode) {c : Codec} (hd : c.io.draws.allOk) :
    ∃ c', errorExit e c = .ok () c' ∧ c'.core.unpacked = (setError e c.core).unpacked ∧ c'.io.outClosed = true ∧
      c'.io.draws.allOk := by
  have hallOk : ∀ {d : Draws}, d.allOk → d.pop.1 ≠ .wait ∧ d.pop.2.allOk := fun h => by
    obtain ⟨hok, hrest⟩ := Draws.pop_allOk h
    exact ⟨by simp [hok], hrest⟩
  obtain ⟨⟨⟩, c1, hsettle, hd1⟩ := answers_settlePending hallOk e (c.mapCore (setError e)) hd
  obtain ⟨hok, hrest⟩ := Draws.pop_allOk hd1
  refine ⟨c1.drawn.mapIo fun io => { io with outClosed := true }, ?_, (settlePending_unpacked e).of_ok hsettle, rfl, hrest⟩
  rw [errorExit, engine_bind_of_ok (modify_apply _ _), engine_bind_of_ok hsettle, engine_bind_of_ok (tryClose_ok hok)]
  rfl

/-! ## BUILD of an empty input -/

/-- A command without its precondition, ENG idle and no host move before its end, ends in SEQUENCE (60_exceptions.md R137). -/
theorem issue_sequence {i : Instr} {pre : CoreState → Bool} {t : State} (clear : CoreState → CoreState) (body : EngineM Unit)
    (ht : t.prompt) (hpre : pre (acceptWord (encode i) t.codec.core) = false) : issue i pre clear body t =
      .next { t with codec := { t.codec with core := t.codec.core.afterPrecise (encode i) .sequence } } := by
  obtain ⟨hidle, hdraws⟩ := ht
  have hdone := settle_done (w := encode i) (s := t) (c := preciseError .sequence (t.codec.accept (encode i))) hdraws
  rw [issue_of_not_pre clear body hidle hpre, hdone, ← hidle, preciseError_accept]

/-- Without a tree and without codes, the commands that need them end in SEQUENCE (30_encoding.md R71). -/
theorem exec_sequence_of_no_tree {i : Instr} {t : State} (hi : i ∈ [Instr.wrtree, .gencodes, .encode, .project]) (ht : t.prompt)
    (htree : t.codec.core.status.treeValid = false) (hcodes : t.codec.core.status.codesValid = false) :
    exec i t = .next { t with codec := { t.codec with core := t.codec.core.afterPrecise (encode i) .sequence } } := by
  simp only [List.mem_cons, List.not_mem_nil, or_false] at hi
  rcases hi with rfl | rfl | rfl | rfl
  · exact issue_sequence _ _ ht (by simp [preWrtree, htree])
  · exact issue_sequence _ _ ht (by simp [preGencodes, htree])
  · exact issue_sequence _ _ ht (by simp [preEncode, hcodes])
  · exact issue_sequence _ _ ht (by simp [preProject, hcodes])

/-- Settles O35: the rule raises EMPTY_INPUT with nothing allocated, and the error exit leaves no tree and no codes. -/
theorem buildOfNothingFails : Obligations.BuildOfNothingFails := by
  intro s hs hv hp
  obtain ⟨hidle, hdraws⟩ := hs
  obtain ⟨c, hexit, hcore, hclosed, hdone⟩ := errorExit_working .emptyInput
    (c := s.acceptedBuild.mapCore emptyForest) hdraws
  have hexec : exec .build s = .next { s with codec := c, eng := .idle } := by
    rw [exec_build hidle hv, withErrorExit, buildBody_none (c := s.acceptedBuild) (buildForest_none hp)]
    change settle _ _ (errorExit _ _) = _
    rw [hexit]
    exact settle_done hdone.answered.head_ne
  have hnode : c.core.node = [] := congrArg CoreState.node hcore
  have hstatus : c.core.status = (setError .emptyInput s.acceptedBuild.core).status :=
    (congrArg CoreState.status hcore :)
  have htree : c.core.status.treeValid = false := by rw [hstatus]; rfl
  exact ⟨_, hexec, rfl, by rw [hstatus]; rfl, by rw [hstatus]; rfl, hnode, htree, by rw [hstatus]; rfl, hclosed, fun i hi =>
    exec_sequence_of_no_tree hi ⟨rfl, hdone.answered.head_ne⟩ htree (by rw [hstatus]; rfl)⟩

end Sys2Proof.Machine

/-! PROOFS. The walk of GENCODES binds the paths of the tree (spec/42_code_table.md R98; spec/10_state.md R37). -/

namespace Sys2Proof.Machine

/-! ## Paths in a tree -/

namespace CodeTree

@[simp] theorem follow_nil (t : CodeTree) : t.follow [] = some t := by cases t <;> rfl
@[simp] theorem follow_leaf_cons (s : Byte) (w : BitVec 32) (ph b : Bool) (p : List Bool) :
    (leaf s w ph).follow (b :: p) = none := rfl
@[simp] theorem follow_node_cons (w : BitVec 32) (l r : CodeTree) (b : Bool) (p : List Bool) :
    (node w l r).follow (b :: p) = (if b then r else l).follow p := rfl

theorem follow_append (t : CodeTree) (p q : List Bool) : t.follow (p ++ q) = (t.follow p).bind fun u => u.follow q := by
  induction p generalizing t with
  | nil => simp
  | cons b p ih =>
    cases t with
    | leaf => rfl
    | node w l r => exact ih _

/-- Below a leaf there is only the leaf itself. -/
theorem follow_leaf_eq_some_iff {s : Byte} {w : BitVec 32} {ph : Bool} {p : List Bool} {u : CodeTree} :
    (leaf s w ph).follow p = some u ↔ p = [] ∧ u = leaf s w ph := by
  cases p with
  | nil => simp [eq_comm]
  | cons b p => simp

/-- The leaves of a tree are what its paths lead to. -/
theorem mem_leaves_iff {t : CodeTree} {s : Byte} {w : BitVec 32} {ph : Bool} :
    (s, w, ph) ∈ t.leaves ↔ ∃ p, t.follow p = some (leaf s w ph) := by
  induction t with
  | leaf => simp [leaves, follow_leaf_eq_some_iff]
  | node v l r ihl ihr =>
    rw [leaves, List.mem_append, ihl, ihr]
    constructor
    · rintro (⟨p, hp⟩ | ⟨p, hp⟩)
      · exact ⟨false :: p, hp⟩
      · exact ⟨true :: p, hp⟩
    · rintro ⟨p, hp⟩
      match p, hp with
      | false :: p, hp => exact .inl ⟨p, hp⟩
      | true :: p, hp => exact .inr ⟨p, hp⟩

/-- The symbols of the leaves that are not the placeholder, from left to right (42_code_table.md R98, R99). -/
def realSymbols (t : CodeTree) : List Byte := (t.leaves.filter fun l => !l.2.2).map fun l => l.1

@[simp] theorem realSymbols_leaf (s : Byte) (w : BitVec 32) (ph : Bool) :
    (leaf s w ph).realSymbols = if ph then [] else [s] := by cases ph <;> rfl
@[simp] theorem realSymbols_node (w : BitVec 32) (l r : CodeTree) :
    (node w l r).realSymbols = l.realSymbols ++ r.realSymbols := by simp [realSymbols, leaves]

theorem mem_realSymbols_iff {t : CodeTree} {s : Byte} : s ∈ t.realSymbols ↔ ∃ p w, t.follow p = some (leaf s w false) := by
  simp only [realSymbols, List.mem_map, List.mem_filter]
  constructor
  · rintro ⟨⟨s, w, ph⟩, ⟨hmem, hreal⟩, rfl⟩
    obtain rfl : ph = false := by simpa using hreal
    obtain ⟨p, hp⟩ := mem_leaves_iff.1 hmem
    exact ⟨p, w, hp⟩
  · rintro ⟨p, w, hp⟩
    exact ⟨(s, w, false), ⟨mem_leaves_iff.2 ⟨p, hp⟩, rfl⟩, rfl⟩

/-- Each edge of the longest path leaves an internal node. -/
theorem depth_le_internals (t : CodeTree) : t.depth ≤ t.internals := by
  induction t with
  | leaf => exact Nat.le_refl 0
  | node w l r hl hr => simp only [depth, internals]; omega

end CodeTree

/-! ## A path as a code's bits -/

theorem pathValue_append_singleton (p : List Bool) (b : Bool) : pathValue (p ++ [b]) = 2 * pathValue p + b.toNat := by
  simp [pathValue]

/-- The last bit of a path is the lowest of its value. -/
theorem testBit_pathValue_reverse (p : List Bool) (k : Nat) : (pathValue p.reverse).testBit k = p.getD k false := by
  induction p generalizing k with
  | nil => simp [pathValue]
  | cons b p ih =>
    have hb := b.toNat_lt
    rw [List.reverse_cons, pathValue_append_singleton]
    cases k with
    | zero =>
      rw [Nat.testBit_zero, show (2 * pathValue p.reverse + b.toNat) % 2 = b.toNat by omega]
      cases b <;> rfl
    | succ k =>
      rw [Nat.testBit_succ, show (2 * pathValue p.reverse + b.toNat) / 2 = pathValue p.reverse by omega, ih]
      rfl

/-- A bound path is read back from CODE_LEN and CODE_VAL when it has at most MAX_CODE_LEN bits (10_state.md R37). -/
theorem codeBits_path {p : List Bool} (h : p.length ≤ Config.maxCodeLen) :
    codeBits (BitVec.ofNat 8 p.length) (BitVec.ofNat 255 (pathValue p)) = p := by
  rw [Config.maxCodeLen] at h
  have hlen : (BitVec.ofNat 8 p.length).toNat = p.length := by
    rw [BitVec.toNat_ofNat]
    exact Nat.mod_eq_of_lt (by omega)
  rw [codeBits, hlen]
  refine List.ext_getElem (by simp) fun k hk hk' => ?_
  have hbit := testBit_pathValue_reverse p.reverse (p.length - 1 - k)
  rw [List.reverse_reverse] at hbit
  have hback : p.length - 1 - (p.length - 1 - k) = k := by omega
  have hfits : p.length - 1 - k < 255 := by omega
  have hin : p.length - 1 - k < p.length := by omega
  simp [BitVec.getLsbD_ofNat, hbit, hfits, hin, hback]

@[simp] theorem codeBits_length (len : BitVec 8) (val : BitVec 255) : (codeBits len val).length = len.toNat := by
  simp [codeBits]

/-! ## What the walk binds -/

/-- The bit string bound to a symbol; empty when there is none (10_state.md R37). -/
def Codes.code (c : Codes) (s : Byte) : List Bool := codeBits (c.len.lookup s) (c.val.lookup s)

@[simp] theorem Codes.code_empty (s : Byte) : Codes.empty.code s = [] := by simp [Codes.code, Codes.empty, codeBits]

theorem Codes.code_bindPath_self (c : Codes) (s : Byte) {p : List Bool} (h : p.length ≤ Config.maxCodeLen) :
    (c.bindPath s p).code s = p := by
  simp [Codes.code, Codes.bindPath, codeBits_path h]

theorem Codes.code_bindPath_ne (c : Codes) {s s' : Byte} (p : List Bool) (h : s' ≠ s) : (c.bindPath s p).code s' = c.code s' := by
  simp [Codes.code, Codes.bindPath, Table.lookup_update_ne _ _ h]

/-- The walk leaves the code of every symbol that no real leaf has. -/
theorem bindTree_code_of_not_mem {t : CodeTree} {s : Byte} (h : s ∉ t.realSymbols) (p : List Bool) (c : Codes) :
    (bindTree t p c).code s = c.code s := by
  induction t generalizing p c with
  | leaf s' w ph =>
    cases ph with
    | true => rfl
    | false => exact c.code_bindPath_ne p (by simpa using h)
  | node w l r ihl ihr =>
    rw [CodeTree.realSymbols_node, List.mem_append, not_or] at h
    rw [bindTree, ihr h.2, ihl h.1]

/-- The walk binds to each real leaf's symbol the path to the leaf, below the path `p` to the tree: no later leaf has that symbol. -/
theorem bindTree_code_of_follow {t : CodeTree} {s : Byte} {w : BitVec 32} {p q : List Bool} (c : Codes)
    (hnodup : t.realSymbols.Nodup) (hdepth : p.length + t.depth ≤ Config.maxCodeLen) (hq : t.follow q = some (.leaf s w false)) :
    (bindTree t p c).code s = p ++ q := by
  induction t generalizing p q c with
  | leaf s' w' ph =>
    obtain ⟨rfl, heq⟩ := CodeTree.follow_leaf_eq_some_iff.1 hq
    cases heq
    rw [List.append_nil]
    exact c.code_bindPath_self s hdepth
  | node v l r ihl ihr =>
    rw [CodeTree.realSymbols_node] at hnodup
    obtain ⟨hl, hr, hdisjoint⟩ := List.nodup_append'.1 hnodup
    rw [CodeTree.depth] at hdepth
    rw [bindTree]
    match q, hq with
    | false :: q, hq =>
      rw [bindTree_code_of_not_mem (hdisjoint (CodeTree.mem_realSymbols_iff.2 ⟨q, w, hq⟩)),
        ihl _ hl (by rw [List.length_append, List.length_singleton]; omega) hq]
      simp
    | true :: q, hq =>
      rw [ihr _ hr (by rw [List.length_append, List.length_singleton]; omega) hq]
      simp

/-! ## The rule of GENCODES -/

/-- The codec in which the rule of GENCODES runs: the word accepted, the codes and the sizes cleared (10_state.md R32). -/
abbrev State.acceptedGencodes (s : State) : Codec := (s.codec.accept (encode .gencodes)).mapCore clearCodesSizes

theorem gencodesBody_of_tree {c : Codec} {t : CodeTree} (h : treeOf c.core.node walkDepth c.core.root = some t) :
    gencodesBody c = .ok () ((c.mapCore (storeCodes (bindTree t [] Codes.empty))).mapCore setDone) := by
  rw [gencodesBody, engine_bind_of_ok (getCore_apply _), walkCodes_treeOf h, engine_bind_of_ok (need_ok _ _),
    engine_bind_of_ok (modifyCore_apply _ _), complete_apply]

/-- GENCODES of a held tree completes with the codes of its walk. -/
theorem exec_gencodes {s : State} {t : CodeTree} (hs : s.prompt) (hvalid : s.codec.core.status.treeValid = true)
    (hbuilt : s.codec.core.status.treeBuilt = true) (ht : treeOf s.codec.core.node walkDepth s.codec.core.root = some t) :
    exec .gencodes s = .next { s with
      codec := (s.acceptedGencodes.mapCore (storeCodes (bindTree t [] Codes.empty))).mapCore setDone, eng := .idle } := by
  obtain ⟨hidle, hdraws⟩ := hs
  have hrun : exec .gencodes s = settle (encode .gencodes) s (withErrorExit gencodesBody s.acceptedGencodes) :=
    issue_of_pre _ _ hidle (by simp [preGencodes, hvalid, hbuilt])
  rw [hrun, withErrorExit_ok (gencodesBody_of_tree (c := s.acceptedGencodes) ht)]
  exact settle_done hdraws

/-- A core whose codes are those of the walk of `t` has the paths of `t` as its codes, where no two real leaves have one symbol and no
path is longer than MAX_CODE_LEN. -/
theorem codesOf_of_bindTree {k : CoreState} {t : CodeTree} (hcode : ∀ b, k.code b = (bindTree t [] Codes.empty).code b)
    (hnodup : t.realSymbols.Nodup) (hdepth : t.depth ≤ Config.maxCodeLen) : k.codesOf t := by
  have hpath : ∀ s w p, t.follow p = some (.leaf s w false) → k.code s = p := fun s w p hp => by
    rw [hcode, bindTree_code_of_follow _ hnodup (by simpa using hdepth) hp, List.nil_append]
  refine ⟨fun s hs => ?_, hpath⟩
  have hmem : s ∈ t.realSymbols := by
    by_contra hnot
    exact hs (by rw [hcode, bindTree_code_of_not_mem hnot, Codes.code_empty])
  obtain ⟨p, w, hp⟩ := CodeTree.mem_realSymbols_iff.1 hmem
  exact ⟨w, by rw [hpath s w p hp]; exact hp⟩

end Sys2Proof.Machine

/-! PROOFS. The codes of a built tree: one for each present symbol, none the beginning of another, and of Kraft sum 1, or 1/2 with one
symbol (spec/42_code_table.md R99 to R101). -/

namespace Sys2Proof.Machine

/-! ## The leaves of a built tree -/

theorem mem_presentSymbols {freq : Table (BitVec 32)} {s : Byte} : s ∈ presentSymbols freq ↔ freq.lookup s ≠ 0#32 := by
  simp [presentSymbols, mem_allSymbols]

theorem presentSymbols_nodup (freq : Table (BitVec 32)) : (presentSymbols freq).Nodup := allSymbols_nodup.filter _

namespace leavesMatch
variable {freq : Table (BitVec 32)} {t : CodeTree}

/-- With one present symbol the tree is that symbol's leaf and the placeholder; else its leaves are the present symbols'. -/
theorem cases (h : leavesMatch freq t) :
    (presentCount freq = 1 ∧ ∃ s w, presentSymbols freq = [s] ∧ t = .node w (.leaf s w false) (.leaf 0#8 0#32 true)) ∨
    (presentCount freq ≠ 1 ∧ t.leaves.Perm (presentEntries freq)) := by
  by_cases hone : presentCount freq = 1
  · rw [leavesMatch, if_pos hone] at h
    obtain ⟨s, w, hpresent, -, rfl⟩ := h
    obtain ⟨s', hs'⟩ := List.length_eq_one_iff.1 ((presentSymbols_length freq).trans hone)
    obtain rfl : s = s' := by simpa [hs'] using mem_presentSymbols.2 hpresent
    exact .inl ⟨hone, s, w, hs', rfl⟩
  · rw [leavesMatch, if_neg hone] at h
    exact .inr ⟨hone, h⟩

/-- The leaves but the placeholder are those of the present symbols, one each. -/
theorem realSymbols_perm (h : leavesMatch freq t) : t.realSymbols.Perm (presentSymbols freq) := by
  rcases h.cases with ⟨-, s, w, hs, rfl⟩ | ⟨-, hperm⟩
  · simp [hs]
  · have hreal : (presentEntries freq).filter (fun l => !l.2.2) = presentEntries freq :=
      List.filter_eq_self.2 fun l hl => by
        obtain ⟨s, -, rfl⟩ := List.mem_map.1 hl
        rfl
    have := (hperm.filter fun l => !l.2.2).map fun l => l.1
    rw [hreal, presentEntries, List.map_map] at this
    exact this.trans (.of_eq (List.map_id _))

theorem mem_realSymbols (h : leavesMatch freq t) {b : Byte} : b ∈ t.realSymbols ↔ freq.lookup b ≠ 0#32 := by
  rw [h.realSymbols_perm.mem_iff, mem_presentSymbols]

theorem realSymbols_nodup (h : leavesMatch freq t) : t.realSymbols.Nodup :=
  h.realSymbols_perm.nodup_iff.2 (presentSymbols_nodup freq)

/-- At most 256 leaves, and so at most 255 internal nodes on a path (41_tree_builder.md R96). -/
theorem depth_le (h : leavesMatch freq t) : t.depth ≤ Config.maxCodeLen := by
  rcases h.cases with ⟨-, s, w, -, rfl⟩ | ⟨-, hperm⟩
  · exact (by decide : 1 ≤ 255)
  · have hlength : t.leaves.length = presentCount freq := by
      rw [hperm.length_eq, presentEntries, List.length_map, presentSymbols_length]
    have hcount := presentCount_le freq
    have hfull := t.leaves_length
    have hdepth := t.depth_le_internals
    rw [Config.maxCodeLen]
    omega

end leavesMatch

/-- GENCODES of a held tree of the present symbols completes with the tree's paths as its codes. -/
theorem exec_gencodes_codesOf {s : State} {freq : Table (BitVec 32)} {tr : CodeTree} (hs : s.prompt)
    (hvalid : s.codec.core.status.treeValid = true) (hbuilt : s.codec.core.status.treeBuilt = true)
    (htree : s.codec.core.holds tr) (hleaves : leavesMatch freq tr) :
    ∃ t, exec .gencodes s = .next t ∧ t.codec.core.codesOf tr :=
  ⟨_, exec_gencodes hs hvalid hbuilt htree.1, codesOf_of_bindTree (fun _ => rfl) hleaves.realSymbols_nodup hleaves.depth_le⟩

/-! ## Codes that are the paths of a tree -/

@[simp] theorem CoreState.code_length (k : CoreState) (b : Byte) : (k.code b).length = (k.codeLen.lookup b).toNat :=
  codeBits_length _ _

theorem CoreState.code_ne_nil_iff {k : CoreState} {b : Byte} : k.code b ≠ [] ↔ k.codeLen.lookup b ≠ 0#8 := by
  rw [ne_eq, ne_eq, ← List.length_eq_zero_iff, CoreState.code_length, ← BitVec.toNat_inj, BitVec.toNat_zero]

namespace CoreState.codesOf
variable {k : CoreState} {t : CodeTree}

/-- Under an internal root every path to a leaf has a bit, and so exactly the symbols of real leaves have a code. -/
theorem codeLen_ne_zero_iff (h : k.codesOf t) (hnode : t.isNode = true) {b : Byte} :
    k.codeLen.lookup b ≠ 0#8 ↔ b ∈ t.realSymbols := by
  obtain ⟨hleaf, hpath⟩ := h
  rw [← code_ne_nil_iff, CodeTree.mem_realSymbols_iff]
  constructor
  · intro hb
    obtain ⟨w, hw⟩ := hleaf b hb
    exact ⟨_, w, hw⟩
  · rintro ⟨p, w, hp⟩ hnil
    rw [← hpath b w p hp, hnil, CodeTree.follow_nil] at hp
    cases hp
    cases hnode

/-- A code leads to a leaf, below which no other code goes on (42_code_table.md R100). -/
theorem eq_of_isPrefix (h : k.codesOf t) {b b' : Byte} (hb : k.code b ≠ []) (hb' : k.code b' ≠ []) (hpre : k.code b <+: k.code b') :
    b = b' := by
  obtain ⟨w, hw⟩ := h.1 b hb
  obtain ⟨w', hw'⟩ := h.1 b' hb'
  obtain ⟨q, hq⟩ := hpre
  rw [← hq, CodeTree.follow_append, hw] at hw'
  obtain ⟨-, heq⟩ := CodeTree.follow_leaf_eq_some_iff.1 hw'
  cases heq
  rfl

end CoreState.codesOf

/-- Settles O41: the codes are the paths to the real leaves, which are those of the present symbols, one each. -/
theorem codesArePrefixFree : Obligations.CodesArePrefixFree := by
  intro s hinv hs hbuilt
  obtain ⟨⟨⟨⟨-, hchain⟩, -⟩, -, -, -, hderived⟩, -⟩ := hinv
  obtain ⟨tr, htree, ⟨hnode, -, hleaves⟩, -⟩ := hderived hbuilt
  obtain ⟨t, hexec, hcodes⟩ := exec_gencodes_codesOf hs (hchain hbuilt).1 hbuilt htree hleaves
  have hcoded : ∀ b, t.codec.core.codeLen.lookup b ≠ 0#8 ↔ s.codec.core.freq.lookup b ≠ 0#32 := fun b =>
    (hcodes.codeLen_ne_zero_iff hnode).trans hleaves.mem_realSymbols
  refine ⟨t, hexec, hcoded, fun b hb => ⟨?_, ?_⟩, fun b b' hne hb hb' hpre => ?_⟩
  · exact List.length_pos_iff.2 (CoreState.code_ne_nil_iff.2 ((hcoded b).2 hb))
  · rw [CoreState.code_length]
    exact Nat.le_of_lt_succ (BitVec.isLt _)
  · exact hne (hcodes.eq_of_isPrefix (CoreState.code_ne_nil_iff.2 hb) (CoreState.code_ne_nil_iff.2 hb') hpre)

/-! ## The Kraft sum -/

/-- The Kraft sum of a tree at depth `d`, times `2 ^ n`: each internal node halves it between its children (42_code_table.md R101). -/
theorem CodeTree.kraft_sum {t : CodeTree} {len : Byte → Nat} {d n : Nat} (hdepth : d + t.depth ≤ n)
    (hlen : ∀ p s w ph, t.follow p = some (.leaf s w ph) → len s = d + p.length) :
    (t.leaves.map fun l => 2 ^ (n - len l.1)).sum = 2 ^ (n - d) := by
  induction t generalizing d with
  | leaf s w ph => simp [leaves, hlen [] s w ph rfl]
  | node v l r ihl ihr =>
    rw [depth] at hdepth
    have hleft := ihl (d := d + 1) (by omega) fun p s w ph hp => by
      rw [hlen (false :: p) s w ph hp, List.length_cons]; omega
    have hright := ihr (d := d + 1) (by omega) fun p s w ph hp => by
      rw [hlen (true :: p) s w ph hp, List.length_cons]; omega
    rw [leaves, List.map_append, List.sum_append, hleft, hright, ← Nat.two_mul, ← Nat.pow_succ']
    congr 1
    omega

/-- Settles O42: with one present symbol its code is the left edge; else every leaf carries a code, and the tree is full. -/
theorem kraftSumOfBuiltCodes : Obligations.KraftSumOfBuiltCodes := by
  intro s hinv hvalid
  obtain ⟨⟨⟨⟨hchain, -⟩, -⟩, -, -, -, hderived⟩, -⟩ := hinv
  obtain ⟨tr, -, ⟨-, -, hleaves⟩, hcodes⟩ := hderived (hchain hvalid)
  obtain ⟨-, hpath⟩ := hcodes hvalid
  have hlen : ∀ p b w, tr.follow p = some (.leaf b w false) → (s.codec.core.codeLen.lookup b).toNat = p.length :=
    fun p b w hp => by rw [← CoreState.code_length, hpath b w p hp]
  change ((presentSymbols s.codec.core.freq).map _).sum = _
  rcases hleaves.cases with ⟨hone, b, w, hb, rfl⟩ | ⟨hmany, hperm⟩
  · rw [if_pos hone, hb, List.map_singleton, List.sum_singleton, hlen [false] b w rfl]
    rfl
  · have hreal : ∀ p b w ph, tr.follow p = some (.leaf b w ph) → (s.codec.core.codeLen.lookup b).toNat = 0 + p.length :=
      fun p b w ph hp => by
        obtain ⟨b', -, heq⟩ := List.mem_map.1 (hperm.mem_iff.1 (CodeTree.mem_leaves_iff.2 ⟨p, hp⟩))
        cases heq
        rw [hlen p b _ hp, Nat.zero_add]
    have hsum := CodeTree.kraft_sum (n := 255) (by rw [Nat.zero_add]; exact hleaves.depth_le) hreal
    rw [(hperm.map _).sum_eq, presentEntries, List.map_map] at hsum
    rw [if_neg hmany]
    exact hsum

/-! ## One present symbol -/

/-- The only symbol of non-zero count is the only present one. -/
theorem presentSymbols_eq_singleton {freq : Table (BitVec 32)} {b : Byte} (hb : freq.lookup b ≠ 0#32)
    (hother : ∀ b', b' ≠ b → freq.lookup b' = 0#32) : presentSymbols freq = [b] := by
  refine List.perm_singleton.1 ((List.perm_ext_iff_of_nodup (presentSymbols_nodup freq) (List.nodup_singleton b)).2 fun b' => ?_)
  rw [mem_presentSymbols, List.mem_singleton]
  constructor
  · intro hb'
    by_contra hne
    exact hb' (hother b' hne)
  · rintro rfl
    exact hb

/-- Settles O40: BUILD puts the symbol's leaf on the left of the placeholder, and only the former is a real leaf. -/
theorem singleSymbolGetsTheCodeZero : Obligations.SingleSymbolGetsTheCodeZero := by
  intro s b hs hvalid hb hother
  have hpresent := presentSymbols_eq_singleton hb hother
  have hone : presentCount s.codec.core.freq = 1 := by rw [← presentSymbols_length, hpresent]; rfl
  obtain ⟨t, tr, hbuild, hidle, htree, hnode, hleaves, -, -, -, -, htvalid, htbuilt, -, -, -, -, hio⟩ :=
    buildMakesOneFullTree s hs hvalid (by rw [hone]; decide)
  obtain ⟨u, hgen, hcodes⟩ := exec_gencodes_codesOf ⟨hidle, by rw [hio]; exact hs.2⟩ htvalid htbuilt htree hleaves
  refine ⟨t, u, hbuild, hgen, ?_, fun b' hne => ?_⟩
  · rcases hleaves.cases with ⟨-, b', w, hb', rfl⟩ | ⟨hmany, -⟩
    · cases hpresent.symm.trans hb'
      exact hcodes.2 b w [false] rfl
    · exact absurd hone hmany
  · by_contra hcoded
    exact hleaves.mem_realSymbols.1 ((hcodes.codeLen_ne_zero_iff hnode).1 hcoded) (hother b' hne)

end Sys2Proof.Machine

/-! PROOFS. A tree numbered in pre-order, as RDTREE numbers it (spec/43_tree_codec.md R110, R111). -/

namespace Sys2Proof.Machine

namespace CodeTree

/-! ## Trees without weights and marks -/

@[simp] theorem leaves_length_plain (t : CodeTree) : t.plain.leaves.length = t.leaves.length := by
  induction t with
  | leaf => rfl
  | node w l r hl hr => simp only [plain, leaves, List.length_append, hl, hr]

@[simp] theorem size_plain (t : CodeTree) : t.plain.size = t.size := by
  have hplain := t.plain.leaves_length
  have ht := t.leaves_length
  rw [leaves_length_plain] at hplain
  rw [size, size, leaves_length_plain]
  omega

/-- DECODE does not look at weights and marks. -/
theorem decodeFrom_plain (root cur : CodeTree) (mid : Bool) (bs : List Bool) :
    decodeFrom root.plain cur.plain mid bs = decodeFrom root cur mid bs := by
  induction bs generalizing cur mid with
  | nil => rfl
  | cons b bs ih =>
    cases cur with
    | leaf => rfl
    | node w l r =>
      have hchild : (if b then r.plain else l.plain) = (if b then r else l).plain := by cases b <;> rfl
      simp only [plain, decodeFrom, hchild]
      cases hnext : (if b then r else l) with
      | leaf s v ph => simp only [plain, ih]
      | node v l' r' => exact ih (.node v l' r') true

theorem decode_plain (t : CodeTree) (bs : List Bool) : t.plain.decode bs = t.decode bs := decodeFrom_plain t t false bs

theorem one_le_size (t : CodeTree) : 1 ≤ t.size := by
  rw [size, leaves_length]
  omega

theorem size_node (w : BitVec 32) (l r : CodeTree) : (node w l r).size = 1 + l.size + r.size := by
  simp only [size, leaves, internals, List.length_append]
  omega

/-! ## The numbering -/

/-- The entries of a tree numbered in pre-order from `k` (43_tree_codec.md R111). -/
def layout (t : CodeTree) (k : Nat) : List Node :=
  match t with
  | .leaf s w ph => [.leaf s w ph]
  | .node w l r =>
    .internal w (Fin.ofNat 512 (k + 1)) (Fin.ofNat 512 (k + 1 + l.size)) :: (l.layout (k + 1) ++ r.layout (k + 1 + l.size))

@[simp] theorem layout_length (t : CodeTree) (k : Nat) : (t.layout k).length = t.size := by
  induction t generalizing k with
  | leaf => rfl
  | node w l r hl hr => rw [layout, List.length_cons, List.length_append, hl, hr, size_node]; omega

/-- Its leaves are the entries of KIND 0. -/
theorem leafCount_layout (t : CodeTree) (k : Nat) : leafCount (t.layout k) = t.leaves.length := by
  induction t generalizing k with
  | leaf => rfl
  | node w l r hl hr =>
    simp only [leafCount] at hl hr ⊢
    rw [layout, List.countP_cons, List.countP_append, hl, hr]
    simp [leaves, Node.isLeaf]

/-- Without weights every entry has weight 0. -/
theorem weight_of_mem_layout_plain {t : CodeTree} {k : Nat} {x : Node} (h : x ∈ t.plain.layout k) : x.weight = 0#32 := by
  induction t generalizing k with
  | leaf => rw [plain, layout, List.mem_singleton] at h; rw [h]; rfl
  | node w l r hl hr =>
    rw [plain, layout, List.mem_cons, List.mem_append] at h
    rcases h with rfl | h | h
    · rfl
    · exact hl h
    · exact hr h

/-- The children of an entry stand above it. -/
theorem children_above_layout {t : CodeTree} {k i : Nat} {w : BitVec 32} {l r : NodeIdx} (hroom : k + t.size ≤ 512)
    (h : (t.layout k)[i]? = some (.internal w l r)) : k + i < l.val ∧ k + i < r.val := by
  induction t generalizing k i with
  | leaf => cases i <;> simp [layout] at h
  | node v tl tr ihl ihr =>
    have hl := tl.one_le_size
    have hr := tr.one_le_size
    rw [size_node] at hroom
    rw [layout] at h
    cases i with
    | zero =>
      simp only [List.getElem?_cons_zero, Option.some.injEq, Node.internal.injEq] at h
      obtain ⟨-, rfl, rfl⟩ := h
      simp only [Fin.ofNat_eq_cast, Fin.val_natCast]
      omega
    | succ i =>
      rw [List.getElem?_cons_succ, List.getElem?_append, layout_length] at h
      split at h
      · have := ihl (by omega) h
        omega
      · have := ihr (by omega) h
        omega

/-- The node memory read back from `k` is the tree, its indices in order: the walk of the node memory meets the entries as they
were laid out. -/
theorem treeOf_layout {nodes : List Node} {t : CodeTree} {k n : Nat} (h : t.layout k <+: nodes.drop k)
    (hroom : k + t.size ≤ 512) (hn : t.depth < n) :
    treeOf nodes n (Fin.ofNat 512 k) = some t ∧ treeIndices nodes n (Fin.ofNat 512 k) = List.range' k t.size := by
  induction t generalizing k n with
  | leaf s w ph =>
    obtain ⟨n, rfl⟩ : ∃ m, n = m + 1 := ⟨n - 1, by omega⟩
    have hval : (Fin.ofNat 512 k : NodeIdx).val = k := Nat.mod_eq_of_lt (Nat.lt_of_succ_le hroom)
    obtain ⟨more, hmore⟩ := h
    have hnode : nodeAt nodes (Fin.ofNat 512 k) = some (.leaf s w ph) := by
      rw [nodeAt, hval, ← List.head?_drop, ← hmore]; rfl
    have hleaf := treeOf_of_leaf n hnode
    rwa [hval] at hleaf
  | node w l r ihl ihr =>
    obtain ⟨n, rfl⟩ : ∃ m, n = m + 1 := ⟨n - 1, by omega⟩
    rw [depth] at hn
    rw [size_node] at hroom
    have hpos := l.one_le_size
    have hval : (Fin.ofNat 512 k : NodeIdx).val = k := Nat.mod_eq_of_lt (by omega)
    obtain ⟨more, hmore⟩ := h
    rw [layout, List.cons_append, List.append_assoc] at hmore
    have hnode : nodeAt nodes (Fin.ofNat 512 k) =
        some (.internal w (Fin.ofNat 512 (k + 1)) (Fin.ofNat 512 (k + 1 + l.size))) := by
      rw [nodeAt, hval, ← List.head?_drop, ← hmore]; rfl
    have hafter : nodes.drop (k + 1) = l.layout (k + 1) ++ (r.layout (k + 1 + l.size) ++ more) := by
      rw [← List.tail_drop, ← hmore]; rfl
    have hlast : nodes.drop (k + 1 + l.size) = r.layout (k + 1 + l.size) ++ more := by
      rw [← List.drop_drop, hafter, List.drop_left' (layout_length l _)]
    obtain ⟨hlt, hli⟩ := ihl (k := k + 1) (n := n) ⟨_, hafter.symm⟩ (by omega) (by omega)
    obtain ⟨hrt, hri⟩ := ihr (k := k + 1 + l.size) (n := n) ⟨_, hlast.symm⟩ (by omega) (by omega)
    constructor
    · simp only [treeOf, hnode, hlt, hrt]
    · simp only [treeIndices, hnode, hval, hli, hri]
      rw [List.range'_append_1, size_node, Nat.add_assoc, Nat.add_comm 1, List.range'_succ]

/-- A node memory that is one tree numbered from 0, of at most NODE_CAP nodes. -/
theorem treeOf_layout_zero {t : CodeTree} (hsize : t.size ≤ Config.nodeCap) :
    treeOf (t.layout 0) walkDepth 0 = some t ∧ treeIndices (t.layout 0) walkDepth 0 = List.range t.size := by
  have hdepth := t.depth_le_internals
  rw [Config.nodeCap] at hsize
  have hn : t.depth < 512 := by
    rw [size] at hsize
    omega
  rw [List.range_eq_range']
  exact treeOf_layout (nodes := t.layout 0) (k := 0) ⟨[], List.append_nil _⟩ (by omega) hn

end CodeTree

/-- A core whose node memory is one tree numbered from 0 holds that tree. -/
theorem CoreState.holds_of_layout {k : CoreState} {t : CodeTree} (hnode : k.node = t.layout 0) (hroot : k.root = 0)
    (hsize : t.size ≤ Config.nodeCap) : k.holds t := by
  obtain ⟨htree, hindices⟩ := CodeTree.treeOf_layout_zero hsize
  rw [CoreState.holds, hnode, hroot, htree, hindices, CodeTree.layout_length]
  exact ⟨rfl, List.nodup_range, rfl⟩

end Sys2Proof.Machine

/-! PROOFS. WRTREE writes the tokens of the tree that the node memory holds (spec/43_tree_codec.md R103, R104, R106). -/

namespace Sys2Proof.Machine

/-- The rule of WRTREE on a held tree writes the tree's tokens. -/
theorem wrtreeBody_of_tree {c : Codec} {t : CodeTree} (h : treeOf c.core.node walkDepth c.core.root = some t) :
    wrtreeBody c = (do bitWrites (t.bits c.params.symOrder); complete) c := by
  rw [wrtreeBody, engine_bind_of_ok (getCore_apply _), engine_bind_of_ok (getParams_apply _), serialize_treeOf _ h,
    engine_bind_of_ok (need_ok _ _)]

/-- WRTREE of a held tree, on an open output with working I/O, completes with the tree's tokens written and nothing else. -/
theorem exec_wrtree {s : State} {tr : CodeTree} (hs : s.working) (hopen : s.codec.io.outClosed = false)
    (hvalid : s.codec.core.status.treeValid = true) (htree : treeOf s.codec.core.node walkDepth s.codec.core.root = some tr) :
    ∃ c, exec .wrtree s = .next { s with codec := c.mapCore setDone, eng := .idle } ∧
      Wrote (tr.bits s.codec.params.symOrder) (s.codec.accept (encode .wrtree)) c := by
  obtain ⟨hidle, hdraws⟩ := hs
  obtain ⟨c, hwrites, hwrote⟩ :=
    bitWrites_ok (tr.bits s.codec.params.symOrder) (c := s.codec.accept (encode .wrtree)) hdraws hopen
  have hbody : wrtreeBody (s.codec.accept (encode .wrtree)) = .ok () (c.mapCore setDone) := by
    rw [wrtreeBody_of_tree (c := s.codec.accept (encode .wrtree)) htree]
    exact (engine_bind_of_ok hwrites).trans (complete_apply c)
  have hrun : exec .wrtree s = settle (encode .wrtree) s (withErrorExit wrtreeBody (s.codec.accept (encode .wrtree))) :=
    issue_of_pre (pre := preWrtree) id wrtreeBody hidle hvalid
  refine ⟨c, ?_, hwrote⟩
  rw [hrun, withErrorExit_ok hbody]
  exact settle_done hwrote.draws.answered.head_ne

/-- What any such WRTREE has written when it is done. -/
theorem exec_wrtree_outBits {s t : State} {tr : CodeTree} (hs : s.working) (hopen : s.codec.io.outClosed = false)
    (hvalid : s.codec.core.status.treeValid = true) (htree : treeOf s.codec.core.node walkDepth s.codec.core.root = some tr)
    (hexec : exec .wrtree s = .next t) : t.codec.outBits = s.codec.outBits ++ tr.bits s.codec.params.symOrder := by
  obtain ⟨c, hrun, hwrote⟩ := exec_wrtree hs hopen hvalid htree
  cases hrun.symm.trans hexec
  exact hwrote.outBits

end Sys2Proof.Machine

/-! PROOFS. RDTREE reads the tokens of a tree and lays the tree out in pre-order (spec/43_tree_codec.md R107, R110, R112;
spec/30_encoding.md R75, R76). -/

namespace Sys2Proof.Machine

/-! ## One token bit -/

/-- A bit is left where the bit stream has one. -/
theorem bitAtEnd_of_inBits_cons {c : Codec} {b : Bool} {rest : List Bool} (h : c.inBits = b :: rest) : c.bitAtEnd = false := by
  by_contra hend
  simp only [Bool.not_eq_false, Codec.bitAtEnd, Streams.atEnd, Bool.and_eq_true, beq_iff_eq] at hend
  obtain ⟨hbits, hpos⟩ := hend
  simp [Codec.inBits, unreadBits, hbits, hpos] at h

/-- A token bit with working I/O, where a bit is left. -/
theorem treeBit_ok {c : Codec} {b : Bool} {rest : List Bool} (hd : c.io.draws.allOk) (h : c.inBits = b :: rest) :
    ∃ c', treeBit c = .ok b c' ∧ Took [b] c c' ∧ c'.inBits = rest := by
  obtain ⟨c', hread, htook, hrest⟩ := bitRead_ok hd h
  refine ⟨c', ?_, htook, hrest⟩
  rw [treeBit, engine_bind_of_ok (bitAtEnd_apply c), bitAtEnd_of_inBits_cons h]
  exact hread

/-! ## The symbol of a leaf -/

/-- The symbol bits of `s` from the `k`-th on, `n` of them, added to `a` (30_encoding.md R76). -/
def addSymbolBits (order : BitOrder) (s : Byte) (k n : Nat) (a : Byte) : Byte :=
  match n with
  | 0 => a
  | n + 1 => addSymbolBits order s (k + 1) n (a + symbolBitValue order (symbit order s k) k)

/-- The eight bits of a symbol add up to it, in either order. -/
theorem addSymbolBits_eight (order : BitOrder) (s : Byte) : addSymbolBits order s 0 8 0#8 = s := by
  have hall : ∀ s : Byte, ∀ o ∈ [BitOrder.msbFirst, .lsbFirst], addSymbolBits o s 0 8 0#8 = s := by decide
  exact hall s order (by cases order <;> decide)

theorem readSymbolFrom_ok {order : BitOrder} {k n : Nat} {a s : Byte} {c : Codec} {rest : List Bool} (hd : c.io.draws.allOk)
    (ho : c.params.symOrder = order) (h : c.inBits = (List.range' k n).map (symbit order s) ++ rest) :
    ∃ c', readSymbolFrom k n a c = .ok (addSymbolBits order s k n a) c' ∧ Took ((List.range' k n).map (symbit order s)) c c' := by
  induction n generalizing k a c with
  | zero => exact ⟨c, rfl, .refl hd⟩
  | succ n ih =>
    rw [List.range'_succ, List.map_cons, List.cons_append] at h
    obtain ⟨c1, hbit, htook, hrest⟩ := treeBit_ok hd h
    obtain ⟨c2, hsymbol, htook2⟩ := ih htook.draws (by rw [htook.params, ho]) hrest
    refine ⟨c2, ?_, ?_⟩
    · rw [readSymbolFrom, engine_bind_of_ok (getParams_apply c), engine_bind_of_ok hbit, ho]
      exact hsymbol
    · rw [List.range'_succ]
      exact htook.trans htook2

/-- The symbol of a leaf is read back from its bits. -/
theorem readSymbol_ok {order : BitOrder} {s : Byte} {c : Codec} {rest : List Bool} (hd : c.io.draws.allOk)
    (ho : c.params.symOrder = order) (h : c.inBits = symbolBits order s ++ rest) :
    ∃ c', readSymbol c = .ok s c' ∧ Took (symbolBits order s) c c' := by
  have hbits : symbolBits order s = (List.range' 0 8).map (symbit order s) := by rw [symbolBits, List.range_eq_range']
  rw [hbits] at h ⊢
  have hread := readSymbolFrom_ok (a := 0#8) hd ho h
  rwa [addSymbolBits_eight] at hread

/-! ## The allocation of a node -/

/-- The core with one more node allocated and written. -/
def growNode (x : Node) (k : CoreState) : CoreState := { k with node := k.node ++ [x] }

/-- An entry written anew changes that entry alone. -/
theorem writeNode_node {k : CoreState} {before after : List Node} {x : Node} (h : k.node = before ++ x :: after)
    (hroom : before.length < 512) (y : Node) : (writeNode (nextIdx before) y k).node = before ++ y :: after := by
  rw [(writeNode_fields _ _ _).2.2.2.2.2.2.2.2.2.2.2.2.2.2.1, h, nextIdx_val hroom, List.set_append_right _ _ (Nat.le_refl _),
    Nat.sub_self, List.set_cons_zero]

theorem writeNode_allocNode {k : CoreState} (hroom : k.node.length < 512) (x : Node) :
    writeNode (nextIdx k.node) x (allocNode k) = growNode x k := by
  have hnode := writeNode_node (k := allocNode k) (after := []) rfl hroom x
  rw [writeNode] at hnode ⊢
  rw [growNode, ← hnode]
  rfl

/-! ## One node -/

/-- What is left of `ReadNode()` once the bit of the internal node `i` is read and the node is allocated (43_tree_codec.md R107). -/
def readChildren (n : Nat) (i : NodeIdx) : EngineM NodeIdx := do
  let l ← readNode n
  modifyCore (writeNode i (.internal 0#32 l 0))
  let r ← readNode n
  modifyCore (writeNode i (.internal 0#32 l r))
  pure i

theorem readChildren_ok {n : Nat} {i il ir : NodeIdx} {c cl cr : Codec} (hl : readNode n c = .ok il cl)
    (hr : readNode n (cl.mapCore (writeNode i (.internal 0#32 il 0))) = .ok ir cr) :
    readChildren n i c = .ok i (cr.mapCore (writeNode i (.internal 0#32 il ir))) := by
  rw [readChildren, engine_bind_of_ok hl, engine_bind_of_ok (modifyCore_apply _ _), engine_bind_of_ok hr,
    engine_bind_of_ok (modifyCore_apply _ _)]
  rfl

/-- What is left of it once the bit of the leaf `i` is read and the node is allocated. -/
def readLeaf (i : NodeIdx) : EngineM NodeIdx := do
  let s ← readSymbol
  modifyCore (writeNode i (.leaf s 0#32 false))
  pure i

theorem readLeaf_ok {i : NodeIdx} {s : Byte} {c c1 : Codec} (h : readSymbol c = .ok s c1) :
    readLeaf i c = .ok i (c1.mapCore (writeNode i (.leaf s 0#32 false))) := by
  rw [readLeaf, engine_bind_of_ok h, engine_bind_of_ok (modifyCore_apply _ _)]
  rfl

/-- No node is allocated when NODE_CAP of them are (43_tree_codec.md R109). -/
theorem readNode_full {n : Nat} {b : Bool} {c c1 : Codec} (hbit : treeBit c = .ok b c1)
    (hfull : c1.core.node.length = Config.nodeCap) : readNode (n + 1) c = .error (.raise .treeOverflow) c1 := by
  rw [readNode, engine_bind_of_ok hbit, engine_bind_of_ok (getCore_apply _), if_pos hfull]
  rfl

theorem readNode_internal {n : Nat} {c c1 : Codec} (hbit : treeBit c = .ok true c1)
    (hroom : c1.core.node.length < Config.nodeCap) : readNode (n + 1) c =
    readChildren n (nextIdx c1.core.node) (c1.mapCore (growNode (.internal 0#32 0 0))) := by
  rw [readNode, engine_bind_of_ok hbit, engine_bind_of_ok (getCore_apply _), if_neg (Nat.ne_of_lt hroom),
    engine_bind_of_ok (modifyCore_apply _ _), if_pos rfl, engine_bind_of_ok (modifyCore_apply _ _)]
  exact congrArg (fun k => readChildren n (nextIdx c1.core.node) { c1 with core := k })
    (writeNode_allocNode (Nat.lt_succ_of_lt hroom) _)

theorem readNode_leaf {n : Nat} {c c1 : Codec} (hbit : treeBit c = .ok false c1)
    (hroom : c1.core.node.length < Config.nodeCap) : readNode (n + 1) c =
    readLeaf (nextIdx c1.core.node) (c1.mapCore allocNode) := by
  rw [readNode, engine_bind_of_ok hbit, engine_bind_of_ok (getCore_apply _), if_neg (Nat.ne_of_lt hroom),
    engine_bind_of_ok (modifyCore_apply _ _), if_neg Bool.false_ne_true]
  rfl

/-! ## Reading apart from the node memory -/

/-- The codec with an empty node memory. -/
def Codec.unplanted (c : Codec) : Codec := c.mapCore fun k => { k with node := [] }

/-- `c'` is `c` with `bits` taken from its input bit stream and the node memory changed, and nothing else. -/
abbrev Parsed (bits : List Bool) (c c' : Codec) : Prop := Took bits c.unplanted c'.unplanted

theorem Took.parsed {bits : List Bool} {c c' : Codec} (h : Took bits c c') : Parsed bits c c' where
  inBits := h.inBits
  core := by
    have hcore := h.core
    simp only [Codec.unplanted, Codec.mapCore_core]
    rw [hcore]
  params := h.params
  io := h.io
  ipos := h.ipos
  inPos := h.inPos
  within := h.within
  draws := h.draws

theorem Took.node_eq {bits : List Bool} {c c' : Codec} (h : Took bits c c') : c'.core.node = c.core.node := by
  rw [h.core]

theorem Parsed.params_eq {bits : List Bool} {c c' : Codec} (h : Parsed bits c c') : c'.params = c.params := h.params

theorem Parsed.draws_allOk {bits : List Bool} {c c' : Codec} (h : Parsed bits c c') : c'.io.draws.allOk := h.draws

theorem Parsed.core_eq {bits : List Bool} {c c' : Codec} (h : Parsed bits c c') : c'.core = { c.core with
    node := c'.core.node, ibuf := c'.core.ibuf, ibits := c'.core.ibits, inPos := c'.core.inPos } :=
  congrArg (fun k : CoreState => { k with node := c'.core.node }) h.core

/-- What is left of the bit stream. -/
theorem Parsed.inBits_eq {bits rest : List Bool} {c c' : Codec} (h : Parsed bits c c') (hc : c.inBits = bits ++ rest) :
    c'.inBits = rest :=
  List.append_cancel_left ((h.inBits).symm.trans hc)

/-! ## A tree -/

/-- The bit of an internal node, where there is room for the node. -/
theorem readNode_begin_internal {c : Codec} {rest : List Bool} (hd : c.io.draws.allOk) (h : c.inBits = true :: rest)
    (hroom : c.core.node.length < Config.nodeCap) :
    ∃ c', (∀ n, readNode (n + 1) c = readChildren n (nextIdx c.core.node) c') ∧ Parsed [true] c c' ∧ c'.inBits = rest ∧
      c'.core.node = c.core.node ++ [.internal 0#32 0 0] := by
  obtain ⟨c1, hbit, htook, hrest⟩ := treeBit_ok hd h
  rw [← htook.node_eq] at hroom ⊢
  exact ⟨_, fun n => readNode_internal hbit hroom, htook.parsed, hrest, rfl⟩

/-- The bit of a leaf, where there is room for the node. -/
theorem readNode_begin_leaf {c : Codec} {rest : List Bool} (hd : c.io.draws.allOk) (h : c.inBits = false :: rest)
    (hroom : c.core.node.length < Config.nodeCap) :
    ∃ c', (∀ n, readNode (n + 1) c = readLeaf (nextIdx c.core.node) c') ∧ Parsed [false] c c' ∧ c'.inBits = rest ∧
      c'.core.node = c.core.node ++ [.leaf 0#8 0#32 false] := by
  obtain ⟨c1, hbit, htook, hrest⟩ := treeBit_ok hd h
  rw [← htook.node_eq] at hroom ⊢
  exact ⟨_, fun n => readNode_leaf hbit hroom, htook.parsed, hrest, rfl⟩

/-! An internal node is allocated behind `base` (core `k1`), its left subtree laid out behind it (`kl`) and linked (`k2`), then its
right subtree laid out (`kr`) and linked. -/

section
variable {base : List Node} {x : Node} {k1 kl k2 kr : CoreState} {l r : CodeTree} (hroom : base.length < 512)
  (h1 : k1.node = base ++ [x]) (hl : kl.node = k1.node ++ l.layout k1.node.length)
  (h2 : k2 = writeNode (nextIdx base) (.internal 0#32 (nextIdx k1.node) 0) kl)
include hroom h1 hl h2

theorem node_of_left : k2.node = base ++ .internal 0#32 (nextIdx k1.node) 0 :: l.layout (base.length + 1) := by
  have hbehind : kl.node = base ++ x :: l.layout (base.length + 1) := by
    rw [hl, h1, List.length_append, List.length_singleton, List.append_assoc, List.singleton_append]
  rw [h2, writeNode_node hbehind hroom]

theorem node_length_of_left : k2.node.length = base.length + 1 + l.size := by
  rw [node_of_left hroom h1 hl h2, List.length_append, List.length_cons, CodeTree.layout_length]
  omega

/-- That is the whole tree laid out behind `base`. -/
theorem layout_of_children (hr : kr.node = k2.node ++ r.layout k2.node.length) :
    (writeNode (nextIdx base) (.internal 0#32 (nextIdx k1.node) (nextIdx k2.node)) kr).node =
      base ++ (CodeTree.node 0#32 l r).layout base.length := by
  have hlen := node_length_of_left hroom h1 hl h2
  have hidx1 : nextIdx k1.node = Fin.ofNat 512 (base.length + 1) := by
    rw [nextIdx, h1, List.length_append, List.length_singleton]
  have hidx2 : nextIdx k2.node = Fin.ofNat 512 (base.length + 1 + l.size) := congrArg _ hlen
  have hbehind : kr.node = base ++ .internal 0#32 (nextIdx k1.node) 0 ::
      (l.layout (base.length + 1) ++ r.layout (base.length + 1 + l.size)) := by
    rw [hr, hlen, node_of_left hroom h1 hl h2, List.append_assoc, List.cons_append]
  rw [writeNode_node hbehind hroom, hidx1, hidx2, CodeTree.layout]

end

/-- The tokens of a tree, read into the node memory with working I/O and room enough: `ReadNode()` lays the tree out behind the
nodes allocated before. The walk goes deeper only by allocating, so its depth is enough. -/
theorem readNode_ok {order : BitOrder} {n : Nat} {t : CodeTree} {c : Codec} {rest : List Bool} (hd : c.io.draws.allOk)
    (ho : c.params.symOrder = order) (h : c.inBits = t.bits order ++ rest) (hroom : c.core.node.length + t.size ≤ Config.nodeCap)
    (hn : Config.nodeCap < n + c.core.node.length) :
    ∃ c', readNode n c = .ok (nextIdx c.core.node) c' ∧ Parsed (t.bits order) c c' ∧
      c'.core.node = c.core.node ++ t.plain.layout c.core.node.length := by
  have hcap : Config.nodeCap = 511 := rfl
  have hpos := t.one_le_size
  induction t generalizing n c rest with
  | leaf s w ph =>
    obtain ⟨n, rfl⟩ : ∃ m, n = m + 1 := ⟨n - 1, by omega⟩
    obtain ⟨c1, hread, hparsed, hrest, hnode⟩ := readNode_begin_leaf hd h (by omega)
    obtain ⟨c2, hsymbol, htook⟩ := readSymbol_ok hparsed.draws_allOk (ho ▸ congrArg _ hparsed.params_eq) hrest
    exact ⟨_, (hread n).trans (readLeaf_ok hsymbol), hparsed.trans htook.parsed,
      writeNode_node (htook.node_eq.trans hnode) (by omega) _⟩
  | node w l r ihl ihr =>
    have hl := l.one_le_size
    have hr := r.one_le_size
    rw [CodeTree.size_node] at hroom
    obtain ⟨n, rfl⟩ : ∃ m, n = m + 1 := ⟨n - 1, by omega⟩
    obtain ⟨c1, hread, hparsed, hrest, hnode⟩ := readNode_begin_internal hd h (by omega)
    replace hrest := hrest.trans (List.append_assoc _ _ _)
    have hlen := congrArg List.length hnode
    rw [List.length_append, List.length_singleton] at hlen
    have ho1 := ho ▸ congrArg Params.symOrder hparsed.params_eq
    obtain ⟨cl, hreadl, hparsedl, hnodel⟩ := ihl (n := n) hparsed.draws_allOk ho1 hrest (by omega) (by omega) hl
    have hlenl := node_length_of_left (by omega) hnode hnodel rfl
    rw [CodeTree.size_plain] at hlenl
    obtain ⟨cr, hreadr, hparsedr, hnoder⟩ := ihr (n := n) (c := cl.mapCore (writeNode (nextIdx c.core.node)
      (.internal 0#32 (nextIdx c1.core.node) 0))) hparsedl.draws_allOk (ho1 ▸ congrArg _ hparsedl.params_eq)
      (hparsedl.inBits_eq hrest) (by rw [Codec.mapCore_core, hlenl]; omega) (by rw [Codec.mapCore_core, hlenl]; omega) hr
    exact ⟨_, (hread n).trans (readChildren_ok hreadl hreadr), hparsed.trans (hparsedl.trans hparsedr),
      layout_of_children (by omega) hnode hnodel rfl hnoder⟩

/-! ## The rule of RDTREE -/

/-- The codec when the rule of RDTREE has read the tree of root `r` and completed (43_tree_codec.md R107). -/
def Codec.treeRead (r : NodeIdx) (c : Codec) : Codec :=
  (((c.mapCore (setRoot r)).mapCore setTreeSize).mapCore setRead).mapCore setDone

theorem rdtreeBody_of_ok {c c1 : Codec} {r : NodeIdx} (h : readNode walkDepth c.unplanted = .ok r c1) :
    rdtreeBody c = .ok () (c1.treeRead r) := by
  rw [rdtreeBody, engine_bind_of_ok (modifyCore_apply _ _)]
  exact engine_bind_of_ok h

theorem rdtreeBody_of_error {c c1 : Codec} {e : Stop} (h : readNode walkDepth c.unplanted = .error e c1) :
    rdtreeBody c = .error e c1 := by
  rw [rdtreeBody, engine_bind_of_ok (modifyCore_apply _ _)]
  exact engine_bind_of_error h

/-- The codec in which the rule of RDTREE runs: the word accepted, and all validity bits cleared (10_state.md R32). -/
abbrev State.acceptedRdtree (s : State) : Codec := (s.codec.accept (encode .rdtree)).mapCore clearAll

theorem exec_rdtree {s : State} (hs : s.eng = .idle) :
    exec .rdtree s = settle (encode .rdtree) s (withErrorExit rdtreeBody s.acceptedRdtree) := issue_of_pre _ _ hs rfl

/-- RDTREE of a bit stream that goes on with a tree of at most NODE_CAP nodes, with working I/O, completes with that tree laid out
from entry 0. -/
theorem exec_rdtree_tree {s : State} {tr : CodeTree} {rest : List Bool} (hs : s.working)
    (hbits : s.codec.inBits = tr.bits s.codec.params.symOrder ++ rest) (hsize : tr.size ≤ Config.nodeCap) :
    ∃ c, exec .rdtree s = .next { s with codec := c.treeRead 0, eng := .idle } ∧
      Parsed (tr.bits s.codec.params.symOrder) s.acceptedRdtree c ∧ c.core.node = tr.plain.layout 0 := by
  obtain ⟨hidle, hdraws⟩ := hs
  obtain ⟨c, hread, hparsed, hnode⟩ := readNode_ok (n := walkDepth) (c := s.acceptedRdtree.unplanted) hdraws rfl hbits
    (by rw [show s.acceptedRdtree.unplanted.core.node = [] from rfl, List.length_nil, Nat.zero_add]; exact hsize)
    (show Config.nodeCap < walkDepth by decide)
  have hallOk : c.io.draws.allOk := hparsed.draws_allOk
  refine ⟨c, ?_, hparsed, hnode⟩
  rw [exec_rdtree hidle, withErrorExit_ok (rdtreeBody_of_ok hread)]
  exact settle_done hallOk.answered.head_ne

/-- The size registers of a tree laid out from entry 0 (10_state.md R26). -/
theorem setTreeSize_layout {k : CoreState} {t : CodeTree} (hnode : k.node = t.layout 0) (hsize : t.size ≤ Config.nodeCap) :
    (setTreeSize k).treeBits.toNat = 9 * t.leaves.length + t.internals := by
  have hfull := t.leaves_length
  rw [Config.nodeCap] at hsize
  rw [CodeTree.size] at hsize
  simp only [setTreeSize_fields, hnode, CodeTree.leafCount_layout, CodeTree.layout_length, CodeTree.size, BitVec.toNat_ofNat]
  omega

/-- Settles O50: the tokens WRTREE wrote are read back by the walk that lays their tree out, and that tree, held without weights
and marks, has the same tokens and the same decoding. -/
theorem treeCodecRoundTrip : Obligations.TreeCodecRoundTrip := by
  intro s t u tr bits rest hs hopen hvalid hholds hcap hwrite hbits hu hparams huopen hin
  obtain ⟨htree, -, hsize⟩ := hholds
  obtain rfl : tr.bits s.codec.params.symOrder = bits :=
    List.append_cancel_left ((exec_wrtree_outBits hs hopen hvalid htree hwrite).symm.trans hbits)
  rw [← hparams] at hin ⊢
  have hnodes : tr.plain.size ≤ Config.nodeCap := by rw [CodeTree.size_plain, hsize]; exact hcap
  obtain ⟨c, hread, hparsed, hnode⟩ := exec_rdtree_tree hu hin (by rw [← CodeTree.size_plain]; exact hnodes)
  have hheld : (c.treeRead 0).core.holds tr.plain := CoreState.holds_of_layout hnode rfl hnodes
  have hvopen : c.io.outClosed = false := (congrArg Streams.outClosed hparsed.io).trans huopen
  obtain ⟨x, hagain, -⟩ := exec_wrtree (s := { u with codec := c.treeRead 0, eng := .idle }) ⟨rfl, hparsed.draws_allOk⟩
    hvopen rfl hheld.1
  refine ⟨_, _, hread, hheld, hparsed.inBits_eq hin, ?_, hagain, ?_, tr.decode_plain⟩
  · rw [← CodeTree.bits_plain, CodeTree.bits_length]
    exact setTreeSize_layout hnode hnodes
  · have hwritten := exec_wrtree_outBits (s := { u with codec := c.treeRead 0, eng := .idle }) ⟨rfl, hparsed.draws_allOk⟩
      hvopen rfl hheld.1 hagain
    rw [hwritten, CodeTree.bits_plain, show (c.treeRead 0).params = u.codec.params from hparsed.params_eq]

end Sys2Proof.Machine

/-! PROOFS. TREE_BITS, and the tokens of trees of one shape (spec/43_tree_codec.md R104, R106). -/

namespace Sys2Proof.Machine

/-- A core holds at most one tree. -/
theorem CoreState.holds.unique {k : CoreState} {t t' : CodeTree} (h : k.holds t) (h' : k.holds t') : t = t' :=
  Option.some.inj (h.1.symm.trans h'.1)

/-- The bits of a built tree: a token of 9 bits for each present symbol and one bit for each of the internal nodes, one fewer; and
the placeholder's token beside a single symbol (43_tree_codec.md R104). -/
theorem leavesMatch.bits_count {freq : Table (BitVec 32)} {t : CodeTree} (h : leavesMatch freq t) :
    9 * t.leaves.length + t.internals = if presentCount freq = 1 then 19 else 10 * presentCount freq - 1 := by
  rcases h.cases with ⟨hone, s, w, -, rfl⟩ | ⟨hmany, hperm⟩
  · rw [if_pos hone]
    rfl
  · have hleaves : t.leaves.length = presentCount freq := by
      rw [hperm.length_eq, presentEntries, List.length_map, presentSymbols_length]
    have hfull := t.leaves_length
    rw [if_neg hmany]
    omega

/-- TREE_BITS of a built tree, by the invariant of the machine (43_tree_codec.md R104). -/
theorem Codec.Inv.treeBits_of_built {c : Codec} (h : c.Inv) (hbuilt : c.core.status.treeBuilt = true) :
    c.core.treeBits.toNat = if c.core.nsym.toNat = 1 then 19 else 10 * c.core.nsym.toNat - 1 := by
  obtain ⟨⟨⟨-, hchain⟩, -, -⟩, -, ⟨-, htree⟩, hcounted, hderived⟩ := h
  obtain ⟨hvalid, hfreq⟩ := hchain hbuilt
  obtain ⟨-, hnsym⟩ := hcounted hfreq
  obtain ⟨t, hholds, -, -, htreeBits⟩ := htree hvalid
  obtain ⟨t', hholds', ⟨-, -, hleaves⟩, -⟩ := hderived hbuilt
  obtain rfl := hholds.unique hholds'
  rw [htreeBits, hnsym, hleaves.bits_count]

/-- Settles O45: the bits written are the held tree's tokens, whose number the invariant puts in TREE_BITS and which say nothing of
weights and marks. -/
theorem wrtreeBitsDependOnTheShapeAlone : Obligations.WrtreeBitsDependOnTheShapeAlone := by
  constructor
  · intro s t hinv hs hopen hvalid hexec
    obtain ⟨hcodec, -⟩ := hinv
    have hbuilt := Codec.Inv.treeBits_of_built hcodec
    obtain ⟨-, -, ⟨-, htree⟩, -⟩ := hcodec
    obtain ⟨tr, hholds, hnleaves, hninternal, htreeBits⟩ := htree hvalid
    refine ⟨?_, by rw [htreeBits, hnleaves, hninternal], hbuilt⟩
    rw [exec_wrtree_outBits hs hopen hvalid hholds.1 hexec, List.length_append, CodeTree.bits_length, htreeBits]
  · intro s1 s2 t1 t2 tr1 tr2 hs1 hs2 hopen1 hopen2 hvalid1 hvalid2 htree1 htree2 hplain hparams hexec1 hexec2
    refine ⟨tr1.bits s1.codec.params.symOrder, exec_wrtree_outBits hs1 hopen1 hvalid1 htree1 hexec1, ?_⟩
    rw [exec_wrtree_outBits hs2 hopen2 hvalid2 htree2 hexec2, ← CodeTree.bits_plain, ← hplain, CodeTree.bits_plain, hparams]

end Sys2Proof.Machine

/-! PROOFS. RDTREE of a bit stream that ends inside the tree (spec/43_tree_codec.md R108). -/

namespace Sys2Proof.Machine

/-! ## Where the bit stream ends -/

/-- A token bit where none is left. -/
theorem treeBit_end {c : Codec} (hin : c.io.ipos ≤ c.io.input.length) (h : c.inBits = []) :
    treeBit c = .error (.raise .truncatedTree) c := by
  rw [treeBit, engine_bind_of_ok (bitAtEnd_apply c), (bitAtEnd_iff hin).2 h]
  rfl

/-- A symbol with fewer bits left than it has. -/
theorem readSymbolFrom_truncated {k n : Nat} {a : Byte} {c : Codec} (hd : c.io.draws.allOk)
    (hin : c.io.ipos ≤ c.io.input.length) (h : c.inBits.length < n) :
    ∃ c', readSymbolFrom k n a c = .error (.raise .truncatedTree) c' ∧ Took c.inBits c c' := by
  induction n generalizing k a c with
  | zero => exact absurd h (Nat.not_lt_zero _)
  | succ n ih =>
    rw [readSymbolFrom, engine_bind_of_ok (getParams_apply c)]
    cases hbits : c.inBits with
    | nil => exact ⟨c, engine_bind_of_error (treeBit_end hin hbits), .refl hd⟩
    | cons b rest =>
      rw [hbits, List.length_cons] at h
      obtain ⟨c1, hbit, htook, hrest⟩ := treeBit_ok hd hbits
      obtain ⟨c2, hsymbol, htook2⟩ := ih (k := k + 1) htook.draws (htook.within hin) (by rw [hrest]; omega)
      rw [hrest] at htook2
      exact ⟨c2, (engine_bind_of_ok hbit).trans hsymbol, htook.trans htook2⟩

theorem readNode_end {n : Nat} {c : Codec} (hin : c.io.ipos ≤ c.io.input.length) (h : c.inBits = []) :
    readNode (n + 1) c = .error (.raise .truncatedTree) c := by
  rw [readNode]
  exact engine_bind_of_error (treeBit_end hin h)

/-- Two bit strings that agree to the end of `rest`, split at the end of `l`: `rest` ends inside `l`, or goes on behind it. -/
theorem split_tokens {rest more l r : List Bool} (h : rest ++ more = l ++ r) :
    (∃ more', more' ≠ [] ∧ rest ++ more' = l) ∨ ∃ rest', rest = l ++ rest' ∧ rest' ++ more = r := by
  rcases List.append_eq_append_iff.1 h with ⟨as, hl, hm⟩ | ⟨bs, hr, hm⟩
  · by_cases has : as = []
    · exact .inr ⟨[], by simp [hl, has], by simp [hm, has]⟩
    · exact .inl ⟨as, has, hl.symm⟩
  · exact .inr ⟨bs, hr, hm.symm⟩

/-- The tokens left end inside the tree, before more nodes have begun than there is room for: `ReadNode()` raises TRUNCATED_TREE,
a node being allocated for each structure bit. -/
theorem readNode_truncated {order : BitOrder} {n : Nat} {t : CodeTree} {c : Codec} {bits more : List Bool}
    (hd : c.io.draws.allOk) (hin : c.io.ipos ≤ c.io.input.length) (ho : c.params.symOrder = order) (h : c.inBits = bits)
    (hbits : bits ++ more = t.bits order) (hmore : more ≠ [])
    (hroom : c.core.node.length + t.nodesBegun bits.length ≤ Config.nodeCap) (hn : Config.nodeCap < n + c.core.node.length) :
    ∃ c', readNode n c = .error (.raise .truncatedTree) c' ∧ Parsed bits c c' ∧
      c'.core.node.length = c.core.node.length + t.nodesBegun bits.length := by
  have hcap : Config.nodeCap = 511 := rfl
  induction t generalizing n c bits more with
  | leaf s w ph =>
    obtain ⟨n, rfl⟩ : ∃ m, n = m + 1 := ⟨n - 1, by omega⟩
    cases bits with
    | nil => exact ⟨c, readNode_end hin h, (Took.refl hd).parsed, by simp⟩
    | cons b rest =>
      rw [CodeTree.bits, List.cons_append, List.cons.injEq] at hbits
      obtain ⟨rfl, hsymbol⟩ := hbits
      rw [List.length_cons, CodeTree.nodesBegun_leaf] at hroom ⊢
      obtain ⟨c1, hread, hparsed, hrest, hnode⟩ := readNode_begin_leaf hd h (by omega)
      have hshort : rest.length < 8 := by
        have hlen := congrArg List.length hsymbol
        have hpos := List.length_pos_iff.2 hmore
        simp only [List.length_append, symbolBits, List.length_map, List.length_range] at hlen
        omega
      obtain ⟨c2, herror, htook⟩ := readSymbolFrom_truncated (k := 0) (n := 8) (a := 0#8) hparsed.draws_allOk
        (hparsed.within hin) (by rwa [hrest])
      rw [hrest] at htook
      refine ⟨c2, (hread n).trans (engine_bind_of_error herror), hparsed.trans htook.parsed, ?_⟩
      rw [htook.node_eq, hnode, List.length_append, List.length_singleton]
  | node w l r ihl ihr =>
    obtain ⟨n, rfl⟩ : ∃ m, n = m + 1 := ⟨n - 1, by omega⟩
    cases bits with
    | nil => exact ⟨c, readNode_end hin h, (Took.refl hd).parsed, by simp⟩
    | cons b rest =>
      rw [CodeTree.bits, List.cons_append, List.cons.injEq] at hbits
      obtain ⟨rfl, hchildren⟩ := hbits
      rw [List.length_cons, CodeTree.nodesBegun_node w l r order] at hroom ⊢
      obtain ⟨c1, hread, hparsed, hrest, hnode⟩ := readNode_begin_internal hd h (by omega)
      have hlen := congrArg List.length hnode
      rw [List.length_append, List.length_singleton] at hlen
      have ho1 := ho ▸ congrArg Params.symOrder hparsed.params_eq
      rcases split_tokens hchildren with ⟨more', hmore', hl⟩ | ⟨rest', rfl, hr⟩
      · have hlate : rest.length - (l.bits order).length = 0 := by
          rw [← hl, List.length_append]
          omega
        rw [hlate, CodeTree.nodesBegun_zero] at hroom ⊢
        obtain ⟨c2, herror, hparsed2, hlen2⟩ := ihl (n := n) hparsed.draws_allOk (hparsed.within hin) ho1 hrest hl hmore'
          (by omega) (by omega)
        exact ⟨c2, (hread n).trans (engine_bind_of_error herror), hparsed.trans hparsed2, by omega⟩
      · rw [List.length_append, Nat.add_sub_cancel_left, CodeTree.nodesBegun_bits order l (Nat.le_add_right _ _)] at hroom ⊢
        obtain ⟨cl, hreadl, hparsedl, hnodel⟩ := readNode_ok (n := n) hparsed.draws_allOk ho1 hrest (by omega) (by omega)
        have hlenl := congrArg List.length hnodel
        rw [List.length_append, CodeTree.layout_length, CodeTree.size_plain] at hlenl
        obtain ⟨cr, herror, hparsedr, hlenr⟩ := ihr (n := n) (c := cl.mapCore (writeNode (nextIdx c.core.node)
          (.internal 0#32 (nextIdx c1.core.node) 0))) hparsedl.draws_allOk (hparsedl.within (hparsed.within hin))
          (ho1 ▸ congrArg _ hparsedl.params_eq) (hparsedl.inBits_eq hrest) hr hmore
          (by simp; omega) (by simp; omega)
        simp only [Codec.mapCore_core, writeNode_fields, List.length_set] at hlenr
        refine ⟨cr, ?_, hparsed.trans (hparsedl.trans hparsedr), by omega⟩
        rw [hread n, readChildren, engine_bind_of_ok hreadl, engine_bind_of_ok (modifyCore_apply _ _)]
        exact engine_bind_of_error herror

/-! ## The rule of RDTREE -/

/-- The error exit does not touch the input (60_exceptions.md R138). -/
theorem errorExit_input (e : ErrCode) :
    Keeps (fun c c' => (c'.io.input, c'.io.ipos) = (c.io.input, c.io.ipos)) (errorExit e) := by
  have hR := composes_of_view fun c => (c.io.input, c.io.ipos)
  exact hR.keeps_errorExit (fun _ _ => rfl)
    (hR.keeps_tryBitWrite (hR.keeps_tryWrite (fun _ => rfl) fun _ _ => rfl) (fun _ _ => rfl) (fun _ => rfl) fun _ => rfl)
    (fun _ => rfl) (hR.keeps_tryClose (fun _ => rfl) fun _ => rfl) e

/-- An error in the reading of the tree, with working I/O, ends RDTREE with that error: the output is closed, and the rest is as the
reading left it, but for the packer. -/
theorem exec_rdtree_raise {s : State} {e : ErrCode} {c : Codec} (hs : s.eng = .idle)
    (h : readNode walkDepth s.acceptedRdtree.unplanted = .error (.raise e) c) (hd : c.io.draws.allOk) :
    ∃ c', exec .rdtree s = .next { s with codec := c', eng := .idle } ∧ c'.core.unpacked = (setError e c.core).unpacked ∧
      c'.io.input = c.io.input ∧ c'.io.ipos = c.io.ipos ∧ c'.io.outClosed = true := by
  obtain ⟨c', hexit, hcore, hclosed, hdone⟩ := errorExit_working e hd
  obtain ⟨hinput, hipos⟩ := Prod.mk.inj ((errorExit_input e).of_ok hexit)
  refine ⟨c', ?_, hcore, hinput, hipos, hclosed⟩
  rw [exec_rdtree hs, withErrorExit, rdtreeBody_of_error (c := s.acceptedRdtree) h]
  change settle _ _ (errorExit e c) = _
  rw [hexit]
  exact settle_done hdone.answered.head_ne

/-- Settles O47: the walk takes every bit left, allocating a node for each structure bit, and raises TRUNCATED_TREE at the next. -/
theorem truncatedTreeIsReported : Obligations.TruncatedTreeIsReported := by
  intro s tr hs hin hbits hne hbegun
  obtain ⟨hidle, hdraws⟩ := hs
  obtain ⟨more, hmore⟩ := hbits
  have hleft : more ≠ [] := by
    rintro rfl
    exact hne (by rw [← hmore, List.append_nil])
  obtain ⟨c, herror, hparsed, hnodes⟩ := readNode_truncated (n := walkDepth) (c := s.acceptedRdtree.unplanted) hdraws hin rfl
    (bits := s.codec.inBits) rfl hmore hleft (show 0 + _ ≤ 511 by rwa [Nat.zero_add])
    (show Config.nodeCap < walkDepth by decide)
  obtain ⟨c', hexec, hcore, hinput, hipos, hclosed⟩ := exec_rdtree_raise hidle herror hparsed.draws_allOk
  have hend : c.bitAtEnd = true :=
    (bitAtEnd_iff (hparsed.within hin)).2 (hparsed.inBits_eq (List.append_nil s.codec.inBits).symm)
  simp only [Codec.bitAtEnd, Streams.atEnd, Bool.and_eq_true, beq_iff_eq] at hend
  obtain ⟨hibits, hlast⟩ := hend
  have hkept := hcore
  rw [hparsed.core_eq] at hkept
  have hstatus : c'.core.status = (setError .truncatedTree s.acceptedRdtree.core).status := (congrArg CoreState.status hkept :)
  have hwhole : c.io.input = s.codec.io.input := (congrArg Streams.input hparsed.io :)
  refine ⟨_, hexec, ⟨rfl, by rw [hstatus]; rfl, by rw [hstatus]; rfl, by rw [hstatus]; rfl⟩, by rw [hstatus]; rfl, ?_,
    congrArg CoreState.nleaves hkept, congrArg CoreState.ninternal hkept, congrArg CoreState.treeBits hkept,
    (congrArg CoreState.ibits hcore).trans (Fin.ext hibits), ?_, hclosed⟩
  · exact (congrArg (fun k => k.node.length) hcore).trans (hnodes.trans (Nat.zero_add _))
  · rw [hipos, hlast, hwhole]

end Sys2Proof.Machine

/-! PROOFS. The numbering of a completed RDTREE and of a completed BUILD (spec/43_tree_codec.md R110, R111). -/

namespace Sys2Proof.Machine

/-! ## Commands that complete -/

/-- A rule runs to its end, or its error is taken. -/
theorem withErrorExit_cases {body : EngineM Unit} {c c' : Codec} (h : withErrorExit body c = .ok () c') :
    body c = .ok () c' ∨ ∃ e c1, body c = .error (.raise e) c1 ∧ errorExit e c1 = .ok () c' := by
  unfold withErrorExit at h
  split at h
  · rename_i c1 hbody
    cases h
    exact .inl hbody
  · rename_i e c1 hbody
    exact .inr ⟨e, c1, hbody, h⟩
  · cases h

/-- A settled run that left ENG idle ran to its end. -/
theorem settle_idle {w : Word} {s t : State} {r : EStateM.Result Halt Codec Unit} (h : settle w s r = .next t)
    (ht : t.eng = .idle) : r = .ok () t.codec := by
  rcases settle_next h with ⟨c, hr, rfl⟩ | ⟨c, ds, -, -, rfl⟩ | ⟨c, x, -, rfl⟩
  · exact hr
  · cases ht
  · cases ht

/-- DONE is the same before and after. -/
def SameDone (c c' : Codec) : Prop := c'.core.status.done = c.core.status.done

theorem composes_sameDone : Composes SameDone := composes_of_view fun c => c.core.status.done

/-- The error exit does not set DONE (60_exceptions.md R138). -/
theorem sameDone_errorExit (e : ErrCode) : Keeps SameDone (errorExit e) :=
  composes_sameDone.keeps_errorExit (fun _ _ => rfl)
    (composes_sameDone.keeps_tryBitWrite (composes_sameDone.keeps_tryWrite (fun _ => rfl) fun _ _ => rfl) (fun _ _ => rfl)
      (fun _ => rfl) fun _ => rfl)
    (fun _ => rfl) (composes_sameDone.keeps_tryClose (fun _ => rfl) fun _ => rfl) e

/-- A rule that leaves DONE alone up to an error sets it only by running to its end. -/
theorem withErrorExit_done {body : EngineM Unit} {c c' : Codec} (h : withErrorExit body c = .ok () c')
    (hstart : c.core.status.done = false) (hdone : c'.core.status.done = true)
    (herror : ∀ e c1, body c = .error e c1 → SameDone c c1) : body c = .ok () c' := by
  rcases withErrorExit_cases h with hbody | ⟨e, c1, hbody, hexit⟩
  · exact hbody
  · have hkept : c'.core.status.done = c.core.status.done := ((sameDone_errorExit e).of_ok hexit).trans (herror _ _ hbody)
    rw [hdone, hstart] at hkept
    cases hkept

/-! ## RDTREE -/

/-- NODE and ROOT are the same before and after. -/
def SameTree (c c' : Codec) : Prop := (c'.core.node, c'.core.root) = (c.core.node, c.core.root)

theorem composes_sameTree : Composes SameTree := composes_of_view fun c => (c.core.node, c.core.root)

theorem SameTree.node_eq {c c' : Codec} (h : SameTree c c') : c'.core.node = c.core.node := (Prod.mk.inj h).1

theorem SameTree.root_eq {c c' : Codec} (h : SameTree c c') : c'.core.root = c.core.root := (Prod.mk.inj h).2

theorem sameTree_bitRead : Keeps SameTree bitRead :=
  composes_sameTree.keeps_bitRead (composes_sameTree.keeps_binRead (fun _ => rfl) fun _ => rfl) (fun _ _ => rfl) fun _ => rfl

theorem readChildren_inv {n : Nat} {i j : NodeIdx} {c c' : Codec} (h : readChildren n i c = .ok j c') :
    ∃ il cl ir cr, readNode n c = .ok il cl ∧ readNode n (cl.mapCore (writeNode i (.internal 0#32 il 0))) = .ok ir cr ∧
      j = i ∧ c' = cr.mapCore (writeNode i (.internal 0#32 il ir)) := by
  obtain ⟨il, cl, hl, h⟩ := engine_bind_ok.1 h
  rw [engine_bind_of_ok (modifyCore_apply _ _)] at h
  obtain ⟨ir, cr, hr, h⟩ := engine_bind_ok.1 h
  rw [engine_bind_of_ok (modifyCore_apply _ _)] at h
  cases h
  exact ⟨il, cl, ir, cr, hl, hr, rfl, rfl⟩

theorem readLeaf_inv {i j : NodeIdx} {c c' : Codec} (h : readLeaf i c = .ok j c') :
    ∃ s c1, readSymbol c = .ok s c1 ∧ j = i ∧ c' = c1.mapCore (writeNode i (.leaf s 0#32 false)) := by
  obtain ⟨s, c1, hsymbol, h⟩ := engine_bind_ok.1 h
  rw [engine_bind_of_ok (modifyCore_apply _ _)] at h
  cases h
  exact ⟨s, c1, hsymbol, rfl, rfl⟩

/-- Whatever the environment does, a `ReadNode()` that ends lays some tree out behind the nodes allocated before. -/
theorem readNode_layout {n : Nat} {i : NodeIdx} {c c' : Codec} (h : readNode n c = .ok i c')
    (hroom : c.core.node.length ≤ Config.nodeCap) :
    i = nextIdx c.core.node ∧ ∃ t : CodeTree, c'.core.node = c.core.node ++ t.plain.layout c.core.node.length ∧
      c.core.node.length + t.size ≤ Config.nodeCap := by
  have hcap : Config.nodeCap = 511 := rfl
  induction n generalizing i c c' with
  | zero => cases h
  | succ n ih =>
    have hstart := h
    rw [readNode] at hstart
    obtain ⟨b, c1, hbit, -⟩ := engine_bind_ok.1 hstart
    have hnode : c1.core.node = c.core.node := ((composes_sameTree.keeps_treeBit sameTree_bitRead).of_ok hbit).node_eq
    by_cases hfull : c1.core.node.length = Config.nodeCap
    · rw [readNode_full hbit hfull] at h
      cases h
    rw [← hnode] at hroom ⊢
    cases b with
    | false =>
      rw [readNode_leaf hbit (by omega)] at h
      obtain ⟨s, c2, hsymbol, rfl, rfl⟩ := readLeaf_inv h
      have hkept : c2.core.node = c1.core.node ++ [.leaf 0#8 0#32 false] :=
        ((composes_sameTree.keeps_readSymbolFrom sameTree_bitRead 0 8 0#8).of_ok hsymbol).node_eq
      exact ⟨rfl, .leaf s 0#32 false, writeNode_node hkept (by omega) _, Nat.lt_of_le_of_ne hroom hfull⟩
    | true =>
      rw [readNode_internal hbit (by omega)] at h
      obtain ⟨il, cl, ir, cr, hl, hr, rfl, rfl⟩ := readChildren_inv h
      have hgrown : (growNode (.internal 0#32 0 0) c1.core).node.length = c1.core.node.length + 1 := List.length_append
      obtain ⟨rfl, l, hnodel, hrooml⟩ := ih hl (by rw [Codec.mapCore_core, hgrown]; omega)
      have hlenl := node_length_of_left (by omega) rfl hnodel rfl
      rw [Codec.mapCore_core, hgrown] at hrooml
      rw [CodeTree.size_plain] at hlenl
      obtain ⟨rfl, r, hnoder, hroomr⟩ := ih hr (by rw [Codec.mapCore_core, hlenl]; omega)
      rw [Codec.mapCore_core, hlenl] at hroomr
      exact ⟨rfl, .node 0#32 l r, layout_of_children (by omega) rfl hnodel rfl hnoder, by rw [CodeTree.size_node]; omega⟩

/-- An RDTREE that completes leaves a tree without weights laid out from entry 0, its root. -/
theorem exec_rdtree_layout {s t : State} (hs : s.eng = .idle) (h : exec .rdtree s = .next t) (ht : t.eng = .idle)
    (hdone : t.codec.core.status.done = true) : ∃ tr : CodeTree, t.codec.core.root = 0 ∧
      t.codec.core.node = tr.plain.layout 0 ∧ tr.plain.size ≤ Config.nodeCap := by
  rw [exec_rdtree hs] at h
  have hbody : rdtreeBody s.acceptedRdtree = .ok () t.codec := by
    refine withErrorExit_done (settle_idle h ht) rfl hdone fun e c1 herror => ?_
    cases hread : readNode walkDepth s.acceptedRdtree.unplanted with
    | ok r c =>
      rw [rdtreeBody_of_ok hread] at herror
      cases herror
    | error e' c =>
      rw [rdtreeBody_of_error hread] at herror
      cases herror
      have hbits : Keeps SameDone bitRead := composes_sameDone.keeps_bitRead
        (composes_sameDone.keeps_binRead (fun _ => rfl) fun _ => rfl) (fun _ _ => rfl) fun _ => rfl
      exact (composes_sameDone.keeps_readNode hbits (fun _ => rfl) (fun _ _ _ => rfl) _).of_error hread
  cases hread : readNode walkDepth s.acceptedRdtree.unplanted with
  | error e c =>
    rw [rdtreeBody_of_error hread] at hbody
    cases hbody
  | ok r c =>
    obtain ⟨rfl, tr, hnode, hroom⟩ := readNode_layout hread (Nat.zero_le _)
    obtain ⟨-, hcodec⟩ := EStateM.Result.ok.inj ((rdtreeBody_of_ok hread).symm.trans hbody)
    rw [← hcodec]
    refine ⟨tr, rfl, hnode, ?_⟩
    rw [CodeTree.size_plain]
    exact Nat.le_trans (Nat.le_add_left _ _) hroom

/-- RDTREE numbers its nodes in pre-order from 0, and their weights are 0 (43_tree_codec.md R110, R111). -/
theorem rdtree_numbering {s t : State} (hs : s.eng = .idle) (h : exec .rdtree s = .next t) (ht : t.eng = .idle)
    (hdone : t.codec.core.status.done = true) :
    t.codec.core.root.val = 0 ∧ (∀ n ∈ t.codec.core.node, n.weight = 0#32) ∧
    treeIndices t.codec.core.node walkDepth t.codec.core.root = List.range t.codec.core.node.length ∧
    ∀ (i : Nat) (w : BitVec 32) (l r : NodeIdx), t.codec.core.node[i]? = some (.internal w l r) → i < l.val ∧ i < r.val := by
  obtain ⟨tr, hroot, hnode, hsize⟩ := exec_rdtree_layout hs h ht hdone
  rw [hroot, hnode, CodeTree.layout_length]
  refine ⟨rfl, fun n hn => CodeTree.weight_of_mem_layout_plain hn, (CodeTree.treeOf_layout_zero hsize).2, fun i w l r hi => ?_⟩
  rw [Config.nodeCap] at hsize
  have habove := CodeTree.children_above_layout (by omega) hi
  rwa [Nat.zero_add] at habove

/-! ## BUILD -/

/-- Every internal node stands above its children. -/
def ChildrenBelow (nodes : List Node) : Prop :=
  ∀ (i : Nat) (w : BitVec 32) (l r : NodeIdx), nodes[i]? = some (.internal w l r) → l.val < i ∧ r.val < i

theorem childrenBelow_append_leaf {nodes : List Node} {s : Byte} {w : BitVec 32} {ph : Bool} (h : ChildrenBelow nodes) :
    ChildrenBelow (nodes ++ [.leaf s w ph]) := by
  intro i v l r hi
  rw [List.getElem?_append] at hi
  split at hi
  · exact h i v l r hi
  · cases hj : i - nodes.length <;> simp [hj] at hi

theorem childrenBelow_append_internal {nodes : List Node} {w : BitVec 32} {l r : NodeIdx} (h : ChildrenBelow nodes)
    (hl : l.val < nodes.length) (hr : r.val < nodes.length) : ChildrenBelow (nodes ++ [.internal w l r]) := by
  intro i v l' r' hi
  rw [List.getElem?_append] at hi
  split at hi
  · exact h i v l' r' hi
  · cases hj : i - nodes.length with
    | zero =>
      simp only [hj, List.getElem?_cons_zero, Option.some.injEq, Node.internal.injEq] at hi
      obtain ⟨-, rfl, rfl⟩ := hi
      omega
    | succ j => simp [hj] at hi

/-- The working collection numbers children first, and its slots hold allocated nodes. -/
structure Forest.Numbered (f : Forest) : Prop where
  pos : 0 < f.nodes.length
  below : ChildrenBelow f.nodes
  slots : ∀ i ∈ f.slots, i.val < f.nodes.length

namespace Forest.Numbered
variable {f : Forest} (h : f.Numbered)
include h

/-- A slot holds an allocated node; outside the slots, node 0 is read. -/
theorem slot_lt (k : Nat) : (f.slot k).val < f.nodes.length := by
  rw [Forest.slot, List.getD_eq_getElem?_getD]
  cases hk : f.slots[k]? with
  | none => exact h.pos
  | some i => exact h.slots i (List.mem_of_getElem? hk)

theorem merge : f.merge.Numbered := by
  rw [Forest.merge_eq_joinAt]
  refine ⟨by simp, childrenBelow_append_internal h.below (h.slot_lt _) (h.slot_lt _), fun i hi => ?_⟩
  rw [Forest.joinAt_nodes, List.length_append, List.length_singleton]
  rcases List.mem_or_eq_of_mem_set (List.mem_of_mem_dropLast hi) with hi | rfl
  · rcases List.mem_or_eq_of_mem_set hi with hi | rfl
    · exact Nat.lt_succ_of_lt (h.slots i hi)
    · exact Nat.lt_succ_of_le (Nat.mod_le _ _)
  · exact Nat.lt_succ_of_lt (h.slot_lt _)

theorem mergeLoop (n : Nat) : (Machine.mergeLoop n f).Numbered := by
  induction n generalizing f with
  | zero => exact h
  | succ n ih =>
    rw [Machine.mergeLoop]
    split
    · exact ih h.merge
    · exact h

/-- The root, and the placeholder with it, keep children first. -/
theorem rootJoin : ChildrenBelow (Machine.rootJoin f) := by
  rw [Machine.rootJoin]
  split
  · exact childrenBelow_append_internal h.below (h.slot_lt _) (h.slot_lt _)
  · rw [← List.singleton_append, ← List.append_assoc]
    refine childrenBelow_append_internal (childrenBelow_append_leaf h.below) ?_ ?_
    · rw [List.length_append]
      exact Nat.lt_add_right _ (h.slot_lt 0)
    · rw [List.length_append]
      exact Nat.lt_succ_of_le (Nat.mod_le _ _)

end Forest.Numbered

theorem startForest_numbered {freq : Table (BitVec 32)} (h : presentCount freq ≠ 0) : (startForest freq).Numbered := by
  have hpos : 0 < (presentSymbols freq).length := by rw [presentSymbols_length]; omega
  rw [startForest_eq]
  refine ⟨by simpa using hpos, fun i w l r hi => ?_, fun i hi => ?_⟩
  · simp at hi
  · obtain ⟨k, hk, rfl⟩ := List.mem_map.1 hi
    rw [List.length_map]
    exact Nat.lt_of_le_of_lt (Nat.mod_le _ _) (List.mem_range.1 hk)

/-- The rule of BUILD raises its error with DONE as it was, and completes with the nodes it built. -/
theorem buildBody_cases (c : Codec) :
    (∃ c', buildBody c = .error (.raise .emptyInput) c' ∧ SameDone c c') ∨
    (presentCount c.core.freq ≠ 0 ∧ buildBody c = .ok () (c.built (builtForest c.core.freq))) := by
  by_cases hp : presentCount c.core.freq = 0
  · exact .inl ⟨_, buildBody_none (buildForest_none hp), rfl⟩
  · exact .inr ⟨hp, buildBody_some (buildForest_some hp)⟩

/-- BUILD numbers children below their parents (43_tree_codec.md R111). -/
theorem build_numbering {s t : State} (hs : s.eng = .idle) (h : exec .build s = .next t) (ht : t.eng = .idle)
    (hdone : t.codec.core.status.done = true) : ChildrenBelow t.codec.core.node := by
  cases hv : s.codec.core.status.freqValid with
  | false =>
    have hrun : exec .build s = settle (encode .build) s (.ok () (preciseError .sequence (s.codec.accept (encode .build)))) :=
      issue_of_not_pre (pre := preBuild) clearDerived buildBody hs hv
    rw [hrun] at h
    obtain ⟨-, hcodec⟩ := EStateM.Result.ok.inj (settle_idle h ht)
    rw [← hcodec] at hdone
    cases hdone
  | true =>
    rw [exec_build hs hv] at h
    rcases buildBody_cases s.acceptedBuild with ⟨c1, herror, hkept⟩ | ⟨hp, hok⟩
    · have hbody := withErrorExit_done (settle_idle h ht) rfl hdone fun e c2 he => by
        rw [herror] at he
        cases he
        exact hkept
      rw [herror] at hbody
      cases hbody
    · rw [withErrorExit_ok hok] at h
      obtain ⟨-, hcodec⟩ := EStateM.Result.ok.inj (settle_idle h ht)
      rw [← hcodec]
      exact ((startForest_numbered hp).mergeLoop _).rootJoin

end Sys2Proof.Machine

/-! PROOFS. DECODE on a held tree is DECODE on the tree (spec/44_stream_codec.md R118 to R120): the loops of DECODE, said without the
node memory. -/

namespace Sys2Proof.Machine

theorem sameTree_boutWrite (b : Byte) : Keeps SameTree (boutWrite b) :=
  composes_sameTree.keeps_boutWrite (composes_sameTree.keeps_tryWrite (fun _ => rfl) (fun _ _ => rfl) b)

/-- Two computations that do the same, and then go on alike from whatever they end in. -/
theorem engine_bind_congr {ε α β : Type} {x y : EStateM ε Codec α} {f g : α → EStateM ε Codec β} {c : Codec} (hxy : x c = y c)
    (h : ∀ a c', x c = .ok a c' → f a c' = g a c') : (x >>= f) c = (y >>= g) c := by
  cases hx : x c with
  | ok a c' => rw [engine_bind_of_ok hx, engine_bind_of_ok (hxy.symm.trans hx), h a c' hx]
  | error e c' => rw [engine_bind_of_error hx, engine_bind_of_error (hxy.symm.trans hx)]

/-- The inner loop of DECODE from the root of `t` (44_stream_codec.md R118, R119). -/
def descendTree (n : Nat) (t : CodeTree) : EngineM (Option Byte) :=
  match t with
  | .leaf s _ _ => pure (some s)
  | .node _ l r => do
    if ← bitAtEnd then pure none
    else
      match n with
      | 0 => crash .loopBound
      | n + 1 => do
        let b ← bitRead
        descendTree n (if b then r else l)

/-- The outer loop of DECODE on the tree `t` (44_stream_codec.md R118). -/
def decodeTreeLoop (t : CodeTree) (n : Nat) : EngineM Unit := do
  if ← bitAtEnd then pure ()
  else
    match n with
    | 0 => crash .loopBound
    | n + 1 => do
      match ← descendTree (n + 1) t with
      | none => modifyCore setTail
      | some s => do
        boutWrite s
        modifyCore countSymbol
        decodeTreeLoop t n

/-- The rule of DECODE on the tree `t` (44_stream_codec.md R118, R120). -/
def decodeTreeBody (t : CodeTree) : EngineM Unit := do
  modifyCore fun k => { k with decSyms := 0#64 }
  let c ← get
  if t.isNode then do
    decodeTreeLoop t c.bitsLeft
    complete
  else raise .degenerateTree

/-- A descent in a node memory that holds a tree is the descent of that tree. -/
theorem descend_of_tree {n m : Nat} {i : NodeIdx} {t : CodeTree} {c : Codec} (h : treeOf c.core.node m i = some t) :
    descend n i c = descendTree n t c := by
  induction n generalizing m i t c with
  | zero =>
    cases m with
    | zero => simp at h
    | succ m =>
      unfold descend descendTree
      rw [engine_bind_of_ok (getCore_apply c)]
      rcases treeOf_succ h with ⟨s, w, ph, hn, rfl⟩ | ⟨w, l, r, tl, tr, hn, -, -, rfl⟩
      · rw [hn]
      · rw [hn]
  | succ n ih =>
    cases m with
    | zero => simp at h
    | succ m =>
      unfold descend descendTree
      rw [engine_bind_of_ok (getCore_apply c)]
      rcases treeOf_succ h with ⟨s, w, ph, hn, rfl⟩ | ⟨w, l, r, tl, tr, hn, hl, hr, rfl⟩
      · rw [hn]
      · rw [hn]
        refine engine_bind_congr rfl fun e c1 he => ?_
        cases he
        split
        · rfl
        · refine engine_bind_congr rfl fun b c2 hb => ih (m := m) ?_
          rw [(sameTree_bitRead.of_ok hb).node_eq]
          cases b with
          | true => exact hr
          | false => exact hl

theorem decodeLoop_of_tree {n : Nat} {t : CodeTree} {c : Codec} (h : treeOf c.core.node walkDepth c.core.root = some t) :
    decodeLoop n c = decodeTreeLoop t n c := by
  induction n generalizing c with
  | zero => rw [decodeLoop, decodeTreeLoop]
  | succ n ih =>
    rw [decodeLoop, decodeTreeLoop]
    refine engine_bind_congr rfl fun e c1 he => ?_
    cases he
    split
    · rfl
    · rw [engine_bind_of_ok (getCore_apply c)]
      refine engine_bind_congr (descend_of_tree h) fun leaf c1 hleaf => ?_
      have hdescend := (composes_sameTree.keeps_descend sameTree_bitRead _ _).of_ok hleaf
      cases leaf with
      | none => rfl
      | some s =>
        refine engine_bind_congr rfl fun _ c2 hwrite => ?_
        rw [engine_bind_of_ok (modifyCore_apply _ _), engine_bind_of_ok (modifyCore_apply _ _)]
        have hkept : SameTree c c2 := composes_sameTree.trans hdescend ((sameTree_boutWrite s).of_ok hwrite)
        refine ih ?_
        change treeOf c2.core.node walkDepth c2.core.root = some t
        rw [hkept.node_eq, hkept.root_eq, h]

theorem decodeBody_of_tree {t : CodeTree} {c : Codec} (h : treeOf c.core.node walkDepth c.core.root = some t) :
    decodeBody c = decodeTreeBody t c := by
  rw [decodeBody, decodeTreeBody]
  refine engine_bind_congr rfl fun _ c1 hzero => ?_
  cases hzero
  rw [engine_bind_of_ok (get_apply _), engine_bind_of_ok (get_apply _)]
  rcases treeOf_succ h with ⟨s, w, ph, hn, rfl⟩ | ⟨w, l, r, tl, tr, hn, -, -, rfl⟩
  · simp only [Codec.mapCore_core, hn]
    rfl
  · simp only [Codec.mapCore_core, hn]
    exact engine_bind_congr (decodeLoop_of_tree h) fun _ _ _ => rfl

end Sys2Proof.Machine

/-! PROOFS. No command shows where the tree stands in the node memory (spec/43_tree_codec.md R111): from two codecs that differ in NODE
and ROOT alone, holding one tree, a computation does the same. -/

namespace Sys2Proof.Machine

/-! ## Two runs -/

/-- The core with its node memory changed by `p` and its root put at `r`. -/
def CoreState.replant (p : List Node → List Node) (r : NodeIdx) (k : CoreState) : CoreState :=
  { k with node := p k.node, root := r }

/-- The codec with its core so changed. -/
def Codec.replant (p : List Node → List Node) (r : NodeIdx) (c : Codec) : Codec := c.mapCore (CoreState.replant p r)

/-- `d` is `c` with the node memory changed by `p` and some root; and the environment answers every transaction to come. -/
def Replanted (p : List Node → List Node) (c d : Codec) : Prop := c.io.draws.answered ∧ ∃ r, d = c.replant p r

/-- An early end of the engine that is no unanswered transaction. -/
def Halt.IsAnswered (h : Halt) : Prop := ∀ t, h ≠ .wait t

/-- An early end of a rule that is no unanswered transaction. -/
def Stop.IsAnswered (e : Stop) : Prop := ∀ t, e ≠ .halt (.wait t)

/-- Two runs end with the same value or the same error, one that `E` allows, in codecs still replanted. -/
inductive EndAlike (p : List Node → List Node) {ε α : Type} (E : ε → Prop) :
    EStateM.Result ε Codec α → EStateM.Result ε Codec α → Prop where
  | ok (a : α) {c d : Codec} (h : Replanted p c d) : EndAlike p E (.ok a c) (.ok a d)
  | error {e : ε} (he : E e) {c d : Codec} (h : Replanted p c d) : EndAlike p E (.error e c) (.error e d)

/-- From replanted codecs `x` ends alike: it does not see where the tree stands. -/
def Blind (p : List Node → List Node) {ε α : Type} (E : ε → Prop) (x : EStateM ε Codec α) : Prop :=
  ∀ c d, Replanted p c d → EndAlike p E (x c) (x d)

section
variable {p : List Node → List Node} {ε : Type} {E : ε → Prop} {α β : Type}

theorem blind_pure (a : α) : Blind p E (pure a : EStateM ε Codec α) := fun _ _ h => .ok a h

theorem blind_bind {x : EStateM ε Codec α} {f : α → EStateM ε Codec β} (hx : Blind p E x) (hf : ∀ a, Blind p E (f a)) :
    Blind p E (x >>= f) := fun c d h => by
  have hend := hx c d h
  cases hc : x c with
  | ok a c1 =>
    rw [hc] at hend
    cases hd : x d with
    | ok b d1 =>
      rw [hd] at hend
      rw [engine_bind_of_ok hc, engine_bind_of_ok hd]
      cases hend with
      | ok _ h1 => exact hf a c1 d1 h1
    | error e d1 =>
      rw [hd] at hend
      cases hend
  | error e c1 =>
    rw [hc] at hend
    cases hd : x d with
    | ok b d1 =>
      rw [hd] at hend
      cases hend
    | error e' d1 =>
      rw [hd] at hend
      rw [engine_bind_of_error hc, engine_bind_of_error hd]
      cases hend with
      | error he h1 => exact .error he h1

/-- The codec read is used alike wherever the tree stands. -/
theorem blind_get_bind {f : Codec → EStateM ε Codec β} (hsame : ∀ c r, f (c.replant p r) = f c) (hf : ∀ c, Blind p E (f c)) :
    Blind p E (get >>= f) := by
  rintro c d ⟨hc, r, rfl⟩
  rw [engine_bind_of_ok (get_apply _), engine_bind_of_ok (get_apply _), hsame]
  exact hf c _ _ ⟨hc, r, rfl⟩

theorem blind_modify {f : Codec → Codec} (hf : ∀ c r, ∃ r', f (c.replant p r) = (f c).replant p r')
    (hdraws : ∀ c, (f c).io.draws = c.io.draws) : Blind p E (modify f : EStateM ε Codec PUnit) := by
  rintro c d ⟨hc, r, rfl⟩
  obtain ⟨r', hr'⟩ := hf c r
  refine .ok _ ⟨?_, r', hr'⟩
  rw [hdraws]
  exact hc

theorem blind_branch {x : EStateM ε Codec Bool} {yes no : EStateM ε Codec α} (hx : Blind p E x) (hyes : Blind p E yes)
    (hno : Blind p E no) : Blind p E (x >>= fun b => if b = true then yes else no) :=
  blind_bind hx fun b => by
    cases b with
    | true => exact hyes
    | false => exact hno

end

section
variable {p : List Node → List Node} {α β : Type}

theorem blind_modifyCore {f : CoreState → CoreState} (hf : ∀ k r, ∃ r', f (k.replant p r) = (f k).replant p r') :
    Blind p Stop.IsAnswered (modifyCore f) :=
  blind_modify (fun c r => by
    obtain ⟨r', hr'⟩ := hf c.core r
    exact ⟨r', congrArg (fun k => ({ c with core := k } : Codec)) hr'⟩) fun _ => rfl

theorem blind_getCore_bind {f : CoreState → EngineM β} (hsame : ∀ k r, f (k.replant p r) = f k)
    (hf : ∀ k, Blind p Stop.IsAnswered (f k)) : Blind p Stop.IsAnswered (getCore >>= f) := by
  rintro c d ⟨hc, r, rfl⟩
  have hfollows : f (c.replant p r).core = f c.core := hsame _ _
  rw [engine_bind_of_ok (getCore_apply _), engine_bind_of_ok (getCore_apply _), hfollows]
  exact hf _ _ _ ⟨hc, r, rfl⟩

theorem blind_getParams : Blind p Stop.IsAnswered getParams := by
  rintro c d ⟨hc, r, rfl⟩
  exact .ok _ ⟨hc, r, rfl⟩

theorem blind_binAtEnd : Blind p Stop.IsAnswered binAtEnd := by
  rintro c d ⟨hc, r, rfl⟩
  exact .ok _ ⟨hc, r, rfl⟩

theorem blind_bitAtEnd : Blind p Stop.IsAnswered bitAtEnd := by
  rintro c d ⟨hc, r, rfl⟩
  exact .ok _ ⟨hc, r, rfl⟩

theorem blind_raise (e : ErrCode) : Blind p Stop.IsAnswered (raise e : EngineM α) := fun _ _ h => .error (by rintro t ⟨⟩) h

theorem blind_crash (f : Fault) : Blind p Stop.IsAnswered (crash f : EngineM α) := fun _ _ h => .error (by rintro t ⟨⟩) h

theorem blind_quiet {x : QuietM α} (hx : Blind p Halt.IsAnswered x) : Blind p Stop.IsAnswered (quiet x) := fun c d h => by
  have hend := hx c d h
  simp only [quiet, EStateM.adaptExcept]
  generalize x c = rc at hend ⊢
  generalize x d = rd at hend ⊢
  cases hend with
  | ok a h => exact .ok a h
  | error he h => exact .error (fun t ht => he t (by cases ht; rfl)) h

/-! ## Transactions -/

theorem blind_transact (t : Txn) : Blind p Halt.IsAnswered (transact t) := by
  rintro c d ⟨hc, r, rfl⟩
  obtain ⟨hanswer, hrest⟩ := Draws.pop_answered hc
  cases hpop : c.io.draws.pop.1 with
  | ok =>
    rw [transact_ok t hpop, transact_ok (c := c.replant p r) t hpop]
    exact .ok _ ⟨hrest, r, rfl⟩
  | fail =>
    rw [transact_fail t hpop, transact_fail (c := c.replant p r) t hpop]
    exact .ok _ ⟨hrest, r, rfl⟩
  | wait => exact absurd hpop hanswer

theorem blind_takeByte : Blind p Stop.IsAnswered takeByte := by
  rintro c d ⟨hc, r, rfl⟩
  cases hbyte : c.io.input[c.io.ipos]? with
  | none =>
    rw [takeByte_none hbyte, takeByte_none (c := c.replant p r) hbyte]
    exact .error (by rintro t ⟨⟩) ⟨hc, r, rfl⟩
  | some b =>
    rw [takeByte_some hbyte, takeByte_some (c := c.replant p r) hbyte]
    exact .ok _ ⟨hc, r, rfl⟩

theorem blind_binRead : Blind p Stop.IsAnswered binRead :=
  blind_branch (blind_quiet (blind_transact _)) blind_takeByte (blind_raise _)

theorem blind_binRewind : Blind p Stop.IsAnswered binRewind :=
  blind_branch (blind_quiet (blind_transact _)) (blind_modify (fun _ r => ⟨r, rfl⟩) fun _ => rfl) (blind_raise _)

theorem blind_tryWrite (b : Byte) : Blind p Halt.IsAnswered (tryWrite b) := by
  refine blind_bind (blind_transact _) fun ok => ?_
  rintro c d ⟨hc, r, rfl⟩
  rw [engine_bind_of_ok (get_apply _), engine_bind_of_ok (get_apply _)]
  by_cases hwrite : (ok && !c.io.outClosed) = true
  · rw [if_pos hwrite, if_pos (show (ok && !(c.replant p r).io.outClosed) = true from hwrite)]
    exact .ok _ ⟨hc, r, rfl⟩
  · rw [if_neg hwrite, if_neg (show ¬ (ok && !(c.replant p r).io.outClosed) = true from hwrite)]
    exact .ok _ ⟨hc, r, rfl⟩

theorem blind_boutWrite (b : Byte) : Blind p Stop.IsAnswered (boutWrite b) :=
  blind_branch (blind_quiet (blind_tryWrite b)) (blind_pure _) (blind_raise _)

theorem blind_tryClose : Blind p Halt.IsAnswered tryClose :=
  blind_branch (blind_transact _) (blind_bind (blind_modify (fun _ r => ⟨r, rfl⟩) fun _ => rfl) fun _ => blind_pure _)
    (blind_pure _)

theorem blind_boutClose : Blind p Stop.IsAnswered boutClose :=
  blind_branch (blind_quiet blind_tryClose) (blind_pure _) (blind_raise _)

/-! ## Bits -/

theorem blind_tryBitWrite (b : Bool) : Blind p Halt.IsAnswered (tryBitWrite b) := by
  refine blind_bind (blind_modify (fun _ r => ⟨r, rfl⟩) fun _ => rfl) fun _ => blind_get_bind (fun _ _ => rfl) fun c => ?_
  split
  · exact blind_branch (blind_tryWrite _)
      (blind_bind (blind_modify (fun _ r => ⟨r, rfl⟩) fun _ => rfl) fun _ => blind_pure _) (blind_pure _)
  · exact blind_bind (blind_modify (fun _ r => ⟨r, rfl⟩) fun _ => rfl) fun _ => blind_pure _

theorem blind_bitWrite (b : Bool) : Blind p Stop.IsAnswered (bitWrite b) :=
  blind_branch (blind_quiet (blind_tryBitWrite b)) (blind_pure _) (blind_raise _)

theorem blind_bitWrites (bits : List Bool) : Blind p Stop.IsAnswered (bitWrites bits) := by
  induction bits with
  | nil => exact blind_pure _
  | cons b bs ih => exact blind_bind (blind_bitWrite b) fun _ => ih

theorem blind_bitFlushLoop (n : Nat) : Blind p Stop.IsAnswered (bitFlushLoop n) := by
  induction n with
  | zero => exact blind_pure _
  | succ n ih =>
    refine blind_get_bind (fun _ _ => rfl) fun c => ?_
    split
    · exact blind_pure _
    · exact blind_bind (blind_bitWrite _) fun _ => ih

theorem blind_fillUnpacker : Blind p Stop.IsAnswered fillUnpacker := by
  refine blind_getCore_bind (fun _ _ => rfl) fun k => ?_
  split
  · exact blind_bind blind_binRead fun _ => blind_modifyCore fun _ r => ⟨r, rfl⟩
  · exact blind_pure _

theorem blind_bitRead : Blind p Stop.IsAnswered bitRead :=
  blind_bind blind_fillUnpacker fun _ => blind_get_bind (fun _ _ => rfl) fun _ =>
    blind_bind (blind_modifyCore fun _ r => ⟨r, rfl⟩) fun _ => blind_pure _

/-! ## Errors -/

theorem blind_flushIgnoring (n : Nat) : Blind p Halt.IsAnswered (flushIgnoring n) := by
  induction n with
  | zero => exact blind_pure _
  | succ n ih =>
    refine blind_get_bind (fun _ _ => rfl) fun c => ?_
    split
    · exact blind_pure _
    · exact blind_branch (blind_tryBitWrite _) ih (blind_modify (fun _ r => ⟨r, rfl⟩) fun _ => rfl)

theorem blind_settlePending (e : ErrCode) : Blind p Halt.IsAnswered (settlePending e) := by
  unfold settlePending
  split
  · exact blind_modify (fun _ r => ⟨r, rfl⟩) fun _ => rfl
  · exact blind_flushIgnoring 7

theorem blind_errorExit (e : ErrCode) : Blind p Halt.IsAnswered (errorExit e) :=
  blind_bind (blind_modify (fun _ r => ⟨r, rfl⟩) fun _ => rfl) fun _ =>
    blind_bind (blind_settlePending e) fun _ => blind_bind blind_tryClose fun _ => blind_pure _

/-- A rule whose runs end alike, with the error exit behind it. -/
theorem endAlike_withErrorExit {body : EngineM Unit} {c d : Codec} (h : EndAlike p Stop.IsAnswered (body c) (body d)) :
    EndAlike p Halt.IsAnswered (withErrorExit body c) (withErrorExit body d) := by
  unfold withErrorExit
  generalize body c = rc at h ⊢
  generalize body d = rd at h ⊢
  cases h with
  | ok a h => exact .ok _ h
  | @error e he c1 d1 h =>
    cases e with
    | raise e => exact blind_errorExit e _ _ h
    | halt x => exact .error (fun t ht => he t (by rw [ht])) h

/-! ## The rules -/

theorem blind_complete : Blind p Stop.IsAnswered complete := blind_modifyCore fun _ r => ⟨r, rfl⟩

theorem blind_closeBody : Blind p Stop.IsAnswered closeBody :=
  blind_bind (blind_bitFlushLoop 7) fun _ => blind_bind blind_boutClose fun _ => blind_complete

theorem blind_projectBody : Blind p Stop.IsAnswered projectBody :=
  blind_bind (blind_modifyCore fun _ r => ⟨r, rfl⟩) fun _ => blind_complete

theorem blind_writeBytes (bs : List Byte) : Blind p Stop.IsAnswered (writeBytes bs) := by
  induction bs with
  | nil => exact blind_pure _
  | cons b bs ih => exact blind_bind (blind_boutWrite b) fun _ => ih

theorem blind_wrmagicBody : Blind p Stop.IsAnswered wrmagicBody :=
  blind_bind (blind_writeBytes _) fun _ => blind_complete

theorem blind_checkBytes (bs : List Byte) : Blind p Stop.IsAnswered (checkBytes bs) := by
  induction bs with
  | nil => exact blind_pure _
  | cons m bs ih =>
    refine blind_branch blind_binAtEnd (blind_raise _) (blind_bind blind_binRead fun b => ?_)
    split
    · exact blind_raise _
    · exact ih

theorem blind_chkmagicBody : Blind p Stop.IsAnswered chkmagicBody :=
  blind_bind blind_binRewind fun _ => blind_bind (blind_checkBytes _) fun _ => blind_complete

theorem blind_encodeByte (b : Byte) : Blind p Stop.IsAnswered (encodeByte b) := by
  refine blind_getCore_bind (fun _ _ => rfl) fun k => ?_
  split
  · exact blind_raise _
  · exact blind_bitWrites _

theorem blind_encodeLoop (n : Nat) : Blind p Stop.IsAnswered (encodeLoop n) := by
  induction n with
  | zero => exact blind_branch blind_binAtEnd (blind_pure _) (blind_crash _)
  | succ n ih =>
    exact blind_branch blind_binAtEnd (blind_pure _)
      (blind_bind blind_binRead fun b => blind_bind (blind_encodeByte b) fun _ => ih)

theorem blind_encodeBody : Blind p Stop.IsAnswered encodeBody :=
  blind_bind blind_binRewind fun _ => blind_get_bind (fun _ _ => rfl) fun _ =>
    blind_bind (blind_encodeLoop _) fun _ => blind_complete

theorem blind_countLoop (n : Nat) : Blind p Stop.IsAnswered (countLoop n) := by
  induction n with
  | zero => exact blind_branch blind_binAtEnd (blind_pure _) (blind_crash _)
  | succ n ih =>
    refine blind_branch blind_binAtEnd (blind_pure _) (blind_getCore_bind (fun _ _ => rfl) fun k => ?_)
    split
    · exact blind_raise _
    · exact blind_bind blind_binRead fun b => blind_bind (blind_modifyCore fun _ r => ⟨r, rfl⟩) fun _ => ih

theorem blind_countBody : Blind p Stop.IsAnswered countBody :=
  blind_bind blind_binRewind fun _ => blind_bind (blind_modifyCore fun _ r => ⟨r, rfl⟩) fun _ =>
    blind_get_bind (fun _ _ => rfl) fun _ => blind_bind (blind_countLoop _) fun _ =>
      blind_bind (blind_modifyCore fun _ r => ⟨r, rfl⟩) fun _ => blind_complete

end

/-! ## The rules that walk a held tree -/

section
variable {p : List Node → List Node}

theorem blind_descendTree (n : Nat) (t : CodeTree) : Blind p Stop.IsAnswered (descendTree n t) := by
  induction n generalizing t with
  | zero =>
    cases t with
    | leaf s w ph => exact blind_pure _
    | node w l r => exact blind_branch blind_bitAtEnd (blind_pure _) (blind_crash _)
  | succ n ih =>
    cases t with
    | leaf s w ph => exact blind_pure _
    | node w l r => exact blind_branch blind_bitAtEnd (blind_pure _) (blind_bind blind_bitRead fun _ => ih _)

theorem blind_decodeTreeLoop (t : CodeTree) (n : Nat) : Blind p Stop.IsAnswered (decodeTreeLoop t n) := by
  induction n with
  | zero => exact blind_branch blind_bitAtEnd (blind_pure _) (blind_crash _)
  | succ n ih =>
    refine blind_branch blind_bitAtEnd (blind_pure _) (blind_bind (blind_descendTree _ t) fun leaf => ?_)
    cases leaf with
    | none => exact blind_modifyCore fun _ r => ⟨r, rfl⟩
    | some s => exact blind_bind (blind_boutWrite s) fun _ => blind_bind (blind_modifyCore fun _ r => ⟨r, rfl⟩) fun _ => ih

theorem blind_decodeTreeBody (t : CodeTree) : Blind p Stop.IsAnswered (decodeTreeBody t) := by
  refine blind_bind (blind_modifyCore fun _ r => ⟨r, rfl⟩) fun _ => blind_get_bind (fun _ _ => rfl) fun c => ?_
  split
  · exact blind_bind (blind_decodeTreeLoop t _) fun _ => blind_complete
  · exact blind_raise _

end

/-! ## The rules that make the node memory anew -/

theorem blind_buildBody : Blind id Stop.IsAnswered buildBody := by
  refine blind_bind (blind_modifyCore fun _ r => ⟨r, rfl⟩) fun _ => blind_getCore_bind (fun _ _ => rfl) fun k => ?_
  cases buildForest k.freq with
  | none => exact blind_raise _
  | some f =>
    exact blind_bind (blind_modifyCore fun _ _ => ⟨Fin.ofNat 512 (f.nodes.length - 1), rfl⟩) fun _ =>
      blind_bind (blind_modifyCore fun _ r => ⟨r, rfl⟩) fun _ =>
        blind_bind (blind_modifyCore fun _ r => ⟨r, rfl⟩) fun _ => blind_complete

theorem blind_clearBody : Blind id Stop.IsAnswered clearBody :=
  blind_bind (blind_modifyCore fun _ _ => ⟨0, rfl⟩) fun _ => blind_complete

theorem blind_treeBit : Blind id Stop.IsAnswered treeBit := blind_branch blind_bitAtEnd (blind_raise _) blind_bitRead

theorem blind_readSymbolFrom (k n : Nat) (s : Byte) : Blind id Stop.IsAnswered (readSymbolFrom k n s) := by
  induction n generalizing k s with
  | zero => exact blind_pure _
  | succ n ih => exact blind_bind blind_getParams fun _ => blind_bind blind_treeBit fun _ => ih _ _

theorem blind_readNode (n : Nat) : Blind id Stop.IsAnswered (readNode n) := by
  induction n with
  | zero => exact blind_crash _
  | succ n ih =>
    have hput : ∀ i x, Blind id Stop.IsAnswered (modifyCore (writeNode i x)) := fun i x =>
      blind_modifyCore fun _ r => ⟨r, rfl⟩
    refine blind_bind blind_treeBit fun b => blind_getCore_bind (fun _ _ => rfl) fun k => ?_
    split
    · exact blind_raise _
    · refine blind_bind (blind_modifyCore fun _ r => ⟨r, rfl⟩) fun _ => ?_
      cases b with
      | true =>
        exact blind_bind (hput _ _) fun _ => blind_bind ih fun _ => blind_bind (hput _ _) fun _ =>
          blind_bind ih fun _ => blind_bind (hput _ _) fun _ => blind_pure _
      | false =>
        exact blind_bind (blind_readSymbolFrom 0 8 0#8) fun _ => blind_bind (hput _ _) fun _ => blind_pure _

theorem blind_rdtreeBody : Blind id Stop.IsAnswered rdtreeBody :=
  blind_bind (blind_modifyCore fun _ r => ⟨r, rfl⟩) fun _ => blind_bind (blind_readNode _) fun root =>
    blind_bind (blind_modifyCore fun _ _ => ⟨root, rfl⟩) fun _ => blind_bind (blind_modifyCore fun _ r => ⟨r, rfl⟩) fun _ =>
      blind_bind (blind_modifyCore fun _ r => ⟨r, rfl⟩) fun _ => blind_complete

end Sys2Proof.Machine

/-! PROOFS. The numbering of the nodes (spec/43_tree_codec.md R110, R111). -/

namespace Sys2Proof.Machine

/-- The state with other nodes and another root. -/
def State.replant (nodes : List Node) (root : NodeIdx) (s : State) : State :=
  { s with codec := s.codec.replant (fun _ => nodes) root }

/-- The states agree but for NODE and ROOT. -/
def SameButTree (t u : State) : Prop :=
  t = { u with codec := { u.codec with core := { u.codec.core with node := t.codec.core.node, root := t.codec.core.root } } }

section
variable {p : List Node → List Node} {nodes : List Node} {root : NodeIdx} {s t : State}

/-- Runs that end alike settle alike: no transaction is left unanswered, and no listed `wait` stands at the head. -/
theorem settle_replanted {w : Word} {r r' : EStateM.Result Halt Codec Unit} (halike : EndAlike p Halt.IsAnswered r r')
    (h : settle w s r = .next t) : ∃ u, settle w (s.replant nodes root) r' = .next u ∧ SameButTree t u := by
  cases halike with
  | @ok _ c d hreplanted =>
    obtain ⟨hanswered, x, rfl⟩ := hreplanted
    rw [settle_done hanswered.head_ne] at h
    cases h
    exact ⟨_, settle_done (c := c.replant p x) hanswered.head_ne, rfl⟩
  | @error e he c d hreplanted =>
    cases e with
    | wait x => exact absurd rfl (he x)
    | fault f => cases h

variable {i : Instr} {pre : CoreState → Bool} {clear : CoreState → CoreState} {body : EngineM Unit}

/-- The rule begins in codecs that are replanted, where the clearing of validity bits does not see the tree's place. -/
theorem accepted_replanted (hdraws : s.codec.io.draws.answered)
    (hclear : ∀ k, clear (k.replant (fun _ => nodes) root) = (clear k).replant p root) :
    Replanted p ((s.codec.accept (encode i)).mapCore clear) (((s.replant nodes root).codec.accept (encode i)).mapCore clear) :=
  ⟨hdraws, root, congrArg (fun k => ({ s.codec with core := k } : Codec)) (hclear (acceptWord (encode i) s.codec.core))⟩

/-- A command whose precondition does not see the tree's place and whose rule ends alike. -/
theorem issue_replanted (hs : s.ready) (hpre : ∀ k, pre (k.replant (fun _ => nodes) root) = pre k)
    (hbody : EndAlike p Stop.IsAnswered (body ((s.codec.accept (encode i)).mapCore clear))
      (body (((s.replant nodes root).codec.accept (encode i)).mapCore clear)))
    (h : issue i pre clear body s = .next t) :
    ∃ u, issue i pre clear body (s.replant nodes root) = .next u ∧ SameButTree t u := by
  obtain ⟨hidle, hdraws⟩ := hs
  have hpre' : pre (acceptWord (encode i) (s.replant nodes root).codec.core) = pre (acceptWord (encode i) s.codec.core) :=
    hpre (acceptWord (encode i) s.codec.core)
  cases hp : pre (acceptWord (encode i) s.codec.core) with
  | true =>
    rw [issue_of_pre clear body hidle hp] at h
    rw [issue_of_pre clear body (s := s.replant nodes root) hidle (hpre'.trans hp)]
    exact settle_replanted (endAlike_withErrorExit hbody) h
  | false =>
    rw [issue_of_not_pre clear body hidle hp] at h
    rw [issue_of_not_pre clear body (s := s.replant nodes root) hidle (hpre'.trans hp)]
    exact settle_replanted (.ok (p := fun _ => nodes) _ (c := preciseError .sequence (s.codec.accept (encode i)))
      ⟨hdraws, root, rfl⟩) h

/-- A command whose rule does not see the tree's place. -/
theorem issue_blind (hblind : Blind p Stop.IsAnswered body) (hs : s.ready)
    (hpre : ∀ k, pre (k.replant (fun _ => nodes) root) = pre k)
    (hclear : ∀ k, clear (k.replant (fun _ => nodes) root) = (clear k).replant p root) (h : issue i pre clear body s = .next t) :
    ∃ u, issue i pre clear body (s.replant nodes root) = .next u ∧ SameButTree t u :=
  issue_replanted hs hpre (hblind _ _ (accepted_replanted hs.2 hclear)) h

/-- A command whose rule, on every codec that holds the tree of `s`, is one that does not see the tree's place. -/
theorem issue_walk {tr : CodeTree} {walk : EngineM Unit} (hwalk : Blind (fun _ => nodes) Stop.IsAnswered walk)
    (hbody : ∀ c : Codec, treeOf c.core.node walkDepth c.core.root = some tr → body c = walk c) (hs : s.ready)
    (hpre : ∀ k, pre (k.replant (fun _ => nodes) root) = pre k)
    (hclear : ∀ k, clear (k.replant (fun _ => nodes) root) = (clear k).replant (fun _ => nodes) root)
    (hkept : ∀ k : CoreState, (clear k).node = k.node ∧ (clear k).root = k.root)
    (htree : treeOf s.codec.core.node walkDepth s.codec.core.root = some tr) (htree' : treeOf nodes walkDepth root = some tr)
    (h : issue i pre clear body s = .next t) :
    ∃ u, issue i pre clear body (s.replant nodes root) = .next u ∧ SameButTree t u := by
  refine issue_replanted (p := fun _ => nodes) hs hpre ?_ h
  have hheld : ∀ s' : State, treeOf s'.codec.core.node walkDepth s'.codec.core.root = some tr →
      body ((s'.codec.accept (encode i)).mapCore clear) = walk ((s'.codec.accept (encode i)).mapCore clear) := fun s' h' => by
    obtain ⟨hnode, hroot⟩ := hkept (acceptWord (encode i) s'.codec.core)
    refine hbody _ ?_
    simp only [Codec.mapCore_core, Codec.accept_core, hnode, hroot, acceptWord_fields, h']
  rw [hheld s htree, hheld (s.replant nodes root) htree']
  exact hwalk _ _ (accepted_replanted hs.2 hclear)

end

/-- No command shows the numbering (43_tree_codec.md R111). -/
theorem exec_replanted {i : Instr} {s t : State} {nodes : List Node} {root : NodeIdx} {tr : CodeTree} (hs : s.ready)
    (htree : treeOf s.codec.core.node walkDepth s.codec.core.root = some tr) (htree' : treeOf nodes walkDepth root = some tr)
    (h : exec i s = .next t) : ∃ u, exec i (s.replant nodes root) = .next u ∧ SameButTree t u := by
  cases i with
  | nop => exact issue_blind (p := fun _ => nodes) blind_complete hs (fun _ => rfl) (fun _ => rfl) h
  | count => exact issue_blind (p := id) blind_countBody hs (fun _ => rfl) (fun _ => rfl) h
  | build => exact issue_blind blind_buildBody hs (fun _ => rfl) (fun _ => rfl) h
  | gencodes =>
    exact issue_walk (tr := tr) (walk := do modifyCore (storeCodes (bindTree tr [] Codes.empty)); complete)
      (blind_bind (blind_modifyCore fun _ r => ⟨r, rfl⟩) fun _ => blind_complete) (fun c hc => gencodesBody_of_tree hc) hs
      (fun _ => rfl) (fun _ => rfl) (fun _ => ⟨rfl, rfl⟩) htree htree' h
  | wrtree =>
    exact issue_walk (tr := tr) (walk := do let p ← getParams; bitWrites (tr.bits p.symOrder); complete)
      (blind_bind blind_getParams fun _ => blind_bind (blind_bitWrites _) fun _ => blind_complete)
      (fun c hc => wrtreeBody_of_tree hc) hs (fun _ => rfl) (fun _ => rfl) (fun _ => ⟨rfl, rfl⟩) htree htree' h
  | rdtree => exact issue_blind blind_rdtreeBody hs (fun _ => rfl) (fun _ => rfl) h
  | encode => exact issue_blind (p := fun _ => nodes) blind_encodeBody hs (fun _ => rfl) (fun _ => rfl) h
  | decode =>
    exact issue_walk (blind_decodeTreeBody tr) (fun c hc => decodeBody_of_tree hc) hs
      (fun _ => rfl) (fun _ => rfl) (fun _ => ⟨rfl, rfl⟩) htree htree' h
  | project => exact issue_blind (p := fun _ => nodes) blind_projectBody hs (fun _ => rfl) (fun _ => rfl) h
  | wrmagic => exact issue_blind (p := fun _ => nodes) blind_wrmagicBody hs (fun _ => rfl) (fun _ => rfl) h
  | chkmagic => exact issue_blind (p := fun _ => nodes) blind_chkmagicBody hs (fun _ => rfl) (fun _ => rfl) h
  | close => exact issue_blind (p := fun _ => nodes) blind_closeBody hs (fun _ => rfl) (fun _ => rfl) h
  | clear => exact issue_blind blind_clearBody hs (fun _ => rfl) (fun _ => rfl) h

/-- Settles O49: RDTREE lays its tree out in pre-order, BUILD joins nodes it has allocated, and no rule sees where the tree
stands. -/
theorem nodeNumberingAndReadWeights : Obligations.NodeNumberingAndReadWeights :=
  ⟨fun _ _ hs h ht hdone => rdtree_numbering hs h ht hdone, fun _ _ hs h ht hdone => build_numbering hs h ht hdone,
    fun _ _ _ _ _ _ hs htree htree' h => exec_replanted hs htree htree' h⟩

end Sys2Proof.Machine

/-! PROOFS. What DECODE makes of a bit stream that paths of the tree spell, with zeros behind them (spec/44_stream_codec.md R118, R119,
R121). -/

namespace Sys2Proof.Machine

namespace CodeTree

/-! ## A bit string from the root -/

/-- A bit string leads to a leaf, perhaps before its end, or ends at an internal node. -/
theorem follow_cases (t : CodeTree) (bs : List Bool) :
    (∃ p rest s w ph, bs = p ++ rest ∧ t.follow p = some (leaf s w ph)) ∨ ∃ u, t.follow bs = some u ∧ u.isNode = true := by
  induction bs generalizing t with
  | nil =>
    cases t with
    | leaf s w ph => exact .inl ⟨[], [], s, w, ph, rfl, rfl⟩
    | node w l r => exact .inr ⟨_, rfl, rfl⟩
  | cons b bs ih =>
    cases t with
    | leaf s w ph => exact .inl ⟨[], b :: bs, s, w, ph, rfl, rfl⟩
    | node v l r =>
      rcases ih (if b then r else l) with ⟨p, rest, s, w, ph, rfl, hp⟩ | ⟨u, hu, hnode⟩
      · exact .inl ⟨b :: p, rest, s, w, ph, rfl, hp⟩
      · exact .inr ⟨u, hu, hnode⟩

/-- From an internal node a path to a leaf has at least one bit. -/
theorem path_ne_nil {t : CodeTree} {p : List Bool} {s : Byte} {w : BitVec 32} {ph : Bool} (hnode : t.isNode = true)
    (hp : t.follow p = some (leaf s w ph)) : p ≠ [] := by
  rintro rfl
  rw [follow_nil] at hp
  cases hp
  cases hnode

/-- A descent that reaches a leaf gives the leaf's symbol, and the next one starts at the root. -/
theorem decodeFrom_leaf {root cur : CodeTree} {mid : Bool} {p : List Bool} {s : Byte} {w : BitVec 32} {ph : Bool} (rest : List Bool)
    (hcur : cur.isNode = true) (hp : cur.follow p = some (leaf s w ph)) :
    decodeFrom root cur mid (p ++ rest) = (s :: (root.decode rest).1, (root.decode rest).2) := by
  induction p generalizing cur mid with
  | nil => exact absurd rfl (path_ne_nil hcur hp)
  | cons b p ih =>
    cases cur with
    | leaf => cases hcur
    | node v l r =>
      rw [follow_node_cons] at hp
      rw [List.cons_append, decodeFrom]
      cases hnext : (if b then r else l) with
      | leaf s' w' ph' =>
        obtain ⟨rfl, heq⟩ := follow_leaf_eq_some_iff.1 (hnext ▸ hp)
        cases heq
        rfl
      | node v' l' r' => exact ih rfl (hnext ▸ hp)

/-- A descent that the stream ends at an internal node gives no symbol. -/
theorem decodeFrom_node {root cur u : CodeTree} {mid : Bool} {p : List Bool} (hcur : cur.isNode = true)
    (hp : cur.follow p = some u) (hu : u.isNode = true) : decodeFrom root cur mid p = ([], mid || !p.isEmpty) := by
  induction p generalizing cur mid with
  | nil => simp [decodeFrom]
  | cons b p ih =>
    cases cur with
    | leaf => cases hcur
    | node v l r =>
      rw [follow_node_cons] at hp
      rw [decodeFrom]
      cases hnext : (if b then r else l) with
      | leaf s' w' ph' =>
        obtain ⟨-, rfl⟩ := follow_leaf_eq_some_iff.1 (hnext ▸ hp)
        cases hu
      | node v' l' r' => simpa using ih (mid := true) rfl (hnext ▸ hp)

/-! ## Paths one after another -/

@[simp] theorem decode_nil (t : CodeTree) : t.decode [] = ([], false) := by cases t <;> rfl

/-- The paths of the symbols `S` give `S` back, whatever follows them (44_stream_codec.md R119). -/
theorem decode_paths {t : CodeTree} {path : Byte → List Bool} {S : List Byte} (rest : List Bool) (hnode : t.isNode = true)
    (hS : ∀ b ∈ S, ∃ w ph, t.follow (path b) = some (leaf b w ph)) :
    t.decode (S.flatMap path ++ rest) = (S ++ (t.decode rest).1, (t.decode rest).2) := by
  induction S with
  | nil => rfl
  | cons b S ih =>
    obtain ⟨hb, htail⟩ := List.forall_mem_cons.1 hS
    obtain ⟨w, ph, hpath⟩ := hb
    rw [List.flatMap_cons, List.append_assoc, decode, decodeFrom_leaf _ hnode hpath, ih htail]
    rfl

/-! ## Zeros -/

/-- Zeros lead down the left edge, to the leftmost leaf and to no leaf before it (44_stream_codec.md R121). -/
theorem follow_zeros (t : CodeTree) :
    (∃ w ph, t.follow (List.replicate t.leftDepth false) = some (leaf t.leftSymbol w ph)) ∧
    ∀ j, j < t.leftDepth → ∃ u, t.follow (List.replicate j false) = some u ∧ u.isNode = true := by
  induction t with
  | leaf s w ph => exact ⟨⟨w, ph, rfl⟩, fun j hj => absurd hj (Nat.not_lt_zero j)⟩
  | node v l r ihl _ =>
    obtain ⟨hleaf, hnodes⟩ := ihl
    refine ⟨hleaf, fun j hj => ?_⟩
    cases j with
    | zero => exact ⟨_, rfl, rfl⟩
    | succ j => exact hnodes j (Nat.lt_of_succ_lt_succ hj)

theorem leftDepth_pos {t : CodeTree} (hnode : t.isNode = true) : 1 ≤ t.leftDepth := by
  cases t with
  | leaf => cases hnode
  | node w l r => exact Nat.succ_pos _

/-- `k` zeros are `k / d0` paths to the leftmost leaf and, unless `d0` divides `k`, a beginning of one more (44_stream_codec.md R121). -/
theorem decode_zeros {t : CodeTree} (hnode : t.isNode = true) (k : Nat) : t.decode (List.replicate k false) =
    (List.replicate (k / t.leftDepth) t.leftSymbol, decide (k % t.leftDepth ≠ 0)) := by
  obtain ⟨hleaf, hnodes⟩ := t.follow_zeros
  have hpos := leftDepth_pos hnode
  have hpart : t.decode (List.replicate (k % t.leftDepth) false) = ([], decide (k % t.leftDepth ≠ 0)) := by
    obtain ⟨u, hu, hunode⟩ := hnodes _ (Nat.mod_lt k hpos)
    rw [decode, decodeFrom_node hnode hu hunode]
    simp
  have hwhole : List.replicate k false = (List.replicate (k / t.leftDepth) t.leftSymbol).flatMap
      (fun _ => List.replicate t.leftDepth false) ++ List.replicate (k % t.leftDepth) false := by
    rw [List.flatMap_def, List.map_replicate, List.flatten_replicate_replicate, List.replicate_append_replicate, Nat.mul_comm,
      Nat.div_add_mod]
  rw [hwhole, decode_paths _ hnode fun b hb => (List.eq_of_mem_replicate hb) ▸ hleaf, hpart, List.append_nil]

end CodeTree

end Sys2Proof.Machine

/-! PROOFS. DECODE on an open output with working I/O descends the held tree to the end of the bit stream (spec/44_stream_codec.md R118,
R119, R121). -/

namespace Sys2Proof.Machine

/-! ## The bit stream and the packer -/

theorem length_flatMap_byteBits (order : BitOrder) (bs : List Byte) : (bs.flatMap (byteBits order)).length = 8 * bs.length := by
  simp [Nat.mul_comm]

/-- The number of bits left is the bound DECODE gives its loop. -/
theorem Codec.inBits_length (c : Codec) : c.inBits.length = c.bitsLeft := by
  rw [inBits, bitsLeft, List.length_append, unreadBits_length, length_flatMap_byteBits, List.length_drop]

/-- With no bit left, the unpacker is empty and the input at its end (20_memory.md R58). -/
theorem Codec.at_end_of_inBits_nil {c : Codec} (hin : c.io.ipos ≤ c.io.input.length) (h : c.inBits = []) :
    c.core.ibits = 0 ∧ c.io.ipos = c.io.input.length := by
  have hend := (bitAtEnd_iff hin).2 h
  simp only [Codec.bitAtEnd, Streams.atEnd, Bool.and_eq_true, beq_iff_eq] at hend
  exact ⟨Fin.ext hend.1, hend.2⟩

theorem Took.inBits_eq {bits rest : List Bool} {c c' : Codec} (h : Took bits c c') (hc : c.inBits = bits ++ rest) :
    c'.inBits = rest :=
  List.append_cancel_left (h.inBits.symm.trans hc)

/-- A draw changes nothing that a later reading shows. -/
theorem Took.drawn {bits : List Bool} {c c' : Codec} (h : Took bits c c') : Took bits c c'.drawn :=
  ⟨h.inBits, h.core, h.params, congrArg (fun io : Streams => { io with draws := c'.io.draws.pop.2 }) h.io, h.ipos, h.inPos,
    h.within, (Draws.pop_allOk h.draws).2⟩

/-! ## The symbols written -/

/-- The codec after DECODE has written and counted the symbols (44_stream_codec.md R118). -/
def Codec.emitted (syms : List Byte) (c : Codec) : Codec :=
  { c with
    core := { c.core with
      outBytes := c.core.outBytes + BitVec.ofNat 64 syms.length, decSyms := c.core.decSyms + BitVec.ofNat 64 syms.length }
    io := { c.io with output := c.io.output ++ syms } }

@[simp] theorem Codec.emitted_nil (c : Codec) : c.emitted [] = c := by simp [Codec.emitted]

theorem Codec.emitted_append (syms syms' : List Byte) (c : Codec) : c.emitted (syms ++ syms') = (c.emitted syms).emitted syms' := by
  simp [Codec.emitted, BitVec.ofNat_add, BitVec.add_assoc]

/-- Reading and writing of symbols do not meet. -/
theorem Took.emitted {bits : List Bool} {c c' : Codec} (h : Took bits c c') (syms : List Byte) :
    Took bits (c.emitted syms) (c'.emitted syms) where
  inBits := h.inBits
  core := congrArg (fun k : CoreState => { k with
    outBytes := k.outBytes + BitVec.ofNat 64 syms.length, decSyms := k.decSyms + BitVec.ofNat 64 syms.length }) h.core
  params := h.params
  io := congrArg (fun io : Streams => { io with output := io.output ++ syms }) h.io
  ipos := h.ipos
  inPos := h.inPos
  within := h.within
  draws := h.draws

/-! ## One descent -/

theorem descendTree_end (n : Nat) {w : BitVec 32} {l r : CodeTree} {c : Codec} (hin : c.io.ipos ≤ c.io.input.length)
    (h : c.inBits = []) : descendTree n (.node w l r) c = .ok none c := by
  unfold descendTree
  rw [engine_bind_of_ok (bitAtEnd_apply c), if_pos ((bitAtEnd_iff hin).2 h)]
  rfl

theorem descendTree_bit (n : Nat) {w : BitVec 32} {l r : CodeTree} {b : Bool} {rest : List Bool} {c c1 : Codec}
    (h : c.inBits = b :: rest) (hread : bitRead c = .ok b c1) :
    descendTree (n + 1) (.node w l r) c = descendTree n (if b then r else l) c1 := by
  conv_lhs => unfold descendTree
  rw [engine_bind_of_ok (bitAtEnd_apply c), bitAtEnd_of_inBits_cons h, if_neg Bool.false_ne_true]
  exact engine_bind_of_ok hread

/-- A descent along a path to a leaf takes the path and gives the leaf's symbol. -/
theorem descendTree_leaf {n : Nat} {t : CodeTree} {c : Codec} {p rest : List Bool} {s : Byte} {w : BitVec 32} {ph : Bool}
    (hd : c.io.draws.allOk) (h : c.inBits = p ++ rest) (hp : t.follow p = some (.leaf s w ph)) (hn : p.length ≤ n) :
    ∃ c', descendTree n t c = .ok (some s) c' ∧ Took p c c' := by
  induction p generalizing n t c with
  | nil =>
    cases (CodeTree.follow_nil t).symm.trans hp
    exact ⟨c, by unfold descendTree; rfl, .refl hd⟩
  | cons b p ih =>
    cases t with
    | leaf => cases hp
    | node v l r =>
      obtain ⟨n, rfl⟩ : ∃ m, n = m + 1 := ⟨n - 1, by rw [List.length_cons] at hn; omega⟩
      obtain ⟨c1, hread, htook, hrest⟩ := bitRead_ok hd h
      obtain ⟨c2, hdescend, htook2⟩ := ih (n := n) htook.draws hrest hp (Nat.le_of_succ_le_succ hn)
      exact ⟨c2, (descendTree_bit n h hread).trans hdescend, htook.trans htook2⟩

/-- A descent that the stream ends at an internal node takes all bits left and gives no symbol. -/
theorem descendTree_node {n : Nat} {t u : CodeTree} {c : Codec} {p : List Bool} (hd : c.io.draws.allOk)
    (hin : c.io.ipos ≤ c.io.input.length) (h : c.inBits = p) (hp : t.follow p = some u) (hu : u.isNode = true)
    (hn : p.length ≤ n) : ∃ c', descendTree n t c = .ok none c' ∧ Took p c c' := by
  induction p generalizing n t c with
  | nil =>
    cases (CodeTree.follow_nil t).symm.trans hp
    cases u with
    | leaf => cases hu
    | node => exact ⟨c, descendTree_end n hin h, .refl hd⟩
  | cons b p ih =>
    cases t with
    | leaf => cases hp
    | node v l r =>
      obtain ⟨n, rfl⟩ : ∃ m, n = m + 1 := ⟨n - 1, by rw [List.length_cons] at hn; omega⟩
      obtain ⟨c1, hread, htook, hrest⟩ := bitRead_ok hd h
      obtain ⟨c2, hdescend, htook2⟩ := ih (n := n) htook.draws (htook.within hin) hrest hp (Nat.le_of_succ_le_succ hn)
      exact ⟨c2, (descendTree_bit n h hread).trans hdescend, htook.trans htook2⟩

/-! ## The loop -/

/-- TAIL as DECODE leaves it (44_stream_codec.md R119). -/
def markTail (tail : Bool) (k : CoreState) : CoreState := if tail then setTail k else k

theorem decodeTreeLoop_end {n : Nat} {t : CodeTree} {c : Codec} (hin : c.io.ipos ≤ c.io.input.length) (h : c.inBits = []) :
    decodeTreeLoop t n c = .ok () c := by
  unfold decodeTreeLoop
  rw [engine_bind_of_ok (bitAtEnd_apply c), if_pos ((bitAtEnd_iff hin).2 h)]
  rfl

/-- A descent that gives a symbol: the symbol is written and counted, and the loop goes on. -/
theorem decodeTreeLoop_some {n : Nat} {t : CodeTree} {s : Byte} {c c1 : Codec} (h : c.inBits ≠ [])
    (hdescend : descendTree (n + 1) t c = .ok (some s) c1) :
    decodeTreeLoop t (n + 1) c = (do boutWrite s; modifyCore countSymbol; decodeTreeLoop t n) c1 := by
  obtain ⟨b, rest, hbits⟩ := List.exists_cons_of_ne_nil h
  conv_lhs => unfold decodeTreeLoop
  rw [engine_bind_of_ok (bitAtEnd_apply c), bitAtEnd_of_inBits_cons hbits, if_neg Bool.false_ne_true]
  exact engine_bind_of_ok hdescend

/-- A descent that gives none: TAIL is set, and the loop ends. -/
theorem decodeTreeLoop_none {n : Nat} {t : CodeTree} {c c1 : Codec} (h : c.inBits ≠ [])
    (hdescend : descendTree (n + 1) t c = .ok none c1) : decodeTreeLoop t (n + 1) c = .ok () (c1.mapCore setTail) := by
  obtain ⟨b, rest, hbits⟩ := List.exists_cons_of_ne_nil h
  conv_lhs => unfold decodeTreeLoop
  rw [engine_bind_of_ok (bitAtEnd_apply c), bitAtEnd_of_inBits_cons hbits, if_neg Bool.false_ne_true]
  exact engine_bind_of_ok hdescend

/-- A path to a leaf next in the bit stream: its symbol is written and counted, and the loop goes on. -/
theorem decodeTreeLoop_leaf {n : Nat} {t : CodeTree} {c : Codec} {p rest : List Bool} {s : Byte} {w : BitVec 32} {ph : Bool}
    (hd : c.io.draws.allOk) (hopen : c.io.outClosed = false) (hnode : t.isNode = true) (h : c.inBits = p ++ rest)
    (hp : t.follow p = some (.leaf s w ph)) (hn : p.length ≤ n + 1) :
    ∃ c', decodeTreeLoop t (n + 1) c = decodeTreeLoop t n c' ∧ Took p (c.emitted [s]) c' := by
  obtain ⟨c1, hdescend, htook⟩ := descendTree_leaf hd h hp hn
  have hbits : c.inBits ≠ [] := by
    rw [h]
    exact List.append_ne_nil_of_left_ne_nil (CodeTree.path_ne_nil hnode hp) _
  have hopen1 : c1.io.outClosed = false := (congrArg Streams.outClosed htook.io).trans hopen
  have hwrite := boutWrite_ok s (Draws.pop_allOk htook.draws).1 hopen1
  refine ⟨(c1.emitted [s]).drawn, ?_, (htook.emitted [s]).drawn⟩
  rw [decodeTreeLoop_some hbits hdescend]
  exact (engine_bind_of_ok hwrite).trans (engine_bind_of_ok (modifyCore_apply _ _))

/-- The stream ends inside a descent: TAIL is set and the loop ends. -/
theorem decodeTreeLoop_node {n : Nat} {t u : CodeTree} {c : Codec} (hd : c.io.draws.allOk) (hin : c.io.ipos ≤ c.io.input.length)
    (h : c.inBits ≠ []) (hp : t.follow c.inBits = some u) (hu : u.isNode = true) (hn : c.inBits.length ≤ n + 1) :
    ∃ c', decodeTreeLoop t (n + 1) c = .ok () (c'.mapCore setTail) ∧ Took c.inBits c c' := by
  obtain ⟨c1, hdescend, htook⟩ := descendTree_node hd hin rfl hp hu hn
  exact ⟨c1, decodeTreeLoop_none h hdescend, htook⟩

/-- The loop takes the whole bit stream and writes what the tree makes of it; each round takes a bit at least, so the number of bits
left bounds it. -/
theorem decodeTreeLoop_ok {n : Nat} {t : CodeTree} {c : Codec} (hd : c.io.draws.allOk) (hopen : c.io.outClosed = false)
    (hin : c.io.ipos ≤ c.io.input.length) (hnode : t.isNode = true) (hn : c.inBits.length ≤ n) :
    ∃ c', decodeTreeLoop t n c = .ok () (c'.mapCore (markTail (t.decode c.inBits).2)) ∧
      Took c.inBits (c.emitted (t.decode c.inBits).1) c' := by
  induction n generalizing c with
  | zero =>
    have hbits : c.inBits = [] := List.length_eq_zero_iff.1 (Nat.le_zero.1 hn)
    exact ⟨c, by rw [decodeTreeLoop_end hin hbits, hbits, CodeTree.decode_nil]; rfl,
      by rw [hbits, CodeTree.decode_nil, Codec.emitted_nil]; exact .refl hd⟩
  | succ n ih =>
    by_cases hbits : c.inBits = []
    · exact ⟨c, by rw [decodeTreeLoop_end hin hbits, hbits, CodeTree.decode_nil]; rfl,
        by rw [hbits, CodeTree.decode_nil, Codec.emitted_nil]; exact .refl hd⟩
    rcases t.follow_cases c.inBits with ⟨p, rest, s, w, ph, hsplit, hp⟩ | ⟨u, hu, hunode⟩
    · have hlen := congrArg List.length hsplit
      rw [List.length_append] at hlen
      have hpos := List.length_pos_iff.2 (CodeTree.path_ne_nil hnode hp)
      obtain ⟨c1, hloop, htook⟩ := decodeTreeLoop_leaf (n := n) hd hopen hnode hsplit hp (by omega)
      have hrest := htook.inBits_eq hsplit
      obtain ⟨c2, hmore, htook2⟩ := ih htook.draws ((congrArg Streams.outClosed htook.io).trans hopen) (htook.within hin)
        (by rw [hrest]; omega)
      rw [hrest] at hmore htook2
      have hdecode : t.decode c.inBits = (s :: (t.decode rest).1, (t.decode rest).2) := by
        rw [hsplit]
        exact CodeTree.decodeFrom_leaf rest hnode hp
      refine ⟨c2, by rw [hloop, hmore, hdecode], ?_⟩
      rw [hdecode, hsplit, ← List.singleton_append, Codec.emitted_append]
      exact (htook.emitted _).trans htook2
    · obtain ⟨c1, hloop, htook⟩ := decodeTreeLoop_node hd hin hbits hu hunode hn
      have hdecode : t.decode c.inBits = ([], true) := by
        rw [CodeTree.decode, CodeTree.decodeFrom_node hnode hu hunode]
        simp [hbits]
      exact ⟨c1, by rw [hloop, hdecode]; rfl, by rw [hdecode, Codec.emitted_nil]; exact htook⟩

/-! ## The rule -/

/-- The codec in which the loop of DECODE runs: the word accepted, and DEC_SYMS 0 (44_stream_codec.md R118). -/
abbrev State.acceptedDecode (s : State) : Codec := (s.codec.accept (encode .decode)).mapCore fun k => { k with decSyms := 0#64 }

/-- The rule of DECODE on a tree with an internal root is its loop. -/
theorem decodeTreeBody_of_ok {t : CodeTree} {c c1 : Codec} (hnode : t.isNode = true)
    (h : decodeTreeLoop t c.bitsLeft (c.mapCore fun k => { k with decSyms := 0#64 }) = .ok () c1) :
    decodeTreeBody t c = .ok () (c1.mapCore setDone) := by
  rw [decodeTreeBody, engine_bind_of_ok (modifyCore_apply _ _), engine_bind_of_ok (get_apply _), if_pos hnode]
  exact (engine_bind_of_ok h).trans (complete_apply c1)

/-- DECODE of a held tree with an internal root, on an open output with working I/O, completes with the whole bit stream taken, and
written what the tree makes of it. -/
theorem exec_decode_tree {s : State} {tr : CodeTree} (hs : s.working) (hopen : s.codec.io.outClosed = false)
    (hvalid : s.codec.core.status.treeValid = true) (hobits : s.codec.core.obits = 0)
    (hin : s.codec.io.ipos ≤ s.codec.io.input.length)
    (htree : treeOf s.codec.core.node walkDepth s.codec.core.root = some tr) (hnode : tr.isNode = true) :
    ∃ c, exec .decode s = .next { s with
        codec := (c.mapCore (markTail (tr.decode s.codec.inBits).2)).mapCore setDone, eng := .idle } ∧
      Took s.codec.inBits (s.acceptedDecode.emitted (tr.decode s.codec.inBits).1) c := by
  obtain ⟨hidle, hdraws⟩ := hs
  obtain ⟨c, hloop, htook⟩ := decodeTreeLoop_ok (n := s.codec.bitsLeft) (c := s.acceptedDecode) hdraws hopen hin hnode
    (Nat.le_of_eq s.codec.inBits_length)
  have hbody : decodeBody (s.codec.accept (encode .decode)) = .ok () _ :=
    (decodeBody_of_tree (c := s.codec.accept (encode .decode)) htree).trans (decodeTreeBody_of_ok hnode hloop)
  have hrun : exec .decode s = settle (encode .decode) s (withErrorExit decodeBody (s.codec.accept (encode .decode))) :=
    issue_of_pre (pre := preDecode) id decodeBody hidle (by simp [preDecode, hvalid, hobits])
  refine ⟨c, ?_, htook⟩
  rw [hrun, withErrorExit_ok hbody]
  exact settle_done htook.draws.answered.head_ne

/-- Settles O53: the loop takes the bit stream to its end and writes what the tree makes of it. -/
theorem decodeDescendsTheTree : Obligations.DecodeDescendsTheTree := by
  intro s tr hs hopen hvalid hobits hin htree hnode
  obtain ⟨c, hexec, htook⟩ := exec_decode_tree hs hopen hvalid hobits hin htree hnode
  have hinput : c.io.input = s.codec.io.input := (congrArg Streams.input htook.io :)
  obtain ⟨hibits, hend⟩ := Codec.at_end_of_inBits_nil (htook.within hin) (htook.inBits_eq (List.append_nil _).symm)
  have hcore := htook.core
  rw [hibits, htook.inPos, hend, hinput] at hcore
  have hlast : setDone (markTail (tr.decode s.codec.inBits).2 c.core) = { s.codec.core.afterDone 0x00000007#32 with
      status := { (s.codec.core.afterDone 0x00000007#32).status with tail := (tr.decode s.codec.inBits).2 }
      outBytes := s.codec.core.outBytes + BitVec.ofNat 64 (tr.decode s.codec.inBits).1.length
      inPos := s.codec.core.inPos + BitVec.ofNat 64 (s.codec.io.input.length - s.codec.io.ipos)
      decSyms := 0#64 + BitVec.ofNat 64 (tr.decode s.codec.inBits).1.length
      ibuf := c.core.ibuf
      ibits := 0 } := by
    rw [hcore]
    cases (tr.decode s.codec.inBits).2 with
    | false => rfl
    | true => rfl
  refine ⟨_, hexec, rfl, congrArg Streams.output htook.io, ?_, ?_, ?_, hend.trans (congrArg _ hinput),
    (congrArg Streams.outClosed htook.io).trans hopen, ?_⟩
  all_goals simp only [Codec.mapCore_core, hlast, BitVec.zero_add]

/-- Settles O55: the paths give the symbols of S, and the zeros behind them the leftmost leaf's. -/
theorem padBitsAreDecoded : Obligations.PadBitsAreDecoded := by
  intro s tr path S k hs hopen hvalid hobits hin htree hnode hS hbits hlt
  obtain ⟨t, hexec, hidle, hout, htail, hsyms, -⟩ := decodeDescendsTheTree s tr hs hopen hvalid hobits hin htree hnode
  rw [hbits, CodeTree.decode_paths _ hnode hS, CodeTree.decode_zeros hnode] at hout htail hsyms
  have hle : k / tr.leftDepth ≤ k := Nat.div_le_self _ _
  refine ⟨CodeTree.leftDepth_pos hnode, t, hexec, hidle, by rw [hout, List.append_assoc], by rw [htail, decide_eq_true_iff], ?_⟩
  rw [hsyms, List.length_append, List.length_replicate, BitVec.toNat_ofNat]
  exact Nat.mod_eq_of_lt (by omega)

end Sys2Proof.Machine

/-! PROOFS. ENCODE on an open output with working I/O appends the codes of its input (spec/44_stream_codec.md R114, R115, R117). -/

namespace Sys2Proof.Machine

/-! ## The bytes read -/

/-- The codec after `n` more input bytes are read (20_memory.md R49). -/
def Codec.skipped (n : Nat) (c : Codec) : Codec :=
  { c with
    core := { c.core with inPos := c.core.inPos + BitVec.ofNat 64 n }
    io := { c.io with ipos := c.io.ipos + n, draws := c.io.draws.after n } }

@[simp] theorem Codec.skipped_zero (c : Codec) : c.skipped 0 = c := by simp [Codec.skipped]

theorem Codec.skipped_add (n m : Nat) (c : Codec) : c.skipped (n + m) = (c.skipped n).skipped m := by
  simp [Codec.skipped, BitVec.ofNat_add, BitVec.add_assoc, Nat.add_assoc, Draws.after_add]

theorem binRead_skipped {c : Codec} {b : Byte} (hd : c.io.draws.pop.1 = .ok) (h : c.io.input[c.io.ipos]? = some b) :
    binRead c = .ok b (c.skipped 1) := binRead_ok hd h

/-- Reading and writing do not meet. -/
theorem Wrote.skipped {bits : List Bool} {c c' : Codec} (h : Wrote bits c c') (n : Nat) : Wrote bits (c.skipped n) (c'.skipped n) where
  outBits := h.outBits
  core := congrArg (fun k : CoreState => { k with inPos := k.inPos + BitVec.ofNat 64 n }) h.core
  params := h.params
  input := h.input
  ipos := congrArg (· + n) h.ipos
  outClosed := h.outClosed
  grows := h.grows
  outBytes := h.outBytes
  draws := h.draws.after n

/-- Writing changes no code and no flag. -/
theorem Wrote.codes {bits : List Bool} {c c' : Codec} (h : Wrote bits c c') :
    c'.core.codeLen = c.core.codeLen ∧ c'.core.code = c.core.code ∧ c'.core.status = c.core.status := by
  rw [h.core]
  exact ⟨rfl, rfl, rfl⟩

/-- The byte at IPOS and the bytes behind it, where the next bytes of the input are known. -/
theorem next_bytes {input : List Byte} {pos : Nat} {b : Byte} {bs : List Byte} (h : b :: bs <+: input.drop pos) :
    input[pos]? = some b ∧ bs <+: input.drop (pos + 1) := by
  obtain ⟨rest, hrest⟩ := h
  exact ⟨by rw [← List.head?_drop, ← hrest]; rfl, rest, by rw [← List.tail_drop, ← hrest]; rfl⟩

/-! ## The loop -/

theorem encodeByte_ok {b : Byte} {c : Codec} (hd : c.io.draws.allOk) (hopen : c.io.outClosed = false)
    (hb : c.core.codeLen.lookup b ≠ 0#8) : ∃ c', encodeByte b c = .ok () c' ∧ Wrote (c.core.code b) c c' := by
  obtain ⟨c', hwrites, hwrote⟩ := bitWrites_ok (c.core.code b) hd hopen
  refine ⟨c', ?_, hwrote⟩
  rw [encodeByte, engine_bind_of_ok (getCore_apply c), if_neg hb]
  exact hwrites

theorem encodeLoop_end (n : Nat) {c : Codec} (h : c.io.ipos = c.io.input.length) : encodeLoop n c = .ok () c := by
  unfold encodeLoop
  rw [engine_bind_of_ok (binAtEnd_apply c), if_pos (by simp [Streams.atEnd, h])]
  rfl

theorem encodeLoop_byte (n : Nat) {b : Byte} {c c1 : Codec} (hd : c.io.draws.pop.1 = .ok) (hb : c.io.input[c.io.ipos]? = some b)
    (h : encodeByte b (c.skipped 1) = .ok () c1) : encodeLoop (n + 1) c = encodeLoop n c1 := by
  have hlt : c.io.ipos < c.io.input.length := (List.getElem?_eq_some_iff.1 hb).1
  conv_lhs => unfold encodeLoop
  rw [engine_bind_of_ok (binAtEnd_apply c), if_neg (by simp [Streams.atEnd, Nat.ne_of_lt hlt])]
  exact (engine_bind_of_ok (binRead_skipped hd hb)).trans (engine_bind_of_ok h)

/-- The loop writes the codes of the bytes `bs` next in the input. -/
theorem encodeLoop_bytes {bs : List Byte} {c : Codec} (hd : c.io.draws.allOk) (hopen : c.io.outClosed = false)
    (hbs : bs <+: c.io.input.drop c.io.ipos) (hcoded : ∀ b ∈ bs, c.core.codeLen.lookup b ≠ 0#8) :
    ∃ c', (∀ n, encodeLoop (bs.length + n) c = encodeLoop n c') ∧ Wrote (c.core.encoded bs) (c.skipped bs.length) c' := by
  induction bs generalizing c with
  | nil => exact ⟨c, fun n => by rw [List.length_nil, Nat.zero_add], by rw [List.length_nil, Codec.skipped_zero]; exact .refl hd⟩
  | cons b bs ih =>
    obtain ⟨hb, hrest⟩ := next_bytes hbs
    obtain ⟨hcode, hcodes⟩ := List.forall_mem_cons.1 hcoded
    obtain ⟨c1, hbyte, hwrote⟩ := encodeByte_ok (c := c.skipped 1) (hd.after 1) hopen hcode
    obtain ⟨hlens, hsame, -⟩ := hwrote.codes
    obtain ⟨c2, hloop, hwrote2⟩ := ih (c := c1) hwrote.draws (hwrote.outClosed.trans hopen)
      (by rw [hwrote.input, hwrote.ipos]; exact hrest) (by rw [hlens]; exact hcodes)
    refine ⟨c2, fun n => ?_, ?_⟩
    · rw [List.length_cons, Nat.add_right_comm, encodeLoop_byte _ (Draws.pop_allOk hd).1 hb hbyte, hloop]
    · rw [CoreState.encoded, hsame] at hwrote2
      rw [List.length_cons, Nat.add_comm, Codec.skipped_add]
      exact (hwrote.skipped bs.length).trans hwrote2

/-! ## The rule -/

/-- ENCODE of an input whose bytes all have codes, on an open output with working I/O, completes with their codes written. -/
theorem exec_encode_input {s : State} (hs : s.working) (hopen : s.codec.io.outClosed = false)
    (hvalid : s.codec.core.status.codesValid = true) (hcoded : ∀ b ∈ s.codec.io.input, s.codec.core.codeLen.lookup b ≠ 0#8) :
    ∃ c, exec .encode s = .next { s with codec := c.mapCore setDone, eng := .idle } ∧
      Wrote (s.codec.core.encoded s.codec.io.input)
        ((s.codec.accept (encode .encode)).drawn.rewound.skipped s.codec.io.input.length) c := by
  obtain ⟨hidle, hdraws⟩ := hs
  obtain ⟨hok, hrest⟩ := Draws.pop_allOk hdraws
  obtain ⟨c, hloop, hwrote⟩ := encodeLoop_bytes (c := (s.codec.accept (encode .encode)).drawn.rewound) (bs := s.codec.io.input)
    hrest hopen ⟨[], List.append_nil _⟩ hcoded
  have hend : c.io.ipos = c.io.input.length := by
    rw [hwrote.ipos, hwrote.input]
    exact Nat.zero_add _
  have hbody : encodeBody (s.codec.accept (encode .encode)) = .ok () (c.mapCore setDone) := by
    rw [encodeBody, engine_bind_of_ok (binRewind_ok (c := s.codec.accept (encode .encode)) hok), engine_bind_of_ok (get_apply _)]
    exact (engine_bind_of_ok ((hloop 0).trans (encodeLoop_end 0 hend))).trans (complete_apply c)
  have hrun : exec .encode s = settle (encode .encode) s (withErrorExit encodeBody (s.codec.accept (encode .encode))) :=
    issue_of_pre (pre := preEncode) id encodeBody hidle hvalid
  refine ⟨c, ?_, hwrote⟩
  rw [hrun, withErrorExit_ok hbody]
  exact settle_done hwrote.draws.answered.head_ne

/-! ## The number of bits -/

/-- A sum over the bytes of a list, taken symbol by symbol. -/
theorem sum_map_eq_sum_count (f : Byte → Nat) (bs : List Byte) :
    (bs.map f).sum = (allSymbols.map fun s => bs.count s * f s).sum := by
  have hall : ∀ b, b ∈ allSymbols.toFinset := fun b => List.mem_toFinset.2 (mem_allSymbols b)
  rw [Finset.sum_list_map_count, ← List.sum_toFinset _ allSymbols_nodup]
  refine Finset.sum_subset (fun b _ => hall b) fun b _ hb => ?_
  rw [List.mem_toFinset] at hb
  simp [List.count_eq_zero.2 hb]

/-- The codes of the bytes counted in FREQ have the sum of FREQ * CODE_LEN bits (44_stream_codec.md R117). -/
theorem CoreState.encoded_length {k : CoreState} {bs : List Byte} (hfreq : ∀ b, (k.freq.lookup b).toNat = bs.count b) :
    (k.encoded bs).length = (allSymbols.map fun s => (k.freq.lookup s).toNat * (k.codeLen.lookup s).toNat).sum := by
  simp only [encoded, List.length_flatMap, code_length, hfreq]
  exact sum_map_eq_sum_count _ bs

/-- Settles O51: after the rewind the loop writes the code of every byte of the input. -/
theorem encodeAppendsTheCodes : Obligations.EncodeAppendsTheCodes := by
  intro s hs hopen hvalid hcoded
  obtain ⟨c, hexec, hwrote⟩ := exec_encode_input hs hopen hvalid hcoded
  have hbits : (c.mapCore setDone).outBits = s.codec.outBits ++ s.codec.core.encoded s.codec.io.input := hwrote.outBits
  have hpos : c.core.inPos = BitVec.ofNat 64 s.codec.io.input.length := by
    rw [hwrote.core]
    exact BitVec.zero_add _
  refine ⟨_, hexec, rfl, hbits, fun hfreq => ?_, ?_, hwrote.outClosed.trans hopen, hpos, hwrote.outBytes, ?_⟩
  · rw [hbits, List.length_append, CoreState.encoded_length hfreq]
  · exact hwrote.ipos.trans (Nat.zero_add _)
  · simp only [Codec.mapCore_core]
    rw [hwrote.core]
    rfl

end Sys2Proof.Machine

/-! PROOFS. PROJECT, and WRMAGIC, CHKMAGIC and CLOSE with working I/O, as the round trip of a file needs them
(spec/45_framing_and_control.md R124, R129 to R131; spec/20_memory.md R56). -/

namespace Sys2Proof.Machine

/-! ## The output as bits and as bytes -/

/-- The output bit stream is the bytes' bits and the packer's. -/
theorem Codec.outBits_length (c : Codec) : c.outBits.length = 8 * c.io.output.length + c.core.obits.val := by
  rw [outBits, List.length_append, length_flatMap_byteBits, pendingBits_length]

/-- With no bit pending, the output bit stream is the bits of OUT. -/
theorem Codec.outBits_of_obits_zero {c : Codec} (h : c.core.obits.val = 0) :
    c.outBits = c.io.output.flatMap (byteBits c.params.packOrder) := by
  simp [Codec.outBits, pendingBits, h]

/-- Bits written move the packer's position on, byte by byte. -/
theorem Wrote.obits {bits : List Bool} {c c' : Codec} (h : Wrote bits c c') :
    c'.core.obits.val = (c.core.obits.val + bits.length) % 8 := by
  have hlen := congrArg List.length h.outBits
  rw [List.length_append, Codec.outBits_length, Codec.outBits_length] at hlen
  have hlt := c'.core.obits.isLt
  omega

/-- No bits written leave OUT as it was. -/
theorem Wrote.output_of_nil {c c' : Codec} (h : Wrote [] c c') : c'.io.output = c.io.output := by
  have hlen := congrArg List.length h.outBits
  rw [List.length_append, Codec.outBits_length, Codec.outBits_length, List.length_nil] at hlen
  have hlt := c.core.obits.isLt
  have hlt' := c'.core.obits.isLt
  exact (h.grows.eq_of_length (by omega)).symm

/-! ## PROJECT -/

/-- The codec in which the rule of PROJECT runs: the word accepted, and the sizes cleared (10_state.md R32). -/
abbrev State.acceptedProject (s : State) : Codec := (s.codec.accept (encode .project)).mapCore clearSizes

/-- PROJECT completes with the sizes stored. -/
theorem exec_project {s : State} (hs : s.prompt) (hpre : preProject s.codec.core = true) : exec .project s =
    .next { s with codec := (s.acceptedProject.mapCore storeSizes).mapCore setDone, eng := .idle } := by
  obtain ⟨hidle, hdraws⟩ := hs
  have hbody : projectBody s.acceptedProject = .ok () ((s.acceptedProject.mapCore storeSizes).mapCore setDone) := by
    rw [projectBody, engine_bind_of_ok (modifyCore_apply _ _), complete_apply]
  have hrun : exec .project s = settle (encode .project) s (withErrorExit projectBody s.acceptedProject) :=
    issue_of_pre (pre := preProject) clearSizes projectBody hidle hpre
  rw [hrun, withErrorExit_ok hbody]
  exact settle_done hdraws

/-! ## WRMAGIC -/

/-- The codec after the bytes are written (20_memory.md R51). -/
def Codec.bytesWritten (bs : List Byte) (c : Codec) : Codec :=
  { c with
    core := { c.core with outBytes := c.core.outBytes + BitVec.ofNat 64 bs.length }
    io := { c.io with output := c.io.output ++ bs, draws := c.io.draws.after bs.length } }

/-- With no bit pending, bytes written are their bits written. -/
theorem Codec.outBits_bytesWritten (bs : List Byte) {c : Codec} (h : c.core.obits.val = 0) :
    (c.bytesWritten bs).outBits = c.outBits ++ bs.flatMap (byteBits c.params.packOrder) := by
  rw [outBits_of_obits_zero h, outBits_of_obits_zero (show (c.bytesWritten bs).core.obits.val = 0 from h), ← List.flatMap_append]
  rfl

theorem writeBytes_ok {bs : List Byte} {c : Codec} (hd : c.io.draws.okFor bs.length = true) (hopen : c.io.outClosed = false) :
    writeBytes bs c = .ok () (c.bytesWritten bs) := by
  induction bs generalizing c with
  | nil => simp [writeBytes, Codec.bytesWritten]
  | cons b bs ih =>
    rw [List.length_cons, Draws.okFor_succ, Bool.and_eq_true, beq_iff_eq] at hd
    rw [writeBytes, engine_bind_of_ok (boutWrite_ok b hd.1 hopen), ih (c := c.drawn.appended b) hd.2 hopen]
    simp [Codec.bytesWritten, Nat.add_comm bs.length, BitVec.ofNat_add, BitVec.add_assoc, Draws.after_add]

/-- The state after WRMAGIC has written the marker and completed (45_framing_and_control.md R129). -/
abbrev State.magicWritten (s : State) : State :=
  { s with codec := ((s.codec.accept (encode .wrmagic)).bytesWritten Config.magic).mapCore setDone, eng := .idle }

/-- WRMAGIC on an open output with working I/O and no bit pending writes the marker. -/
theorem exec_wrmagic_ok {s : State} (hs : s.working) (hopen : s.codec.io.outClosed = false) (hobits : s.codec.core.obits = 0) :
    exec .wrmagic s = .next s.magicWritten := by
  obtain ⟨hidle, hdraws⟩ := hs
  have hwrite := writeBytes_ok (bs := Config.magic) (c := s.codec.accept (encode .wrmagic)) (hdraws.okFor _) hopen
  have hbody : wrmagicBody (s.codec.accept (encode .wrmagic)) = .ok () s.magicWritten.codec := by
    rw [wrmagicBody, engine_bind_of_ok hwrite, complete_apply]
  have hrun : exec .wrmagic s = settle (encode .wrmagic) s (withErrorExit wrmagicBody (s.codec.accept (encode .wrmagic))) :=
    issue_of_pre (pre := preWrmagic) id wrmagicBody hidle (by simp [preWrmagic, hobits])
  rw [hrun, withErrorExit_ok hbody]
  exact settle_done (hdraws.after _).answered.head_ne

/-! ## CHKMAGIC -/

/-- The bytes asked for, next in the input, are read and pass. -/
theorem checkBytes_ok {bs : List Byte} {c : Codec} (hd : c.io.draws.okFor bs.length = true)
    (hbs : bs <+: c.io.input.drop c.io.ipos) : checkBytes bs c = .ok () (c.skipped bs.length) := by
  induction bs generalizing c with
  | nil => simp [checkBytes]
  | cons b bs ih =>
    rw [List.length_cons, Draws.okFor_succ, Bool.and_eq_true, beq_iff_eq] at hd
    obtain ⟨hb, hrest⟩ := next_bytes hbs
    have hlt : c.io.ipos < c.io.input.length := (List.getElem?_eq_some_iff.1 hb).1
    rw [checkBytes, engine_bind_of_ok (binAtEnd_apply c), if_neg (by simp [Streams.atEnd, Nat.ne_of_lt hlt]),
      engine_bind_of_ok (binRead_skipped hd.1 hb), if_neg (not_not_intro rfl), ih (c := c.skipped 1) hd.2 hrest, List.length_cons,
      Nat.add_comm, Codec.skipped_add]

/-- The state after CHKMAGIC has read the marker and completed (45_framing_and_control.md R130). -/
abbrev State.magicRead (s : State) : State :=
  { s with
    codec := ((s.codec.accept (encode .chkmagic)).drawn.rewound.skipped Config.magic.length).mapCore setDone, eng := .idle }

/-- CHKMAGIC of an input that begins with the marker, with working I/O, passes. -/
theorem exec_chkmagic_ok {s : State} (hs : s.working) (hmagic : Config.magic <+: s.codec.io.input) :
    exec .chkmagic s = .next s.magicRead := by
  obtain ⟨hidle, hdraws⟩ := hs
  obtain ⟨hok, hrest⟩ := Draws.pop_allOk hdraws
  have hcheck := checkBytes_ok (c := (s.codec.accept (encode .chkmagic)).drawn.rewound) (hrest.okFor _) hmagic
  have hbody : chkmagicBody (s.codec.accept (encode .chkmagic)) = .ok () s.magicRead.codec := by
    rw [chkmagicBody, engine_bind_of_ok (binRewind_ok (c := s.codec.accept (encode .chkmagic)) hok), engine_bind_of_ok hcheck,
      complete_apply]
  have hrun : exec .chkmagic s = settle (encode .chkmagic) s (withErrorExit chkmagicBody (s.codec.accept (encode .chkmagic))) :=
    issue_of_pre (pre := preNone) id chkmagicBody hidle rfl
  rw [hrun, withErrorExit_ok hbody]
  exact settle_done (hrest.after _).answered.head_ne

/-! ## CLOSE -/

/-- The pad bits that fill the packer's byte (20_memory.md R56). -/
def Codec.padBits (c : Codec) : List Bool := List.replicate ((8 - c.core.obits.val) % 8) c.params.padBit

theorem Codec.padBits_of_obits_zero {c : Codec} (h : c.core.obits.val = 0) : c.padBits = [] := by simp [padBits, h]

theorem bitFlushLoop_done (n : Nat) {c : Codec} (h : c.core.obits.val = 0) : bitFlushLoop n c = .ok () c := by
  cases n with
  | zero => rfl
  | succ n =>
    rw [bitFlushLoop, engine_bind_of_ok (get_apply c), if_pos h]
    rfl

/-- The flush writes the pad bits. -/
theorem bitFlushLoop_ok {n : Nat} {c : Codec} (hd : c.io.draws.allOk) (hopen : c.io.outClosed = false)
    (hn : c.padBits.length ≤ n) : ∃ c', bitFlushLoop n c = .ok () c' ∧ Wrote c.padBits c c' := by
  induction n generalizing c with
  | zero =>
    have h0 : c.core.obits.val = 0 := by
      rw [Codec.padBits, List.length_replicate] at hn
      omega
    exact ⟨c, bitFlushLoop_done 0 h0, by rw [Codec.padBits_of_obits_zero h0]; exact .refl hd⟩
  | succ n ih =>
    by_cases h0 : c.core.obits.val = 0
    · exact ⟨c, bitFlushLoop_done _ h0, by rw [Codec.padBits_of_obits_zero h0]; exact .refl hd⟩
    obtain ⟨c1, hwrite, hwrote⟩ := bitWrite_ok c.params.padBit hd hopen
    have hpad : c.padBits = c.params.padBit :: c1.padBits := by
      have hobits : c1.core.obits.val = (c.core.obits.val + 1) % 8 := hwrote.obits
      rw [Codec.padBits, Codec.padBits, hwrote.params, ← List.replicate_succ]
      congr 1
      omega
    rw [hpad] at hn ⊢
    obtain ⟨c2, hflush, hwrote2⟩ := ih hwrote.draws (hwrote.outClosed.trans hopen) (Nat.le_of_succ_le_succ hn)
    refine ⟨c2, ?_, hwrote.trans hwrote2⟩
    rw [bitFlushLoop, engine_bind_of_ok (get_apply c), if_neg h0]
    exact (engine_bind_of_ok hwrite).trans hflush

/-- The codec after a close succeeds (20_memory.md R52). -/
def Codec.closed (c : Codec) : Codec := c.drawn.mapIo fun io => { io with outClosed := true }

/-- CLOSE on an open output with working I/O pads the packer's byte and closes. -/
theorem exec_close_ok {s : State} (hs : s.working) (hopen : s.codec.io.outClosed = false) :
    ∃ c, exec .close s = .next { s with codec := c.closed.mapCore setDone, eng := .idle } ∧
      Wrote s.codec.padBits (s.codec.accept (encode .close)) c ∧ c.core.obits.val = 0 := by
  obtain ⟨hidle, hdraws⟩ := hs
  have hlt := s.codec.core.obits.isLt
  have hlen : s.codec.padBits.length = (8 - s.codec.core.obits.val) % 8 := List.length_replicate
  obtain ⟨c, hflush, hwrote⟩ := bitFlushLoop_ok (n := 7) (c := s.codec.accept (encode .close)) hdraws hopen
    (show s.codec.padBits.length ≤ 7 by omega)
  obtain ⟨hok, hrest⟩ := Draws.pop_allOk hwrote.draws
  have hclose : boutClose c = .ok () c.closed := by
    rw [boutClose, engine_bind_of_ok (quiet_ok.2 (tryClose_ok hok))]
    rfl
  have hbody : closeBody (s.codec.accept (encode .close)) = .ok () (c.closed.mapCore setDone) := by
    rw [closeBody, bitFlush, engine_bind_of_ok hflush, engine_bind_of_ok hclose, complete_apply]
  have hrun : exec .close s = settle (encode .close) s (withErrorExit closeBody (s.codec.accept (encode .close))) :=
    issue_of_pre (pre := preNone) id closeBody hidle rfl
  refine ⟨c, ?_, hwrote, ?_⟩
  · rw [hrun, withErrorExit_ok hbody]
    exact settle_done hrest.answered.head_ne
  · have hobits : c.core.obits.val = (s.codec.core.obits.val + s.codec.padBits.length) % 8 := hwrote.obits
    omega

end Sys2Proof.Machine

/-! PROOFS. The commands of COMPRESS before the first write: the counts, the tree, the codes and the sizes of a non-empty input
(spec/44_stream_codec.md R122; spec/45_framing_and_control.md R124, R125). -/

namespace Sys2Proof.Machine

/-- What is known once the input `S` is counted and nothing else has been done: COUNT touches no output. -/
structure CountedFrom (S : List Byte) (s t : State) : Prop where
  working : t.working
  freqValid : t.codec.core.status.freqValid = true
  counts : ∀ b, (t.codec.core.freq.lookup b).toNat = S.count b
  io : t.codec.io = { s.codec.io with ipos := t.codec.io.ipos, draws := t.codec.io.draws }
  obits : t.codec.core.obits = s.codec.core.obits
  params : t.codec.params = s.codec.params

theorem exec_count_counted {s : State} (hs : s.working) (hl : s.codec.io.input.length < 2 ^ 32) :
    ∃ t, exec .count s = .next t ∧ CountedFrom s.codec.io.input s t := by
  have hcore : s.acceptedCount.wholeCounted.core =
      setDone (finishCount (s.acceptedCount.beginCount.counted s.codec.io.input).core) := rfl
  have hio : s.acceptedCount.wholeCounted.io = (s.acceptedCount.beginCount.counted s.codec.io.input).io := rfl
  rw [Codec.counted_core] at hcore
  rw [Codec.counted_io] at hio
  refine ⟨_, exec_count_whole hs hl, ⟨rfl, ?_⟩, ?_, Codec.beginCount_counted_lookup s.acceptedCount hl, ?_, ?_, ?_⟩
  · rw [hio]
    exact (Draws.pop_allOk hs.2).2.after _
  · rw [hcore]
    rfl
  · rw [hio]
    rfl
  · rw [hcore]
    rfl
  · exact Codec.counted_params _ _

/-- What is known from the end of BUILD to the first write: the core of `t` holds the tree `tr`, and has the counts of `s`, its pending
bits and its streams. -/
structure TreeHeld (tr : CodeTree) (s t : State) : Prop where
  eng : t.eng = .idle
  io : t.codec.io = s.codec.io
  params : t.codec.params = s.codec.params
  obits : t.codec.core.obits = s.codec.core.obits
  freq : t.codec.core.freq = s.codec.core.freq
  freqValid : t.codec.core.status.freqValid = true
  treeValid : t.codec.core.status.treeValid = true
  treeBuilt : t.codec.core.status.treeBuilt = true
  holds : t.codec.core.holds tr
  treeBits : t.codec.core.treeBits.toNat = (tr.bits s.codec.params.symOrder).length

theorem TreeHeld.prompt {tr : CodeTree} {s t : State} (h : TreeHeld tr s t) (hs : s.prompt) : t.prompt :=
  ⟨h.eng, by rw [h.io]; exact hs.2⟩

theorem TreeHeld.working {tr : CodeTree} {s t : State} (h : TreeHeld tr s t) (hs : s.working) : t.working :=
  ⟨h.eng, by rw [h.io]; exact hs.2⟩

theorem exec_build_held {s : State} (hs : s.prompt) (hvalid : s.codec.core.status.freqValid = true)
    (hpresent : presentCount s.codec.core.freq ≠ 0) :
    ∃ t tr, exec .build s = .next t ∧ TreeHeld tr s t ∧ tr.isNode = true ∧ tr.size ≤ Config.nodeCap ∧
      leavesMatch s.codec.core.freq tr := by
  obtain ⟨t, tr, hbuild, -, hholds, hnode, hleaves, -, -, -, htreeBits, -⟩ := buildMakesOneFullTree s hs hvalid hpresent
  cases (exec_build_present hs hvalid hpresent).symm.trans hbuild
  obtain ⟨-, -, hsize⟩ := id hholds
  refine ⟨_, tr, hbuild, ⟨rfl, rfl, rfl, rfl, rfl, hvalid, rfl, rfl, hholds, by rw [htreeBits, CodeTree.bits_length]⟩, hnode, ?_,
    hleaves⟩
  rw [hsize]
  exact (builtForest_bounds hpresent).2

theorem exec_gencodes_held {s t : State} {tr : CodeTree} (h : TreeHeld tr s t) (hs : s.prompt)
    (hleaves : leavesMatch s.codec.core.freq tr) :
    ∃ u, exec .gencodes t = .next u ∧ TreeHeld tr s u ∧ u.codec.core.status.codesValid = true ∧ u.codec.core.codesOf tr :=
  ⟨_, exec_gencodes (h.prompt hs) h.treeValid h.treeBuilt h.holds.1,
    ⟨rfl, h.io, h.params, h.obits, h.freq, h.freqValid, h.treeValid, h.treeBuilt, h.holds, h.treeBits⟩, rfl,
    codesOf_of_bindTree (fun _ => rfl) hleaves.realSymbols_nodup hleaves.depth_le⟩

/-- A code has at most MAX_CODE_LEN bits. -/
theorem CoreState.encoded_length_le (k : CoreState) (bs : List Byte) : (k.encoded bs).length ≤ 255 * bs.length := by
  induction bs with
  | nil => rfl
  | cons b bs ih =>
    have hb := (k.codeLen.lookup b).isLt
    rw [encoded] at ih ⊢
    rw [List.flatMap_cons, List.length_append, code_length, List.length_cons]
    omega

/-- PROJECT's sums for the bytes counted in FREQ fit their registers (45_framing_and_control.md R124). -/
theorem storeSizes_toNat {k : CoreState} {S : List Byte} (hcounts : ∀ b, (k.freq.lookup b).toNat = S.count b)
    (hl : S.length < 2 ^ 32) : (storeSizes k).payloadBits.toNat = (k.encoded S).length ∧
    (storeSizes k).projectedBits.toNat = 16 + roundup8 (k.treeBits.toNat + (k.encoded S).length) := by
  have hpayload : payloadSize k = (k.encoded S).length := by rw [payloadSize_eq, CoreState.encoded_length hcounts]
  have hle := k.encoded_length_le S
  have hbits := k.treeBits.isLt
  simp only [storeSizes_fields, projectedSize, hpayload, Config.hdrOverheadBits, roundup8, BitVec.toNat_ofNat]
  omega

theorem exec_project_held {s t : State} {tr : CodeTree} {S : List Byte} (h : TreeHeld tr s t) (hs : s.prompt)
    (hcodes : t.codec.core.status.codesValid = true) (hcounts : ∀ b, (s.codec.core.freq.lookup b).toNat = S.count b)
    (hl : S.length < 2 ^ 32) :
    ∃ u, exec .project t = .next u ∧ TreeHeld tr s u ∧ u.codec.core.status.codesValid = true ∧
      u.codec.core.code = t.codec.core.code ∧ u.codec.core.payloadBits.toNat = (t.codec.core.encoded S).length ∧
      u.codec.core.projectedBits.toNat =
        16 + roundup8 ((tr.bits s.codec.params.symOrder).length + (t.codec.core.encoded S).length) := by
  rw [← h.freq] at hcounts
  obtain ⟨hpayload, hprojected⟩ := storeSizes_toNat (k := t.acceptedProject.core) hcounts hl
  exact ⟨_, exec_project (h.prompt hs) (by simp [preProject, h.freqValid, h.treeBuilt, hcodes]),
    ⟨rfl, h.io, h.params, h.obits, h.freq, h.freqValid, h.treeValid, h.treeBuilt, h.holds, h.treeBits⟩, hcodes, rfl, hpayload,
    by rw [← h.treeBits]; exact hprojected⟩

/-- A byte counted is a present symbol. -/
theorem lookup_ne_zero_of_mem {freq : Table (BitVec 32)} {S : List Byte} (hcounts : ∀ b, (freq.lookup b).toNat = S.count b) {b : Byte}
    (hb : b ∈ S) : freq.lookup b ≠ 0#32 := fun hzero => by
  have hcount := hcounts b
  rw [hzero, BitVec.toNat_zero, eq_comm, List.count_eq_zero] at hcount
  exact hcount hb

/-- Of a non-empty input a symbol is present. -/
theorem presentCount_ne_zero {freq : Table (BitVec 32)} {S : List Byte} (hcounts : ∀ b, (freq.lookup b).toNat = S.count b)
    (hne : S ≠ []) : presentCount freq ≠ 0 := by
  obtain ⟨b, hb⟩ := List.exists_mem_of_ne_nil S hne
  rw [← presentSymbols_length]
  exact Nat.ne_of_gt (List.length_pos_of_mem (mem_presentSymbols.2 (lookup_ne_zero_of_mem hcounts hb)))

/-- In a core with the codes of a built tree each byte counted has a path to its leaf as its code. -/
theorem CoreState.codesOf.path {k : CoreState} {freq : Table (BitVec 32)} {tr : CodeTree} (h : k.codesOf tr)
    (hnode : tr.isNode = true) (hleaves : leavesMatch freq tr) {b : Byte} (hb : freq.lookup b ≠ 0#32) :
    ∃ w ph, tr.follow (k.code b) = some (.leaf b w ph) := by
  have hcoded := (h.codeLen_ne_zero_iff hnode).2 (hleaves.mem_realSymbols.2 hb)
  obtain ⟨w, hw⟩ := h.1 b (CoreState.code_ne_nil_iff.2 hcoded)
  exact ⟨w, false, hw⟩

end Sys2Proof.Machine

/-! PROOFS. The commands of COMPRESS that write: the marker, the tokens of the tree, the codes of the input and the pad bits
(spec/44_stream_codec.md R122). -/

namespace Sys2Proof.Machine

/-- From WRMAGIC to ENCODE: `bits` are appended to the output, with the input, the codes and the parameters as they were. -/
structure Continues (bits : List Bool) (s t : State) : Prop where
  working : t.working
  outBits : t.codec.outBits = s.codec.outBits ++ bits
  grows : s.codec.io.output <+: t.codec.io.output
  outClosed : t.codec.io.outClosed = s.codec.io.outClosed
  input : t.codec.io.input = s.codec.io.input
  params : t.codec.params = s.codec.params
  codeLen : t.codec.core.codeLen = s.codec.core.codeLen
  code : t.codec.core.code = s.codec.core.code
  codesValid : t.codec.core.status.codesValid = s.codec.core.status.codesValid

theorem Continues.trans {b1 b2 : List Bool} {s t u : State} (h1 : Continues b1 s t) (h2 : Continues b2 t u) :
    Continues (b1 ++ b2) s u where
  working := h2.working
  outBits := by rw [h2.outBits, h1.outBits, List.append_assoc]
  grows := h1.grows.trans h2.grows
  outClosed := h2.outClosed.trans h1.outClosed
  input := h2.input.trans h1.input
  params := h2.params.trans h1.params
  codeLen := h2.codeLen.trans h1.codeLen
  code := h2.code.trans h1.code
  codesValid := h2.codesValid.trans h1.codesValid

/-- WRMAGIC and WRTREE. -/
theorem exec_write_header {s : State} {tr : CodeTree} (hs : s.working) (hopen : s.codec.io.outClosed = false)
    (hobits : s.codec.core.obits = 0) (hvalid : s.codec.core.status.treeValid = true)
    (htree : treeOf s.codec.core.node walkDepth s.codec.core.root = some tr) :
    ∃ t u, exec .wrmagic s = .next t ∧ exec .wrtree t = .next u ∧ s.codec.io.output ++ Config.magic <+: u.codec.io.output ∧
      Continues (Config.magic.flatMap (byteBits s.codec.params.packOrder) ++ tr.bits s.codec.params.symOrder) s u := by
  obtain ⟨c, hwrtree, hwrote⟩ := exec_wrtree (tr := tr) (s := s.magicWritten) ⟨rfl, hs.2.after _⟩ hopen hvalid htree
  have hmagic : Continues (Config.magic.flatMap (byteBits s.codec.params.packOrder)) s s.magicWritten :=
    ⟨⟨rfl, hs.2.after _⟩, Codec.outBits_bytesWritten (c := s.codec) Config.magic (congrArg Fin.val hobits), List.prefix_append _ _,
      rfl, rfl, rfl, rfl, rfl, rfl⟩
  obtain ⟨hlens, hsame, hstatus⟩ := hwrote.codes
  exact ⟨_, _, exec_wrmagic_ok hs hopen hobits, hwrtree, hwrote.grows, hmagic.trans ⟨⟨rfl, hwrote.draws⟩, hwrote.outBits,
    hwrote.grows, hwrote.outClosed, hwrote.input, hwrote.params, hlens, hsame, (congrArg Status.codesValid hstatus :)⟩⟩

theorem exec_encode_continues {s : State} (hs : s.working) (hopen : s.codec.io.outClosed = false)
    (hvalid : s.codec.core.status.codesValid = true) (hcoded : ∀ b ∈ s.codec.io.input, s.codec.core.codeLen.lookup b ≠ 0#8) :
    ∃ t, exec .encode s = .next t ∧ Continues (s.codec.core.encoded s.codec.io.input) s t := by
  obtain ⟨c, hencode, hwrote⟩ := exec_encode_input hs hopen hvalid hcoded
  obtain ⟨hlens, hsame, hstatus⟩ := hwrote.codes
  exact ⟨_, hencode, ⟨rfl, hwrote.draws⟩, hwrote.outBits, hwrote.grows, hwrote.outClosed, hwrote.input, hwrote.params, hlens,
    hsame, (congrArg Status.codesValid hstatus :)⟩

/-- A bit string with the pad bits that fill its last byte (20_memory.md R56). -/
def padded (pad : Bool) (bits : List Bool) : List Bool := bits ++ List.replicate ((8 - bits.length % 8) % 8) pad

theorem padded_length (pad : Bool) (bits : List Bool) : (padded pad bits).length = roundup8 bits.length := by
  rw [padded, List.length_append, List.length_replicate, roundup8]
  omega

/-- CLOSE pads the whole output bit stream. -/
theorem exec_close_padded {s : State} (hs : s.working) (hopen : s.codec.io.outClosed = false) :
    ∃ t, exec .close s = .next t ∧ t.codec.core.status.done = true ∧ t.codec.io.outClosed = true ∧
      s.codec.io.output <+: t.codec.io.output ∧
      t.codec.io.output.flatMap (byteBits s.codec.params.packOrder) = padded s.codec.params.padBit s.codec.outBits := by
  obtain ⟨c, hclose, hwrote, hobits⟩ := exec_close_ok hs hopen
  have hbits : c.outBits = s.codec.outBits ++ s.codec.padBits := hwrote.outBits
  have hparams : c.params = s.codec.params := hwrote.params
  have hlt := s.codec.core.obits.isLt
  refine ⟨_, hclose, rfl, rfl, hwrote.grows, ?_⟩
  rw [Codec.outBits_of_obits_zero hobits, hparams] at hbits
  rw [padded, Codec.outBits_length, Nat.mul_add_mod, Nat.mod_eq_of_lt hlt]
  exact hbits

/-- The bits of the marker are whole bytes. -/
theorem padded_append_bytes (pad : Bool) (order : BitOrder) (bytes : List Byte) (bits : List Bool) :
    padded pad (bytes.flatMap (byteBits order) ++ bits) = bytes.flatMap (byteBits order) ++ padded pad bits := by
  rw [padded, padded, List.length_append, length_flatMap_byteBits, Nat.mul_add_mod, List.append_assoc]

/-- On an empty open output the commands of COMPRESS that write make a file of the marker, the tree's tokens and the codes of the input,
padded to whole bytes (44_stream_codec.md R122). -/
theorem exec_write_file {s : State} {tr : CodeTree} (hs : s.working) (hopen : s.codec.io.outClosed = false)
    (hempty : s.codec.io.output = []) (hobits : s.codec.core.obits = 0) (hvalid : s.codec.core.status.treeValid = true)
    (htree : treeOf s.codec.core.node walkDepth s.codec.core.root = some tr) (hcodes : s.codec.core.status.codesValid = true)
    (hcoded : ∀ b ∈ s.codec.io.input, s.codec.core.codeLen.lookup b ≠ 0#8) :
    ∃ s1 s2 s3 s4 body, exec .wrmagic s = .next s1 ∧ exec .wrtree s1 = .next s2 ∧ exec .encode s2 = .next s3 ∧
      exec .close s3 = .next s4 ∧ s4.codec.core.status.done = true ∧ s4.codec.io.outClosed = true ∧
      s4.codec.io.output = Config.magic ++ body ∧ body.flatMap (byteBits s.codec.params.packOrder) =
        padded s.codec.params.padBit (tr.bits s.codec.params.symOrder ++ s.codec.core.encoded s.codec.io.input) := by
  obtain ⟨s1, s2, hwrmagic, hwrtree, hgrows, hheader⟩ := exec_write_header hs hopen hobits hvalid htree
  obtain ⟨s3, hencode, hdata⟩ := exec_encode_continues hheader.working (hheader.outClosed.trans hopen)
    (hheader.codesValid.trans hcodes) (by rw [hheader.input, hheader.codeLen]; exact hcoded)
  rw [CoreState.encoded, hheader.code, hheader.input, ← CoreState.encoded] at hdata
  have hwhole := hheader.trans hdata
  obtain ⟨s4, hclose, hdone, hclosed, hkept, hpadded⟩ := exec_close_padded hwhole.working (hwhole.outClosed.trans hopen)
  obtain ⟨body, hbody⟩ := hgrows.trans (hdata.grows.trans hkept)
  rw [hempty, List.nil_append] at hbody
  refine ⟨s1, s2, s3, s4, body, hwrmagic, hwrtree, hencode, hclose, hdone, hclosed, hbody.symm, ?_⟩
  rw [hwhole.outBits, hwhole.params, Codec.outBits_of_obits_zero (congrArg Fin.val hobits), hempty, ← hbody,
    List.flatMap_append, List.flatMap_nil, List.nil_append, List.append_assoc, padded_append_bytes] at hpadded
  exact List.append_cancel_left hpadded

end Sys2Proof.Machine

/-! PROOFS. The commands of DECOMPRESS on a file that COMPRESS wrote (spec/44_stream_codec.md R122; spec/45_framing_and_control.md
R125). -/

namespace Sys2Proof.Machine

/-! ## CHKMAGIC, RDTREE, DECODE, CLOSE -/

/-- With an empty unpacker the bits left are those of the bytes left. -/
theorem Codec.inBits_of_ibits_zero {c : Codec} (h : c.core.ibits.val = 0) :
    c.inBits = (c.io.input.drop c.io.ipos).flatMap (byteBits c.params.packOrder) := by
  simp [Codec.inBits, unreadBits, h]

@[simp] theorem CodeTree.isNode_plain (t : CodeTree) : t.plain.isNode = t.isNode := by cases t <;> rfl

/-- CHKMAGIC and RDTREE of a file of the marker, the tokens of a tree and more bits: the tree is held, and the other bits are left. -/
theorem exec_read_header {s : State} {tr : CodeTree} {body : List Byte} {rest : List Bool} (hs : s.working)
    (hinput : s.codec.io.input = Config.magic ++ body)
    (hbits : body.flatMap (byteBits s.codec.params.packOrder) = tr.bits s.codec.params.symOrder ++ rest)
    (hsize : tr.size ≤ Config.nodeCap) :
    ∃ t u, exec .chkmagic s = .next t ∧ exec .rdtree t = .next u ∧ u.working ∧ u.codec.core.holds tr.plain ∧
      u.codec.core.status.treeValid = true ∧ u.codec.inBits = rest ∧ u.codec.io.ipos ≤ u.codec.io.input.length ∧
      u.codec.core.obits = s.codec.core.obits ∧ u.codec.io.output = s.codec.io.output ∧
      u.codec.io.outClosed = s.codec.io.outClosed := by
  obtain ⟨-, hrest⟩ := Draws.pop_allOk hs.2
  have hleft : s.magicRead.codec.inBits = tr.bits s.codec.params.symOrder ++ rest := by
    rw [Codec.inBits_of_ibits_zero rfl, ← hbits]
    change (s.codec.io.input.drop 2).flatMap _ = _
    rw [hinput]
    rfl
  obtain ⟨c, hrdtree, hparsed, hnode⟩ := exec_rdtree_tree (s := s.magicRead) ⟨rfl, hrest.after _⟩ hleft hsize
  have hobits : c.core.obits = s.codec.core.obits := by rw [hparsed.core_eq]; rfl
  refine ⟨_, _, exec_chkmagic_ok hs ⟨body, hinput.symm⟩, hrdtree, ⟨rfl, hparsed.draws_allOk⟩,
    CoreState.holds_of_layout hnode rfl (by rwa [CodeTree.size_plain]), rfl, hparsed.inBits_eq hleft, hparsed.within ?_, hobits,
    (congrArg Streams.output hparsed.io :), (congrArg Streams.outClosed hparsed.io :)⟩
  change 0 + 2 ≤ s.codec.io.input.length
  rw [hinput, List.length_append]
  exact Nat.le_add_right _ _

/-- DECODE and CLOSE with no bit pending: the output is what the tree makes of the bits left. -/
theorem exec_read_data {s : State} {tr : CodeTree} (hs : s.working) (hopen : s.codec.io.outClosed = false)
    (hvalid : s.codec.core.status.treeValid = true) (hobits : s.codec.core.obits = 0)
    (hin : s.codec.io.ipos ≤ s.codec.io.input.length)
    (htree : treeOf s.codec.core.node walkDepth s.codec.core.root = some tr) (hnode : tr.isNode = true) :
    ∃ t u, exec .decode s = .next t ∧ exec .close t = .next u ∧ u.codec.core.status.done = true ∧
      u.codec.io.output = s.codec.io.output ++ (tr.decode s.codec.inBits).1 := by
  obtain ⟨c, hdecode, htook⟩ := exec_decode_tree hs hopen hvalid hobits hin htree hnode
  have hopen' : c.io.outClosed = false := (congrArg Streams.outClosed htook.io).trans hopen
  obtain ⟨c', hclose, hwrote, -⟩ := exec_close_ok (s := { s with
    codec := (c.mapCore (markTail (tr.decode s.codec.inBits).2)).mapCore setDone, eng := .idle }) ⟨rfl, htook.draws⟩ hopen'
  have hobits' : (markTail (tr.decode s.codec.inBits).2 c.core).obits = 0 := by
    have hsame : c.core.obits = s.codec.core.obits := by rw [htook.core]; rfl
    cases (tr.decode s.codec.inBits).2 with
    | false => exact hsame.trans hobits
    | true => exact hsame.trans hobits
  rw [Codec.padBits_of_obits_zero (congrArg Fin.val hobits')] at hwrote
  exact ⟨_, _, hdecode, hclose, rfl, hwrote.output_of_nil.trans (congrArg Streams.output htook.io)⟩

/-- The commands of DECOMPRESS on a file of the marker, the tokens of a tree and more bits. -/
theorem exec_read_file {s : State} {tr : CodeTree} {body : List Byte} {rest : List Bool} (hs : s.working)
    (hopen : s.codec.io.outClosed = false) (hempty : s.codec.io.output = []) (hobits : s.codec.core.obits = 0)
    (hinput : s.codec.io.input = Config.magic ++ body)
    (hbits : body.flatMap (byteBits s.codec.params.packOrder) = tr.bits s.codec.params.symOrder ++ rest)
    (hsize : tr.size ≤ Config.nodeCap) (hnode : tr.isNode = true) :
    ∃ s1 s2 s3 s4, exec .chkmagic s = .next s1 ∧ exec .rdtree s1 = .next s2 ∧ exec .decode s2 = .next s3 ∧
      exec .close s3 = .next s4 ∧ s4.codec.core.status.done = true ∧ s4.codec.io.output = (tr.decode rest).1 := by
  obtain ⟨s1, s2, hchk, hrdtree, hs2, hholds, hvalid, hleft, hin, hsame, hout, hclosed⟩ := exec_read_header hs hinput hbits hsize
  obtain ⟨s3, s4, hdecode, hclose, hdone, hwritten⟩ := exec_read_data hs2 (hclosed.trans hopen) hvalid (hsame.trans hobits) hin
    hholds.1 (by rwa [CodeTree.isNode_plain])
  rw [hout, hempty, List.nil_append, hleft, CodeTree.decode_plain] at hwritten
  exact ⟨s1, s2, s3, s4, hchk, hrdtree, hdecode, hclose, hdone, hwritten⟩

/-! ## The round trip -/

/-- Nothing follows `S` exactly when `k` zeros do not reach a leaf at depth `d` (44_stream_codec.md R122). -/
theorem append_replicate_eq_self_iff {S : List Byte} {k d : Nat} (z : Byte) (hd : 1 ≤ d) :
    S ++ List.replicate (k / d) z = S ↔ k < d := by
  rw [eq_comm, List.self_eq_append_right, List.replicate_eq_nil_iff, Nat.div_eq_zero_iff]
  omega

/-- Settles O59: the file is the marker, the tokens of the tree built, the codes of S and the pad bits; the tokens are read back as the
tree, on which the codes give S and the pad bits what they spell. -/
theorem compressedInputDecompresses : Obligations.CompressedInputDecompresses := by
  rintro s S hs hopen hempty hobits rfl hne hl
  obtain ⟨s1, hcount, hcounted⟩ := exec_count_counted hs hl
  have hprompt : s1.prompt := ⟨hcounted.working.1, hcounted.working.2.answered.head_ne⟩
  obtain ⟨s2, tr, hbuild, hheld2, hnode, hsize, hleaves⟩ :=
    exec_build_held hprompt hcounted.freqValid (presentCount_ne_zero hcounted.counts hne)
  obtain ⟨s3, hgen, hheld3, hcodes3, hpaths⟩ := exec_gencodes_held hheld2 hprompt hleaves
  obtain ⟨s4, hproject, hheld4, hcodes4, hsame, hpayload, hprojected⟩ :=
    exec_project_held hheld3 hprompt hcodes3 hcounted.counts hl
  have hfollow : ∀ b ∈ s.codec.io.input, ∃ w ph, tr.follow (s4.codec.core.code b) = some (.leaf b w ph) := fun b hb => by
    rw [hsame]
    exact hpaths.path hnode hleaves (lookup_ne_zero_of_mem hcounted.counts hb)
  have hio : s4.codec.io = { s.codec.io with ipos := s1.codec.io.ipos, draws := s1.codec.io.draws } :=
    hheld4.io.trans hcounted.io
  have hinput : s4.codec.io.input = s.codec.io.input := (congrArg Streams.input hio :)
  have hparams : s4.codec.params = s.codec.params := hheld4.params.trans hcounted.params
  obtain ⟨s5, s6, s7, s8, body, hwrmagic, hwrtree, hencode, hclose, hdone, hclosed, hfile, hbody⟩ :=
    exec_write_file (hheld4.working hcounted.working) ((congrArg Streams.outClosed hio).trans hopen)
      ((congrArg Streams.output hio).trans hempty) ((hheld4.obits.trans hcounted.obits).trans hobits) hheld4.treeValid
      hheld4.holds.1 hcodes4 fun b hb => by
        obtain ⟨w, ph, hb'⟩ := hfollow b (hinput ▸ hb)
        exact CoreState.code_ne_nil_iff.1 (CodeTree.path_ne_nil hnode hb')
  rw [hinput, hparams] at hbody
  have hencoded : s4.codec.core.encoded s.codec.io.input = s3.codec.core.encoded s.codec.io.input := by
    rw [CoreState.encoded, hsame, CoreState.encoded]
  rw [← hencoded] at hpayload hprojected
  rw [hcounted.params] at hprojected
  have hbits : s2.codec.core.treeBits.toNat + s4.codec.core.payloadBits.toNat =
      (tr.bits s.codec.params.symOrder ++ s4.codec.core.encoded s.codec.io.input).length := by
    rw [List.length_append, hheld2.treeBits, hcounted.params, hpayload]
  refine ⟨s1, s2, s3, s4, s5, s6, s7, s8, hcount, hbuild, hgen, hproject, hwrmagic, hwrtree, hencode, hclose, hdone, hclosed, ?_,
    fun u hu huparams huopen huempty huobits huinput => ?_⟩
  · have hlen := congrArg List.length hbody
    rw [padded_length, List.length_append, length_flatMap_byteBits] at hlen
    rw [hprojected, ← hlen, hfile, List.length_append, Nat.mul_add]
    rfl
  · rw [padded, List.append_assoc] at hbody
    obtain ⟨u1, u2, u3, u4, hchk, hrdtree, hdecode, hclose', hdone', hout⟩ := exec_read_file hu huopen huempty huobits
      (huinput.trans hfile) (by rw [huparams]; exact hbody) hsize hnode
    rw [CoreState.encoded, CodeTree.decode_paths _ hnode hfollow] at hout
    refine ⟨u1, u2, u3, u4, hchk, hrdtree, hdecode, hclose', hdone', hout ▸ List.prefix_append _ _,
      fun hpad => ⟨tr, hheld2.holds, ?_⟩⟩
    rintro k rfl
    rw [hbits]
    rw [hpad, CodeTree.decode_zeros hnode] at hout
    exact ⟨hout, by rw [hout]; exact append_replicate_eq_self_iff _ (CodeTree.leftDepth_pos hnode)⟩

end Sys2Proof.Machine

/-! PROOFS. NOP reports and does nothing else, and PROJECT's sums fit their registers (spec/45_framing_and_control.md R124, R127,
R133). -/

namespace Sys2Proof.Machine

/-! ## NOP -/

/-- A command that only completes leaves the report of an accepted word and DONE (30_encoding.md R69). -/
theorem setDone_acceptWord (w : Word) (k : CoreState) : setDone (acceptWord w k) = k.afterDone w := rfl

/-- Settles O28: acceptance clears the old report, NOP has no precondition and clears nothing more, and its rule sets DONE. -/
theorem nopCompletes : Obligations.NopCompletes := by
  rintro s ⟨hidle, hdraws⟩
  have hrun : exec .nop s = settle (encode .nop) s (withErrorExit complete (s.codec.accept (encode .nop))) :=
    issue_of_pre (pre := preNone) id complete hidle rfl
  have hdone := settle_done (w := encode .nop) (s := s) (c := (s.codec.accept (encode .nop)).mapCore setDone) hdraws
  rw [hrun, withErrorExit_ok (complete_apply _), hdone, ← hidle, Codec.mapCore, Codec.accept_core, setDone_acceptWord]
  rfl

/-! ## PROJECT -/

/-- The payload is a sum of 256 products of a 32-bit count and an 8-bit length. -/
theorem payloadSize_le (k : CoreState) : payloadSize k ≤ 256 * (2 ^ 32 * 2 ^ 8) := by
  rw [payloadSize_eq]
  refine (List.sum_le_card_nsmul _ (2 ^ 32 * 2 ^ 8) fun x hx => ?_).trans_eq (by rw [List.length_map, allSymbols_length]; rfl)
  obtain ⟨b, -, rfl⟩ := List.mem_map.1 hx
  exact Nat.mul_le_mul (k.freq.lookup b).isLt.le (k.codeLen.lookup b).isLt.le

theorem storeSizes_payloadBits_toNat (k : CoreState) : (storeSizes k).payloadBits.toNat = payloadSize k := by
  have hle := payloadSize_le k
  simp only [storeSizes_fields, BitVec.toNat_ofNat]
  omega

theorem storeSizes_projectedBits_toNat (k : CoreState) : (storeSizes k).projectedBits.toNat = projectedSize k := by
  have hle := payloadSize_le k
  have hbits := k.treeBits.isLt
  simp only [storeSizes_fields, projectedSize, Config.hdrOverheadBits, roundup8, BitVec.toNat_ofNat]
  omega

/-- SMALLER compares what the registers show (45_framing_and_control.md R127). -/
theorem storeSizes_smaller_iff (k : CoreState) :
    (storeSizes k).status.smaller = true ↔ (storeSizes k).projectedBits.toNat < 8 * k.totalBytes.toNat := by
  rw [storeSizes_projectedBits_toNat]
  exact decide_eq_true_iff

/-- Settles O43: neither sum overflows its register, so the registers hold the exact sums and SMALLER compares them. -/
theorem projectComputesTheSizes : Obligations.ProjectComputesTheSizes := by
  rintro s hs ⟨hfreq, hbuilt, hcodes⟩
  have hpayload := storeSizes_payloadBits_toNat s.acceptedProject.core
  have hprojected := storeSizes_projectedBits_toNat s.acceptedProject.core
  rw [projectedSize, ← hpayload] at hprojected
  refine ⟨_, exec_project hs (by simp [preProject, hfreq, hbuilt, hcodes]), hpayload.trans (payloadSize_eq _), hprojected,
    storeSizes_smaller_iff s.acceptedProject.core, ?_⟩
  rw [← hs.1]
  rfl

end Sys2Proof.Machine

/-! PROOFS. Precise and runtime errors (spec/60_exceptions.md R137, R138): a command whose precondition holds ends in no precise
error, because the rule it then runs raises runtime errors alone. -/

namespace Sys2Proof.Machine

/-! ## The three parts of a command -/

/-- The precondition a command tests (30_encoding.md R71). -/
def preOf (i : Instr) : CoreState → Bool :=
  match i with
  | .nop | .count | .rdtree | .chkmagic | .close | .clear => preNone
  | .build => preBuild
  | .gencodes => preGencodes
  | .wrtree => preWrtree
  | .encode => preEncode
  | .decode => preDecode
  | .project => preProject
  | .wrmagic => preWrmagic

/-- What a command clears before its rule (10_state.md R32). -/
def clearsOf (i : Instr) : CoreState → CoreState :=
  match i with
  | .nop | .wrtree | .encode | .decode | .wrmagic | .chkmagic | .close => id
  | .count | .rdtree | .clear => clearAll
  | .build => clearDerived
  | .gencodes => clearCodesSizes
  | .project => clearSizes

/-- The rule of a command (30_encoding.md R69). -/
def ruleOf (i : Instr) : EngineM Unit :=
  match i with
  | .nop => complete
  | .count => countBody
  | .build => buildBody
  | .gencodes => gencodesBody
  | .wrtree => wrtreeBody
  | .rdtree => rdtreeBody
  | .encode => encodeBody
  | .decode => decodeBody
  | .project => projectBody
  | .wrmagic => wrmagicBody
  | .chkmagic => chkmagicBody
  | .close => closeBody
  | .clear => clearBody

theorem exec_eq_issue (i : Instr) (s : State) : exec i s = issue i (preOf i) (clearsOf i) (ruleOf i) s := by
  cases i <;> rfl

theorem preOf_iff (i : Instr) (k : CoreState) : preOf i k = true ↔ preconditionOf i k := by
  cases i <;> simp [preOf, preconditionOf, preNone, preBuild, preGencodes, preWrtree, preEncode, preDecode, preProject,
    preWrmagic, and_assoc]

theorem preOf_acceptWord (i : Instr) (w : Word) (k : CoreState) : preOf i (acceptWord w k) = preOf i k := by
  cases i <;> rfl

theorem clearsOf_errcode (i : Instr) (k : CoreState) : (clearsOf i k).status.errcode = k.status.errcode := by
  cases i <;> rfl

/-! ## Computations that leave ERRCODE alone -/

/-- ERRCODE is the same before and after. -/
def SameErrcode (c c' : Codec) : Prop := c'.core.status.errcode = c.core.status.errcode

theorem composes_sameErrcode : Composes SameErrcode := composes_of_view fun c => c.core.status.errcode

theorem sameErrcode_transact (t : Txn) : Keeps SameErrcode (transact t) :=
  keeps_transact (R := SameErrcode) (fun _ => rfl) t

theorem sameErrcode_tryWrite (b : Byte) : Keeps SameErrcode (tryWrite b) :=
  composes_sameErrcode.keeps_tryWrite (fun _ => rfl) (fun _ _ => rfl) b

theorem sameErrcode_tryClose : Keeps SameErrcode tryClose := composes_sameErrcode.keeps_tryClose (fun _ => rfl) fun _ => rfl

theorem sameErrcode_tryBitWrite (b : Bool) : Keeps SameErrcode (tryBitWrite b) :=
  composes_sameErrcode.keeps_tryBitWrite sameErrcode_tryWrite (fun _ _ => rfl) (fun _ => rfl) (fun _ => rfl) b

theorem sameErrcode_settlePending (e : ErrCode) : Keeps SameErrcode (settlePending e) := by
  unfold settlePending
  split
  · exact keeps_modify fun _ => rfl
  · exact composes_sameErrcode.keeps_flushIgnoring sameErrcode_tryBitWrite (fun _ => rfl) 7

/-- The error exit reports its own code, whatever becomes of the flush and the close (60_exceptions.md R138). -/
theorem errorExit_errcode {e : ErrCode} {c c' : Codec} (h : errorExit e c = .ok () c') : c'.core.status.errcode = e := by
  rw [errorExit, engine_bind_of_ok (modify_apply _ _)] at h
  obtain ⟨_, c1, hsettle, h⟩ := engine_bind_ok.1 h
  obtain ⟨_, c2, hclose, h⟩ := engine_bind_ok.1 h
  cases h
  exact (sameErrcode_tryClose.of_ok hclose).trans ((sameErrcode_settlePending e).of_ok hsettle)

/-! ## Computations that raise runtime errors alone -/

/-- The codes of the error exit (60_exceptions.md R138): neither the code of no error nor that of a precise error. -/
abbrev ErrCode.IsRuntime (e : ErrCode) : Prop := e ∉ [ErrCode.none, .illegalCmd, .sequence]

/-- Begun with no error reported, the computation ends with none reported, or it raises a runtime error, or the engine stops. -/
def RaisesRuntime {α : Type} (x : EngineM α) : Prop := ∀ c : Codec, c.core.status.errcode = .none →
  match x c with
  | .ok _ c' => c'.core.status.errcode = .none
  | .error (.raise e) _ => e.IsRuntime
  | .error (.halt _) _ => True

section
variable {α β : Type}

theorem runtime_pure (a : α) : RaisesRuntime (pure a) := fun _ h => h

theorem runtime_get : RaisesRuntime (get : EngineM Codec) := fun _ h => h

theorem runtime_getCore : RaisesRuntime getCore := fun _ h => h

theorem runtime_getParams : RaisesRuntime getParams := fun _ h => h

theorem runtime_binAtEnd : RaisesRuntime binAtEnd := fun _ h => h

theorem runtime_bitAtEnd : RaisesRuntime bitAtEnd := fun _ h => h

theorem runtime_raise {e : ErrCode} (he : e.IsRuntime) : RaisesRuntime (raise e : EngineM α) := fun _ _ => he

theorem runtime_crash (f : Fault) : RaisesRuntime (crash f : EngineM α) := fun _ _ => trivial

theorem runtime_need (x : Except Fault α) : RaisesRuntime (need x) := by
  cases x with
  | ok a => exact runtime_pure a
  | error f => exact runtime_crash f

theorem runtime_modify {f : Codec → Codec} (hf : ∀ c, SameErrcode c (f c)) : RaisesRuntime (modify f : EngineM PUnit) :=
  fun c h => (hf c).trans h

theorem runtime_modifyCore {f : CoreState → CoreState} (hf : ∀ k, k.status.errcode = .none → (f k).status.errcode = .none) :
    RaisesRuntime (modifyCore f) := fun c h => hf c.core h

/-- A computation outside a rule raises nothing. -/
theorem runtime_quiet {x : QuietM α} (hx : Keeps SameErrcode x) : RaisesRuntime (quiet x) := fun c h => by
  cases hr : quiet x c with
  | ok a c1 => exact (hx.of_ok (quiet_ok.1 hr)).trans h
  | error e c1 =>
    obtain ⟨stop, rfl, -⟩ := quiet_error.1 hr
    trivial

theorem runtime_bind {x : EngineM α} {f : α → EngineM β} (hx : RaisesRuntime x) (hf : ∀ a, RaisesRuntime (f a)) :
    RaisesRuntime (x >>= f) := fun c h => by
  have hfirst := hx c h
  cases hr : x c with
  | ok a c1 =>
    rw [hr] at hfirst
    rw [engine_bind_of_ok hr]
    exact hf a c1 hfirst
  | error e c1 =>
    rw [hr] at hfirst
    rw [engine_bind_of_error hr]
    cases e with
    | raise e => exact hfirst
    | halt stop => trivial

theorem runtime_branch {x : EngineM Bool} {yes no : EngineM α} (hx : RaisesRuntime x) (hyes : RaisesRuntime yes)
    (hno : RaisesRuntime no) : RaisesRuntime (x >>= fun b => if b = true then yes else no) :=
  runtime_bind hx fun b => by
    cases b with
    | true => exact hyes
    | false => exact hno

end

/-! ## Transactions and bits -/

theorem runtime_takeByte : RaisesRuntime takeByte := fun c h => by
  cases hbyte : c.io.input[c.io.ipos]? with
  | none => rw [takeByte_none hbyte]; trivial
  | some b => rw [takeByte_some hbyte]; exact h

theorem runtime_binRead : RaisesRuntime binRead :=
  runtime_branch (runtime_quiet (sameErrcode_transact _)) runtime_takeByte (runtime_raise (by decide))

theorem runtime_binRewind : RaisesRuntime binRewind :=
  runtime_branch (runtime_quiet (sameErrcode_transact _)) (runtime_modify fun _ => rfl) (runtime_raise (by decide))

theorem runtime_boutWrite (b : Byte) : RaisesRuntime (boutWrite b) :=
  runtime_branch (runtime_quiet (sameErrcode_tryWrite b)) (runtime_pure _) (runtime_raise (by decide))

theorem runtime_boutClose : RaisesRuntime boutClose :=
  runtime_branch (runtime_quiet sameErrcode_tryClose) (runtime_pure _) (runtime_raise (by decide))

theorem runtime_bitWrite (b : Bool) : RaisesRuntime (bitWrite b) :=
  runtime_branch (runtime_quiet (sameErrcode_tryBitWrite b)) (runtime_pure _) (runtime_raise (by decide))

theorem runtime_bitWrites (bits : List Bool) : RaisesRuntime (bitWrites bits) := by
  induction bits with
  | nil => exact runtime_pure _
  | cons b bs ih => exact runtime_bind (runtime_bitWrite b) fun _ => ih

theorem runtime_bitFlushLoop (n : Nat) : RaisesRuntime (bitFlushLoop n) := by
  induction n with
  | zero => exact runtime_pure _
  | succ n ih =>
    refine runtime_bind runtime_get fun c => ?_
    split
    · exact runtime_pure _
    · exact runtime_bind (runtime_bitWrite _) fun _ => ih

theorem runtime_fillUnpacker : RaisesRuntime fillUnpacker := by
  refine runtime_bind runtime_getCore fun k => ?_
  split
  · exact runtime_bind runtime_binRead fun _ => runtime_modifyCore fun _ h => h
  · exact runtime_pure _

theorem runtime_bitRead : RaisesRuntime bitRead :=
  runtime_bind runtime_fillUnpacker fun _ => runtime_bind runtime_get fun _ =>
    runtime_bind (runtime_modifyCore fun _ h => h) fun _ => runtime_pure _

/-! ## The rules -/

theorem runtime_complete : RaisesRuntime complete := runtime_modifyCore fun _ h => h

theorem runtime_clearBody : RaisesRuntime clearBody :=
  runtime_bind (runtime_modifyCore fun _ _ => rfl) fun _ => runtime_complete

theorem runtime_projectBody : RaisesRuntime projectBody :=
  runtime_bind (runtime_modifyCore fun _ h => h) fun _ => runtime_complete

theorem runtime_gencodesBody : RaisesRuntime gencodesBody :=
  runtime_bind runtime_getCore fun _ => runtime_bind (runtime_need _) fun _ =>
    runtime_bind (runtime_modifyCore fun _ h => h) fun _ => runtime_complete

theorem runtime_buildBody : RaisesRuntime buildBody := by
  refine runtime_bind (runtime_modifyCore fun _ h => h) fun _ => runtime_bind runtime_getCore fun k => ?_
  cases buildForest k.freq with
  | none => exact runtime_raise (by decide)
  | some f =>
    exact runtime_bind (runtime_modifyCore fun _ h => h) fun _ => runtime_bind (runtime_modifyCore fun _ h => h) fun _ =>
      runtime_bind (runtime_modifyCore fun _ h => h) fun _ => runtime_complete

theorem runtime_closeBody : RaisesRuntime closeBody :=
  runtime_bind (runtime_bitFlushLoop 7) fun _ => runtime_bind runtime_boutClose fun _ => runtime_complete

theorem runtime_writeBytes (bs : List Byte) : RaisesRuntime (writeBytes bs) := by
  induction bs with
  | nil => exact runtime_pure _
  | cons b bs ih => exact runtime_bind (runtime_boutWrite b) fun _ => ih

theorem runtime_wrmagicBody : RaisesRuntime wrmagicBody :=
  runtime_bind (runtime_writeBytes _) fun _ => runtime_complete

theorem runtime_wrtreeBody : RaisesRuntime wrtreeBody :=
  runtime_bind runtime_getCore fun _ => runtime_bind runtime_getParams fun _ => runtime_bind (runtime_need _) fun bits =>
    runtime_bind (runtime_bitWrites bits) fun _ => runtime_complete

theorem runtime_checkBytes (bs : List Byte) : RaisesRuntime (checkBytes bs) := by
  induction bs with
  | nil => exact runtime_pure _
  | cons m bs ih =>
    refine runtime_branch runtime_binAtEnd (runtime_raise (by decide)) (runtime_bind runtime_binRead fun b => ?_)
    split
    · exact runtime_raise (by decide)
    · exact ih

theorem runtime_chkmagicBody : RaisesRuntime chkmagicBody :=
  runtime_bind runtime_binRewind fun _ => runtime_bind (runtime_checkBytes _) fun _ => runtime_complete

theorem runtime_countLoop (n : Nat) : RaisesRuntime (countLoop n) := by
  induction n with
  | zero => exact runtime_branch runtime_binAtEnd (runtime_pure _) (runtime_crash _)
  | succ n ih =>
    refine runtime_branch runtime_binAtEnd (runtime_pure _) (runtime_bind runtime_getCore fun k => ?_)
    split
    · exact runtime_raise (by decide)
    · exact runtime_bind runtime_binRead fun _ => runtime_bind (runtime_modifyCore fun _ h => h) fun _ => ih

theorem runtime_countBody : RaisesRuntime countBody :=
  runtime_bind runtime_binRewind fun _ => runtime_bind (runtime_modifyCore fun _ h => h) fun _ =>
    runtime_bind runtime_get fun _ => runtime_bind (runtime_countLoop _) fun _ =>
      runtime_bind (runtime_modifyCore fun _ h => h) fun _ => runtime_complete

theorem runtime_encodeByte (b : Byte) : RaisesRuntime (encodeByte b) := by
  refine runtime_bind runtime_getCore fun k => ?_
  split
  · exact runtime_raise (by decide)
  · exact runtime_bitWrites _

theorem runtime_encodeLoop (n : Nat) : RaisesRuntime (encodeLoop n) := by
  induction n with
  | zero => exact runtime_branch runtime_binAtEnd (runtime_pure _) (runtime_crash _)
  | succ n ih =>
    exact runtime_branch runtime_binAtEnd (runtime_pure _)
      (runtime_bind runtime_binRead fun b => runtime_bind (runtime_encodeByte b) fun _ => ih)

theorem runtime_encodeBody : RaisesRuntime encodeBody :=
  runtime_bind runtime_binRewind fun _ => runtime_bind runtime_get fun _ =>
    runtime_bind (runtime_encodeLoop _) fun _ => runtime_complete

theorem runtime_descend (n : Nat) (i : NodeIdx) : RaisesRuntime (descend n i) := by
  induction n generalizing i with
  | zero =>
    unfold descend
    refine runtime_bind runtime_getCore fun k => ?_
    split
    · exact runtime_crash _
    · exact runtime_pure _
    · exact runtime_branch runtime_bitAtEnd (runtime_pure _) (runtime_crash _)
  | succ n ih =>
    unfold descend
    refine runtime_bind runtime_getCore fun k => ?_
    split
    · exact runtime_crash _
    · exact runtime_pure _
    · exact runtime_branch runtime_bitAtEnd (runtime_pure _) (runtime_bind runtime_bitRead fun _ => ih _)

theorem runtime_decodeLoop (n : Nat) : RaisesRuntime (decodeLoop n) := by
  induction n with
  | zero => exact runtime_branch runtime_bitAtEnd (runtime_pure _) (runtime_crash _)
  | succ n ih =>
    refine runtime_branch runtime_bitAtEnd (runtime_pure _)
      (runtime_bind runtime_getCore fun k => runtime_bind (runtime_descend _ _) fun leaf => ?_)
    cases leaf with
    | none => exact runtime_modifyCore fun _ h => h
    | some s => exact runtime_bind (runtime_boutWrite s) fun _ => runtime_bind (runtime_modifyCore fun _ h => h) fun _ => ih

theorem runtime_decodeBody : RaisesRuntime decodeBody := by
  refine runtime_bind (runtime_modifyCore fun _ h => h) fun _ => runtime_bind runtime_get fun c => ?_
  split
  · exact runtime_crash _
  · exact runtime_raise (by decide)
  · exact runtime_bind (runtime_decodeLoop _) fun _ => runtime_complete

theorem runtime_treeBit : RaisesRuntime treeBit :=
  runtime_branch runtime_bitAtEnd (runtime_raise (by decide)) runtime_bitRead

theorem runtime_readSymbolFrom (k n : Nat) (s : Byte) : RaisesRuntime (readSymbolFrom k n s) := by
  induction n generalizing k s with
  | zero => exact runtime_pure _
  | succ n ih => exact runtime_bind runtime_getParams fun _ => runtime_bind runtime_treeBit fun _ => ih _ _

theorem runtime_readNode (n : Nat) : RaisesRuntime (readNode n) := by
  induction n with
  | zero => exact runtime_crash _
  | succ n ih =>
    have hput : ∀ i x, RaisesRuntime (modifyCore (writeNode i x)) := fun _ _ => runtime_modifyCore fun _ h => h
    refine runtime_bind runtime_treeBit fun b => runtime_bind runtime_getCore fun k => ?_
    split
    · exact runtime_raise (by decide)
    · refine runtime_bind (runtime_modifyCore fun _ h => h) fun _ => ?_
      cases b with
      | true =>
        exact runtime_bind (hput _ _) fun _ => runtime_bind ih fun _ => runtime_bind (hput _ _) fun _ =>
          runtime_bind ih fun _ => runtime_bind (hput _ _) fun _ => runtime_pure _
      | false =>
        exact runtime_bind (runtime_readSymbolFrom 0 8 0#8) fun _ => runtime_bind (hput _ _) fun _ => runtime_pure _

theorem runtime_rdtreeBody : RaisesRuntime rdtreeBody :=
  runtime_bind (runtime_modifyCore fun _ h => h) fun _ => runtime_bind (runtime_readNode _) fun _ =>
    runtime_bind (runtime_modifyCore fun _ h => h) fun _ => runtime_bind (runtime_modifyCore fun _ h => h) fun _ =>
      runtime_bind (runtime_modifyCore fun _ h => h) fun _ => runtime_complete

theorem runtime_ruleOf (i : Instr) : RaisesRuntime (ruleOf i) := by
  cases i with
  | nop => exact runtime_complete
  | count => exact runtime_countBody
  | build => exact runtime_buildBody
  | gencodes => exact runtime_gencodesBody
  | wrtree => exact runtime_wrtreeBody
  | rdtree => exact runtime_rdtreeBody
  | encode => exact runtime_encodeBody
  | decode => exact runtime_decodeBody
  | project => exact runtime_projectBody
  | wrmagic => exact runtime_wrmagicBody
  | chkmagic => exact runtime_chkmagicBody
  | close => exact runtime_closeBody
  | clear => exact runtime_clearBody

/-! ## The report of a command -/

/-- With the error exit behind it, such a rule ends with no error reported, or with the runtime error it raised. -/
theorem withErrorExit_errcode {body : EngineM Unit} {c c' : Codec} (hbody : RaisesRuntime body)
    (hclean : c.core.status.errcode = .none) (h : withErrorExit body c = .ok () c') :
    c'.core.status.errcode = .none ∨ c'.core.status.errcode.IsRuntime := by
  have hrun := hbody c hclean
  rcases withErrorExit_cases h with hok | ⟨e, c1, hraise, hexit⟩
  · rw [hok] at hrun
    exact .inl hrun
  · rw [hraise] at hrun
    rw [errorExit_errcode hexit]
    exact .inr hrun

/-- A command without its precondition ends in SEQUENCE (60_exceptions.md R137). -/
theorem exec_without_precondition {i : Instr} {s : State} (hs : s.prompt) (hpre : ¬ preconditionOf i s.codec.core) :
    exec i s = .next { s with codec := { s.codec with core := s.codec.core.afterPrecise (encode i) .sequence } } := by
  rw [exec_eq_issue]
  refine issue_sequence _ _ hs ?_
  rw [preOf_acceptWord, ← Bool.not_eq_true, preOf_iff]
  exact hpre

/-- A command with its precondition shows no error, or a runtime error. While it still runs it shows the report that acceptance
cleared. -/
theorem exec_errcode {i : Instr} {s t : State} (hs : s.eng = .idle) (hpre : preconditionOf i s.codec.core)
    (h : exec i s = .next t) : t.codec.core.status.errcode = .none ∨ t.codec.core.status.errcode.IsRuntime := by
  have haccepted : preOf i (acceptWord (encode i) s.codec.core) = true := by
    rw [preOf_acceptWord, preOf_iff]
    exact hpre
  rw [exec_eq_issue, issue_of_pre _ _ hs haccepted] at h
  rcases settle_next h with ⟨c, hrun, rfl⟩ | ⟨c, ds, -, -, rfl⟩ | ⟨c, x, -, rfl⟩
  · exact withErrorExit_errcode (runtime_ruleOf i) (clearsOf_errcode i _) hrun
  · exact .inl rfl
  · exact .inl rfl

/-- Settles O14: the two precise errors are taken right after acceptance, and past the precondition nothing raises their codes. -/
theorem preciseErrorsChangeOnlyTheReport : Obligations.PreciseErrorsChangeOnlyTheReport := by
  refine ⟨fun i s hs hpre => exec_without_precondition hs hpre,
    fun w s hs hw => (writeCmd_illegal s hw).trans (writeIllegal_prompt w hs), fun i s t hs hpre h => ?_⟩
  rcases exec_errcode hs hpre h with hnone | hruntime
  · rw [hnone]
    decide
  · exact ⟨fun he => hruntime (by simp [he]), fun he => hruntime (by simp [he])⟩

end Sys2Proof.Machine

/-! PROOFS. What a write of CMD, a move of the host and a step can do (spec/30_encoding.md R69, R70, R79;
spec/70_reset_and_hazards.md R153): one case lemma each, from which the statements about steps follow. -/

namespace Sys2Proof.Machine

/-! ## The write of CMD -/

theorem decode_encode (i : Instr) : decode (encode i) = some i := by cases i <;> rfl

/-- A command has one word. -/
theorem eq_encode_of_decode {w : Word} {i : Instr} (h : decode w = some i) : w = encode i := by
  obtain ⟨hhigh, hlow⟩ := decode_eq_some_iff.1 h
  obtain ⟨hhigh', hlow'⟩ := decode_eq_some_iff.1 (decode_encode i)
  exact BitVec.eq_of_toNat_eq (by omega)

/-- What follows the acceptance of a word (30_encoding.md R68, R69). -/
def afterWord (w : Word) : QuietM Unit :=
  match decode w with
  | some i => afterAccept (preOf i) (clearsOf i) (ruleOf i)
  | none => fun c => .ok () (preciseError .illegalCmd c)

theorem afterWord_encode (i : Instr) : afterWord (encode i) = afterAccept (preOf i) (clearsOf i) (ruleOf i) := by
  rw [afterWord, decode_encode]

theorem writeCmd_eq_writeWord (w : Word) (s : State) : writeCmd w s = writeWord w (afterWord w) s := by
  unfold writeCmd afterWord
  cases h : decode w with
  | none => rfl
  | some i =>
    rw [eq_encode_of_decode h]
    exact exec_eq_issue i s

theorem exec_eq_writeCmd (i : Instr) (s : State) : exec i s = writeCmd (encode i) s := by
  rw [writeCmd, decode_encode]

theorem writeCmd_busy {w v : Word} {start : Codec} {x : Option Txn} {s : State} (h : s.eng = .busy v start x) :
    writeCmd w s = .next s.dropWrite := by
  rw [writeCmd_eq_writeWord, writeWord_busy _ h]

theorem writeCmd_idle {w : Word} {s : State} (h : s.eng = .idle) :
    writeCmd w s = settle w s (afterWord w (s.codec.accept w)) := by
  rw [writeCmd_eq_writeWord, writeWord_idle _ _ h]

/-- Settles O1: the decoder on the thirteen words of the opcode map, and on words outside it. -/
theorem commandWordsDecode : Obligations.CommandWordsDecode :=
  ⟨decode_encode, rfl, rfl, rfl, rfl, rfl, rfl, rfl, rfl, rfl, rfl, rfl, rfl, rfl, rfl, rfl, rfl, rfl, rfl, rfl⟩

/-! ## The host's move -/

/-- The host's next statement writes `w` to CMD. -/
def State.fetches (w : Word) (s : State) : Prop :=
  s.host.polling = false ∧ (s.host.prog[s.host.pc]? = some (.word w) ∨
    s.host.prog[s.host.pc]? = some (.memWrite (s.codec.params.regBase + 4) 4 w))

/-- What the host's move from `s` to `t` is to the codec and the engine (30_encoding.md R79, 60_exceptions.md R152). -/
inductive HostMoved (s t : State) : Prop where
  | stays (hcodec : t.codec = s.codec) (heng : t.eng = s.eng) (hreset : t.resetInput = s.resetInput)
  | writes (w : Word) (s' : State) (hfetch : s.fetches w) (hcodec : s'.codec = s.codec) (heng : s'.eng = s.eng)
      (hreset : s'.resetInput = s.resetInput) (hwrite : writeCmd w s' = .next t)
  | attachesIn (bytes : List Byte) (pos : Nat) (hidle : s.eng = .idle) (hpos : pos ≤ bytes.length)
      (hcodec : t.codec = s.codec.mapIo fun io => { io with input := bytes, ipos := pos }) (heng : t.eng = .idle)
  | attachesOut (hidle : s.eng = .idle)
      (hcodec : t.codec = s.codec.mapIo fun io => { io with output := [], outClosed := false }) (heng : t.eng = .idle)

theorem isBusy_eq_false_iff {s : State} : s.isBusy = false ↔ s.eng = .idle := by
  cases h : s.eng <;> simp [State.isBusy, h]

theorem isBusy_iff {s : State} : s.isBusy = true ↔ ∃ w start x, s.eng = .busy w start x := by
  cases h : s.eng <;> simp [State.isBusy, h]

theorem poll_moved (s : State) : HostMoved s s.poll := by
  obtain ⟨hcodec, heng, hreset, -⟩ := poll_frame s
  exact .stays hcodec heng hreset

/-- Within the block an access has the offset of its address. -/
theorem blockOffset_eq_some {p : Params} {addr n off : Nat} (h : blockOffset p addr n = some off) :
    n = 4 ∧ addr = p.regBase + off := by
  unfold blockOffset at h
  split at h
  · rename_i hin
    obtain ⟨hn, hbase, -, -⟩ := hin
    cases h
    exact ⟨hn, by omega⟩
  · cases h

theorem hostWrite_moved {s t : State} {addr n : Nat} {v : Word} (hpoll : s.host.polling = false)
    (hst : s.host.prog[s.host.pc]? = some (.memWrite addr n v)) (h : hostWrite addr n v s = .next t) : HostMoved s t := by
  unfold hostWrite at h
  split at h
  · cases h
  · rename_i off hoff
    obtain ⟨rfl, rfl⟩ := blockOffset_eq_some hoff
    split at h
    · rename_i hcmd
      subst hcmd
      exact .writes v s.nextStmt ⟨hpoll, .inr hst⟩ rfl rfl rfl h
    · cases h
      exact .stays rfl rfl rfl

theorem hostLoad_moved {s t : State} {addr n : Nat} (h : hostLoad addr n s = .next t) : HostMoved s t := by
  unfold hostLoad at h
  split at h
  · cases h
  · rename_i off hoff
    cases h
    obtain ⟨hcodec, heng, hreset, -⟩ := hostRead_frame off s
    exact .stays hcodec heng hreset

theorem hostAttachIn_moved {s t : State} {bytes : List Byte} {pos : Nat} (h : hostAttachIn bytes pos s = .next t) :
    HostMoved s t := by
  unfold hostAttachIn at h
  split at h
  · cases h
  · rename_i hidle
    rw [Bool.not_eq_true, isBusy_eq_false_iff] at hidle
    split at h
    · cases h
    · rename_i hpos
      cases h
      exact .attachesIn bytes pos hidle (Nat.le_of_not_lt hpos) rfl hidle

theorem hostAttachOut_moved {s t : State} (h : hostAttachOut s = .next t) : HostMoved s t := by
  unfold hostAttachOut at h
  split at h
  · cases h
  · rename_i hidle
    rw [Bool.not_eq_true, isBusy_eq_false_iff] at hidle
    cases h
    exact .attachesOut hidle rfl hidle

theorem hostBranch_moved (f : StatusField) (v target : Nat) (s : State) : HostMoved s (s.hostBranch f v target) := by
  unfold State.hostBranch
  split
  · exact .stays rfl rfl rfl
  · exact .stays rfl rfl rfl

/-- All that a move of the host can be. -/
theorem hostMove_next {s t : State} (h : hostMove s = .next t) : HostMoved s t := by
  unfold hostMove at h
  split at h
  · cases h
    exact poll_moved s
  · rename_i hpoll
    rw [Bool.not_eq_true] at hpoll
    split at h
    · cases h
      exact .stays rfl rfl rfl
    · rename_i st hst
      cases st with
      | word w => exact .writes w s.beginWord ⟨hpoll, .inl hst⟩ rfl rfl rfl h
      | memWrite addr n v => exact hostWrite_moved hpoll hst h
      | memRead addr n => exact hostLoad_moved h
      | branch f v target =>
        cases h
        exact hostBranch_moved f v target s
      | attachIn bytes pos => exact hostAttachIn_moved h
      | attachOut => exact hostAttachOut_moved h
      | stop =>
        cases h
        exact .stays rfl rfl rfl

/-- While BUSY the host's move changes OVR at most (30_encoding.md R70). -/
theorem HostMoved.of_busy {s t : State} {w : Word} {start : Codec} {x : Option Txn} (h : HostMoved s t)
    (hs : s.eng = .busy w start x) : t.resetInput = s.resetInput ∧ (t.codec = s.codec ∧ t.eng = .busy w start x ∨
      t.codec = s.codec.mapCore setOvr ∧ t.eng = .busy w (start.mapCore setOvr) x) := by
  cases h with
  | stays hcodec heng hreset => exact ⟨hreset, .inl ⟨hcodec, heng.trans hs⟩⟩
  | writes v s' hfetch hcodec heng hreset hwrite =>
    rw [hs] at heng
    rw [writeCmd_busy heng, dropWrite_busy heng] at hwrite
    cases hwrite
    exact ⟨hreset, .inr ⟨congrArg (Codec.mapCore setOvr) hcodec, rfl⟩⟩
  | attachesIn bytes pos hidle => rw [hs] at hidle; cases hidle
  | attachesOut hidle => rw [hs] at hidle; cases hidle

/-! ## The step -/

/-- The codec that a running command begins from again: its start without the `wait` the host has used. -/
def Codec.released (c : Codec) : Codec := c.mapIo fun io => { io with draws := io.draws.release }

theorem resume_busy {u : State} {w : Word} {start : Codec} {x : Option Txn} (h : u.eng = .busy w start x) :
    resume u = writeCmd w { u with codec := start.released, eng := .idle } := by
  simp only [resume, h, Codec.released]

theorem step_reset {s : State} (h : s.resetAsserted = true) : step s = .next s.takeReset := by rw [step, if_pos h]

theorem step_of_idle {s : State} (hr : s.noReset) (hs : s.eng = .idle) : step s = hostMove s.sampleReset := by
  have hidle : s.sampleReset.eng = .idle := hs
  rw [step, if_neg (by simp [hr]), stepRunning, hidle]

theorem step_of_busy {s u : State} {w : Word} {start : Codec} {x : Option Txn} (hr : s.noReset)
    (hs : s.eng = .busy w start x) (hmove : hostMove s.sampleReset = .next u) : step s = resume u := by
  have hbusy : s.sampleReset.eng = .busy w start x := hs
  rw [step, if_neg (by simp [hr]), stepRunning, hbusy]
  simp only [hmove]

/-- All that a step can be: a reset, a move of the host while IDLE, or a move of the host and the running command again. -/
theorem step_next {s t : State} (h : step s = .next t) :
    (s.resetAsserted = true ∧ t = s.takeReset) ∨
    (s.noReset ∧ s.eng = .idle ∧ HostMoved s.sampleReset t) ∨
    (s.noReset ∧ ∃ w start x u, s.eng = .busy w start x ∧ HostMoved s.sampleReset u ∧ resume u = .next t) := by
  cases hr : s.resetAsserted with
  | true =>
    rw [step_reset hr] at h
    cases h
    exact .inl ⟨rfl, rfl⟩
  | false =>
    cases hs : s.eng with
    | idle =>
      rw [step_of_idle hr hs] at h
      exact .inr (.inl ⟨hr, rfl, hostMove_next h⟩)
    | busy w start x =>
      cases hmove : hostMove s.sampleReset with
      | next u =>
        rw [step_of_busy hr hs hmove] at h
        exact .inr (.inr ⟨hr, w, start, x, u, rfl, hostMove_next hmove, h⟩)
      | fault f => simp [step, hr, stepRunning, hs, hmove] at h
      | refused r => simp [step, hr, stepRunning, hs, hmove] at h

end Sys2Proof.Machine

/-! PROOFS. Fetch, reset, and the host's moves while BUSY and while IDLE (spec/30_encoding.md R69, R70, R79;
spec/70_reset_and_hazards.md R153, R154; spec/10_state.md R23, R31; spec/60_exceptions.md R152). -/

namespace Sys2Proof.Machine

/-! ## Fetch and going on -/

theorem hostMove_of_stmt {s : State} {st : HostStmt} (hpoll : s.host.polling = false)
    (hst : s.host.prog[s.host.pc]? = some st) : hostMove s = hostStmt st s := by
  rw [hostMove, if_neg (by simp [hpoll]), hst]

/-- A host write at the address of CMD is a write of CMD (20_memory.md R44). -/
theorem hostWrite_cmd (s : State) (v : Word) : hostWrite (s.codec.params.regBase + 4) 4 v s = writeCmd v s.nextStmt := by
  simp [hostWrite, blockOffset_of (off := 4) (by decide) (by decide), cmdOffset]

theorem writeCmd_of_decode {w : Word} {i : Instr} (s : State) (h : decode w = some i) : writeCmd w s = exec i s := by
  rw [writeCmd, h]

theorem head_dropWhile_id (l : List Bool) : (l.dropWhile id).headD false = false := by
  induction l with
  | nil => rfl
  | cons b l ih =>
    cases b with
    | false => rfl
    | true => exact ih

/-- Settles O3: with ENG idle the step is the host's statement, and that is the write of the command's word. -/
theorem stepRunsTheFetchedCommand : Obligations.StepRunsTheFetchedCommand := by
  refine ⟨fun s w i hr hs hpoll hst hw => ?_, fun s w i hr hs hpoll hst hw => ?_, fun s i => ?_⟩
  · rw [step_of_idle hr hs, hostMove_of_stmt (s := s.sampleReset) hpoll hst]
    exact writeCmd_of_decode _ hw
  · rw [step_of_idle hr hs, hostMove_of_stmt (s := s.sampleReset) hpoll hst]
    exact (hostWrite_cmd s.sampleReset w).trans (writeCmd_of_decode _ hw)
  · have hword : tableWord 32 (encode i).toNat = encode i := by cases i <;> rfl
    have hr : (s.loadWord (encode i)).noReset := head_dropWhile_id s.resetInput
    rw [State.withFetchWord, hword, step_of_idle hr rfl,
      hostMove_of_stmt (s := (s.loadWord (encode i)).sampleReset) rfl rfl]
    exact writeCmd_of_decode _ (decode_encode i)

/-- Settles O4: a step while BUSY is the host's move, then the running command's word written again. -/
theorem stepGoesOnWithTheRunningCommand : Obligations.StepGoesOnWithTheRunningCommand := by
  intro s u w start x i hr hbusy hmove hu hw
  obtain ⟨v, start', x', hs⟩ := isBusy_iff.1 hbusy
  rw [step_of_busy hr hs hmove, resume_busy hu]
  exact writeCmd_of_decode _ hw

/-! ## Reset -/

/-- Settles O5: a step with reset asserted puts the core's reset values in place, and only a transaction in flight reaches the
streams. -/
theorem resetSetsTheCoreAndKeepsTheStreams : Obligations.ResetSetsTheCoreAndKeepsTheStreams := by
  intro s hr
  refine ⟨_, step_reset hr, rfl, rfl, (by decide : statusWord false CoreState.reset = 0#32), rfl, rfl, rfl, rfl, rfl, rfl,
    rfl, rfl, rfl, rfl, rfl, rfl, rfl, rfl, rfl, rfl, rfl, rfl, fun hflight => ?_⟩
  simp only [State.takeReset, State.hardReset, State.sampleReset]

theorem abandonTxn_of_ok {x : Txn} {io : Streams} (h : io.draws.pop.1 = .ok) :
    abandonTxn x io = x.perform { io with draws := io.draws.pop.2 } := by
  rcases hp : io.draws.pop with ⟨d, ds⟩
  simp_all [abandonTxn]

theorem abandonTxn_of_ne_ok {x : Txn} {io : Streams} (h : io.draws.pop.1 ≠ .ok) :
    abandonTxn x io = { io with draws := io.draws.pop.2 } := by
  rcases hp : io.draws.pop with ⟨d, ds⟩
  cases d <;> simp_all [abandonTxn]

/-- Settles O6: the reset hands the transaction in flight to its collaborator, which performs it when the next draw is `ok`. -/
theorem resetAbandonsTheRunningCommand : Obligations.ResetAbandonsTheRunningCommand := by
  intro s w start x hr hs
  have hio : s.takeReset.codec.io = abandonTxn x s.codec.io := by
    simp only [State.takeReset, State.hardReset, State.sampleReset, hs]
  refine ⟨_, step_reset hr, rfl, rfl, rfl, fun hd => by rw [hio, abandonTxn_of_ne_ok hd], fun hd => ?_⟩
  rw [hio, abandonTxn_of_ok hd]
  cases x with
  | write b => cases hclosed : s.codec.io.outClosed <;> simp [Txn.perform, hclosed]
  | rewind | read | close => rfl

/-- Settles O22: at reset every validity bit is 0, nothing is reported, the packer is empty and no node is allocated. -/
theorem resetHasTheInvariant : Obligations.ResetHasTheInvariant := by
  refine ⟨⟨⟨?_, ?_, ?_⟩, ⟨fun j _ _ => ?_, Nat.le_refl 0⟩, ⟨Nat.zero_le _, ?_⟩, ?_, ?_⟩, fun w start x h => by cases h⟩
  · exact ⟨Bool.false_ne_true.elim, Bool.false_ne_true.elim⟩
  · exact ⟨fun _ => rfl, fun _ => ⟨rfl, rfl, rfl⟩, fun _ => rfl, fun _ => ⟨rfl, rfl, rfl⟩⟩
  · exact ⟨Bool.false_ne_true.elim, by decide, Bool.false_ne_true.elim⟩
  · exact BitVec.getLsbD_zero
  · exact Bool.false_ne_true.elim
  · exact Bool.false_ne_true.elim
  · exact Bool.false_ne_true.elim

end Sys2Proof.Machine

/-! PROOFS. What every step keeps, from what every command keeps: an invariant of the codec, carried through resets, the host's moves,
the commands and their waits (spec/10_state.md; spec/30_encoding.md R69, R70, R73). -/

namespace Sys2Proof.Machine

/-! ## Relations on the streams alone -/

/-- A relation that no change of the core breaks, and that the five stream transactions keep. -/
structure StreamsKeep (R : Codec → Codec → Prop) : Prop extends Composes R where
  core : ∀ f c, R c (c.mapCore f)
  read : Keeps R binRead
  rewind : Keeps R binRewind
  write : ∀ b, Keeps R (tryWrite b)
  close : Keeps R tryClose

namespace Composes
variable {R : Codec → Codec → Prop} (hR : Composes R)
include hR

theorem keeps_countLoop (hread : Keeps R binRead) (hcount : ∀ b c, R c (c.mapCore (countByte b))) (n : Nat) :
    Keeps R (countLoop n) := by
  induction n with
  | zero => exact hR.keeps_branch hR.keeps_binAtEnd (hR.keeps_pure _) (hR.keeps_crash _)
  | succ n ih =>
    refine hR.keeps_branch hR.keeps_binAtEnd (hR.keeps_pure _) (hR.keeps_bind hR.keeps_getCore fun k => ?_)
    split
    · exact hR.keeps_raise _
    · exact hR.keeps_bind hread fun b => hR.keeps_bind (keeps_modifyCore (hcount b)) fun _ => ih

theorem keeps_countBody (hrewind : Keeps R binRewind) (hread : Keeps R binRead) (hstart : ∀ c, R c (c.mapCore startCount))
    (hcount : ∀ b c, R c (c.mapCore (countByte b))) (hfinish : ∀ c, R c (c.mapCore finishCount)) (hdone : Keeps R complete) :
    Keeps R countBody :=
  hR.keeps_bind hrewind fun _ => hR.keeps_bind (keeps_modifyCore hstart) fun _ => hR.keeps_bind hR.keeps_get fun _ =>
    hR.keeps_bind (hR.keeps_countLoop hread hcount _) fun _ => hR.keeps_bind (keeps_modifyCore hfinish) fun _ => hdone

theorem keeps_clearBody (hreset : ∀ c, R c (c.mapCore fun _ => CoreState.reset)) (hdone : Keeps R complete) :
    Keeps R clearBody :=
  hR.keeps_bind (keeps_modifyCore hreset) fun _ => hdone

end Composes

namespace StreamsKeep
variable {R : Codec → Codec → Prop} (hR : StreamsKeep R)
include hR

theorem keeps_modifyCore (f : CoreState → CoreState) : Keeps R (modifyCore f) := fun c => hR.core f c

theorem keeps_bitRead : Keeps R bitRead := hR.toComposes.keeps_bitRead hR.read (fun _ _ => hR.core _ _) fun _ => hR.core _ _

theorem keeps_tryBitWrite (b : Bool) : Keeps R (tryBitWrite b) :=
  hR.toComposes.keeps_tryBitWrite hR.write (fun _ _ => hR.core _ _) (fun _ => hR.core _ _) (fun _ => hR.core _ _) b

theorem keeps_boutWrite (b : Byte) : Keeps R (boutWrite b) := hR.toComposes.keeps_boutWrite (hR.write b)

theorem keeps_errorExit (e : ErrCode) : Keeps R (errorExit e) :=
  hR.toComposes.keeps_errorExit (fun _ _ => hR.core _ _) hR.keeps_tryBitWrite (fun _ => hR.core _ _) hR.close e

theorem keeps_complete : Keeps R complete := hR.keeps_modifyCore _

/-- Every rule is made of changes of the core and of the five transactions. -/
theorem keeps_ruleOf (i : Instr) : Keeps R (ruleOf i) := by
  have hC := hR.toComposes
  cases i with
  | nop => exact hR.keeps_complete
  | count =>
    exact hC.keeps_countBody hR.rewind hR.read (fun _ => hR.core _ _) (fun _ _ => hR.core _ _) (fun _ => hR.core _ _)
      hR.keeps_complete
  | build =>
    exact hC.keeps_buildBody (fun _ => hR.core _ _) (fun _ _ => hR.core _ _) (fun _ => hR.core _ _) (fun _ => hR.core _ _)
      hR.keeps_complete
  | gencodes => exact hC.keeps_gencodesBody (fun _ _ => hR.core _ _) hR.keeps_complete
  | wrtree => exact hC.keeps_wrtreeBody hR.keeps_tryBitWrite hR.keeps_complete
  | rdtree =>
    exact hC.keeps_rdtreeBody (fun _ => hR.core _ _)
      (hC.keeps_readNode hR.keeps_bitRead (fun _ => hR.core _ _) (fun _ _ _ => hR.core _ _) _) (fun _ _ => hR.core _ _)
      (fun _ => hR.core _ _) (fun _ => hR.core _ _) hR.keeps_complete
  | encode => exact hC.keeps_encodeBody hR.rewind hR.read hR.keeps_tryBitWrite hR.keeps_complete
  | decode =>
    exact hC.keeps_decodeBody (fun _ => hR.core _ _) hR.keeps_bitRead hR.keeps_boutWrite (fun _ => hR.core _ _)
      (fun _ => hR.core _ _) hR.keeps_complete
  | project => exact hC.keeps_projectBody (fun _ => hR.core _ _) hR.keeps_complete
  | wrmagic => exact hC.keeps_wrmagicBody hR.keeps_boutWrite hR.keeps_complete
  | chkmagic => exact hC.keeps_chkmagicBody hR.rewind hR.read hR.keeps_complete
  | close => exact hC.keeps_closeBody hR.keeps_tryBitWrite (hC.keeps_boutClose hR.close) hR.keeps_complete
  | clear => exact hC.keeps_clearBody (fun _ => hR.core _ _) hR.keeps_complete

theorem keeps_afterAccept (i : Instr) : Keeps R (afterAccept (preOf i) (clearsOf i) (ruleOf i)) :=
  hR.toComposes.keeps_afterAccept (fun _ => hR.core _ _) (fun _ => hR.core _ _)
    (hR.toComposes.keeps_withErrorExit (hR.keeps_ruleOf i) hR.keeps_errorExit)

/-- So is all that follows the acceptance of a word. -/
theorem keeps_afterWord (w : Word) : Keeps R (afterWord w) := by
  unfold afterWord
  cases decode w with
  | none => exact fun c => hR.core _ c
  | some i => exact hR.keeps_afterAccept i

end StreamsKeep

/-! ## The position within the input -/

/-- 10_state.md R41: IPOS is within the input. -/
def Streams.within (io : Streams) : Prop := io.ipos ≤ io.input.length

/-- A byte is read only where there is one, so IPOS stays within the input. -/
theorem streamsKeep_within : StreamsKeep fun c c' => c.io.within → c'.io.within where
  toComposes := composes_of_invariant fun c => c.io.within
  core _ _ h := h
  read := by
    refine (composes_of_invariant fun c => c.io.within).keeps_bind (keeps_quiet (keeps_transact (fun _ h => h) _)) fun ok => ?_
    cases ok with
    | false => exact fun c h => h
    | true =>
      intro c h
      change endOf (takeByte c) |>.io.within
      cases hb : c.io.input[c.io.ipos]? with
      | none => rw [takeByte_none hb]; exact h
      | some b =>
        rw [takeByte_some hb]
        exact (List.getElem?_eq_some_iff.1 hb).1
  rewind := (composes_of_invariant fun c => c.io.within).keeps_binRewind (fun _ h => h) fun _ _ => Nat.zero_le _
  write := (composes_of_invariant fun c => c.io.within).keeps_tryWrite (fun _ h => h) fun _ _ h => h
  close := (composes_of_invariant fun c => c.io.within).keeps_tryClose (fun _ h => h) fun _ h => h

theorem abandonTxn_within {x : Txn} {io : Streams} (h : io.within) : (abandonTxn x io).within := by
  unfold abandonTxn
  split
  · cases x with
    | rewind => exact Nat.zero_le _
    | read => exact Nat.min_le_right _ _
    | write b =>
      simp only [Txn.perform]
      split
      · exact h
      · exact h
    | close => exact h
  · exact h

/-! ## Invariants of the codec -/

/-- What an invariant of the codec must outlast for every step to keep it. -/
structure StepClosed (P : Codec → Prop) : Prop where
  /-- Reset, and any change of the streams that keeps IPOS within the input. -/
  reset : ∀ {c io}, P c → (c.io.within → io.within) → P { c with core := CoreState.reset, io := io }
  streams : ∀ {c io}, P c → (c.io.within → io.within) → P { c with io := io }
  ovr : ∀ {c}, P c → P (c.mapCore setOvr)
  accept : ∀ {c} w, P c → P (c.accept w)
  precise : ∀ {c} w {e}, e ≠ .none → P c → P (preciseError e (c.accept w))
  /-- The end of a command whose precondition holds. -/
  rule : ∀ {i c c'}, P c → preconditionOf i c.core →
    withErrorExit (ruleOf i) ((c.accept (encode i)).mapCore (clearsOf i)) = .ok () c' → P c'

namespace StepClosed
variable {P : Codec → Prop} (hP : StepClosed P)
include hP

theorem afterWord {w : Word} {c c' : Codec} (h : P c) (hrun : afterWord w (c.accept w) = .ok () c') : P c' := by
  unfold Machine.afterWord at hrun
  cases hw : decode w with
  | none =>
    rw [hw] at hrun
    cases hrun
    exact hP.precise w (by decide) h
  | some i =>
    rw [hw] at hrun
    obtain rfl := eq_encode_of_decode hw
    cases hpre : preOf i (c.accept (encode i)).core with
    | false =>
      simp only [afterAccept_of_not_pre _ _ hpre] at hrun
      cases hrun
      exact hP.precise _ (by decide) h
    | true =>
      simp only [afterAccept_of_pre _ _ hpre] at hrun
      rw [Codec.accept_core, preOf_acceptWord, preOf_iff] at hpre
      exact hP.rule h hpre hrun

theorem writeCmd {w : Word} {s t : State} (h : s.always P) (hrun : writeCmd w s = .next t) : t.always P := by
  obtain ⟨hcodec, hstart⟩ := h
  cases hs : s.eng with
  | busy v start x =>
    rw [writeCmd_busy hs, dropWrite_busy hs] at hrun
    cases hrun
    refine ⟨hP.ovr hcodec, fun w' start' x' heng => ?_⟩
    cases heng
    exact hP.ovr (hstart v start x hs)
  | idle =>
    rw [writeCmd_idle hs] at hrun
    have hwithin := streamsKeep_within.keeps_afterWord w (s.codec.accept w)
    have hwaits : ∀ {io x}, (s.codec.io.within → io.within) → (s.suspend w x io).always P := fun hio => by
      refine ⟨hP.streams (hP.accept w hcodec) hio, fun w' start' x' heng => ?_⟩
      cases heng
      exact hcodec
    rcases settle_next hrun with ⟨c, hr, rfl⟩ | ⟨c, ds, hr, -, rfl⟩ | ⟨c, x, hr, rfl⟩
    · exact ⟨hP.afterWord hcodec hr, fun _ _ _ heng => by cases heng⟩
    · rw [hr] at hwithin
      exact hwaits hwithin
    · rw [hr] at hwithin
      exact hwaits hwithin

omit hP in
theorem always_congr {s t : State} (hcodec : t.codec = s.codec) (heng : t.eng = s.eng) (h : s.always P) : t.always P := by
  rw [State.always, hcodec, heng]
  exact h

theorem hostMoved {s t : State} (h : s.always P) (hmove : HostMoved s t) : t.always P := by
  cases hmove with
  | stays hcodec heng => exact always_congr hcodec heng h
  | writes w s' hfetch hcodec heng hreset hwrite => exact hP.writeCmd (always_congr hcodec heng h) hwrite
  | attachesIn bytes pos hidle hpos hcodec heng =>
    exact ⟨by rw [hcodec]; exact hP.streams h.1 fun _ => hpos, fun _ _ _ hbusy => by rw [heng] at hbusy; cases hbusy⟩
  | attachesOut hidle hcodec heng =>
    exact ⟨by rw [hcodec]; exact hP.streams h.1 id, fun _ _ _ hbusy => by rw [heng] at hbusy; cases hbusy⟩

theorem takeReset {s : State} (h : s.always P) : s.takeReset.always P := by
  refine ⟨hP.reset h.1 fun hin => ?_, fun _ _ _ heng => by cases heng⟩
  simp only [State.sampleReset_fields]
  split
  · exact abandonTxn_within hin
  · exact hin

/-- Every step keeps the invariant. -/
theorem step {s t : State} (h : s.always P) (hstep : step s = .next t) : t.always P := by
  have hs : s.sampleReset.always P := always_congr rfl rfl h
  rcases step_next hstep with ⟨-, rfl⟩ | ⟨-, -, hmove⟩ | ⟨-, w, start, x, u, -, hmove, hresume⟩
  · exact hP.takeReset h
  · exact hP.hostMoved hs hmove
  · have hu := hP.hostMoved hs hmove
    cases heng : u.eng with
    | idle =>
      rw [resume, heng] at hresume
      cases hresume
      exact hu
    | busy w' start' x' =>
      rw [resume_busy heng] at hresume
      have hreleased : P start'.released := hP.streams (c := start') (hu.2 w' start' x' heng) id
      exact hP.writeCmd ⟨hreleased, fun _ _ _ hidle => by cases hidle⟩ hresume

end StepClosed

end Sys2Proof.Machine

/-! PROOFS. The parts of the core that the stream ports and the report write, and the commands that write nothing else
(spec/10_state.md section 5; spec/30_encoding.md R72; spec/60_exceptions.md R138). -/

namespace Sys2Proof.Machine

/-! ## How a computation of the engine ends -/

/-- From `c`, `x` ends with `Q` where it completes and with `E` where it stops short. -/
def Ends {α : Type} (x : EngineM α) (Q : α → Codec → Prop) (E : Stop → Codec → Prop) (c : Codec) : Prop :=
  match x c with
  | .ok a c' => Q a c'
  | .error e c' => E e c'

section
variable {α β : Type} {x : EngineM α} {f : α → EngineM β} {Q : α → Codec → Prop} {S : β → Codec → Prop}
  {E : Stop → Codec → Prop} {c c' : Codec}

theorem ends_of_ok {a : α} (h : x c = .ok a c') : Ends x Q E c ↔ Q a c' := by rw [Ends, h]

theorem ends_of_error {e : Stop} (h : x c = .error e c') : Ends x Q E c ↔ E e c' := by rw [Ends, h]

theorem Ends.ok {a : α} (h : Ends x Q E c) (hx : x c = .ok a c') : Q a c' := (ends_of_ok hx).1 h

theorem Ends.error {e : Stop} (h : Ends x Q E c) (hx : x c = .error e c') : E e c' := (ends_of_error hx).1 h

theorem Ends.bind (hx : Ends x (fun a => Ends (f a) S E) E c) : Ends (x >>= f) S E c := by
  cases hr : x c with
  | ok a c1 =>
    have h := hx.ok hr
    rwa [Ends, engine_bind_of_ok hr]
  | error e c1 => exact (ends_of_error (engine_bind_of_error hr)).2 (hx.error hr)

theorem Ends.mono {Q' : α → Codec → Prop} {E' : Stop → Codec → Prop} (h : Ends x Q E c) (hQ : ∀ a c', Q a c' → Q' a c')
    (hE : ∀ e c', E e c' → E' e c') : Ends x Q' E' c := by
  cases hr : x c with
  | ok a c1 => exact (ends_of_ok hr).2 (hQ a c1 (h.ok hr))
  | error e c1 => exact (ends_of_error hr).2 (hE e c1 (h.error hr))

/-- What a relation keeps holds at either end. -/
theorem Keeps.ends {P : Codec → Prop} (h : Keeps (fun c c' => P c → P c') x) (hc : P c) :
    Ends x (fun _ => P) (fun _ => P) c := by
  cases hr : x c with
  | ok a c1 => exact (ends_of_ok hr).2 (h.of_ok hr hc)
  | error e c1 => exact (ends_of_error hr).2 (h.of_error hr hc)

theorem Keeps.mono {R R' : Codec → Codec → Prop} {ε γ : Type} {y : EStateM ε Codec γ} (h : Keeps R y)
    (hR : ∀ c c', R c c' → R' c c') : Keeps R' y := fun c => hR _ _ (h c)

end

/-! ## The ports -/

/-- The core but for what the two stream ports write: the packer, the unpacker and their counters (10_state.md R28, R39, R40). -/
def CoreState.unported (k : CoreState) : CoreState :=
  { k with obuf := 0#8, obits := 0, outBytes := 0#64, inPos := 0#64, ibuf := 0#8, ibits := 0 }

/-- Only what the ports write may differ. -/
def SameUnported (c c' : Codec) : Prop := c'.core.unported = c.core.unported

theorem composes_sameUnported : Composes SameUnported := composes_of_view fun c => c.core.unported

theorem sameUnported_binRead : Keeps SameUnported binRead := composes_sameUnported.keeps_binRead (fun _ => rfl) fun _ => rfl

theorem sameUnported_binRewind : Keeps SameUnported binRewind :=
  composes_sameUnported.keeps_binRewind (fun _ => rfl) fun _ => rfl

theorem sameUnported_tryWrite (b : Byte) : Keeps SameUnported (tryWrite b) :=
  composes_sameUnported.keeps_tryWrite (fun _ => rfl) (fun _ _ => rfl) b

theorem sameUnported_tryClose : Keeps SameUnported tryClose :=
  composes_sameUnported.keeps_tryClose (fun _ => rfl) fun _ => rfl

theorem sameUnported_tryBitWrite (b : Bool) : Keeps SameUnported (tryBitWrite b) :=
  composes_sameUnported.keeps_tryBitWrite sameUnported_tryWrite (fun _ _ => rfl) (fun _ => rfl) (fun _ => rfl) b

theorem sameUnported_bitRead : Keeps SameUnported bitRead :=
  composes_sameUnported.keeps_bitRead sameUnported_binRead (fun _ _ => rfl) fun _ => rfl

/-- A relation between cores that what the ports write does not break. -/
structure IgnoresPorts (R : Codec → Codec → Prop) : Prop extends Composes R where
  ports : ∀ c c', SameUnported c c' → R c c'

/-- An invariant of the core that what the ports write does not show in. -/
theorem ignoresPorts_of_invariant {P : CoreState → Prop} (h : ∀ k : CoreState, P k ↔ P k.unported) :
    IgnoresPorts fun c c' => P c.core → P c'.core where
  toComposes := composes_of_invariant fun c => P c.core
  ports c c' hsame hc := by
    rw [h, show c'.core.unported = c.core.unported from hsame, ← h]
    exact hc

namespace IgnoresPorts
variable {R : Codec → Codec → Prop} (hR : IgnoresPorts R)
include hR

theorem binRead : Keeps R binRead := sameUnported_binRead.mono hR.ports
theorem binRewind : Keeps R binRewind := sameUnported_binRewind.mono hR.ports
theorem bitRead : Keeps R bitRead := sameUnported_bitRead.mono hR.ports
theorem tryBitWrite (b : Bool) : Keeps R (tryBitWrite b) := (sameUnported_tryBitWrite b).mono hR.ports
theorem boutWrite (b : Byte) : Keeps R (boutWrite b) := hR.keeps_boutWrite ((sameUnported_tryWrite b).mono hR.ports)
theorem boutClose : Keeps R boutClose := hR.keeps_boutClose (sameUnported_tryClose.mono hR.ports)

theorem errorExit (he : ∀ e c, R c (c.mapCore (setError e))) (e : ErrCode) : Keeps R (errorExit e) :=
  hR.keeps_errorExit he hR.tryBitWrite (fun _ => hR.ports _ _ rfl) (sameUnported_tryClose.mono hR.ports) e

end IgnoresPorts

/-- Of the core the error exit writes the report, and the packer and OUT_BYTES (60_exceptions.md R138). -/
theorem errorExit_unpacked (e : ErrCode) {c c' : Codec} (h : errorExit e c = .ok () c') :
    c'.core.unpacked = (setError e c.core).unpacked := by
  rw [errorExit, engine_bind_of_ok (modify_apply _ _)] at h
  obtain ⟨_, c1, hsettle, h⟩ := engine_bind_ok.1 h
  obtain ⟨_, c2, hclose, h⟩ := engine_bind_ok.1 h
  cases h
  have hR := composes_of_view fun c => c.core.unpacked
  exact ((hR.keeps_tryClose (fun _ => rfl) fun _ => rfl).of_ok hclose).trans ((settlePending_unpacked e).of_ok hsettle)

/-! ## The commands that leave the tables, the tree and the validity bits alone -/

/-- STATUS but for OVR and the report. -/
def Status.unreported (x : Status) : Status := { x with done := false, err := false, ovr := false, tail := false, errcode := .none }

/-- The counts, the tree, the codes, the sizes and their validity bits: what one command leaves for another (10_state.md R32). -/
def CoreState.stored (k : CoreState) : CoreState :=
  { k.unported with cmd := 0#32, status := k.status.unreported, decSyms := 0#64, work := [] }

/-- What is stored is the same before and after. -/
def SameStored (c c' : Codec) : Prop := c'.core.stored = c.core.stored

theorem ignoresPorts_sameStored : IgnoresPorts SameStored where
  toComposes := composes_of_view fun c => c.core.stored
  ports c c' h := by
    have hstored : ∀ k : CoreState, k.stored = k.unported.stored := fun _ => rfl
    rw [SameStored, hstored, show c'.core.unported = c.core.unported from h, ← hstored]

theorem sameStored_complete : Keeps SameStored complete := keeps_modifyCore fun _ => rfl

theorem sameStored_errorExit (e : ErrCode) : Keeps SameStored (errorExit e) :=
  ignoresPorts_sameStored.errorExit (fun _ _ => rfl) e

/-- The commands that clear nothing (10_state.md R32) write nothing stored. -/
theorem sameStored_ruleOf {i : Instr} (hi : i ∈ [Instr.nop, .wrtree, .encode, .decode, .wrmagic, .chkmagic, .close]) :
    Keeps SameStored (ruleOf i) := by
  have hR := ignoresPorts_sameStored
  simp only [List.mem_cons, List.not_mem_nil, or_false] at hi
  rcases hi with rfl | rfl | rfl | rfl | rfl | rfl | rfl
  · exact sameStored_complete
  · exact hR.keeps_wrtreeBody hR.tryBitWrite sameStored_complete
  · exact hR.keeps_encodeBody hR.binRewind hR.binRead hR.tryBitWrite sameStored_complete
  · exact hR.keeps_decodeBody (fun _ => rfl) hR.bitRead hR.boutWrite (fun _ => rfl) (fun _ => rfl) sameStored_complete
  · exact hR.keeps_wrmagicBody hR.boutWrite sameStored_complete
  · exact hR.keeps_chkmagicBody hR.binRewind hR.binRead sameStored_complete
  · exact hR.keeps_closeBody hR.tryBitWrite hR.boutClose sameStored_complete

end Sys2Proof.Machine

/-! PROOFS. A command ends with DONE and no error, or with one error (spec/30_encoding.md R72; spec/60_exceptions.md R138, R140). -/

namespace Sys2Proof.Machine

/-! ## The report while a rule runs -/

/-- Neither DONE nor an error is reported. -/
def CoreState.noReport (k : CoreState) : Prop := k.status.done = false ∧ k.status.err = false ∧ k.status.errcode = .none

/-- The report that acceptance leaves (30_encoding.md R69). -/
def CoreState.cleanReport (k : CoreState) : Prop := k.noReport ∧ k.status.tail = false

/-- DONE is reported and no error. -/
def CoreState.reportsDone (k : CoreState) : Prop :=
  k.status.done = true ∧ k.status.err = false ∧ k.status.errcode = .none

/-- One error is reported, without DONE and TAIL. -/
def CoreState.reportsError (k : CoreState) : Prop :=
  k.status.done = false ∧ k.status.err = true ∧ k.status.errcode ≠ .none ∧ k.status.tail = false

/-- Begun with a clean report, the computation completes with `Q`, or stops short with the report still clean. -/
def EndsClean {α : Type} (Q : CoreState → Prop) (x : EngineM α) : Prop :=
  ∀ c : Codec, c.core.cleanReport → Ends x (fun _ c' => Q c'.core) (fun _ c' => c'.core.cleanReport) c

/-- The report stays clean. -/
def StaysClean (c c' : Codec) : Prop := c.core.cleanReport → c'.core.cleanReport

theorem staysClean : IgnoresPorts StaysClean := ignoresPorts_of_invariant (P := CoreState.cleanReport) fun _ => Iff.rfl

section
variable {α β : Type} {Q : CoreState → Prop}

theorem endsClean_of_keeps {x : EngineM α} (hx : Keeps StaysClean x) : EndsClean CoreState.cleanReport x :=
  fun _ hc => hx.ends (P := fun c => c.core.cleanReport) hc

theorem endsClean_bind {x : EngineM α} {f : α → EngineM β} (hx : Keeps StaysClean x) (hf : ∀ a, EndsClean Q (f a)) :
    EndsClean Q (x >>= f) :=
  fun c hc => .bind ((endsClean_of_keeps hx c hc).mono (fun a _ h => hf a _ h) fun _ _ h => h)

theorem endsClean_raise (e : ErrCode) : EndsClean Q (raise e : EngineM α) := fun _ hc => hc

theorem endsClean_crash (f : Fault) : EndsClean Q (crash f : EngineM α) := fun _ hc => hc

theorem endsClean_complete : EndsClean CoreState.reportsDone complete := fun _ ⟨⟨_, herr, hcode⟩, _⟩ => ⟨rfl, herr, hcode⟩

end

/-! ## The rules -/

theorem endsClean_buildBody : EndsClean CoreState.reportsDone buildBody := by
  refine endsClean_bind (keeps_modifyCore fun _ h => h) fun _ => endsClean_bind staysClean.keeps_getCore fun k => ?_
  cases buildForest k.freq with
  | none => exact endsClean_raise _
  | some f =>
    exact endsClean_bind (keeps_modifyCore fun _ h => h) fun _ => endsClean_bind (keeps_modifyCore fun _ h => h) fun _ =>
      endsClean_bind (keeps_modifyCore fun _ h => h) fun _ => endsClean_complete

/-- TAIL is set only where DECODE is about to complete (44_stream_codec.md R119). -/
theorem endsClean_decodeLoop (n : Nat) : EndsClean CoreState.noReport (decodeLoop n) := by
  have hend : ∀ c : Codec, c.core.cleanReport → c.core.noReport := fun _ h => h.1
  induction n with
  | zero =>
    refine endsClean_bind staysClean.keeps_bitAtEnd fun stop => ?_
    cases stop with
    | true => exact hend
    | false => exact endsClean_crash _
  | succ n ih =>
    refine endsClean_bind staysClean.keeps_bitAtEnd fun stop => ?_
    cases stop with
    | true => exact hend
    | false =>
      refine endsClean_bind staysClean.keeps_getCore fun k =>
        endsClean_bind (staysClean.keeps_descend staysClean.bitRead _ _) fun leaf => ?_
      cases leaf with
      | none => exact fun c h => hend c h
      | some s =>
        exact endsClean_bind (staysClean.boutWrite s) fun _ => endsClean_bind (keeps_modifyCore fun _ h => h) fun _ => ih

theorem endsClean_decodeBody : EndsClean CoreState.reportsDone decodeBody := by
  refine endsClean_bind (keeps_modifyCore fun _ h => h) fun _ => endsClean_bind staysClean.keeps_get fun c => ?_
  split
  · exact endsClean_crash _
  · exact endsClean_raise _
  · exact fun c hc => .bind ((endsClean_decodeLoop _ c hc).mono (fun _ _ ⟨_, herr, hcode⟩ => ⟨rfl, herr, hcode⟩) fun _ _ h => h)

theorem endsClean_ruleOf (i : Instr) : EndsClean CoreState.reportsDone (ruleOf i) := by
  have hR := staysClean
  cases i with
  | nop => exact endsClean_complete
  | count =>
    exact endsClean_bind hR.binRewind fun _ => endsClean_bind (keeps_modifyCore fun _ h => h) fun _ =>
      endsClean_bind hR.keeps_get fun _ => endsClean_bind (hR.keeps_countLoop hR.binRead (fun _ _ h => h) _) fun _ =>
        endsClean_bind (keeps_modifyCore fun _ h => h) fun _ => endsClean_complete
  | build => exact endsClean_buildBody
  | gencodes =>
    exact endsClean_bind hR.keeps_getCore fun _ => endsClean_bind (hR.keeps_need _) fun _ =>
      endsClean_bind (keeps_modifyCore fun _ h => h) fun _ => endsClean_complete
  | wrtree =>
    exact endsClean_bind hR.keeps_getCore fun _ => endsClean_bind hR.keeps_getParams fun _ =>
      endsClean_bind (hR.keeps_need _) fun bits => endsClean_bind (hR.keeps_bitWrites hR.tryBitWrite bits) fun _ =>
        endsClean_complete
  | rdtree =>
    exact endsClean_bind (keeps_modifyCore fun _ h => h) fun _ =>
      endsClean_bind (hR.keeps_readNode hR.bitRead (fun _ h => h) (fun _ _ _ h => h) _) fun _ =>
        endsClean_bind (keeps_modifyCore fun _ h => h) fun _ => endsClean_bind (keeps_modifyCore fun _ h => h) fun _ =>
          endsClean_bind (keeps_modifyCore fun _ h => h) fun _ => endsClean_complete
  | encode =>
    exact endsClean_bind hR.binRewind fun _ => endsClean_bind hR.keeps_get fun _ =>
      endsClean_bind (hR.keeps_encodeLoop hR.binRead hR.tryBitWrite _) fun _ => endsClean_complete
  | decode => exact endsClean_decodeBody
  | project => exact endsClean_bind (keeps_modifyCore fun _ h => h) fun _ => endsClean_complete
  | wrmagic => exact endsClean_bind (hR.keeps_writeBytes hR.boutWrite _) fun _ => endsClean_complete
  | chkmagic =>
    exact endsClean_bind hR.binRewind fun _ => endsClean_bind (hR.keeps_checkBytes hR.binRead _) fun _ => endsClean_complete
  | close =>
    exact endsClean_bind (hR.keeps_bitFlush hR.tryBitWrite) fun _ => endsClean_bind hR.boutClose fun _ => endsClean_complete
  | clear => exact endsClean_bind (keeps_modifyCore fun _ _ => ⟨⟨rfl, rfl, rfl⟩, rfl⟩) fun _ => endsClean_complete

/-! ## The report at the end -/

theorem clearsOf_cleanReport (i : Instr) (c : Codec) : (c.accept (encode i) |>.mapCore (clearsOf i)).core.cleanReport := by
  cases i <;> exact ⟨⟨rfl, rfl, rfl⟩, rfl⟩

/-- A runtime error reports its code on a clean report (60_exceptions.md R138). -/
theorem errorExit_status {e : ErrCode} {c c' : Codec} (h : errorExit e c = .ok () c') :
    c'.core.status = { c.core.status with err := true, errcode := e } :=
  (congrArg CoreState.status (errorExit_unpacked e h) :)

/-- A command that ends has completed, or has taken one error. -/
theorem withErrorExit_report {i : Instr} {c c' : Codec}
    (h : withErrorExit (ruleOf i) ((c.accept (encode i)).mapCore (clearsOf i)) = .ok () c') :
    c'.core.reportsDone ∨ c'.core.reportsError := by
  have hclean := clearsOf_cleanReport i c
  have hends := endsClean_ruleOf i _ hclean
  rcases withErrorExit_cases h with hok | ⟨e, c1, hraise, hexit⟩
  · exact .inl (hends.ok hok)
  · obtain ⟨⟨hdone, -, -⟩, htail⟩ := hends.error hraise
    have hruntime : e.IsRuntime := by
      have := runtime_ruleOf i _ hclean.1.2.2
      rwa [hraise] at this
    right
    rw [CoreState.reportsError, errorExit_status hexit]
    exact ⟨hdone, rfl, fun hnone => hruntime (List.mem_cons.2 (.inl hnone)), htail⟩

theorem CoreState.reportsDone.oneReport {k : CoreState} (h : k.reportsDone) : k.oneReport := by
  obtain ⟨hdone, herr, hcode⟩ := h
  simp [CoreState.oneReport, herr, hcode]

theorem CoreState.reportsError.oneReport {k : CoreState} (h : k.reportsError) : k.oneReport := by
  obtain ⟨hdone, herr, hcode, htail⟩ := h
  simp [CoreState.oneReport, hdone, herr, hcode, htail]

end Sys2Proof.Machine

/-! PROOFS. What the commands that clear validity bits leave stored (spec/10_state.md R32): COUNT, BUILD, GENCODES, RDTREE, PROJECT and
CLEAR, with what holds at their end and at their errors. -/

namespace Sys2Proof.Machine

/-! ## Nothing valid -/

/-- No validity bit is set, the registers of all are cleared, and the node memory is within NODE_CAP: what COUNT and RDTREE run on
(10_state.md R28, R32). -/
structure CoreState.Blank (k : CoreState) : Prop where
  freqValid : k.status.freqValid = false
  treeValid : k.status.treeValid = false
  treeBuilt : k.status.treeBuilt = false
  codesValid : k.status.codesValid = false
  sizesValid : k.status.sizesValid = false
  smaller : k.status.smaller = false
  nsym : k.nsym = 0#9
  nleaves : k.nleaves = 0#9
  ninternal : k.ninternal = 0#9
  treeBits : k.treeBits = 0#12
  maxlen : k.maxlen = 0#8
  payloadBits : k.payloadBits = 0#64
  projectedBits : k.projectedBits = 0#64
  node : k.node.length ≤ Config.nodeCap

theorem blank_clearAll (k : CoreState) : (clearAll k).Blank :=
  ⟨rfl, rfl, rfl, rfl, rfl, rfl, rfl, rfl, rfl, rfl, rfl, rfl, rfl, Nat.zero_le _⟩

/-- Whether it is blank shows in what is stored. -/
theorem blank_stored (k : CoreState) : k.Blank ↔ k.stored.Blank := by
  constructor
  · rintro ⟨h1, h2, h3, h4, h5, h6, h7, h8, h9, h10, h11, h12, h13, h14⟩
    exact ⟨h1, h2, h3, h4, h5, h6, h7, h8, h9, h10, h11, h12, h13, h14⟩
  · rintro ⟨h1, h2, h3, h4, h5, h6, h7, h8, h9, h10, h11, h12, h13, h14⟩
    exact ⟨h1, h2, h3, h4, h5, h6, h7, h8, h9, h10, h11, h12, h13, h14⟩

/-! ## COUNT -/

/-- One more byte of a symbol whose count is not at its greatest value adds one to the sum of the counts. -/
theorem countSum_update {freq : Table (BitVec 32)} (b : Byte) (h : (freq.lookup b).toNat + 1 < 2 ^ 32) :
    countSum (freq.update b (freq.lookup b + 1#32)) = countSum freq + 1 := by
  have hterm : ∀ s, ((freq.update b (freq.lookup b + 1#32)).lookup s).toNat =
      (freq.lookup s).toNat + if s = b then 1 else 0 := fun s => by
    by_cases hs : s = b
    · subst hs
      rw [Table.lookup_update_self, BitVec.toNat_add, if_pos rfl]
      exact Nat.mod_eq_of_lt h
    · rw [Table.lookup_update_ne _ _ hs, if_neg hs, Nat.add_zero]
  have hone : (allSymbols.map fun s => if s = b then 1 else 0).sum = 1 := by
    rw [List.sum_map_eq_nsmul_single b _ fun s hs _ => if_neg hs,
      List.count_eq_one_of_mem allSymbols_nodup (mem_allSymbols b), if_pos rfl, one_nsmul]
  simp only [countSum, hterm, List.sum_map_add, hone]

theorem lookup_le_countSum (freq : Table (BitVec 32)) (b : Byte) : (freq.lookup b).toNat ≤ countSum freq :=
  List.single_le_sum (by simp) _ (List.mem_map_of_mem (f := fun s => (freq.lookup s).toNat) (mem_allSymbols b))

/-- COUNT has counted as many bytes as TOTAL_BYTES says (40_frequency_counter.md R81). -/
def CoreState.Counting (k : CoreState) : Prop := k.Blank ∧ countSum k.freq = k.totalBytes.toNat

theorem counting_startCount {k : CoreState} (h : k.Blank) : (startCount k).Counting := by
  obtain ⟨h1, h2, h3, h4, h5, h6, h7, h8, h9, h10, h11, h12, h13, h14⟩ := h
  refine ⟨⟨h1, h2, h3, h4, h5, h6, h7, h8, h9, h10, h11, h12, h13, h14⟩, ?_⟩
  simp [countSum, startCount]

theorem counting_countByte {k : CoreState} (b : Byte) (h : k.Counting) (hfull : k.totalBytes ≠ BitVec.allOnes 32) :
    (countByte b k).Counting := by
  obtain ⟨⟨h1, h2, h3, h4, h5, h6, h7, h8, h9, h10, h11, h12, h13, h14⟩, hsum⟩ := h
  refine ⟨⟨h1, h2, h3, h4, h5, h6, h7, h8, h9, h10, h11, h12, h13, h14⟩, ?_⟩
  have hlt : k.totalBytes.toNat + 1 < 2 ^ 32 := by
    have hne : k.totalBytes.toNat ≠ (BitVec.allOnes 32).toNat := fun heq => hfull (BitVec.eq_of_toNat_eq heq)
    rw [BitVec.toNat_allOnes] at hne
    have := k.totalBytes.isLt
    omega
  have hle := lookup_le_countSum k.freq b
  change countSum (k.freq.update b (k.freq.lookup b + 1#32)) = (k.totalBytes + 1#32).toNat
  rw [countSum_update b (by omega), hsum, BitVec.toNat_add]
  exact (Nat.mod_eq_of_lt hlt).symm

/-- A relation that the ports do not break carries `Counting`. -/
theorem counting_ports : IgnoresPorts fun c c' => c.core.Counting → c'.core.Counting := by
  refine ignoresPorts_of_invariant (P := CoreState.Counting) fun k => ?_
  rw [CoreState.Counting, CoreState.Counting, blank_stored k, blank_stored k.unported]
  exact Iff.rfl

theorem counting_countLoop (n : Nat) {c : Codec} (h : c.core.Counting) :
    Ends (countLoop n) (fun _ c' => c'.core.Counting) (fun _ c' => c'.core.Counting) c := by
  induction n generalizing c with
  | zero =>
    refine .bind ((ends_of_ok (binAtEnd_apply c)).2 ?_)
    split
    · exact h
    · exact h
  | succ n ih =>
    refine .bind ((ends_of_ok (binAtEnd_apply c)).2 ?_)
    split
    · exact h
    · refine .bind ((ends_of_ok (getCore_apply c)).2 ?_)
      split
      · exact h
      · rename_i hfull
        cases hread : binRead c with
        | error e c1 => exact (ends_of_error (engine_bind_of_error hread)).2 (counting_ports.binRead.of_error hread h)
        | ok b c1 =>
          refine .bind ((ends_of_ok hread).2 (.bind ((ends_of_ok (modifyCore_apply _ _)).2 (ih ?_))))
          have htotal : c1.core.totalBytes = c.core.totalBytes :=
            (congrArg CoreState.totalBytes (sameUnported_binRead.of_ok hread) :)
          exact counting_countByte b (counting_ports.binRead.of_ok hread h) (by rwa [htotal])

/-- The end of COUNT (40_frequency_counter.md R81). -/
theorem countBody_ends {c : Codec} (h : c.core.Blank) : Ends countBody
    (fun _ c' => ∃ k : CoreState, k.Counting ∧ c'.core = setDone (finishCount k)) (fun _ c' => c'.core.Blank) c := by
  have hblank : IgnoresPorts fun c c' => c.core.Blank → c'.core.Blank := by
    refine ignoresPorts_of_invariant (P := CoreState.Blank) fun k => ?_
    rw [blank_stored k, blank_stored k.unported]
    exact Iff.rfl
  cases hrewind : binRewind c with
  | error e c1 => exact (ends_of_error (engine_bind_of_error hrewind)).2 (hblank.binRewind.of_error hrewind h)
  | ok u c1 =>
    refine .bind ((ends_of_ok hrewind).2 (.bind ((ends_of_ok (modifyCore_apply _ _)).2
      (.bind ((ends_of_ok (get_apply _)).2 (.bind ?_))))))
    refine (counting_countLoop _ (counting_startCount (hblank.binRewind.of_ok hrewind h))).mono (fun _ c2 h2 => ?_) fun _ _ h2 => h2.1
    exact .bind ((ends_of_ok (modifyCore_apply _ _)).2 ((ends_of_ok (complete_apply _)).2 ⟨_, h2, rfl⟩))

/-! ## RDTREE -/

/-- A node is allocated only where there is room (43_tree_codec.md R109). -/
theorem readNode_room (n : Nat) :
    Keeps (fun c c' => c.core.node.length ≤ Config.nodeCap → c'.core.node.length ≤ Config.nodeCap) (readNode n) := by
  have hR := composes_of_invariant fun c => c.core.node.length ≤ Config.nodeCap
  have hbits : Keeps (fun c c' => c.core.node.length ≤ Config.nodeCap → c'.core.node.length ≤ Config.nodeCap) bitRead :=
    hR.keeps_bitRead (hR.keeps_binRead (fun _ h => h) fun _ h => h) (fun _ _ h => h) fun _ h => h
  have hput : ∀ i x, Keeps (fun c c' => c.core.node.length ≤ Config.nodeCap → c'.core.node.length ≤ Config.nodeCap)
      (modifyCore (writeNode i x)) := fun i x => keeps_modifyCore fun c h => by
    simpa only [Codec.mapCore_core, writeNode_fields, List.length_set] using h
  induction n with
  | zero => exact hR.keeps_crash _
  | succ n ih =>
    intro c h
    cases hbit : treeBit c with
    | error e c1 =>
      rw [readNode, engine_bind_of_error hbit]
      exact (hR.keeps_treeBit hbits).of_error hbit h
    | ok b c1 =>
      have h1 := (hR.keeps_treeBit hbits).of_ok hbit h
      by_cases hfull : c1.core.node.length = Config.nodeCap
      · rw [readNode_full hbit hfull]
        exact h1
      · have hgrown : ∀ x, (growNode x c1.core).node.length ≤ Config.nodeCap := fun x => by
          simp only [growNode, List.length_append, List.length_singleton]
          omega
        cases b with
        | true =>
          rw [readNode_internal hbit (by omega)]
          exact (hR.keeps_bind ih fun _ => hR.keeps_bind (hput _ _) fun _ => hR.keeps_bind ih fun _ =>
            hR.keeps_bind (hput _ _) fun _ => hR.keeps_pure _) (c1.mapCore (growNode (.internal 0#32 0 0))) (hgrown _)
        | false =>
          rw [readNode_leaf hbit (by omega)]
          exact (hR.keeps_bind (hR.keeps_readSymbolFrom hbits 0 8 0#8) fun _ => hR.keeps_bind (hput _ _) fun _ =>
            hR.keeps_pure _) (c1.mapCore allocNode) (hgrown _)

/-- What reading a tree leaves alone: all that is stored but the node memory. -/
theorem readNode_unplanted (n : Nat) : Keeps (fun c c' => c'.unplanted.core.stored = c.unplanted.core.stored) (readNode n) := by
  have hR : IgnoresPorts fun c c' => c'.unplanted.core.stored = c.unplanted.core.stored :=
    { toComposes := composes_of_view fun c => c.unplanted.core.stored
      ports := fun c c' h => congrArg (fun k : CoreState => { k with node := [] }) (ignoresPorts_sameStored.ports c c' h) }
  exact hR.keeps_readNode hR.bitRead (fun _ => rfl) (fun _ _ _ => rfl) n

theorem readNode_blank (n : Nat) : Keeps (fun c c' => c.core.Blank → c'.core.Blank) (readNode n) := fun c h => by
  have hroom := readNode_room n c h.node
  have hrest := readNode_unplanted n c
  generalize endOf (readNode n c) = c' at hroom hrest ⊢
  have hblank : c'.unplanted.core.Blank := by
    rw [blank_stored, hrest, ← blank_stored]
    obtain ⟨h1, h2, h3, h4, h5, h6, h7, h8, h9, h10, h11, h12, h13, -⟩ := h
    exact ⟨h1, h2, h3, h4, h5, h6, h7, h8, h9, h10, h11, h12, h13, Nat.zero_le _⟩
  obtain ⟨h1, h2, h3, h4, h5, h6, h7, h8, h9, h10, h11, h12, h13, -⟩ := hblank
  exact ⟨h1, h2, h3, h4, h5, h6, h7, h8, h9, h10, h11, h12, h13, hroom⟩

/-- The end of RDTREE: a tree laid out from entry 0, or nothing valid (43_tree_codec.md R107). -/
theorem rdtreeBody_ends {c : Codec} (h : c.core.Blank) : Ends rdtreeBody
    (fun _ c' => ∃ (c1 : Codec) (t : CodeTree), c1.core.Blank ∧ c1.core.node = t.layout 0 ∧ t.size ≤ Config.nodeCap ∧
      c' = c1.treeRead 0) (fun _ c' => c'.core.Blank) c := by
  have hempty : c.unplanted.core.Blank := by
    obtain ⟨h1, h2, h3, h4, h5, h6, h7, h8, h9, h10, h11, h12, h13, -⟩ := h
    exact ⟨h1, h2, h3, h4, h5, h6, h7, h8, h9, h10, h11, h12, h13, Nat.zero_le _⟩
  cases hread : readNode walkDepth c.unplanted with
  | error e c1 => exact (ends_of_error (rdtreeBody_of_error hread)).2 ((readNode_blank _).of_error hread hempty)
  | ok r c1 =>
    obtain ⟨rfl, t, hnode, hroom⟩ := readNode_layout hread (Nat.zero_le _)
    refine (ends_of_ok (rdtreeBody_of_ok hread)).2 ⟨c1, t.plain, (readNode_blank _).of_ok hread hempty, hnode, ?_, rfl⟩
    rw [CodeTree.size_plain]
    exact Nat.le_trans (Nat.le_add_left _ _) hroom

/-! ## BUILD, GENCODES, PROJECT, CLEAR -/

/-- The end of BUILD (41_tree_builder.md R86, R93). -/
theorem buildBody_ends (c : Codec) : Ends buildBody
    (fun _ c' => presentCount c.core.freq ≠ 0 ∧ c' = c.built (builtForest c.core.freq))
    (fun _ c' => c' = c.mapCore emptyForest) c := by
  by_cases h : presentCount c.core.freq = 0
  · exact (ends_of_error (buildBody_none (buildForest_none h))).2 rfl
  · exact (ends_of_ok (buildBody_some (buildForest_some h))).2 ⟨h, rfl⟩

/-- The end of GENCODES, for the walk it makes (42_code_table.md R98). -/
theorem gencodesBody_ends (c : Codec) : Ends gencodesBody
    (fun _ c' => ∃ x, walkCodes c.core.node walkDepth c.core.root [] Codes.empty = .ok x ∧
      c' = (c.mapCore (storeCodes x)).mapCore setDone) (fun e _ => ∃ f, e = .halt (.fault f)) c := by
  refine .bind ((ends_of_ok (getCore_apply c)).2 ?_)
  cases hwalk : walkCodes c.core.node walkDepth c.core.root [] Codes.empty with
  | error f => exact (ends_of_error (engine_bind_of_error (need_error f c))).2 ⟨f, rfl⟩
  | ok x => exact .bind ((ends_of_ok (need_ok x c)).2 ⟨x, rfl, rfl⟩)

theorem projectBody_apply (c : Codec) : projectBody c = .ok () ((c.mapCore storeSizes).mapCore setDone) := rfl

theorem clearBody_apply (c : Codec) : clearBody c = .ok () ((c.mapCore fun _ => CoreState.reset).mapCore setDone) := rfl

end Sys2Proof.Machine

/-! PROOFS. Every step keeps the invariants of the machine (spec/10_state.md sections 2 to 6; spec/30_encoding.md R71;
spec/60_exceptions.md R140). -/

namespace Sys2Proof.Machine

/-! ## Invariants of what is stored -/

/-- The core that BUILD completes with, as one update. -/
theorem Codec.built_core (f : Forest) (c : Codec) : (c.built f).core = { c.core with
    node := f.nodes
    work := f.slots
    root := Fin.ofNat 512 (f.nodes.length - 1)
    nleaves := (setTreeSize (storeForest f c.core)).nleaves
    ninternal := (setTreeSize (storeForest f c.core)).ninternal
    treeBits := (setTreeSize (storeForest f c.core)).treeBits
    status := { c.core.status with treeValid := true, treeBuilt := true, done := true } } := rfl

/-- What an invariant of the stored part of the core must outlast. -/
structure StoredClosed (P : CoreState → Prop) : Prop where
  stored : ∀ k, P k ↔ P k.stored
  blank : ∀ {k}, k.Blank → P k
  clears : ∀ i {k}, P k → P (clearsOf i k)
  count : ∀ {k}, k.Counting → P (finishCount k)
  /-- BUILD with no symbol present, and with one. -/
  empty : ∀ {k}, P k → k.status.treeValid = false → k.status.treeBuilt = false → P (emptyForest k)
  build : ∀ {c : Codec}, P c.core → c.core.status.freqValid = true → c.core.status.codesValid = false →
    presentCount c.core.freq ≠ 0 → P (c.built (builtForest c.core.freq)).core
  codes : ∀ {k x}, P k → k.status.treeBuilt = true → walkCodes k.node walkDepth k.root [] Codes.empty = .ok x →
    P (storeCodes x k)
  read : ∀ {c : Codec} {t : CodeTree}, c.core.Blank → c.core.node = t.layout 0 → t.size ≤ Config.nodeCap → P (c.treeRead 0).core
  sizes : ∀ {k}, P k → P (storeSizes k)

namespace StoredClosed
variable {P : CoreState → Prop} (hP : StoredClosed P)
include hP

theorem of_stored {k k' : CoreState} (hk : P k) (h : k'.stored = k.stored) : P k' := by
  rw [hP.stored, h, ← hP.stored]
  exact hk

theorem errorExit {e : ErrCode} {c c' : Codec} (h : errorExit e c = .ok () c') (hc : P c.core) : P c'.core :=
  hP.of_stored hc ((sameStored_errorExit e).of_ok h)

/-- A rule whose every end has the invariant has it with the error exit behind it. -/
theorem withErrorExit {body : EngineM Unit} {c c' : Codec} (hbody : Ends body (fun _ c' => P c'.core) (fun e c' =>
    (∃ f, e = .halt f) ∨ P c'.core) c) (h : withErrorExit body c = .ok () c') : P c'.core := by
  rcases withErrorExit_cases h with hok | ⟨e, c1, hraise, hexit⟩
  · exact hbody.ok hok
  · rcases hbody.error hraise with ⟨f, hf⟩ | hc
    · cases hf
    · exact hP.errorExit hexit hc

theorem rule {i : Instr} {c c' : Codec} (h : P c.core) (hpre : preconditionOf i c.core)
    (hrun : Machine.withErrorExit (ruleOf i) ((c.accept (encode i)).mapCore (clearsOf i)) = .ok () c') : P c'.core := by
  have hcleared : P ((c.accept (encode i)).mapCore (clearsOf i)).core := hP.clears i (hP.of_stored h rfl)
  by_cases hi : i ∈ [Instr.nop, .wrtree, .encode, .decode, .wrmagic, .chkmagic, .close]
  · exact hP.of_stored hcleared
      ((ignoresPorts_sameStored.keeps_withErrorExit (sameStored_ruleOf hi) sameStored_errorExit).of_ok hrun)
  refine hP.withErrorExit ?_ hrun
  cases i with
  | count =>
    refine (countBody_ends (blank_clearAll _)).mono (fun _ c1 hc1 => ?_) fun _ _ hblank => .inr (hP.blank hblank)
    obtain ⟨k, hk, hcore⟩ := hc1
    rw [hcore]
    exact hP.of_stored (hP.count hk) rfl
  | build =>
    refine (buildBody_ends _).mono (fun _ c1 hc1 => ?_) fun _ c1 hc1 => .inr ?_
    · obtain ⟨hpresent, rfl⟩ := hc1
      exact hP.build hcleared hpre rfl hpresent
    · rw [hc1]
      exact hP.empty hcleared rfl rfl
  | gencodes =>
    refine (gencodesBody_ends _).mono (fun _ c1 hc1 => ?_) fun _ _ ⟨f, hf⟩ => .inl ⟨_, hf⟩
    obtain ⟨x, hwalk, rfl⟩ := hc1
    exact hP.of_stored (hP.codes hcleared hpre.2 hwalk) rfl
  | rdtree =>
    refine (rdtreeBody_ends (blank_clearAll _)).mono (fun _ c1 hc1 => ?_) fun _ _ hblank => .inr (hP.blank hblank)
    obtain ⟨c2, t, hblank, hnode, hsize, rfl⟩ := hc1
    exact hP.read hblank hnode hsize
  | project => exact (ends_of_ok (projectBody_apply _)).2 (hP.of_stored (hP.sizes hcleared) rfl)
  | clear => exact (ends_of_ok (clearBody_apply _)).2 (hP.of_stored (hP.blank (blank_clearAll CoreState.reset)) rfl)
  | nop | wrtree | encode | decode | wrmagic | chkmagic | close => exact absurd (by decide) hi

/-- Such an invariant outlasts every step. -/
theorem stepClosed : StepClosed fun c => P c.core where
  reset _ _ := hP.of_stored (hP.blank (blank_clearAll CoreState.reset)) rfl
  streams h _ := h
  ovr h := hP.of_stored h rfl
  accept _ h := hP.of_stored h rfl
  precise _ _ _ h := hP.of_stored h rfl
  rule := hP.rule

end StoredClosed

/-! ## The validity chain and the cleared registers -/

/-- The status invariant but for the report. -/
def CoreState.Chained (k : CoreState) : Prop := k.validityChain ∧ k.clearedRegs

theorem storedClosed_chained : StoredClosed CoreState.Chained where
  stored _ := Iff.rfl
  blank h := by
    simp [CoreState.Chained, CoreState.validityChain, CoreState.clearedRegs, h.treeBuilt, h.codesValid, h.nsym, h.nleaves,
      h.ninternal, h.treeBits, h.maxlen, h.payloadBits, h.projectedBits, h.smaller]
  clears i {k} h := by
    obtain ⟨⟨hcodes, hbuilt⟩, hfreq, htree, hlen, hsizes⟩ := h
    cases i <;> simp_all [CoreState.Chained, CoreState.validityChain, CoreState.clearedRegs, clearsOf, clearAll, clearDerived,
      clearCodesSizes]
  count {k} h := by
    obtain ⟨hblank, -⟩ := h
    simp [CoreState.Chained, CoreState.validityChain, CoreState.clearedRegs, finishCount, hblank.treeBuilt, hblank.codesValid,
      hblank.nleaves, hblank.ninternal, hblank.treeBits, hblank.maxlen, hblank.payloadBits, hblank.projectedBits, hblank.smaller]
  empty h _ _ := h
  build {c} h hvalid _ _ := by
    obtain ⟨-, hfreq, -, hlen, hsizes⟩ := h
    rw [Codec.built_core]
    exact ⟨⟨fun _ => rfl, fun _ => ⟨rfl, hvalid⟩⟩, hfreq, fun (h : true = false) => (nomatch h), hlen, hsizes⟩
  codes {k x} h hbuilt _ := by
    obtain ⟨⟨-, hchain⟩, hfreq, htree, -, hsizes⟩ := h
    exact ⟨⟨fun _ => hbuilt, hchain⟩, hfreq, htree, fun (h : true = false) => (nomatch h), hsizes⟩
  read {c t} hblank _ _ := by
    refine ⟨⟨fun h => ?_, fun h => ?_⟩, fun _ => hblank.nsym, fun (h : true = false) => (nomatch h), fun _ => hblank.maxlen,
      fun _ => ⟨hblank.payloadBits, hblank.projectedBits, hblank.smaller⟩⟩
    · exact absurd (hblank.codesValid.symm.trans h) Bool.false_ne_true
    · exact absurd (hblank.treeBuilt.symm.trans h) Bool.false_ne_true
  sizes {k} h := by
    obtain ⟨hchain, hfreq, htree, hlen, -⟩ := h
    exact ⟨hchain, hfreq, htree, hlen, fun (h : true = false) => (nomatch h)⟩

theorem chained_reset : CoreState.reset.Chained :=
  storedClosed_chained.of_stored (storedClosed_chained.blank (blank_clearAll CoreState.reset)) rfl

/-- A command that ends leaves one report (60_exceptions.md R140). -/
theorem stepClosed_statusInv : StepClosed Codec.StatusInv where
  reset _ _ := ⟨chained_reset.1, chained_reset.2, by simp [CoreState.oneReport, CoreState.reset, Status.reset]⟩
  streams h _ := h
  ovr h := h
  accept w h := ⟨h.1, h.2.1, by simp [CoreState.oneReport]⟩
  precise _ _ he h := ⟨h.1, h.2.1, by simp [CoreState.oneReport, preciseError, he]⟩
  rule h hpre hrun := by
    obtain ⟨hchain, hregs⟩ := storedClosed_chained.rule ⟨h.1, h.2.1⟩ hpre hrun
    exact ⟨hchain, hregs, (withErrorExit_report hrun).elim CoreState.reportsDone.oneReport CoreState.reportsError.oneReport⟩

/-- Settles O23: every command keeps the chain and the cleared registers, and leaves one report. -/
theorem stepKeepsTheStatusInvariant : Obligations.StepKeepsTheStatusInvariant :=
  fun _ _ h hstep => stepClosed_statusInv.step h hstep

/-! ## The tree -/

/-- The tree invariant, of the core. -/
def CoreState.Rooted (k : CoreState) : Prop :=
  k.node.length ≤ Config.nodeCap ∧ (k.status.treeValid = true → ∃ t, k.holds t ∧ k.nleaves.toNat = t.leaves.length ∧
    k.ninternal.toNat = t.internals ∧ k.treeBits.toNat = 9 * t.leaves.length + t.internals)

/-- A node memory that is one tree laid out from entry 0, with its sizes. -/
theorem rooted_treeRead {c : Codec} {t : CodeTree} (hnode : c.core.node = t.layout 0) (hsize : t.size ≤ Config.nodeCap) :
    (c.treeRead 0).core.Rooted := by
  obtain ⟨htree, hindices⟩ := CodeTree.treeOf_layout_zero hsize
  have hholds : (c.treeRead 0).core.holds t := CoreState.holds_of_layout hnode rfl hsize
  refine ⟨by rw [show (c.treeRead 0).core.node = t.layout 0 from hnode, CodeTree.layout_length]; exact hsize, fun _ => ⟨t, hholds, ?_⟩⟩
  have hfull := t.leaves_length
  have hcap : t.leaves.length + t.internals ≤ 511 := hsize
  have hleaves : leafCount c.core.node = t.leaves.length := by rw [hnode, CodeTree.leafCount_layout]
  have hlen : c.core.node.length = t.leaves.length + t.internals := by rw [hnode, CodeTree.layout_length]; rfl
  simp only [Codec.treeRead, Codec.mapCore_core, setDone_fields, setRead_fields, setTreeSize_fields, setRoot_fields, hleaves,
    hlen, BitVec.toNat_ofNat]
  omega

/-- A core with the nodes and the root of a built forest holds its tree (41_tree_builder.md R94). -/
theorem CoreState.holds_of_built {k : CoreState} {freq : Table (BitVec 32)} {t : CodeTree}
    (hnode : k.node = (builtForest freq).nodes) (hroot : k.root = Fin.ofNat 512 ((builtForest freq).nodes.length - 1))
    (h : BuildsTree freq (builtForest freq).nodes t) : k.holds t := by
  obtain ⟨hheld, hunshared, hsize, -⟩ := h.rooted
  rw [CoreState.holds, hnode, hroot]
  exact ⟨hheld, hunshared, hsize⟩

theorem storedClosed_rooted : StoredClosed CoreState.Rooted where
  stored _ := Iff.rfl
  blank h := ⟨h.node, fun hvalid => absurd (h.treeValid.symm.trans hvalid) Bool.false_ne_true⟩
  clears i {k} h := by
    cases i with
    | count | rdtree | clear | build => exact ⟨Nat.zero_le _, Bool.false_ne_true.elim⟩
    | nop | gencodes | wrtree | encode | decode | project | wrmagic | chkmagic | close => exact h
  count h := ⟨h.1.node, fun hvalid => absurd (h.1.treeValid.symm.trans hvalid) Bool.false_ne_true⟩
  empty _ hvalid _ := ⟨Nat.zero_le _, fun h => absurd (hvalid.symm.trans h) Bool.false_ne_true⟩
  build {c} _ _ _ hpresent := by
    obtain ⟨t, hbuilds⟩ := builtForest_tree hpresent
    have hcap := (builtForest_bounds hpresent).2
    rw [Codec.built_core]
    exact ⟨hcap, fun _ => ⟨t, CoreState.holds_of_built (freq := c.core.freq) rfl rfl hbuilds,
      hbuilds.rooted.setTreeSize (k := storeForest (builtForest c.core.freq) c.core) hcap⟩⟩
  codes h _ _ := h
  read _ hnode hsize := rooted_treeRead hnode hsize
  sizes h := h

/-- Settles O25: BUILD and RDTREE complete with one tree and its sizes, the commands that clear TREE_VALID empty the node memory, and no
other writes it. -/
theorem stepKeepsTheTreeInvariant : Obligations.StepKeepsTheTreeInvariant :=
  fun _ _ h hstep => storedClosed_rooted.stepClosed.step h hstep

/-! ## The counts, the built tree and the codes -/

/-- The invariant of what is derived, of the core. -/
def CoreState.Derived (k : CoreState) : Prop :=
  (k.status.freqValid = true → countSum k.freq = k.totalBytes.toNat ∧ k.nsym.toNat = presentCount k.freq) ∧
  (k.status.treeBuilt = true → ∃ t, k.holds t ∧ BuiltFrom k.freq t ∧ (k.status.codesValid = true → k.codesOf t))

theorem storedClosed_derived : StoredClosed CoreState.Derived where
  stored _ := Iff.rfl
  blank h := ⟨fun hvalid => absurd (h.freqValid.symm.trans hvalid) Bool.false_ne_true,
    fun hbuilt => absurd (h.treeBuilt.symm.trans hbuilt) Bool.false_ne_true⟩
  clears i {k} h := by
    obtain ⟨hfreq, hbuilt⟩ := h
    cases i with
    | count | rdtree | clear => exact ⟨Bool.false_ne_true.elim, Bool.false_ne_true.elim⟩
    | build => exact ⟨hfreq, Bool.false_ne_true.elim⟩
    | gencodes =>
      refine ⟨hfreq, fun h => ?_⟩
      obtain ⟨t, hholds, hfrom, -⟩ := hbuilt h
      exact ⟨t, hholds, hfrom, Bool.false_ne_true.elim⟩
    | nop | wrtree | encode | decode | project | wrmagic | chkmagic | close => exact ⟨hfreq, hbuilt⟩
  count {k} h := by
    refine ⟨fun _ => ⟨h.2, ?_⟩, fun hbuilt => absurd (h.1.treeBuilt.symm.trans hbuilt) Bool.false_ne_true⟩
    have hle := presentCount_le k.freq
    rw [(finishCount_fields k).2.2.2.1, BitVec.toNat_ofNat]
    exact Nat.mod_eq_of_lt (by omega)
  empty h _ hbuilt := ⟨h.1, fun h => absurd (hbuilt.symm.trans h) Bool.false_ne_true⟩
  build {c} h hvalid hcodes hpresent := by
    obtain ⟨t, hbuilds⟩ := builtForest_tree hpresent
    have hsum : countSum c.core.freq < 2 ^ 32 := by rw [(h.1 hvalid).1]; exact BitVec.isLt _
    rw [Codec.built_core]
    exact ⟨h.1, fun _ => ⟨t, CoreState.holds_of_built (freq := c.core.freq) rfl rfl hbuilds,
      ⟨hbuilds.isNode, (hbuilds.exact hsum).1, hbuilds.leaves⟩,
      fun h => absurd (hcodes.symm.trans h) Bool.false_ne_true⟩⟩
  codes {k x} h hbuilt hwalk := by
    refine ⟨h.1, fun _ => ?_⟩
    obtain ⟨t, hholds, hfrom, -⟩ := h.2 hbuilt
    rw [walkCodes_treeOf hholds.1] at hwalk
    cases hwalk
    exact ⟨t, hholds, hfrom, fun _ => codesOf_of_bindTree (fun _ => rfl) hfrom.2.2.realSymbols_nodup hfrom.2.2.depth_le⟩
  read hblank _ _ := ⟨fun hvalid => absurd (hblank.freqValid.symm.trans hvalid) Bool.false_ne_true,
    fun hbuilt => absurd (hblank.treeBuilt.symm.trans hbuilt) Bool.false_ne_true⟩
  sizes h := h

end Sys2Proof.Machine

/-! PROOFS. Every step keeps the unwritten bits of OBUF at 0 and IPOS within the input (spec/20_memory.md R55, R56;
spec/10_state.md R39, R41), and so the whole invariant. -/

namespace Sys2Proof.Machine

/-! ## One bit -/

/-- The codec with the bit `b` placed in OBUF, before OBITS counts it (20_memory.md R55). -/
def Codec.packed (b : Bool) (c : Codec) : Codec := c.mapCore (packBit c.params.packOrder b)

@[simp] theorem Codec.packed_io (b : Bool) (c : Codec) : (c.packed b).io = c.io := rfl
@[simp] theorem Codec.packed_params (b : Bool) (c : Codec) : (c.packed b).params = c.params := rfl
@[simp] theorem Codec.packed_obits (b : Bool) (c : Codec) : (c.packed b).core.obits = c.core.obits := rfl

/-- The codec after a bit that does not fill OBUF. -/
def Codec.bitHeld (b : Bool) (c : Codec) : Codec := (c.packed b).mapCore fun k => { k with obits := k.obits + 1 }

/-- The codec after a bit that fills OBUF, once its byte is written. -/
def Codec.byteWritten (b : Bool) (c : Codec) : Codec :=
  ((c.packed b).drawn.appended (c.packed b).core.obuf).mapCore dropPending

theorem tryBitWrite_held {c : Codec} (b : Bool) (h : c.core.obits.val ≠ 7) : tryBitWrite b c = .ok true (c.bitHeld b) := by
  rw [tryBitWrite, engine_bind_of_ok (modify_apply _ _), engine_bind_of_ok (get_apply _),
    if_neg (show ¬ (c.mapCore (packBit c.params.packOrder b)).core.obits.val = 7 from h)]
  rfl

/-- The bit that fills OBUF: the byte is written, or not, or waits. -/
theorem tryBitWrite_full {c : Codec} (b : Bool) (h : c.core.obits.val = 7) : tryBitWrite b c =
    (do if ← tryWrite (c.packed b).core.obuf then modify (Codec.mapCore dropPending); pure true
        else pure false : QuietM Bool) (c.packed b) := by
  rw [tryBitWrite, engine_bind_of_ok (modify_apply _ _), engine_bind_of_ok (get_apply _),
    if_pos (show (c.mapCore (packBit c.params.packOrder b)).core.obits.val = 7 from h)]
  rfl

theorem tryBitWrite_written {c : Codec} (b : Bool) (h : c.core.obits.val = 7) (hd : c.io.draws.pop.1 = .ok)
    (ho : c.io.outClosed = false) : tryBitWrite b c = .ok true (c.byteWritten b) := by
  rw [tryBitWrite_full b h, engine_bind_of_ok (tryWrite_ok (c := c.packed b) _ hd ho)]
  rfl

theorem tryBitWrite_of_false {c : Codec} (b : Bool) (h : c.core.obits.val = 7)
    (hw : tryWrite (c.packed b).core.obuf (c.packed b) = .ok false (c.packed b).drawn) :
    tryBitWrite b c = .ok false (c.packed b).drawn := by
  rw [tryBitWrite_full b h, engine_bind_of_ok hw]
  rfl

/-- All that a bit write can do. -/
theorem tryBitWrite_cases (b : Bool) (c : Codec) :
    (c.core.obits.val ≠ 7 ∧ tryBitWrite b c = .ok true (c.bitHeld b)) ∨
    (c.core.obits.val = 7 ∧ (c.io.outClosed = false ∧ tryBitWrite b c = .ok true (c.byteWritten b) ∨
      tryBitWrite b c = .ok false (c.packed b).drawn ∨ ∃ x, tryBitWrite b c = .error (.wait x) (c.packed b).drawn)) := by
  by_cases h : c.core.obits.val = 7
  · refine .inr ⟨h, ?_⟩
    rcases tryWrite_cases (c.packed b).core.obuf (c.packed b) with ⟨hopen, hw⟩ | hw | ⟨-, hw⟩
    · refine .inl ⟨hopen, ?_⟩
      rw [tryBitWrite_full b h, engine_bind_of_ok hw]
      rfl
    · exact .inr (.inl (tryBitWrite_of_false b h hw))
    · refine .inr (.inr ⟨.write (c.packed b).core.obuf, ?_⟩)
      rw [tryBitWrite_full b h, engine_bind_of_error hw]
  · exact .inl ⟨h, tryBitWrite_held b h⟩

/-! ## The unwritten bits of OBUF -/

/-- 10_state.md R39: the bits of OBUF not yet written are 0. -/
def Codec.Packed (c : Codec) : Prop :=
  ∀ j, c.core.obits.val ≤ j → j < 8 → c.core.obuf.getLsbD (bitPos c.params.packOrder j) = false

theorem packed_of_obuf_zero {c : Codec} (h : c.core.obuf = 0#8) : c.Packed := fun _ _ _ => by
  rw [h, BitVec.getLsbD_zero]

theorem Codec.Packed.bitHeld {c : Codec} (h : c.Packed) (b : Bool) (hlt : c.core.obits.val ≠ 7) : (c.bitHeld b).Packed := by
  intro j hj hj8
  have hbound := c.core.obits.isLt
  have hobits : (c.bitHeld b).core.obits.val = c.core.obits.val + 1 := by
    change (c.core.obits + 1).val = _
    rw [Fin.val_add, Fin.val_one]
    omega
  rw [hobits] at hj
  change (putBit c.core.obuf (bitPos c.params.packOrder c.core.obits.val) b).getLsbD (bitPos c.params.packOrder j) = false
  rw [putBit_getLsbD _ (bitPos_lt _ (by omega)), if_neg, h j (by omega) hj8]
  rw [bitPos_inj _ hj8 (by omega)]
  omega

theorem tryBitWrite_packed {b : Bool} {c c' : Codec} (h : c.Packed) (hrun : tryBitWrite b c = .ok true c') : c'.Packed := by
  rcases tryBitWrite_cases b c with ⟨hlt, hw⟩ | ⟨-, ⟨-, hw⟩ | hw | ⟨x, hw⟩⟩
  · cases hrun.symm.trans hw
    exact h.bitHeld b hlt
  · cases hrun.symm.trans hw
    exact packed_of_obuf_zero rfl
  · cases hrun.symm.trans hw
  · cases hrun.symm.trans hw

/-- The flush leaves no bit behind, whether its write succeeds or fails (60_exceptions.md R138). -/
theorem flushIgnoring_packed {n : Nat} {c c' : Codec} (h : c.Packed) (hrun : flushIgnoring n c = .ok () c') : c'.Packed := by
  induction n generalizing c with
  | zero =>
    cases hrun
    exact h
  | succ n ih =>
    rw [flushIgnoring, engine_bind_of_ok (get_apply _)] at hrun
    split at hrun
    · cases hrun
      exact h
    · obtain ⟨ok, c1, hw, hrest⟩ := engine_bind_ok.1 hrun
      cases ok with
      | true => exact ih (tryBitWrite_packed h hw) hrest
      | false =>
        cases hrest
        exact packed_of_obuf_zero rfl

theorem errorExit_packed {e : ErrCode} {c c' : Codec} (h : e = .ioOut ∨ c.Packed) (hrun : errorExit e c = .ok () c') :
    c'.Packed := by
  rw [errorExit, engine_bind_of_ok (modify_apply _ _)] at hrun
  obtain ⟨_, c1, hsettle, hrun⟩ := engine_bind_ok.1 hrun
  obtain ⟨_, c2, hclose, hrun⟩ := engine_bind_ok.1 hrun
  cases hrun
  have hkeeps := (composes_of_invariant Codec.Packed).keeps_tryClose (fun _ h => h) fun _ h => h
  refine hkeeps.of_ok hclose ?_
  unfold settlePending at hsettle
  split at hsettle
  · cases hsettle
    exact packed_of_obuf_zero rfl
  · rename_i hne
    exact flushIgnoring_packed (c := c.mapCore (setError e)) (h.resolve_left hne) hsettle

/-! ## The rules -/

/-- How a rule that fails may leave OBUF: as it must be, unless its byte could not be written or the engine stops. -/
def PackedAfter (e : Stop) (c : Codec) : Prop := e = .raise .ioOut ∨ (∃ h, e = .halt h) ∨ c.Packed

/-- Begun with the unwritten bits 0, the computation completes with them 0. -/
def EndsPacked {α : Type} (x : EngineM α) : Prop := ∀ c : Codec, c.Packed → Ends x (fun _ => Codec.Packed) PackedAfter c

/-- The unwritten bits stay 0. -/
def StaysPacked (c c' : Codec) : Prop := c.Packed → c'.Packed

theorem composes_staysPacked : Composes StaysPacked := composes_of_invariant Codec.Packed

theorem staysPacked_binRead : Keeps StaysPacked binRead := composes_staysPacked.keeps_binRead (fun _ h => h) fun _ h => h

theorem staysPacked_binRewind : Keeps StaysPacked binRewind :=
  composes_staysPacked.keeps_binRewind (fun _ h => h) fun _ h => h

theorem staysPacked_bitRead : Keeps StaysPacked bitRead :=
  composes_staysPacked.keeps_bitRead staysPacked_binRead (fun _ _ h => h) fun _ h => h

theorem staysPacked_boutWrite (b : Byte) : Keeps StaysPacked (boutWrite b) :=
  composes_staysPacked.keeps_boutWrite (composes_staysPacked.keeps_tryWrite (fun _ h => h) (fun _ _ h => h) b)

theorem staysPacked_complete : Keeps StaysPacked complete := keeps_modifyCore fun _ h => h

section
variable {α β : Type}

theorem endsPacked_of_keeps {x : EngineM α} (h : Keeps StaysPacked x) : EndsPacked x :=
  fun _ hc => (h.ends hc).mono (fun _ _ h => h) fun _ _ h => .inr (.inr h)

theorem endsPacked_bind {x : EngineM α} {f : α → EngineM β} (hx : EndsPacked x) (hf : ∀ a, EndsPacked (f a)) :
    EndsPacked (x >>= f) :=
  fun c hc => .bind ((hx c hc).mono (fun a c1 h => hf a c1 h) fun _ _ h => h)

end

theorem endsPacked_bitWrite (b : Bool) : EndsPacked (bitWrite b) := fun c hc => by
  cases hw : tryBitWrite b c with
  | ok ok c1 =>
    refine .bind ((ends_of_ok (quiet_ok.2 hw)).2 ?_)
    cases ok with
    | true => exact tryBitWrite_packed hc hw
    | false => exact .inl rfl
  | error h c1 => exact (ends_of_error (engine_bind_of_error (quiet_error.2 ⟨h, rfl, hw⟩))).2 (.inr (.inl ⟨h, rfl⟩))

theorem endsPacked_bitWrites (bits : List Bool) : EndsPacked (bitWrites bits) := by
  induction bits with
  | nil => exact endsPacked_of_keeps (composes_staysPacked.keeps_pure _)
  | cons b bs ih => exact endsPacked_bind (endsPacked_bitWrite b) fun _ => ih

theorem endsPacked_bitFlushLoop (n : Nat) : EndsPacked (bitFlushLoop n) := by
  induction n with
  | zero => exact endsPacked_of_keeps (composes_staysPacked.keeps_pure _)
  | succ n ih =>
    refine endsPacked_bind (endsPacked_of_keeps composes_staysPacked.keeps_get) fun c => ?_
    split
    · exact endsPacked_of_keeps (composes_staysPacked.keeps_pure _)
    · exact endsPacked_bind (endsPacked_bitWrite _) fun _ => ih

theorem endsPacked_encodeLoop (n : Nat) : EndsPacked (encodeLoop n) := by
  have hend : EndsPacked binAtEnd := endsPacked_of_keeps composes_staysPacked.keeps_binAtEnd
  induction n with
  | zero =>
    refine endsPacked_bind hend fun stop => ?_
    cases stop with
    | true => exact endsPacked_of_keeps (composes_staysPacked.keeps_pure _)
    | false => exact endsPacked_of_keeps (composes_staysPacked.keeps_crash _)
  | succ n ih =>
    refine endsPacked_bind hend fun stop => ?_
    cases stop with
    | true => exact endsPacked_of_keeps (composes_staysPacked.keeps_pure _)
    | false =>
      refine endsPacked_bind (endsPacked_of_keeps staysPacked_binRead) fun b => endsPacked_bind ?_ fun _ => ih
      refine endsPacked_bind (endsPacked_of_keeps composes_staysPacked.keeps_getCore) fun k => ?_
      split
      · exact endsPacked_of_keeps (composes_staysPacked.keeps_raise _)
      · exact endsPacked_bitWrites _

/-- The rules that write no bit do not touch the packer; WRTREE, ENCODE and CLOSE write bits. -/
theorem endsPacked_ruleOf (i : Instr) : EndsPacked (ruleOf i) := by
  have hR := composes_staysPacked
  have hdone := staysPacked_complete
  cases i with
  | nop => exact endsPacked_of_keeps hdone
  | count =>
    exact endsPacked_of_keeps (hR.keeps_countBody staysPacked_binRewind staysPacked_binRead (fun _ h => h) (fun _ _ h => h)
      (fun _ h => h) hdone)
  | build =>
    exact endsPacked_of_keeps (hR.keeps_buildBody (fun _ h => h) (fun _ _ h => h) (fun _ h => h) (fun _ h => h) hdone)
  | gencodes => exact endsPacked_of_keeps (hR.keeps_gencodesBody (fun _ _ h => h) hdone)
  | wrtree =>
    exact endsPacked_bind (endsPacked_of_keeps hR.keeps_getCore) fun _ => endsPacked_bind (endsPacked_of_keeps hR.keeps_getParams)
      fun _ => endsPacked_bind (endsPacked_of_keeps (hR.keeps_need _)) fun bits => endsPacked_bind (endsPacked_bitWrites bits)
        fun _ => endsPacked_of_keeps hdone
  | rdtree =>
    exact endsPacked_of_keeps (hR.keeps_rdtreeBody (fun _ h => h)
      (hR.keeps_readNode staysPacked_bitRead (fun _ h => h) (fun _ _ _ h => h) _) (fun _ _ h => h) (fun _ h => h) (fun _ h => h) hdone)
  | encode =>
    exact endsPacked_bind (endsPacked_of_keeps staysPacked_binRewind) fun _ => endsPacked_bind
      (endsPacked_of_keeps hR.keeps_get) fun _ => endsPacked_bind (endsPacked_encodeLoop _) fun _ => endsPacked_of_keeps hdone
  | decode =>
    exact endsPacked_of_keeps (hR.keeps_decodeBody (fun _ h => h) staysPacked_bitRead staysPacked_boutWrite (fun _ h => h)
      (fun _ h => h) hdone)
  | project => exact endsPacked_of_keeps (hR.keeps_projectBody (fun _ h => h) hdone)
  | wrmagic => exact endsPacked_of_keeps (hR.keeps_wrmagicBody staysPacked_boutWrite hdone)
  | chkmagic => exact endsPacked_of_keeps (hR.keeps_chkmagicBody staysPacked_binRewind staysPacked_binRead hdone)
  | close =>
    exact endsPacked_bind (endsPacked_bitFlushLoop 7) fun _ => endsPacked_bind (endsPacked_of_keeps (hR.keeps_boutClose
      (hR.keeps_tryClose (fun _ h => h) fun _ h => h))) fun _ => endsPacked_of_keeps hdone
  | clear => exact endsPacked_of_keeps (hR.keeps_clearBody (fun _ _ => packed_of_obuf_zero rfl) hdone)

/-! ## The step -/

theorem clearsOf_packer (i : Instr) (k : CoreState) : (clearsOf i k).obuf = k.obuf ∧ (clearsOf i k).obits = k.obits := by
  cases i <;> exact ⟨rfl, rfl⟩

theorem withErrorExit_packed {i : Instr} {c c' : Codec} (h : c.Packed)
    (hrun : withErrorExit (ruleOf i) ((c.accept (encode i)).mapCore (clearsOf i)) = .ok () c') : c'.Packed := by
  have hstart : ((c.accept (encode i)).mapCore (clearsOf i)).Packed := by
    obtain ⟨hobuf, hobits⟩ := clearsOf_packer i (c.accept (encode i)).core
    rw [Codec.Packed, Codec.mapCore_core, hobuf, hobits]
    exact h
  have hends := endsPacked_ruleOf i _ hstart
  rcases withErrorExit_cases hrun with hok | ⟨e, c1, hraise, hexit⟩
  · exact hends.ok hok
  · rcases hends.error hraise with hio | ⟨x, hx⟩ | hpacked
    · cases hio
      exact errorExit_packed (.inl rfl) hexit
    · cases hx
    · exact errorExit_packed (.inr hpacked) hexit

theorem stepClosed_streamInv : StepClosed Codec.StreamInv where
  reset h hio := ⟨packed_of_obuf_zero rfl, hio h.2⟩
  streams h hio := ⟨h.1, hio h.2⟩
  ovr h := h
  accept _ h := h
  precise _ _ _ h := h
  rule {i c c'} h _ hrun := by
    have hkeeps := streamsKeep_within.keeps_withErrorExit (streamsKeep_within.keeps_ruleOf i) streamsKeep_within.keeps_errorExit
    exact ⟨withErrorExit_packed h.1 hrun, hkeeps.of_ok hrun h.2⟩

/-- Settles O24: a bit write clears OBUF when it is full, a failed one is followed by the discarding of the pending bits, and a byte
is read only before the end of the input. -/
theorem stepKeepsTheStreamInvariant : Obligations.StepKeepsTheStreamInvariant :=
  fun _ _ h hstep => stepClosed_streamInv.step h hstep

theorem StepClosed.and {P Q : Codec → Prop} (hP : StepClosed P) (hQ : StepClosed Q) : StepClosed fun c => P c ∧ Q c where
  reset h hio := ⟨hP.reset h.1 hio, hQ.reset h.2 hio⟩
  streams h hio := ⟨hP.streams h.1 hio, hQ.streams h.2 hio⟩
  ovr h := ⟨hP.ovr h.1, hQ.ovr h.2⟩
  accept w h := ⟨hP.accept w h.1, hQ.accept w h.2⟩
  precise w _ he h := ⟨hP.precise w he h.1, hQ.precise w he h.2⟩
  rule h hpre hrun := ⟨hP.rule h.1 hpre hrun, hQ.rule h.2 hpre hrun⟩

theorem stepClosed_inv : StepClosed Codec.Inv :=
  stepClosed_statusInv.and (stepClosed_streamInv.and (storedClosed_rooted.stepClosed.and storedClosed_derived.stepClosed))

/-- Settles O26: the four parts of the invariant are each kept. -/
theorem stepKeepsTheInvariant : Obligations.StepKeepsTheInvariant := fun _ _ h hstep => stepClosed_inv.step h hstep

end Sys2Proof.Machine

/-! PROOFS. Every command ends when its transactions are answered, and none faults (spec/30_encoding.md R73; spec/20_memory.md R49;
spec/00_scope.md R16): each loop's bound is as long as what it reads, and each walk's depth as the tree it walks. -/

namespace Sys2Proof.Machine

/-! ## The environment -/

/-- The draws to come have a property `D` for ever, and a `wait` among them means `W`. With `D` that every transaction is answered, `W`
is false. -/
structure Environment (D : Draws → Prop) (W : Prop) : Prop where
  wait : ∀ {d}, D d → d.pop.1 = .wait → W
  pop : ∀ {d}, D d → D d.pop.2

theorem environment_any : Environment (fun _ => True) True := ⟨fun _ _ => trivial, fun _ => trivial⟩

theorem environment_answered : Environment Draws.answered False :=
  ⟨fun h hw => (Draws.pop_answered h).1 hw, fun h => (Draws.pop_answered h).2⟩

/-- How a rule may stop short: by an error of the spec, or where `W` by a wait, and never by a fault. -/
def Stop.Allowed (W : Prop) (e : Stop) : Prop :=
  match e with
  | .raise _ => True
  | .halt (.wait _) => W
  | .halt (.fault _) => False

/-- The draws have the property, and IPOS is within the input. -/
def Codec.Live (D : Draws → Prop) (c : Codec) : Prop := D c.io.draws ∧ c.io.within

/-- From `c` the computation completes with `Q`, or it stops short in an allowed way. -/
def Sound (D : Draws → Prop) (W : Prop) {α : Type} (x : EngineM α) (Q : α → Codec → Prop) (c : Codec) : Prop :=
  Ends x (fun a c' => c'.Live D ∧ Q a c') (fun e c' => e.Allowed W ∧ D c'.io.draws) c

/-- A computation that no codec lets fault. -/
def Plain (D : Draws → Prop) (W : Prop) {α : Type} (x : EngineM α) : Prop :=
  ∀ c : Codec, c.Live D → Sound D W x (fun _ _ => True) c

section
variable {D : Draws → Prop} {W : Prop} {α β : Type}

/-! ## Composition -/

theorem sound_pure {a : α} {Q : α → Codec → Prop} {c : Codec} (hc : c.Live D) (h : Q a c) : Sound D W (pure a) Q c := ⟨hc, h⟩

theorem sound_raise {e : ErrCode} {Q : α → Codec → Prop} {c : Codec} (hc : c.Live D) : Sound D W (raise e) Q c :=
  ⟨trivial, hc.1⟩

theorem Sound.mono {x : EngineM α} {Q Q' : α → Codec → Prop} {c : Codec} (h : Sound D W x Q c) (hQ : ∀ a c', Q a c' → Q' a c') :
    Sound D W x Q' c := Ends.mono h (fun a c' h => ⟨h.1, hQ a c' h.2⟩) fun _ _ h => h

theorem Sound.bind {x : EngineM α} {f : α → EngineM β} {Q : α → Codec → Prop} {S : β → Codec → Prop} {c : Codec}
    (hx : Sound D W x Q c) (hf : ∀ a c', c'.Live D → Q a c' → Sound D W (f a) S c') : Sound D W (x >>= f) S c :=
  Ends.bind (Ends.mono hx (fun a c' h => hf a c' h.1 h.2) fun _ _ h => h)

theorem Sound.and_ok {x : EngineM α} {Q Q' : α → Codec → Prop} {c : Codec} (h : Sound D W x Q c)
    (hQ : ∀ a c', x c = .ok a c' → Q' a c') : Sound D W x (fun a c' => Q a c' ∧ Q' a c') c := by
  cases hx : x c with
  | ok a c' => exact (ends_of_ok hx).2 ⟨(Ends.ok h hx).1, (Ends.ok h hx).2, hQ a c' hx⟩
  | error e c' => exact (ends_of_error hx).2 (Ends.error h hx)

/-- A relation that the computation keeps holds where it completes. -/
theorem Sound.keeps {x : EngineM α} {R : Codec → Codec → Prop} {Q : α → Codec → Prop} {c : Codec} (h : Sound D W x Q c)
    (hR : Keeps R x) : Sound D W x (fun a c' => Q a c' ∧ R c c') c :=
  h.and_ok fun _ _ => hR.of_ok

theorem plain_pure (a : α) : Plain D W (pure a : EngineM α) := fun _ hc => sound_pure hc trivial

theorem plain_raise (e : ErrCode) : Plain D W (raise e : EngineM α) := fun _ hc => sound_raise hc

theorem plain_modifyCore (f : CoreState → CoreState) : Plain D W (modifyCore f) := fun _ hc => ⟨hc, trivial⟩

theorem plain_get : Plain D W (get : EngineM Codec) := fun _ hc => ⟨hc, trivial⟩

theorem plain_bind {x : EngineM α} {f : α → EngineM β} (hx : Plain D W x) (hf : ∀ a, Plain D W (f a)) : Plain D W (x >>= f) :=
  fun c hc => (hx c hc).bind fun a c' hc' _ => hf a c' hc'

theorem plain_branch {x : EngineM Bool} {yes no : EngineM α} (hx : Plain D W x) (hyes : Plain D W yes) (hno : Plain D W no) :
    Plain D W (x >>= fun b => if b = true then yes else no) :=
  plain_bind hx fun b => by
    cases b with
    | true => exact hyes
    | false => exact hno

/-! ## Transactions and bits -/

/-- From `c` a computation outside a rule, which raises nothing, ends, or waits where `W`. -/
def SettlesAt (D : Draws → Prop) (W : Prop) (x : QuietM α) (c : Codec) : Prop :=
  match x c with
  | .ok _ c' => D c'.io.draws
  | .error (.wait _) c' => W ∧ D c'.io.draws
  | .error (.fault _) _ => False

/-- So it does wherever the draws have the property. -/
def Settles (D : Draws → Prop) (W : Prop) (x : QuietM α) : Prop := ∀ c : Codec, D c.io.draws → SettlesAt D W x c

theorem settles_pure (a : α) : Settles D W (pure a : QuietM α) := fun _ hc => hc

theorem settles_get : Settles D W (get : QuietM Codec) := fun _ hc => hc

theorem settles_modify {f : Codec → Codec} (hf : ∀ c, (f c).io.draws = c.io.draws) :
    Settles D W (modify f : QuietM PUnit) := fun c hc => by
  change D (f c).io.draws
  rw [hf]
  exact hc

theorem settles_bind {x : QuietM α} {f : α → QuietM β} (hx : Settles D W x) (hf : ∀ a, Settles D W (f a)) :
    Settles D W (x >>= f) := fun c hc => by
  have hfirst := hx c hc
  unfold SettlesAt at hfirst ⊢
  cases hr : x c with
  | ok a c1 =>
    rw [hr] at hfirst
    rw [engine_bind_of_ok hr]
    exact hf a c1 hfirst
  | error e c1 =>
    rw [hr] at hfirst
    rw [engine_bind_of_error hr]
    cases e with
    | wait t => exact hfirst
    | fault f => exact hfirst

/-- Inside a rule it keeps IPOS within the input when its streams do. -/
theorem plain_quiet {x : QuietM α} (h : Settles D W x) (hin : Keeps (fun c c' => c.io.within → c'.io.within) x) :
    Plain D W (quiet x) := fun c hc => by
  have hx := h c hc.1
  unfold SettlesAt at hx
  cases hr : x c with
  | ok a c1 =>
    rw [hr] at hx
    exact (ends_of_ok (quiet_ok.2 hr)).2 ⟨⟨hx, hin.of_ok hr hc.2⟩, trivial⟩
  | error e c1 =>
    rw [hr] at hx
    refine (ends_of_error (quiet_error.2 ⟨e, rfl, hr⟩)).2 ?_
    cases e with
    | wait t => exact hx
    | fault f => exact hx.elim

variable (hE : Environment D W)
include hE

theorem settles_transact (t : Txn) : Settles D W (transact t) := fun c hc => by
  unfold SettlesAt
  rcases transact_cases t c with ⟨-, h⟩ | ⟨-, h⟩ | ⟨hw, h⟩
  · rw [h]; exact hE.pop hc
  · rw [h]; exact hE.pop hc
  · rw [h]; exact ⟨hE.wait hc hw, hE.pop hc⟩

theorem settles_tryWrite (b : Byte) : Settles D W (tryWrite b) := fun c hc => by
  unfold SettlesAt
  rcases tryWrite_cases b c with ⟨-, h⟩ | h | ⟨hw, h⟩
  · rw [h]; exact hE.pop hc
  · rw [h]; exact hE.pop hc
  · rw [h]; exact ⟨hE.wait hc hw, hE.pop hc⟩

theorem settles_tryClose : Settles D W tryClose :=
  settles_bind (settles_transact hE _) fun ok => by
    cases ok with
    | true => exact settles_bind (settles_modify fun _ => rfl) fun _ => settles_pure _
    | false => exact settles_pure _

theorem settles_tryBitWrite (b : Bool) : Settles D W (tryBitWrite b) := by
  refine settles_bind (settles_modify fun _ => rfl) fun _ => settles_bind settles_get fun c => ?_
  split
  · refine settles_bind (settles_tryWrite hE _) fun ok => ?_
    cases ok with
    | true => exact settles_bind (settles_modify fun _ => rfl) fun _ => settles_pure _
    | false => exact settles_pure _
  · exact settles_bind (settles_modify fun _ => rfl) fun _ => settles_pure _

theorem settles_flushIgnoring (n : Nat) : Settles D W (flushIgnoring n) := by
  induction n with
  | zero => exact settles_pure _
  | succ n ih =>
    refine settles_bind settles_get fun c => ?_
    split
    · exact settles_pure _
    · refine settles_bind (settles_tryBitWrite hE _) fun ok => ?_
      cases ok with
      | true => exact ih
      | false => exact settles_modify fun _ => rfl

theorem settles_errorExit (e : ErrCode) : Settles D W (errorExit e) := by
  refine settles_bind (settles_modify fun _ => rfl) fun _ => settles_bind ?_ fun _ =>
    settles_bind (settles_tryClose hE) fun _ => settles_pure _
  unfold settlePending
  split
  · exact settles_modify fun _ => rfl
  · exact settles_flushIgnoring hE 7

theorem plain_transact (t : Txn) : Plain D W (quiet (transact t)) :=
  plain_quiet (settles_transact hE t) (keeps_transact (fun _ h => h) t)

theorem plain_boutWrite (b : Byte) : Plain D W (boutWrite b) :=
  plain_branch (plain_quiet (settles_tryWrite hE b) (streamsKeep_within.write b)) (plain_pure _) (plain_raise _)

theorem plain_boutClose : Plain D W boutClose :=
  plain_branch (plain_quiet (settles_tryClose hE) streamsKeep_within.close) (plain_pure _) (plain_raise _)

theorem plain_bitWrite (b : Bool) : Plain D W (bitWrite b) :=
  plain_branch (plain_quiet (settles_tryBitWrite hE b) (streamsKeep_within.keeps_tryBitWrite b)) (plain_pure _) (plain_raise _)

theorem plain_bitWrites (bits : List Bool) : Plain D W (bitWrites bits) := by
  induction bits with
  | nil => exact plain_pure _
  | cons b bs ih => exact plain_bind (plain_bitWrite hE b) fun _ => ih

theorem plain_bitFlushLoop (n : Nat) : Plain D W (bitFlushLoop n) := by
  induction n with
  | zero => exact plain_pure _
  | succ n ih =>
    refine plain_bind plain_get fun c => ?_
    split
    · exact plain_pure _
    · exact plain_bind (plain_bitWrite hE _) fun _ => ih

theorem plain_writeBytes (bs : List Byte) : Plain D W (writeBytes bs) := by
  induction bs with
  | nil => exact plain_pure _
  | cons b bs ih => exact plain_bind (plain_boutWrite hE b) fun _ => ih

theorem sound_binRewind {c : Codec} (hc : c.Live D) : Sound D W binRewind (fun _ c' => c'.io.ipos = 0) c :=
  (plain_transact hE .rewind c hc).bind fun ok c' hc' _ => by
    cases ok with
    | true => exact ⟨⟨hc'.1, Nat.zero_le _⟩, rfl⟩
    | false => exact sound_raise hc'

/-- A byte is read where there is one (20_memory.md R49). -/
theorem sound_binRead {c : Codec} (hc : c.Live D) (h : c.io.atEnd = false) :
    Sound D W binRead (fun _ c' => c'.io.input = c.io.input ∧ c'.io.ipos = c.io.ipos + 1) c := by
  have hlt : c.io.ipos < c.io.input.length := by
    have hin : c.io.ipos ≤ c.io.input.length := hc.2
    simp only [Streams.atEnd, beq_eq_false_iff_ne] at h
    omega
  have hstreams : Keeps (fun c c' => (c'.io.input, c'.io.ipos) = (c.io.input, c.io.ipos)) (quiet (transact .read)) :=
    keeps_quiet (keeps_transact (R := fun c c' => (c'.io.input, c'.io.ipos) = (c.io.input, c.io.ipos)) (fun _ => rfl) _)
  refine ((plain_transact hE .read c hc).keeps hstreams).bind fun ok c' hc' ⟨_, hsame⟩ => ?_
  obtain ⟨hinput, hipos⟩ := Prod.mk.inj hsame
  cases ok with
  | false => exact sound_raise hc'
  | true =>
    have hbyte : c'.io.input[c'.io.ipos]? = some c.io.input[c.io.ipos] := by simp [hinput, hipos, hlt]
    refine (ends_of_ok (takeByte_some hbyte)).2 ⟨⟨hc'.1, ?_⟩, hinput, congrArg (· + 1) hipos⟩
    change c'.io.ipos + 1 ≤ c'.io.input.length
    rw [hinput, hipos]
    exact hlt

/-! ## CHKMAGIC, COUNT and ENCODE -/

theorem plain_checkBytes (bs : List Byte) : Plain D W (checkBytes bs) := by
  induction bs with
  | nil => exact plain_pure _
  | cons m bs ih =>
    intro c hc
    refine Ends.bind ((ends_of_ok (binAtEnd_apply c)).2 ?_)
    cases hend : c.io.atEnd with
    | true => exact sound_raise hc
    | false =>
      refine (sound_binRead hE hc hend).bind fun b c' hc' _ => ?_
      split
      · exact sound_raise hc'
      · exact ih c' hc'

omit hE in
theorem unread_pos {c : Codec} (hc : c.Live D) (h : c.io.atEnd = false) : 0 < c.io.input.length - c.io.ipos := by
  have hin : c.io.ipos ≤ c.io.input.length := hc.2
  simp only [Streams.atEnd, beq_eq_false_iff_ne] at h
  omega

/-- The loop of COUNT goes round at most once for each byte left. -/
theorem sound_countLoop (n : Nat) {c : Codec} (hc : c.Live D) (hn : c.io.input.length - c.io.ipos ≤ n) :
    Sound D W (countLoop n) (fun _ _ => True) c := by
  induction n generalizing c with
  | zero =>
    refine Ends.bind ((ends_of_ok (binAtEnd_apply c)).2 ?_)
    cases hend : c.io.atEnd with
    | true => exact sound_pure hc trivial
    | false => exact absurd hn (Nat.not_le_of_lt (unread_pos hc hend))
  | succ n ih =>
    refine Ends.bind ((ends_of_ok (binAtEnd_apply c)).2 ?_)
    cases hend : c.io.atEnd with
    | true => exact sound_pure hc trivial
    | false =>
      refine Ends.bind ((ends_of_ok (getCore_apply c)).2 ?_)
      split
      · exact sound_raise hc
      · refine (sound_binRead hE hc hend).bind fun b c' hc' ⟨hinput, hipos⟩ => ?_
        refine Ends.bind ((ends_of_ok (modifyCore_apply _ _)).2 (ih hc' ?_))
        change c'.io.input.length - c'.io.ipos ≤ n
        rw [hinput, hipos]
        omega

theorem plain_countBody : Plain D W countBody := fun c hc => by
  refine (sound_binRewind hE hc).bind fun _ c1 hc1 h0 => Ends.bind ((ends_of_ok (modifyCore_apply _ _)).2 ?_)
  have hloop : Sound D W (countLoop c1.io.input.length) (fun _ _ => True) (c1.mapCore startCount) :=
    sound_countLoop hE _ hc1 (Nat.sub_le _ _)
  exact Ends.bind ((ends_of_ok (get_apply _)).2 (hloop.bind fun _ c2 hc2 _ =>
    plain_bind (plain_modifyCore _) (fun _ => plain_modifyCore _) c2 hc2))

theorem plain_encodeByte (b : Byte) : Plain D W (encodeByte b) :=
  fun c hc => Ends.bind ((ends_of_ok (getCore_apply c)).2 (by
    split
    · exact sound_raise hc
    · exact plain_bitWrites hE _ c hc))

/-- So does the loop of ENCODE. -/
theorem sound_encodeLoop (n : Nat) {c : Codec} (hc : c.Live D) (hn : c.io.input.length - c.io.ipos ≤ n) :
    Sound D W (encodeLoop n) (fun _ _ => True) c := by
  have hR := composes_of_view fun c : Codec => (c.io.input, c.io.ipos)
  induction n generalizing c with
  | zero =>
    refine Ends.bind ((ends_of_ok (binAtEnd_apply c)).2 ?_)
    cases hend : c.io.atEnd with
    | true => exact sound_pure hc trivial
    | false => exact absurd hn (Nat.not_le_of_lt (unread_pos hc hend))
  | succ n ih =>
    refine Ends.bind ((ends_of_ok (binAtEnd_apply c)).2 ?_)
    cases hend : c.io.atEnd with
    | true => exact sound_pure hc trivial
    | false =>
      refine (sound_binRead hE hc hend).bind fun b c1 hc1 ⟨hinput, hipos⟩ => ?_
      have hcodes := hR.keeps_encodeByte (hR.keeps_tryBitWrite (hR.keeps_tryWrite (fun _ => rfl) fun _ _ => rfl)
        (fun _ _ => rfl) (fun _ => rfl) fun _ => rfl) b
      refine ((plain_encodeByte hE b c1 hc1).keeps hcodes).bind fun _ c2 hc2 ⟨_, hsame⟩ => ih hc2 ?_
      obtain ⟨hinput2, hipos2⟩ := Prod.mk.inj hsame
      rw [hinput2, hipos2, hinput, hipos]
      omega

theorem plain_encodeBody : Plain D W encodeBody := fun c hc => by
  refine (sound_binRewind hE hc).bind fun _ c1 hc1 h0 => Ends.bind ((ends_of_ok (get_apply _)).2 ?_)
  exact (sound_encodeLoop hE _ hc1 (Nat.sub_le _ _)).bind fun _ c2 hc2 _ => plain_modifyCore _ c2 hc2

/-! ## The input's bits -/

/-- A bit is read where there is one, and one fewer is left (20_memory.md R57). -/
theorem sound_bitRead {c : Codec} (hc : c.Live D) (h : c.bitAtEnd = false) :
    Sound D W bitRead (fun _ c' => c'.bitsLeft + 1 = c.bitsLeft) c := by
  have hfill : Sound D W fillUnpacker (fun _ c' => c'.core.ibits.val ≠ 0 ∧ c'.bitsLeft = c.bitsLeft) c := by
    refine Ends.bind ((ends_of_ok (getCore_apply c)).2 ?_)
    by_cases h0 : c.core.ibits.val = 0
    · have hend : c.io.atEnd = false := by simpa [Codec.bitAtEnd, h0] using h
      have hleft := unread_pos hc hend
      rw [if_pos h0]
      refine (sound_binRead hE hc hend).bind fun b c' hc' ⟨hinput, hipos⟩ => ⟨hc', (by decide : (8 : Fin 9).val ≠ 0), ?_⟩
      change 8 + 8 * (c'.io.input.length - c'.io.ipos) = _
      rw [Codec.bitsLeft, hinput, hipos, h0]
      omega
    · rw [if_neg h0]
      exact sound_pure hc ⟨h0, rfl⟩
  refine hfill.bind fun _ c1 hc1 ⟨hne, hleft⟩ => Ends.bind ((ends_of_ok (get_apply c1)).2
    (Ends.bind ((ends_of_ok (modifyCore_apply _ _)).2 (sound_pure hc1 ?_))))
  have hlt := c1.core.ibits.isLt
  have hdrop : (c1.core.ibits - 1).val = c1.core.ibits.val - 1 := by
    rw [Fin.val_sub, Fin.val_one]
    omega
  rw [← hleft]
  change (c1.core.ibits - 1).val + 8 * (c1.io.input.length - c1.io.ipos) + 1 = _
  rw [hdrop, Codec.bitsLeft]
  omega

omit hE in
theorem bitsLeft_pos {c : Codec} (hc : c.Live D) (h : c.bitAtEnd = false) : 0 < c.bitsLeft := by
  have hin : c.io.ipos ≤ c.io.input.length := hc.2
  simp only [Codec.bitAtEnd, Streams.atEnd, Bool.and_eq_false_iff, beq_eq_false_iff_ne] at h
  rw [Codec.bitsLeft]
  omega

/-- A descent reads at most the bits left, and at least one to reach a leaf below an internal node. -/
theorem sound_descendTree (n : Nat) (t : CodeTree) {c : Codec} (hc : c.Live D) (hn : c.bitsLeft ≤ n) :
    Sound D W (descendTree n t) (fun leaf c' => c'.bitsLeft ≤ c.bitsLeft ∧
      (t.isNode = true → leaf ≠ none → c'.bitsLeft + 1 ≤ c.bitsLeft)) c := by
  induction n generalizing t c with
  | zero =>
    cases t with
    | leaf s w ph => exact sound_pure hc ⟨Nat.le_refl _, Bool.false_ne_true.elim⟩
    | node w l r =>
      refine Ends.bind ((ends_of_ok (bitAtEnd_apply c)).2 ?_)
      cases hend : c.bitAtEnd with
      | true => exact sound_pure hc ⟨Nat.le_refl _, fun _ h => absurd rfl h⟩
      | false => exact absurd hn (Nat.not_le_of_lt (bitsLeft_pos hc hend))
  | succ n ih =>
    cases t with
    | leaf s w ph => exact sound_pure hc ⟨Nat.le_refl _, Bool.false_ne_true.elim⟩
    | node w l r =>
      refine Ends.bind ((ends_of_ok (bitAtEnd_apply c)).2 ?_)
      cases hend : c.bitAtEnd with
      | true => exact sound_pure hc ⟨Nat.le_refl _, fun _ h => absurd rfl h⟩
      | false =>
        refine (sound_bitRead hE hc hend).bind fun b c1 hc1 hleft => ?_
        exact (ih _ hc1 (by omega)).mono fun _ _ h => ⟨by have := h.1; omega, fun _ _ => by have := h.1; omega⟩

/-- The outer loop of DECODE reads at least one bit each time round. -/
theorem sound_decodeTreeLoop (n : Nat) {t : CodeTree} (hnode : t.isNode = true) {c : Codec} (hc : c.Live D) (hn : c.bitsLeft ≤ n) :
    Sound D W (decodeTreeLoop t n) (fun _ _ => True) c := by
  induction n generalizing c with
  | zero =>
    refine Ends.bind ((ends_of_ok (bitAtEnd_apply c)).2 ?_)
    cases hend : c.bitAtEnd with
    | true => exact sound_pure hc trivial
    | false => exact absurd hn (Nat.not_le_of_lt (bitsLeft_pos hc hend))
  | succ n ih =>
    refine Ends.bind ((ends_of_ok (bitAtEnd_apply c)).2 ?_)
    cases hend : c.bitAtEnd with
    | true => exact sound_pure hc trivial
    | false =>
      refine (sound_descendTree hE (n + 1) t hc hn).bind fun leaf c1 hc1 ⟨_, hless⟩ => ?_
      cases leaf with
      | none => exact plain_modifyCore _ c1 hc1
      | some s =>
        have hless := hless hnode (Option.some_ne_none s)
        have hkept : Keeps (fun c c' => c'.bitsLeft = c.bitsLeft) (boutWrite s) :=
          (composes_of_view Codec.bitsLeft).keeps_boutWrite
            ((composes_of_view Codec.bitsLeft).keeps_tryWrite (fun _ => rfl) (fun _ _ => rfl) s)
        refine ((plain_boutWrite hE s c1 hc1).keeps hkept).bind fun _ c2 hc2 ⟨_, hsame⟩ => ?_
        refine Ends.bind ((ends_of_ok (modifyCore_apply _ _)).2 (ih hc2 ?_))
        change c2.bitsLeft ≤ n
        omega

/-- DECODE on a node memory whose root holds a tree. -/
theorem sound_decodeBody {c : Codec} {t : CodeTree} (hc : c.Live D) (h : treeOf c.core.node walkDepth c.core.root = some t) :
    Sound D W decodeBody (fun _ _ => True) c := by
  rw [Sound, Ends, decodeBody_of_tree h]
  change Sound D W (decodeTreeBody t) _ c
  refine Ends.bind ((ends_of_ok (modifyCore_apply _ _)).2 (Ends.bind ((ends_of_ok (get_apply _)).2 ?_)))
  split
  · rename_i hnode
    have hloop : Sound D W (decodeTreeLoop t c.bitsLeft) (fun _ _ => True) (c.mapCore fun k => { k with decSyms := 0 }) :=
      sound_decodeTreeLoop hE _ hnode hc (Nat.le_refl _)
    exact hloop.bind fun _ c1 hc1 _ => plain_modifyCore _ c1 hc1
  · exact sound_raise hc

/-! ## RDTREE -/

theorem plain_treeBit : Plain D W treeBit := fun c hc => by
  refine Ends.bind ((ends_of_ok (bitAtEnd_apply c)).2 ?_)
  cases hend : c.bitAtEnd with
  | true => exact sound_raise hc
  | false => exact (sound_bitRead hE hc hend).mono fun _ _ _ => trivial

theorem plain_readSymbolFrom (k n : Nat) (s : Byte) : Plain D W (readSymbolFrom k n s) := by
  induction n generalizing k s with
  | zero => exact plain_pure _
  | succ n ih => exact plain_bind (fun _ hc => ⟨hc, trivial⟩) fun _ => plain_bind (plain_treeBit hE) fun _ => ih _ _

/-- The walk of RDTREE goes deeper only by allocating a node, so NODE_CAP bounds its depth (43_tree_codec.md R109). -/
theorem sound_readNode (n : Nat) {c : Codec} (hc : c.Live D) (hroom : c.core.node.length ≤ Config.nodeCap)
    (hn : Config.nodeCap < n + c.core.node.length) : Sound D W (readNode n) (fun _ _ => True) c := by
  induction n generalizing c with
  | zero => omega
  | succ n ih =>
    have hput : ∀ i x, Plain D W (modifyCore (writeNode i x)) := fun _ _ => plain_modifyCore _
    cases hbit : treeBit c with
    | error e c1 =>
      refine (ends_of_error (show readNode (n + 1) c = .error e c1 from ?_)).2 (Ends.error (plain_treeBit hE c hc) hbit)
      rw [readNode, engine_bind_of_error hbit]
    | ok b c1 =>
      obtain ⟨hc1, -⟩ := Ends.ok (plain_treeBit hE c hc) hbit
      have hnode : c1.core.node = c.core.node := ((composes_sameTree.keeps_treeBit sameTree_bitRead).of_ok hbit).node_eq
      rw [← hnode] at hroom hn
      by_cases hfull : c1.core.node.length = Config.nodeCap
      · exact (ends_of_error (readNode_full hbit hfull)).2 ⟨trivial, hc1.1⟩
      · cases b with
        | false =>
          rw [Sound, Ends, readNode_leaf hbit (by omega)]
          exact plain_bind (plain_readSymbolFrom hE 0 8 0#8) (fun _ => plain_bind (hput _ _) fun _ => plain_pure _)
            (c1.mapCore allocNode) hc1
        | true =>
          rw [Sound, Ends, readNode_internal hbit (by omega)]
          change Sound D W (readChildren n (nextIdx c1.core.node)) _ (c1.mapCore (growNode (.internal 0#32 0 0)))
          have hgrown : (c1.mapCore (growNode (.internal 0#32 0 0))).core.node.length = c1.core.node.length + 1 :=
            List.length_append
          refine ((ih (c := c1.mapCore (growNode (.internal 0#32 0 0))) hc1 (by omega) (by omega)).and_ok fun _ _ h => readNode_layout h (by omega)).bind
            fun il c2 hc2 ⟨_, _, t, hlaid, hfits⟩ => Ends.bind ((ends_of_ok (modifyCore_apply _ _)).2 ?_)
          have hlonger : c1.core.node.length + 1 + t.size = c2.core.node.length := by
            rw [hlaid, List.length_append, CodeTree.layout_length, CodeTree.size_plain, hgrown]
          have hput : (c2.mapCore (writeNode (nextIdx c1.core.node) (.internal 0#32 il 0))).core.node.length =
              c2.core.node.length := by
            simp only [Codec.mapCore_core, writeNode_fields, List.length_set]
          exact (ih (c := c2.mapCore (writeNode (nextIdx c1.core.node) (.internal 0#32 il 0))) hc2 (by omega) (by omega)).bind
            fun ir c3 hc3 _ => plain_bind (plain_modifyCore _) (fun _ => plain_pure _) c3 hc3

end
end Sys2Proof.Machine

/-! PROOFS. From a state with the invariant no command faults, and every answered command ends (spec/30_encoding.md R73;
spec/20_memory.md R49; spec/00_scope.md R16). -/

namespace Sys2Proof.Machine

section
variable {D : Draws → Prop} {W : Prop} (hE : Environment D W)
include hE

/-! ## The rules -/

theorem plain_rdtreeBody : Plain D W rdtreeBody := fun c hc => by
  have hread : Sound D W (readNode walkDepth) (fun _ _ => True) c.unplanted :=
    sound_readNode hE walkDepth hc (Nat.zero_le _) (Nat.lt_of_lt_of_le (by decide : Config.nodeCap < walkDepth) (Nat.le_add_right _ _))
  cases hr : readNode walkDepth c.unplanted with
  | ok r c1 => exact (ends_of_ok (rdtreeBody_of_ok hr)).2 ⟨(Ends.ok hread hr).1, trivial⟩
  | error e c1 => exact (ends_of_error (rdtreeBody_of_error hr)).2 (Ends.error hread hr)

omit hE in
theorem plain_buildBody : Plain D W buildBody := fun c hc => by
  by_cases h : presentCount c.core.freq = 0
  · exact (ends_of_error (buildBody_none (buildForest_none h))).2 ⟨trivial, hc.1⟩
  · exact (ends_of_ok (buildBody_some (buildForest_some h))).2 ⟨hc, trivial⟩

/-- GENCODES and WRTREE on a node memory whose root holds a tree. -/
theorem sound_wrtreeBody {c : Codec} {t : CodeTree} (hc : c.Live D) (h : treeOf c.core.node walkDepth c.core.root = some t) :
    Sound D W wrtreeBody (fun _ _ => True) c := by
  rw [Sound, Ends, wrtreeBody_of_tree h]
  exact plain_bind (plain_bitWrites hE _) (fun _ => plain_modifyCore _) c hc

omit hE in
theorem sound_gencodesBody {c : Codec} {t : CodeTree} (hc : c.Live D) (h : treeOf c.core.node walkDepth c.core.root = some t) :
    Sound D W gencodesBody (fun _ _ => True) c := by
  rw [Sound, gencodesBody]
  refine Ends.bind ((ends_of_ok (getCore_apply c)).2 ?_)
  rw [walkCodes_treeOf h]
  exact Ends.bind ((ends_of_ok (need_ok _ c)).2 (plain_bind (plain_modifyCore _) (fun _ => plain_modifyCore _) c hc))

/-- A command whose precondition holds, from a codec with the invariant. -/
theorem sound_ruleOf {i : Instr} {c : Codec} (hinv : c.Inv) (hD : D c.io.draws) (hpre : preconditionOf i c.core) :
    Sound D W (ruleOf i) (fun _ _ => True) ((c.accept (encode i)).mapCore (clearsOf i)) := by
  obtain ⟨-, ⟨-, hin⟩, ⟨-, htree⟩, -⟩ := hinv
  have hc : ((c.accept (encode i)).mapCore (clearsOf i)).Live D := ⟨hD, hin⟩
  cases i with
  | nop => exact plain_modifyCore _ _ hc
  | count => exact plain_countBody hE _ hc
  | build => exact plain_buildBody _ hc
  | gencodes =>
    obtain ⟨t, ⟨hheld, -⟩, -⟩ := htree hpre.1
    exact sound_gencodesBody hc hheld
  | wrtree =>
    obtain ⟨t, ⟨hheld, -⟩, -⟩ := htree hpre
    exact sound_wrtreeBody hE hc hheld
  | rdtree => exact plain_rdtreeBody hE _ hc
  | encode => exact plain_encodeBody hE _ hc
  | decode =>
    obtain ⟨t, ⟨hheld, -⟩, -⟩ := htree hpre.1
    exact sound_decodeBody hE hc hheld
  | project => exact plain_bind (plain_modifyCore _) (fun _ => plain_modifyCore _) _ hc
  | wrmagic => exact plain_bind (plain_writeBytes hE _) (fun _ => plain_modifyCore _) _ hc
  | chkmagic =>
    exact (sound_binRewind hE hc).bind fun _ c1 hc1 _ => plain_bind (plain_checkBytes hE _) (fun _ => plain_modifyCore _) c1 hc1
  | close =>
    exact plain_bind (plain_bitFlushLoop hE 7) (fun _ => plain_bind (plain_boutClose hE) fun _ => plain_modifyCore _) _ hc
  | clear => exact plain_bind (plain_modifyCore _) (fun _ => plain_modifyCore _) _ hc

/-! ## The command -/

theorem settlesAt_withErrorExit {body : EngineM Unit} {c : Codec} (h : Sound D W body (fun _ _ => True) c) :
    SettlesAt D W (withErrorExit body) c := by
  unfold SettlesAt withErrorExit
  cases hr : body c with
  | ok u c1 => exact (Ends.ok h hr).1.1
  | error e c1 =>
    obtain ⟨hallowed, hD⟩ := Ends.error h hr
    cases e with
    | raise e => exact settles_errorExit hE e c1 hD
    | halt e =>
      cases e with
      | wait x => exact ⟨hallowed, hD⟩
      | fault f => exact hallowed

theorem settlesAt_afterWord {c : Codec} (w : Word) (hinv : c.Inv) (hD : D c.io.draws) :
    SettlesAt D W (afterWord w) (c.accept w) := by
  cases hw : decode w with
  | none =>
    rw [SettlesAt, afterWord, hw]
    exact hD
  | some i =>
    obtain rfl := eq_encode_of_decode hw
    rw [SettlesAt, afterWord_encode]
    cases hpre : preOf i (c.accept (encode i)).core with
    | false =>
      rw [afterAccept_of_not_pre _ _ hpre]
      exact hD
    | true =>
      rw [afterAccept_of_pre _ _ hpre]
      rw [Codec.accept_core, preOf_acceptWord, preOf_iff] at hpre
      exact settlesAt_withErrorExit hE (sound_ruleOf hE hinv hD hpre)

end

/-! ## The step -/

theorem writeCmd_ne_fault {w : Word} {s : State} {f : Fault} (h : s.Inv) : writeCmd w s ≠ .fault f := by
  intro hfault
  cases hs : s.eng with
  | busy v start x =>
    rw [writeCmd_busy hs] at hfault
    cases hfault
  | idle =>
    rw [writeCmd_idle hs] at hfault
    have hsettles := settlesAt_afterWord environment_any w h.1 trivial
    unfold SettlesAt at hsettles
    unfold settle at hfault
    cases hr : afterWord w (s.codec.accept w) with
    | ok u c1 =>
      rw [hr] at hfault
      dsimp only at hfault
      split at hfault <;> cases hfault
    | error e c1 =>
      rw [hr] at hsettles hfault
      cases e with
      | wait x => cases hfault
      | fault f => exact hsettles

theorem inv_congr {s t : State} (h : s.Inv) (hcodec : t.codec = s.codec) (heng : t.eng = s.eng) : t.Inv :=
  StepClosed.always_congr hcodec heng h

theorem hostMove_ne_fault {s : State} {f : Fault} (h : s.Inv) : hostMove s ≠ .fault f := by
  intro hfault
  unfold hostMove at hfault
  split at hfault
  · cases hfault
  · split at hfault
    · cases hfault
    · rename_i st hst
      cases st with
      | word w => exact writeCmd_ne_fault (inv_congr (t := s.beginWord) h rfl rfl) hfault
      | memWrite addr n v =>
        simp only [hostStmt, hostWrite] at hfault
        split at hfault
        · cases hfault
        · split at hfault
          · exact writeCmd_ne_fault (inv_congr (t := s.nextStmt) h rfl rfl) hfault
          · cases hfault
      | memRead addr n =>
        simp only [hostStmt, hostLoad] at hfault
        split at hfault <;> cases hfault
      | branch field v target => cases hfault
      | attachIn bytes pos =>
        simp only [hostStmt, hostAttachIn] at hfault
        split at hfault
        · cases hfault
        · split at hfault <;> cases hfault
      | attachOut =>
        simp only [hostStmt, hostAttachOut] at hfault
        split at hfault <;> cases hfault
      | stop => cases hfault

theorem Codec.Inv.released {c : Codec} (h : c.Inv) : c.released.Inv := h

theorem resume_ne_fault {s : State} {f : Fault} (h : s.Inv) : resume s ≠ .fault f := by
  cases hs : s.eng with
  | idle =>
    rw [resume, hs]
    exact fun h => by cases h
  | busy w start x =>
    rw [resume_busy hs]
    exact writeCmd_ne_fault ⟨(h.2 w start x hs).released, fun _ _ _ hidle => by cases hidle⟩

/-- Settles O27: only a write of CMD, or the running command again, could fault. -/
theorem stepNeverFaults : Obligations.StepNeverFaults := by
  intro s f h hfault
  have hsampled : s.sampleReset.Inv := inv_congr h rfl rfl
  cases hr : s.resetAsserted with
  | true =>
    rw [step_reset hr] at hfault
    cases hfault
  | false =>
    cases hs : s.eng with
    | idle =>
      rw [step_of_idle hr hs] at hfault
      exact hostMove_ne_fault hsampled hfault
    | busy w start x =>
      cases hmove : hostMove s.sampleReset with
      | next u =>
        rw [step_of_busy hr hs hmove] at hfault
        have hmoved : u.Inv := stepClosed_inv.hostMoved hsampled (hostMove_next hmove)
        exact resume_ne_fault hmoved hfault
      | fault g => exact hostMove_ne_fault hsampled hmove
      | refused r => simp [step, hr, stepRunning, hs, hmove] at hfault

/-! ## The end of an answered command -/

/-- A command whose transactions are answered runs to its end. -/
theorem exec_ends {i : Instr} {s : State} (h : s.codec.Inv) (hs : s.ready) :
    ∃ c, afterAccept (preOf i) (clearsOf i) (ruleOf i) (s.codec.accept (encode i)) = .ok () c ∧
      exec i s = .next { s with codec := c, eng := .idle } := by
  have hsettles := settlesAt_afterWord environment_answered (encode i) h hs.2
  rw [SettlesAt, afterWord_encode] at hsettles
  rw [exec_eq_writeCmd, writeCmd_idle hs.1, afterWord_encode]
  cases hr : afterAccept (preOf i) (clearsOf i) (ruleOf i) (s.codec.accept (encode i)) with
  | ok u c =>
    rw [hr] at hsettles
    exact ⟨c, rfl, settle_done (Draws.answered.head_ne hsettles)⟩
  | error e c =>
    rw [hr] at hsettles
    cases e with
    | wait x => exact hsettles.1.elim
    | fault f => exact hsettles.elim

/-- Settles O16: no loop or walk outlives its bound, so the run reaches its end, where the report is DONE or one error. -/
theorem everyAnsweredCommandEnds : Obligations.EveryAnsweredCommandEnds := by
  intro i s hinv hs
  obtain ⟨c, hrun, hexec⟩ := exec_ends (i := i) hinv.1 hs
  refine ⟨_, hexec, rfl, ?_⟩
  cases hpre : preOf i (s.codec.accept (encode i)).core with
  | false =>
    rw [afterAccept_of_not_pre _ _ hpre] at hrun
    cases hrun
    exact .inr ⟨rfl, rfl, fun h => nomatch h⟩
  | true =>
    rw [afterAccept_of_pre _ _ hpre] at hrun
    exact (withErrorExit_report hrun).imp id fun ⟨hdone, herr, hcode, _⟩ => ⟨hdone, herr, hcode⟩

end Sys2Proof.Machine

/-! PROOFS. The registers as the host reads them, and the host's moves (spec/10_state.md section 2; spec/30_encoding.md R70;
spec/60_exceptions.md R135, R152). -/

namespace Sys2Proof.Machine

/-! ## Words made of pieces -/

theorem toNat_append_eq {n m : Nat} (x : BitVec n) (y : BitVec m) : (x ++ y).toNat = x.toNat * 2 ^ m + y.toNat := by
  rw [BitVec.toNat_append, ← Nat.shiftLeft_add_eq_or_of_lt y.isLt, Nat.shiftLeft_eq]

theorem statusWord_toNat (busy : Bool) (k : CoreState) : (statusWord busy k).toNat =
    busy.toNat + 2 * k.status.done.toNat + 4 * k.status.err.toNat + 8 * k.status.ovr.toNat + 16 * k.status.freqValid.toNat
      + 32 * k.status.treeValid.toNat + 64 * k.status.treeBuilt.toNat + 128 * k.status.codesValid.toNat
      + 256 * k.status.sizesValid.toNat + 512 * k.status.smaller.toNat + 1024 * k.status.tail.toNat
      + 2 ^ 12 * k.obits.val + 2 ^ 16 * k.ibits.val + 2 ^ 24 * (ErrCode.code k.status.errcode).toNat := by
  have hobits : k.obits.val % 2 ^ 3 = k.obits.val := Nat.mod_eq_of_lt k.obits.isLt
  have hibits : k.ibits.val % 2 ^ 4 = k.ibits.val := Nat.mod_eq_of_lt (Nat.lt_of_lt_of_le k.ibits.isLt (by decide))
  simp only [statusWord, toNat_append_eq, BitVec.toNat_ofNat, BitVec.toNat_ofBool, hobits, hibits]
  omega

/-- Settles O7: the pieces of the STATUS word, weighed. -/
theorem statusFieldsPlaced : Obligations.StatusFieldsPlaced :=
  ⟨statusWord_toNat, rfl, rfl, rfl, rfl, rfl, rfl, rfl, rfl, rfl, rfl, rfl, rfl⟩

/-! ## Reads while IDLE -/

theorem loWord_toNat (q : BitVec 64) : (loWord q).toNat = q.toNat % 2 ^ 32 := by
  simp [loWord]

theorem hiWord_toNat (q : BitVec 64) : (hiWord q).toNat = q.toNat / 2 ^ 32 := by
  have h := q.isLt
  rw [hiWord, BitVec.extractLsb'_toNat, Nat.shiftRight_eq_div_pow]
  omega

theorem totalBits_toNat (k : CoreState) : (totalBits k).toNat = 8 * k.totalBytes.toNat := by
  have h := k.totalBytes.isLt
  rw [totalBits, BitVec.toNat_mul, BitVec.toNat_setWidth, BitVec.toNat_ofNat]
  omega

theorem regWord_registerMap {k : CoreState} (p : Params) {off v : Nat} (h : (off, v) ∈ k.registerMap) :
    (regWord k p off).toNat = v ∧ off % 4 = 0 ∧ off ≤ 0x054 := by
  have hwide : ∀ {n : Nat} (x : BitVec n), n ≤ 32 → (x.setWidth 32).toNat = x.toNat := fun x hn => by
    rw [BitVec.toNat_setWidth]
    exact Nat.mod_eq_of_lt (Nat.lt_of_lt_of_le x.isLt (Nat.pow_le_pow_right (by decide) hn))
  simp only [CoreState.registerMap, List.mem_cons, Prod.mk.injEq, List.not_mem_nil, or_false] at h
  rcases h with ⟨rfl, rfl⟩ | ⟨rfl, rfl⟩ | ⟨rfl, rfl⟩ | ⟨rfl, rfl⟩ | ⟨rfl, rfl⟩ | ⟨rfl, rfl⟩ | ⟨rfl, rfl⟩ | ⟨rfl, rfl⟩ | ⟨rfl, rfl⟩ |
    ⟨rfl, rfl⟩ | ⟨rfl, rfl⟩ | ⟨rfl, rfl⟩ | ⟨rfl, rfl⟩ | ⟨rfl, rfl⟩ | ⟨rfl, rfl⟩ | ⟨rfl, rfl⟩ | ⟨rfl, rfl⟩ | ⟨rfl, rfl⟩ | ⟨rfl, rfl⟩ |
    ⟨rfl, rfl⟩
  all_goals simp [regWord, loWord_toNat, hiWord_toNat, totalBits_toNat, hwide, Config.idWord]

theorem readOffset_idle {s : State} (off : Nat) (hs : s.eng = .idle) :
    (s.readOffset off).1 = regWord s.codec.core s.codec.params off := by
  rw [State.readOffset, isBusy_eq_false_iff.2 hs]
  rfl

/-- Settles O8: while IDLE a read gives the register's word, and changes only what the host has read. -/
theorem registerMapReads : Obligations.RegisterMapReads := by
  intro s hs
  refine ⟨fun off v h => ?_, ?_⟩
  · obtain ⟨hword, haligned, hle⟩ := regWord_registerMap s.codec.params h
    obtain ⟨t, hload, hread, hcodec, heng⟩ := hostLoad_reads s haligned (by omega)
    exact ⟨t, hload, by rw [hread, readOffset_idle off hs, hword], hcodec, heng⟩
  · have hread : (s.readOffset 0x008).1 = statusWord false s.codec.core := readOffset_idle _ hs
    obtain ⟨hcodec, heng, -⟩ := hostRead_frame 0x008 s
    refine ⟨(s.hostRead 0x008).nextStmt, ?_, hread, hread, hcodec, heng⟩
    simp [hostLoad, blockOffset_of (off := 0x008)]

end Sys2Proof.Machine

/-! PROOFS. What each command leaves unchanged: a view of the core and the streams that leaves out what the command writes
(spec/10_state.md R19, R22, R32 to R40), kept by its rule and by what surrounds it. -/

namespace Sys2Proof.Machine

/-! ## The view -/

/-- STATUS without the report and the validity bits that `i` writes (10_state.md R22, R32). -/
def Status.untouchedBy (i : Instr) (x : Status) : Status :=
  { done := false
    err := false
    errcode := .none
    ovr := if i = .clear then false else x.ovr
    freqValid := if i ∈ [Instr.count, .rdtree, .clear] then false else x.freqValid
    treeValid := if i ∈ [Instr.count, .build, .rdtree, .clear] then false else x.treeValid
    treeBuilt := if i ∈ [Instr.count, .build, .rdtree, .clear] then false else x.treeBuilt
    codesValid := if i ∈ [Instr.count, .build, .gencodes, .rdtree, .clear] then false else x.codesValid
    sizesValid := if i ∈ [Instr.count, .build, .gencodes, .project, .rdtree, .clear] then false else x.sizesValid
    smaller := if i ∈ [Instr.count, .build, .gencodes, .project, .rdtree, .clear] then false else x.smaller
    tail := if i ∈ [Instr.decode, .clear] then false else x.tail }

/-- The core without what `i` writes, FREQ left out. -/
def CoreState.untouchedBy (i : Instr) (k : CoreState) : CoreState :=
  { cmd := if i = .clear then 0 else k.cmd
    status := k.status.untouchedBy i
    totalBytes := if i ∈ [Instr.count, .rdtree, .clear] then 0 else k.totalBytes
    nsym := if i ∈ [Instr.count, .rdtree, .clear] then 0 else k.nsym
    nleaves := if i ∈ [Instr.count, .build, .rdtree, .clear] then 0 else k.nleaves
    ninternal := if i ∈ [Instr.count, .build, .rdtree, .clear] then 0 else k.ninternal
    treeBits := if i ∈ [Instr.count, .build, .rdtree, .clear] then 0 else k.treeBits
    maxlen := if i ∈ [Instr.count, .build, .gencodes, .rdtree, .clear] then 0 else k.maxlen
    payloadBits := if i ∈ [Instr.count, .build, .gencodes, .rdtree, .project, .clear] then 0 else k.payloadBits
    projectedBits := if i ∈ [Instr.count, .build, .gencodes, .rdtree, .project, .clear] then 0 else k.projectedBits
    outBytes := if i ∈ [Instr.nop, .gencodes, .project] then k.outBytes else 0
    inPos := if i ∈ [Instr.count, .rdtree, .encode, .decode, .chkmagic, .clear] then 0 else k.inPos
    decSyms := if i ∈ [Instr.decode, .clear] then 0 else k.decSyms
    freq := CoreState.reset.freq
    node := if i ∈ [Instr.count, .build, .rdtree, .clear] then [] else k.node
    root := if i ∈ [Instr.build, .rdtree, .clear] then 0 else k.root
    work := if i ∈ [Instr.build, .clear] then [] else k.work
    codeLen := if i ∈ [Instr.gencodes, .clear] then CoreState.reset.codeLen else k.codeLen
    codeVal := if i ∈ [Instr.gencodes, .clear] then CoreState.reset.codeVal else k.codeVal
    obuf := if i ∈ [Instr.nop, .gencodes, .project] then k.obuf else 0
    obits := if i ∈ [Instr.nop, .gencodes, .project] then k.obits else 0
    ibuf := if i ∈ [Instr.count, .rdtree, .encode, .decode, .chkmagic, .clear] then 0 else k.ibuf
    ibits := if i ∈ [Instr.count, .rdtree, .encode, .decode, .chkmagic, .clear] then 0 else k.ibits }

/-- IPOS where `i` reads nothing, and OUT and its closing where `i` neither writes nor can fail. -/
def Streams.untouchedBy (i : Instr) (io : Streams) : Nat × List Byte × Bool :=
  (if i ∈ [Instr.count, .rdtree, .encode, .decode, .chkmagic] then 0 else io.ipos,
    if i ∈ [Instr.nop, .gencodes, .project, .clear] then io.output else [],
    if i ∈ [Instr.nop, .gencodes, .project, .clear] then io.outClosed else false)

/-- What `i` leaves alone is the same before and after. -/
def Frame (i : Instr) (c c' : Codec) : Prop :=
  (c'.core.untouchedBy i, c'.io.untouchedBy i) = (c.core.untouchedBy i, c.io.untouchedBy i)

theorem composes_frame (i : Instr) : Composes (Frame i) := composes_of_view fun c => (c.core.untouchedBy i, c.io.untouchedBy i)

theorem frame_complete (i : Instr) : Keeps (Frame i) complete := keeps_modifyCore fun _ => rfl

/-! ## The ports -/

section
variable {i : Instr}

theorem frame_binRead (hi : i ∈ [Instr.count, .rdtree, .encode, .decode, .chkmagic]) : Keeps (Frame i) binRead := by
  simp only [List.mem_cons, List.not_mem_nil, or_false] at hi
  rcases hi with rfl | rfl | rfl | rfl | rfl
  all_goals exact (composes_frame _).keeps_binRead (fun _ => rfl) fun _ => rfl

theorem frame_binRewind (hi : i ∈ [Instr.count, .rdtree, .encode, .decode, .chkmagic]) : Keeps (Frame i) binRewind := by
  simp only [List.mem_cons, List.not_mem_nil, or_false] at hi
  rcases hi with rfl | rfl | rfl | rfl | rfl
  all_goals exact (composes_frame _).keeps_binRewind (fun _ => rfl) fun _ => rfl

theorem frame_bitRead (hi : i ∈ [Instr.count, .rdtree, .encode, .decode, .chkmagic]) : Keeps (Frame i) bitRead := by
  have hread := frame_binRead hi
  simp only [List.mem_cons, List.not_mem_nil, or_false] at hi
  rcases hi with rfl | rfl | rfl | rfl | rfl
  all_goals exact (composes_frame _).keeps_bitRead hread (fun _ _ => rfl) fun _ => rfl

theorem frame_tryWrite (hi : i ∉ [Instr.nop, .gencodes, .project, .clear]) (b : Byte) : Keeps (Frame i) (tryWrite b) := by
  have hR := composes_frame i
  cases i with
  | nop | gencodes | project | clear => exact absurd (by decide) hi
  | count | build | wrtree | rdtree | encode | decode | wrmagic | chkmagic | close =>
    exact hR.keeps_tryWrite (fun _ => rfl) (fun _ _ => rfl) b

theorem frame_tryBitWrite (hi : i ∉ [Instr.nop, .gencodes, .project, .clear]) (b : Bool) : Keeps (Frame i) (tryBitWrite b) := by
  have hR := composes_frame i
  have hwrite := frame_tryWrite hi
  cases i with
  | nop | gencodes | project | clear => exact absurd (by decide) hi
  | count | build | wrtree | rdtree | encode | decode | wrmagic | chkmagic | close =>
    exact hR.keeps_tryBitWrite hwrite (fun _ _ => rfl) (fun _ => rfl) (fun _ => rfl) b

theorem frame_tryClose (hi : i ∉ [Instr.nop, .gencodes, .project, .clear]) : Keeps (Frame i) tryClose := by
  have hR := composes_frame i
  cases i with
  | nop | gencodes | project | clear => exact absurd (by decide) hi
  | count | build | wrtree | rdtree | encode | decode | wrmagic | chkmagic | close =>
    exact hR.keeps_tryClose (fun _ => rfl) fun _ => rfl

theorem frame_boutWrite (hi : i ∉ [Instr.nop, .gencodes, .project, .clear]) (b : Byte) : Keeps (Frame i) (boutWrite b) :=
  (composes_frame i).keeps_boutWrite (frame_tryWrite hi b)

theorem frame_errorExit (hi : i ∉ [Instr.nop, .gencodes, .project, .clear]) (e : ErrCode) : Keeps (Frame i) (errorExit e) := by
  have hdrop : ∀ c : Codec, Frame i c (c.mapCore dropPending) := by
    cases i with
    | nop | gencodes | project | clear => exact absurd (by decide) hi
    | count | build | wrtree | rdtree | encode | decode | wrmagic | chkmagic | close => exact fun _ => rfl
  exact (composes_frame i).keeps_errorExit (fun _ _ => rfl) (frame_tryBitWrite hi) hdrop (frame_tryClose hi) e

end

/-! ## The rules -/

theorem frame_ruleOf (i : Instr) : Keeps (Frame i) (ruleOf i) := by
  have hR := composes_frame i
  cases i with
  | nop => exact frame_complete _
  | count =>
    exact hR.keeps_countBody (frame_binRewind (by decide)) (frame_binRead (by decide)) (fun _ => rfl) (fun _ _ => rfl) (fun _ => rfl)
      (frame_complete _)
  | build => exact hR.keeps_buildBody (fun _ => rfl) (fun _ _ => rfl) (fun _ => rfl) (fun _ => rfl) (frame_complete _)
  | gencodes => exact hR.keeps_gencodesBody (fun _ _ => rfl) (frame_complete _)
  | wrtree => exact hR.keeps_wrtreeBody (frame_tryBitWrite (by decide)) (frame_complete _)
  | rdtree =>
    exact hR.keeps_rdtreeBody (fun _ => rfl)
      (hR.keeps_readNode (frame_bitRead (by decide)) (fun _ => rfl) (fun _ _ _ => rfl) _) (fun _ _ => rfl) (fun _ => rfl)
      (fun _ => rfl) (frame_complete _)
  | encode =>
    exact hR.keeps_encodeBody (frame_binRewind (by decide)) (frame_binRead (by decide)) (frame_tryBitWrite (by decide)) (frame_complete _)
  | decode =>
    exact hR.keeps_decodeBody (fun _ => rfl) (frame_bitRead (by decide)) (frame_boutWrite (by decide)) (fun _ => rfl) (fun _ => rfl)
      (frame_complete _)
  | project => exact hR.keeps_projectBody (fun _ => rfl) (frame_complete _)
  | wrmagic => exact hR.keeps_wrmagicBody (frame_boutWrite (by decide)) (frame_complete _)
  | chkmagic => exact hR.keeps_chkmagicBody (frame_binRewind (by decide)) (frame_binRead (by decide)) (frame_complete _)
  | close =>
    exact hR.keeps_closeBody (frame_tryBitWrite (by decide)) (hR.keeps_boutClose (frame_tryClose (by decide))) (frame_complete _)
  | clear => exact hR.keeps_clearBody (fun _ => rfl) (frame_complete _)

/-- NOP, GENCODES, PROJECT and CLEAR take no runtime error. -/
theorem ruleOf_ne_raise {i : Instr} (hi : i ∈ [Instr.nop, .gencodes, .project, .clear]) {c c' : Codec} {e : ErrCode} :
    ruleOf i c ≠ .error (.raise e) c' := by
  intro h
  simp only [List.mem_cons, List.not_mem_nil, or_false] at hi
  rcases hi with rfl | rfl | rfl | rfl
  · cases (complete_apply c).symm.trans h
  · obtain ⟨f, hf⟩ := (gencodesBody_ends c).error h
    cases hf
  · cases (projectBody_apply c).symm.trans h
  · cases (clearBody_apply c).symm.trans h

theorem frame_withErrorExit (i : Instr) : Keeps (Frame i) (withErrorExit (ruleOf i)) := by
  by_cases hi : i ∈ [Instr.nop, .gencodes, .project, .clear]
  · intro c
    have hrule := frame_ruleOf i c
    unfold withErrorExit
    cases hr : ruleOf i c with
    | ok u c1 => rwa [hr] at hrule
    | error e c1 =>
      rw [hr] at hrule
      cases e with
      | raise e => exact absurd hr (ruleOf_ne_raise hi)
      | halt h => exact hrule
  · exact (composes_frame i).keeps_withErrorExit (frame_ruleOf i) (frame_errorExit hi)

theorem frame_clearsOf (i : Instr) (c : Codec) : Frame i c (c.mapCore (clearsOf i)) := by
  cases i with
  | nop | wrtree | encode | decode | wrmagic | chkmagic | close => exact (composes_frame _).refl c
  | build | gencodes | project | count | rdtree | clear =>
    simp [Frame, CoreState.untouchedBy, Status.untouchedBy, Streams.untouchedBy, clearsOf, clearAll, clearDerived, clearCodesSizes,
      clearSizes, clearCodes, clearBuilt, clearTree, clearFreq]

theorem frame_afterAccept (i : Instr) : Keeps (Frame i) (afterAccept (preOf i) (clearsOf i) (ruleOf i)) :=
  (composes_frame i).keeps_afterAccept (fun _ => rfl) (frame_clearsOf i) (frame_withErrorExit i)

/-! ## The command -/

/-- Where a command leaves the machine: its word dropped, run, or waiting with the accepted core. -/
inductive Executed (i : Instr) (s t : State) : Prop where
  | dropped (hbusy : s.isBusy = true) (ht : t = s.dropWrite)
  | ended (c : Codec) (hidle : s.eng = .idle)
      (hrun : afterAccept (preOf i) (clearsOf i) (ruleOf i) (s.codec.accept (encode i)) = .ok () c)
      (ht : t = { s with codec := c, eng := .idle })
  | waits (c : Codec) (x : Option Txn) (io : Streams) (hidle : s.eng = .idle)
      (hrun : endOf (afterAccept (preOf i) (clearsOf i) (ruleOf i) (s.codec.accept (encode i))) = c)
      (hio : io = { c.io with draws := io.draws }) (ht : t = s.suspend (encode i) x io)

theorem exec_next {i : Instr} {s t : State} (h : exec i s = .next t) : Executed i s t := by
  rw [exec_eq_issue] at h
  rcases issue_next h with ⟨hbusy, ht⟩ | ⟨hidle, r, rfl, hsettle⟩
  · exact .dropped hbusy ht
  · rcases settle_next hsettle with ⟨c, hr, ht⟩ | ⟨c, ds, hr, -, ht⟩ | ⟨c, x, hr, ht⟩
    · exact .ended c hidle hr ht
    · exact .waits c none _ hidle (by rw [hr]; rfl) rfl ht
    · exact .waits c (some x) _ hidle (by rw [hr]; rfl) rfl ht

/-- The machine after the command differs from the accepted, or the word-dropping, state only where the command writes. -/
theorem exec_frame {i : Instr} {s t : State} (h : exec i s = .next t) :
    (∃ k, (s.eng = .idle → k = acceptWord (encode i) s.codec.core) ∧
      (k = setOvr s.codec.core ∨ k = acceptWord (encode i) s.codec.core) ∧
      t.codec.core.untouchedBy i = k.untouchedBy i) ∧ t.codec.io.untouchedBy i = s.codec.io.untouchedBy i := by
  have hframe := frame_afterAccept i (s.codec.accept (encode i))
  cases exec_next h with
  | dropped hbusy ht =>
    obtain ⟨w, start, x, hs⟩ := isBusy_iff.1 hbusy
    rw [ht, dropWrite_busy hs]
    exact ⟨⟨_, fun hidle => (by rw [hs] at hidle; cases hidle), .inl rfl, rfl⟩, rfl⟩
  | ended c hidle hrun ht =>
    rw [hrun] at hframe
    obtain ⟨hcore, hio⟩ := Prod.mk.inj hframe
    rw [ht]
    exact ⟨⟨_, fun _ => rfl, .inr rfl, hcore⟩, hio⟩
  | waits c x io hidle hrun hio ht =>
    rw [hrun] at hframe
    obtain ⟨-, hstreams⟩ := Prod.mk.inj hframe
    rw [ht]
    refine ⟨⟨_, fun _ => rfl, .inr rfl, rfl⟩, ?_⟩
    change io.untouchedBy i = _
    rw [hio]
    exact hstreams

section
variable {i : Instr} {s t : State} (h : exec i s = .next t)
include h

/-- A part of the core that acceptance and a dropped write leave, and that is in the view, is unchanged. -/
theorem exec_keeps {α : Type} (view : CoreState → α) (hovr : ∀ k, view (setOvr k) = view k)
    (haccept : ∀ k, view (acceptWord (encode i) k) = view k)
    (hview : ∀ k : CoreState, view (k.untouchedBy i) = view k) : view t.codec.core = view s.codec.core := by
  obtain ⟨⟨k, -, hk, hcore⟩, -⟩ := exec_frame h
  rw [← hview, hcore, hview]
  rcases hk with rfl | rfl
  · exact hovr _
  · exact haccept _

end

/-- The four commands that only read the input or nothing leave the packer and the output as they are, where they take no error. -/
def SameOutput (c c' : Codec) : Prop :=
  (c'.core.obuf, c'.core.obits, c'.core.outBytes, c'.io.output, c'.io.outClosed) =
    (c.core.obuf, c.core.obits, c.core.outBytes, c.io.output, c.io.outClosed)

theorem sameOutput_ruleOf {i : Instr} (hi : i ∈ [Instr.count, .build, .rdtree, .chkmagic]) : Keeps SameOutput (ruleOf i) := by
  have hR : Composes SameOutput :=
    composes_of_view fun c => (c.core.obuf, c.core.obits, c.core.outBytes, c.io.output, c.io.outClosed)
  have hread : Keeps SameOutput binRead := hR.keeps_binRead (fun _ => rfl) fun _ => rfl
  have hrewind : Keeps SameOutput binRewind := hR.keeps_binRewind (fun _ => rfl) fun _ => rfl
  have hdone : Keeps SameOutput complete := keeps_modifyCore fun _ => rfl
  simp only [List.mem_cons, List.not_mem_nil, or_false] at hi
  rcases hi with rfl | rfl | rfl | rfl
  · exact hR.keeps_countBody hrewind hread (fun _ => rfl) (fun _ _ => rfl) (fun _ => rfl) hdone
  · exact hR.keeps_buildBody (fun _ => rfl) (fun _ _ => rfl) (fun _ => rfl) (fun _ => rfl) hdone
  · exact hR.keeps_rdtreeBody (fun _ => rfl)
      (hR.keeps_readNode (hR.keeps_bitRead hread (fun _ _ => rfl) fun _ => rfl) (fun _ => rfl) (fun _ _ _ => rfl) _) (fun _ _ => rfl)
      (fun _ => rfl) (fun _ => rfl) hdone
  · exact hR.keeps_chkmagicBody hrewind hread hdone

theorem exec_sameOutput {i : Instr} {s t : State} (hi : i ∈ [Instr.count, .build, .rdtree, .chkmagic]) (h : exec i s = .next t)
    (hs : s.eng = .idle) (ht : t.eng = .idle) (herr : t.codec.core.status.err = false) : SameOutput s.codec t.codec := by
  cases exec_next h with
  | dropped hbusy => rw [isBusy_eq_false_iff.2 hs] at hbusy; cases hbusy
  | waits c x io hidle hrun hio hwait => rw [hwait] at ht; cases ht
  | ended c hidle hrun hend =>
    subst hend
    cases hpre : preOf i (s.codec.accept (encode i)).core with
    | false =>
      rw [afterAccept_of_not_pre _ _ hpre] at hrun
      cases hrun
      cases herr
    | true =>
      rw [afterAccept_of_pre _ _ hpre] at hrun
      rcases withErrorExit_cases hrun with hok | ⟨e, c1, -, hexit⟩
      · have hclears : SameOutput s.codec ((s.codec.accept (encode i)).mapCore (clearsOf i)) := by cases i <;> rfl
        exact Eq.trans ((sameOutput_ruleOf hi).of_ok hok) hclears
      · have hstatus := errorExit_status hexit
        change c.core.status.err = false at herr
        rw [hstatus] at herr
        cases herr

/-- Settles O20: each part is in the view of the commands that leave it. -/
theorem commandFrame : Obligations.CommandFrame := by
  intro i s t h
  have hkeeps : ∀ {α : Type} (view : CoreState → α), (∀ k, view (setOvr k) = view k) →
      (∀ k, view (acceptWord (encode i) k) = view k) → (∀ k : CoreState, view (k.untouchedBy i) = view k) →
      view t.codec.core = view s.codec.core := exec_keeps h
  obtain ⟨hipos, hout⟩ := Prod.mk.inj (exec_frame h).2
  obtain ⟨houtput, hclosed⟩ := Prod.mk.inj hout
  refine ⟨fun hi => ⟨?_, ?_⟩, fun hi => ⟨?_, ?_, ?_, ?_⟩, fun hi => ?_, fun hi => ?_, fun hi => ⟨?_, ?_⟩, fun hi => ?_, fun hi => ⟨?_, ?_⟩,
    fun hi => ?_, fun hi => ⟨?_, ?_, ?_, ?_⟩, fun hi => ⟨?_, ?_, ?_, ?_, ?_⟩, fun hi => ⟨?_, ?_, ?_⟩, fun hi hs ht herr => ?_⟩
  · exact hkeeps CoreState.totalBytes (fun _ => rfl) (fun _ => rfl) fun _ => if_neg hi
  · exact hkeeps CoreState.nsym (fun _ => rfl) (fun _ => rfl) fun _ => if_neg hi
  · exact hkeeps CoreState.nleaves (fun _ => rfl) (fun _ => rfl) fun _ => if_neg hi
  · exact hkeeps CoreState.ninternal (fun _ => rfl) (fun _ => rfl) fun _ => if_neg hi
  · exact hkeeps CoreState.treeBits (fun _ => rfl) (fun _ => rfl) fun _ => if_neg hi
  · exact hkeeps CoreState.node (fun _ => rfl) (fun _ => rfl) fun _ => if_neg hi
  · exact hkeeps CoreState.root (fun _ => rfl) (fun _ => rfl) fun _ => if_neg hi
  · exact hkeeps CoreState.work (fun _ => rfl) (fun _ => rfl) fun _ => if_neg hi
  · exact hkeeps CoreState.codeLen (fun _ => rfl) (fun _ => rfl) fun _ => if_neg hi
  · exact hkeeps CoreState.codeVal (fun _ => rfl) (fun _ => rfl) fun _ => if_neg hi
  · exact hkeeps CoreState.maxlen (fun _ => rfl) (fun _ => rfl) fun _ => if_neg hi
  · exact hkeeps CoreState.payloadBits (fun _ => rfl) (fun _ => rfl) fun _ => if_neg hi
  · exact hkeeps CoreState.projectedBits (fun _ => rfl) (fun _ => rfl) fun _ => if_neg hi
  · exact hkeeps CoreState.decSyms (fun _ => rfl) (fun _ => rfl) fun _ => if_neg hi
  · exact hkeeps CoreState.inPos (fun _ => rfl) (fun _ => rfl) fun _ => if_neg hi
  · exact hkeeps CoreState.ibuf (fun _ => rfl) (fun _ => rfl) fun _ => if_neg hi
  · exact hkeeps CoreState.ibits (fun _ => rfl) (fun _ => rfl) fun _ => if_neg hi
  · have hreads : i ∉ [Instr.count, .rdtree, .encode, .decode, .chkmagic] := fun hmem =>
      hi (List.mem_append_left [Instr.clear] hmem)
    rwa [if_neg hreads, if_neg hreads] at hipos
  · exact hkeeps CoreState.obuf (fun _ => rfl) (fun _ => rfl) fun _ => if_pos hi
  · exact hkeeps CoreState.obits (fun _ => rfl) (fun _ => rfl) fun _ => if_pos hi
  · exact hkeeps CoreState.outBytes (fun _ => rfl) (fun _ => rfl) fun _ => if_pos hi
  · have hquiet : i ∈ [Instr.nop, .gencodes, .project, .clear] := List.mem_append_left [Instr.clear] hi
    rwa [if_pos hquiet, if_pos hquiet] at houtput
  · have hquiet : i ∈ [Instr.nop, .gencodes, .project, .clear] := List.mem_append_left [Instr.clear] hi
    rwa [if_pos hquiet, if_pos hquiet] at hclosed
  · subst hi
    exact hipos
  · subst hi
    exact houtput
  · subst hi
    exact hclosed
  · have hsame := exec_sameOutput hi h hs ht herr
    simpa only [SameOutput, Prod.mk.injEq] using hsame

/-- TAIL is clear after CLEAR, whatever the streams' draws. -/
theorem exec_clear_tail {s t : State} (hs : s.eng = .idle) (h : exec .clear s = .next t) : t.codec.core.status.tail = false := by
  cases exec_next h with
  | dropped hbusy => rw [isBusy_eq_false_iff.2 hs] at hbusy; cases hbusy
  | waits c x io hidle hrun hio hwait => rw [hwait]; rfl
  | ended c hidle hrun hend =>
    rw [afterAccept_of_pre _ _ rfl] at hrun
    rcases withErrorExit_cases hrun with hok | ⟨e, c1, hraise, -⟩
    · cases (clearBody_apply _).symm.trans hok
      rw [hend]
      rfl
    · exact absurd hraise (ruleOf_ne_raise (by decide))

/-- Settles O21: the validity bits and OVR are in the view, and CMD and TAIL are there as acceptance left them. -/
theorem statusFrame : Obligations.StatusFrame := by
  intro i s t hs h
  have hkeeps : ∀ {α : Type} (view : CoreState → α), (∀ k, view (setOvr k) = view k) →
      (∀ k, view (acceptWord (encode i) k) = view k) → (∀ k : CoreState, view (k.untouchedBy i) = view k) →
      view t.codec.core = view s.codec.core := exec_keeps h
  obtain ⟨⟨k, hidle, -, hcore⟩, -⟩ := exec_frame h
  obtain rfl := hidle hs
  have hstatus : t.codec.core.status.untouchedBy i = (acceptWord (encode i) s.codec.core).status.untouchedBy i :=
    congrArg CoreState.status hcore
  refine ⟨fun hi => ⟨?_, ?_⟩, fun hi => ?_, fun hi => ⟨?_, ?_⟩, fun hi => ?_, fun hi => ⟨?_, ?_⟩, fun hi => ?_⟩
  · have := congrArg Status.ovr hstatus
    rwa [Status.untouchedBy, Status.untouchedBy, if_neg hi, if_neg hi] at this
  · have := congrArg CoreState.cmd hcore
    rwa [CoreState.untouchedBy, CoreState.untouchedBy, if_neg hi, if_neg hi] at this
  · exact hkeeps (fun k => k.status.freqValid) (fun _ => rfl) (fun _ => rfl) fun _ => if_neg hi
  · exact hkeeps (fun k => k.status.treeValid) (fun _ => rfl) (fun _ => rfl) fun _ => if_neg hi
  · exact hkeeps (fun k => k.status.treeBuilt) (fun _ => rfl) (fun _ => rfl) fun _ => if_neg hi
  · exact hkeeps (fun k => k.status.codesValid) (fun _ => rfl) (fun _ => rfl) fun _ => if_neg hi
  · exact hkeeps (fun k => k.status.sizesValid) (fun _ => rfl) (fun _ => rfl) fun _ => if_neg hi
  · exact hkeeps (fun k => k.status.smaller) (fun _ => rfl) (fun _ => rfl) fun _ => if_neg hi
  · by_cases hclear : i = .clear
    · subst hclear
      exact exec_clear_tail hs h
    · have hview : i ∉ [Instr.decode, .clear] := by simp [hi, hclear]
      have := congrArg Status.tail hstatus
      rwa [Status.untouchedBy, Status.untouchedBy, if_neg hview, if_neg hview] at this

end Sys2Proof.Machine

/-! PROOFS. What no command takes back (spec/20_memory.md R43; spec/60_exceptions.md R152), OVR (spec/30_encoding.md R70), the host's
reads while BUSY and its moves while IDLE (spec/10_state.md R23; spec/60_exceptions.md R152), and CLEAR (spec/45_framing_and_control.md
R134). -/

namespace Sys2Proof.Machine

/-! ## The streams -/

/-- The input and the parameters are the same, the output has only grown, and a closed output is as it was. -/
def OutputGrows (c c' : Codec) : Prop :=
  c'.params = c.params ∧ c'.io.input = c.io.input ∧ c.io.output <+: c'.io.output ∧
    (c.io.outClosed = true → c'.io.outClosed = true ∧ c'.io.output = c.io.output)

theorem composes_outputGrows : Composes OutputGrows where
  refl _ := ⟨rfl, rfl, List.prefix_rfl, fun h => ⟨h, rfl⟩⟩
  trans := fun ⟨hparams, hinput, hgrows, hclosed⟩ ⟨hparams', hinput', hgrows', hclosed'⟩ =>
    ⟨hparams'.trans hparams, hinput'.trans hinput, hgrows.trans hgrows', fun h => by
      obtain ⟨h1, hsame⟩ := hclosed h
      obtain ⟨h2, hsame'⟩ := hclosed' h1
      exact ⟨h2, hsame'.trans hsame⟩⟩

theorem streamsKeep_outputGrows : StreamsKeep OutputGrows where
  toComposes := composes_outputGrows
  core _ c := composes_outputGrows.refl c
  read := composes_outputGrows.keeps_binRead (fun c => composes_outputGrows.refl c) fun c => composes_outputGrows.refl c
  rewind := composes_outputGrows.keeps_binRewind (fun c => composes_outputGrows.refl c) fun c => composes_outputGrows.refl c
  write b c := by
    rcases tryWrite_cases b c with ⟨hopen, h⟩ | h | ⟨-, h⟩
    · rw [h]
      exact ⟨rfl, rfl, List.prefix_append _ _, fun hclosed => absurd (hopen.symm.trans hclosed) Bool.false_ne_true⟩
    · rw [h]
      exact composes_outputGrows.refl c
    · rw [h]
      exact composes_outputGrows.refl c
  close := composes_outputGrows.keeps_tryClose (fun c => composes_outputGrows.refl c) fun _ =>
    ⟨rfl, rfl, List.prefix_rfl, fun _ => ⟨rfl, rfl⟩⟩

/-- Settles O18: every transaction of every rule lets the output only grow, and a closed one not at all. -/
theorem commandsKeepInputHostAndWrittenBytes : Obligations.CommandsKeepInputHostAndWrittenBytes := by
  intro i s t h
  have hgrows := streamsKeep_outputGrows.keeps_afterAccept i (s.codec.accept (encode i))
  cases exec_next h with
  | dropped hbusy ht =>
    obtain ⟨w, start, x, hs⟩ := isBusy_iff.1 hbusy
    rw [ht, dropWrite_busy hs]
    exact ⟨rfl, rfl, rfl, composes_outputGrows.refl s.codec⟩
  | ended c hidle hrun ht =>
    rw [hrun] at hgrows
    rw [ht]
    exact ⟨rfl, rfl, rfl, hgrows⟩
  | waits c x io hidle hrun hio ht =>
    rw [hrun] at hgrows
    obtain ⟨-, hinput, hout, hclosed⟩ := hgrows
    rw [ht]
    refine ⟨rfl, rfl, rfl, rfl, ?_⟩
    change io.input = _ ∧ _ <+: io.output ∧ (_ → io.outClosed = true ∧ io.output = _)
    rw [hio]
    exact ⟨hinput, hout, hclosed⟩

/-! ## OVR -/

/-- OVR is set, in the core and in the snapshot of a running command. -/
def State.overrun (s : State) : Prop := s.always fun c => c.core.status.ovr = true

/-- What follows the acceptance of a word other than CLEAR's leaves OVR. -/
theorem keepsOvr_afterWord {w : Word} (hw : w ≠ encode .clear) :
    Keeps (fun c c' => c'.core.status.ovr = c.core.status.ovr) (afterWord w) := by
  unfold afterWord
  cases hi : decode w with
  | none => exact fun _ => rfl
  | some i =>
    obtain rfl := eq_encode_of_decode hi
    have hclear : i ≠ .clear := fun h => hw (by rw [h])
    refine (frame_afterAccept i).mono fun c c' h => ?_
    have hovr := congrArg (fun k : CoreState => k.status.ovr) (Prod.mk.inj h).1
    simpa only [CoreState.untouchedBy, Status.untouchedBy, if_neg hclear] using hovr

/-- A write of CMD keeps OVR, unless it ends a CLEAR. -/
theorem writeCmd_overrun {w : Word} {s t : State} (hs : s.overrun) (hclear : ¬ (w = encode .clear ∧ t.eng = .idle))
    (h : writeCmd w s = .next t) : t.overrun := by
  obtain ⟨hcodec, hstart⟩ := hs
  cases heng : s.eng with
  | busy v start x =>
    rw [writeCmd_busy heng, dropWrite_busy heng] at h
    cases h
    exact ⟨rfl, fun _ _ _ hbusy => by cases hbusy; rfl⟩
  | idle =>
    rw [writeCmd_idle heng] at h
    rcases settle_next h with ⟨c, hrun, rfl⟩ | ⟨c, ds, -, -, rfl⟩ | ⟨c, x, -, rfl⟩
    · have hkept := (keepsOvr_afterWord fun hw => hclear ⟨hw, rfl⟩).of_ok hrun
      exact ⟨hkept.trans hcodec, fun _ _ _ hbusy => by cases hbusy⟩
    · exact ⟨hcodec, fun _ _ _ hbusy => by cases hbusy; exact hcodec⟩
    · exact ⟨hcodec, fun _ _ _ hbusy => by cases hbusy; exact hcodec⟩

theorem hostMoved_overrun {s t : State} (hs : s.overrun)
    (hclear : ¬ (s.eng = .idle ∧ s.fetches (encode .clear) ∧ t.eng = .idle)) (h : HostMoved s t) : t.overrun := by
  cases h with
  | stays hcodec heng => exact StepClosed.always_congr hcodec heng hs
  | writes w s' hfetch hcodec heng hreset hwrite =>
    refine writeCmd_overrun (StepClosed.always_congr hcodec heng hs) (fun ⟨hw, ht⟩ => hclear ⟨?_, hw ▸ hfetch, ht⟩) hwrite
    cases hbusy : s.eng with
    | idle => rfl
    | busy v start x =>
      rw [hbusy] at heng
      rw [writeCmd_busy heng, dropWrite_busy heng] at hwrite
      cases hwrite
      cases ht
  | attachesIn bytes pos hidle hpos hcodec heng =>
    exact ⟨by rw [hcodec]; exact hs.1, fun _ _ _ hbusy => by rw [heng] at hbusy; cases hbusy⟩
  | attachesOut hidle hcodec heng =>
    exact ⟨by rw [hcodec]; exact hs.1, fun _ _ _ hbusy => by rw [heng] at hbusy; cases hbusy⟩

theorem step_overrun {s t : State} (hstep : step s = .next t) (hr : s.noReset) (hclear : ¬ (s.runsClear ∧ t.eng = .idle))
    (hs : s.overrun) : t.overrun := by
  have hsampled : s.sampleReset.overrun := StepClosed.always_congr rfl rfl hs
  rcases step_next hstep with ⟨hreset, -⟩ | ⟨-, hidle, hmove⟩ | ⟨-, w, start, x, u, hbusy, hmove, hresume⟩
  · rw [hr] at hreset
    cases hreset
  · exact hostMoved_overrun hsampled (fun ⟨hidle, hfetch, ht⟩ => hclear ⟨.inr ⟨hidle, hfetch⟩, ht⟩) hmove
  · have hmoved : u.overrun := hostMoved_overrun hsampled (fun ⟨hidle, _⟩ => by
      rw [show s.sampleReset.eng = .busy w start x from hbusy] at hidle
      cases hidle) hmove
    obtain ⟨start', hu⟩ : ∃ start', u.eng = .busy w start' x := by
      rcases (hmove.of_busy (w := w) (start := start) (x := x) hbusy).2 with ⟨-, hu⟩ | ⟨-, hu⟩
      · exact ⟨_, hu⟩
      · exact ⟨_, hu⟩
    rw [resume_busy hu] at hresume
    refine writeCmd_overrun (s := { u with codec := start'.released, eng := .idle })
      ⟨hmoved.2 w start' x hu, fun _ _ _ hidle => by cases hidle⟩ (fun ⟨hw, ht⟩ => hclear ⟨.inl ⟨start, x, ?_⟩, ht⟩) hresume
    rw [hbusy, hw]

/-- Settles O13: the drop is the whole of the write, and only the end of a CLEAR or a reset takes OVR back. -/
theorem busyCommandWriteIsDropped : Obligations.BusyCommandWriteIsDropped := by
  refine ⟨fun s w start txn v hs => ⟨_, ?_, rfl⟩, fun s t hstep hr hclear hovr hstart => ?_⟩
  · have hbusy : s.nextStmt.eng = .busy w start txn := hs
    rw [hostWrite_cmd, writeCmd_busy hbusy, dropWrite_busy hbusy]
    rfl
  · exact step_overrun hstep hr hclear ⟨hovr, hstart⟩

/-! ## Reads while BUSY, and moves while IDLE -/

/-- The word that STATUS reads as while BUSY, bit by bit. -/
theorem busyStatusWord_getLsbD (ovr : Bool) (free : Word) :
    (busyStatusWord ovr free).getLsbD 0 = true ∧ (busyStatusWord ovr free).getLsbD 3 = ovr ∧
      ∀ j, j < 32 → j ≠ 0 → j ≠ 3 → (busyStatusWord ovr free).getLsbD j =
        if j ∈ [11, 15, 20, 21, 22, 23] then false else free.getLsbD j := by
  refine ⟨?_, ?_, fun j hj h0 h3 => ?_⟩
  · simp only [busyStatusWord, BitVec.getLsbD_append]
    simp
  · simp only [busyStatusWord, BitVec.getLsbD_append]
    simp
  split
  · rename_i hreserved
    exact busyStatusWord_reserved ovr free hreserved
  · rename_i hdefined
    simp only [busyStatusWord, BitVec.getLsbD_append, BitVec.getLsbD_extractLsb']
    interval_cases j <;> simp_all

theorem readOffset_free {s : State} {off : Nat} (hs : s.isBusy = true) (hlow : 0x010 ≤ off) (hhigh : off ≤ 0x054) :
    (s.readOffset off).1 = Config.freeWord s.reads := by
  rw [State.readOffset, if_pos hs]
  change busyRegWord s.codec.core s.codec.params off (Config.freeWord s.reads) = _
  rw [busyRegWord, if_neg (by omega), if_pos ⟨hlow, hhigh⟩]

/-- A host that does not write CMD leaves an idle core alone. -/
theorem HostMoved.core_eq {s t : State} (h : HostMoved s t) (hs : s.eng = .idle) (hfetch : ∀ w, ¬ s.fetches w) :
    t.codec.core = s.codec.core ∧ t.eng = .idle := by
  cases h with
  | stays hcodec heng => exact ⟨congrArg Codec.core hcodec, heng.trans hs⟩
  | writes w s' hfetched => exact absurd hfetched (hfetch w)
  | attachesIn bytes pos hidle hpos hcodec heng => exact ⟨by rw [hcodec]; rfl, heng⟩
  | attachesOut hidle hcodec heng => exact ⟨by rw [hcodec]; rfl, heng⟩

theorem step_refused {s : State} {r : Refusal} (hr : s.noReset) (hmove : hostMove s.sampleReset = .refused r) :
    step s = .refused r := by
  have hnot : ¬ s.resetAsserted = true := by simp [hr]
  rw [step, if_neg hnot, stepRunning]
  split
  · exact hmove
  · rw [hmove]

/-- Settles O12: the words read while BUSY, the idle core under a host that does not write CMD, and the two attaches. -/
theorem busyReadsAndIdleHostMoves : Obligations.BusyReadsAndIdleHostMoves := by
  refine ⟨fun s hs => ⟨?_, fun off hlow hhigh haligned => ?_⟩, fun s t hs hr hstep hhost => ?_,
    fun s bytes pos hr hpoll hst hpos => ⟨fun hs => ?_, fun hs => ?_⟩, fun s hr hpoll hst => ⟨fun hs => ?_, fun hs => ?_⟩⟩
  · obtain ⟨t, hload, hread, hcodec, -⟩ := hostLoad_reads (off := 0x008) s (by decide) (by decide)
    rw [readOffset_status, if_pos hs] at hread
    refine ⟨t, hload, hcodec, ?_⟩
    rw [hread]
    exact busyStatusWord_getLsbD _ _
  · obtain ⟨t, hload, hread, hcodec, -⟩ := hostLoad_reads s haligned (by omega)
    exact ⟨t, hload, hcodec, hread.trans (readOffset_free hs hlow hhigh)⟩
  · rcases step_next hstep with ⟨hreset, -⟩ | ⟨-, -, hmove⟩ | ⟨-, w, start, x, u, hbusy, -⟩
    · rw [hr] at hreset
      cases hreset
    · refine hmove.core_eq hs fun w hfetch => ?_
      obtain ⟨hpoll, hstmt⟩ := hfetch
      rcases hhost with hpolling | hother
      · exact absurd (hpoll.symm.trans hpolling) Bool.false_ne_true
      · obtain ⟨hword, hwrite⟩ := hother w (s.codec.params.regBase + 4) 4
        rcases hstmt with hstmt | hstmt
        · exact hword hstmt
        · exact hwrite hstmt rfl
    · rw [hs] at hbusy
      cases hbusy
  · have hidle : s.sampleReset.isBusy = false := isBusy_eq_false_iff.2 hs
    rw [step_of_idle hr hs, hostMove_of_stmt (s := s.sampleReset) hpoll hst]
    simp only [hostStmt, hostAttachIn, hidle, Nat.not_lt.2 hpos]
    rfl
  · refine step_refused hr ?_
    rw [hostMove_of_stmt (s := s.sampleReset) hpoll hst]
    exact if_pos hs
  · have hidle : s.sampleReset.isBusy = false := isBusy_eq_false_iff.2 hs
    rw [step_of_idle hr hs, hostMove_of_stmt (s := s.sampleReset) hpoll hst]
    simp only [hostStmt, hostAttachOut, hidle]
    rfl
  · refine step_refused hr ?_
    rw [hostMove_of_stmt (s := s.sampleReset) hpoll hst]
    exact if_pos hs

/-! ## CLEAR -/

/-- Settles O29: the rule sets the reset values and DONE. -/
theorem clearResetsTheCore : Obligations.ClearResetsTheCore := by
  intro s ⟨hidle, hdraws⟩
  have hrun : exec .clear s = settle (encode .clear) s (withErrorExit clearBody ((s.codec.accept (encode .clear)).mapCore clearAll)) :=
    issue_of_pre (pre := preNone) clearAll clearBody hidle rfl
  have hbody := clearBody_apply ((s.codec.accept (encode .clear)).mapCore clearAll)
  have hbusy : ∀ c : Codec, State.isBusy { s with codec := c } = false := fun _ => isBusy_eq_false_iff.2 hidle
  have hword : statusWord false { CoreState.reset with status := { Status.reset with done := true } } = 0x00000002#32 := by decide
  refine ⟨_, ?_, rfl, ?_, rfl⟩
  · rw [hrun, withErrorExit_ok hbody]
    refine (settle_done ?_).trans ?_
    · exact hdraws
    · rw [← hidle]
      rfl
  · exact (congrArg (fun busy => statusWord busy _) (hbusy _)).trans hword

end Sys2Proof.Machine

/-! PROOFS. Bits written with as many transactions answered as they need, and the error exit whatever the answers
(spec/20_memory.md R51, R54 to R56; spec/60_exceptions.md R138, R141). -/

namespace Sys2Proof.Machine

/-! ## Bits written -/

/-- `c'` is `c` with `bits` appended to its output bit stream, by the writing of `n` bytes, and nothing else changed. -/
structure Filled (n : Nat) (bits : List Bool) (c c' : Codec) : Prop where
  outBits : c'.outBits = c.outBits ++ bits
  core : c'.core =
    { c.core with obuf := c'.core.obuf, obits := c'.core.obits, outBytes := c.core.outBytes + BitVec.ofNat 64 n }
  params : c'.params = c.params
  io : c'.io = { c.io with output := c'.io.output, draws := c.io.draws.after n }
  grows : c.io.output <+: c'.io.output
  length : c'.io.output.length = c.io.output.length + n
  obuf : c'.core.obits.val = 0 → c'.core.obuf = if bits = [] then c.core.obuf else 0#8

namespace Filled
variable {m n : Nat} {bits bits' : List Bool} {c c1 c2 : Codec}

theorem refl (c : Codec) : Filled 0 [] c c := ⟨by simp, by simp, rfl, rfl, List.prefix_rfl, rfl, fun _ => rfl⟩

/-- The bits written are in OUT or in the packer. -/
theorem obits (h : Filled n bits c c1) : 8 * n + c1.core.obits.val = c.core.obits.val + bits.length := by
  have hlen := congrArg List.length h.outBits
  rw [List.length_append, Codec.outBits_length, Codec.outBits_length, h.length] at hlen
  omega

theorem trans (h : Filled m bits c c1) (h' : Filled n bits' c1 c2) : Filled (m + n) (bits ++ bits') c c2 where
  outBits := by rw [h'.outBits, h.outBits, List.append_assoc]
  core := by rw [h'.core, h.core, BitVec.add_assoc, ← BitVec.ofNat_add]
  params := h'.params.trans h.params
  io := by rw [h'.io, h.io, Draws.after_add]
  grows := h.grows.trans h'.grows
  length := by rw [h'.length, h.length, Nat.add_assoc]
  obuf hzero := by
    rw [h'.obuf hzero]
    by_cases hnil : bits' = []
    · have hobits := h'.obits
      have hlt := c1.core.obits.isLt
      rw [hnil, List.length_nil] at hobits
      rw [if_pos hnil, h.obuf (by omega), hnil, List.append_nil]
    · rw [if_neg hnil, if_neg (by simp [hnil])]

theorem outClosed (h : Filled n bits c c1) : c1.io.outClosed = c.io.outClosed := by rw [h.io]
theorem input (h : Filled n bits c c1) : c1.io.input = c.io.input := by rw [h.io]
theorem ipos (h : Filled n bits c c1) : c1.io.ipos = c.io.ipos := by rw [h.io]
theorem draws (h : Filled n bits c c1) : c1.io.draws = c.io.draws.after n := by rw [h.io]
theorem outBytes (h : Filled n bits c c1) : c1.core.outBytes = c.core.outBytes + BitVec.ofNat 64 n := by rw [h.core]
theorem status (h : Filled n bits c c1) : c1.core.status = c.core.status := by rw [h.core]

/-- OUT holds the whole bytes of the bit stream. -/
theorem flatMap_output (h : Filled n bits c c1) : c1.io.output.flatMap (byteBits c.params.packOrder) =
    (c.outBits ++ bits).take (8 * (c.io.output.length + n)) := by
  rw [← h.outBits, Codec.outBits, h.params, ← h.length, ← length_flatMap_byteBits c.params.packOrder, List.take_left]

end Filled

theorem filled_held {c : Codec} (b : Bool) (h : c.core.obits.val ≠ 7) : Filled 0 [b] c (c.bitHeld b) := by
  have hlt := c.core.obits.isLt
  have hobits : (c.core.obits + 1).val = c.core.obits.val + 1 := by
    rw [Fin.val_add, Fin.val_one]
    omega
  have hplaced := range_map_putBit c.params.packOrder c.core.obuf b hlt
  refine ⟨?_, ?_, rfl, rfl, List.prefix_rfl, rfl, fun hzero => ?_⟩
  · simp only [Codec.outBits, Codec.bitHeld, Codec.packed, Codec.mapCore_core, Codec.mapCore_io, Codec.mapCore_params, packBit,
      pendingBits, hobits, hplaced, List.append_assoc]
  · simp [Codec.bitHeld, Codec.packed, packBit]
  · have hval : (c.core.obits + 1).val = 0 := hzero
    omega

theorem filled_written {c : Codec} (b : Bool) (h : c.core.obits.val = 7) : Filled 1 [b] c (c.byteWritten b) := by
  have hplaced := range_map_putBit c.params.packOrder c.core.obuf b (n := 7) (by decide)
  refine ⟨?_, rfl, rfl, rfl, List.prefix_append _ _, by simp [Codec.byteWritten], fun _ => rfl⟩
  simp [Codec.outBits, Codec.byteWritten, Codec.packed, packBit, dropPending, pendingBits, byteBits, h] at hplaced ⊢
  exact hplaced

/-! ## Byte writes that fail -/

/-- The next byte write fails: by its draw, or because the output is closed (20_memory.md R51). -/
def Codec.writeFails (c : Codec) : Prop :=
  c.io.draws.pop.1 = .fail ∨ c.io.outClosed = true ∧ c.io.draws.pop.1 ≠ .wait

/-- The next `n` byte writes succeed and the one behind them fails. -/
def Codec.writeFailsAfter (n : Nat) (c : Codec) : Prop :=
  c.io.draws.okFor n = true ∧ (n = 0 ∨ c.io.outClosed = false) ∧
    ((c.io.draws.after n).pop.1 = .fail ∨ c.io.outClosed = true ∧ (c.io.draws.after n).pop.1 ≠ .wait)

theorem tryWrite_fails {c : Codec} (b : Byte) (h : c.writeFails) : tryWrite b c = .ok false c.drawn := by
  rcases h with hfail | ⟨hclosed, hanswered⟩
  · exact tryWrite_fail b hfail
  · exact tryWrite_closed b hanswered hclosed

theorem Filled.writeFails {n : Nat} {bits : List Bool} {c c1 : Codec} (h : Filled n bits c c1) (hc : c.writeFailsAfter n) :
    c1.writeFails := by
  rw [Codec.writeFails, h.outClosed, h.draws]
  exact hc.2.2

theorem tryBitWrite_fails {c : Codec} (b : Bool) (h7 : c.core.obits.val = 7) (h : c.writeFails) :
    tryBitWrite b c = .ok false (c.packed b).drawn := tryBitWrite_of_false b h7 (tryWrite_fails (c := c.packed b) _ h)

/-! ## Bit strings -/

theorem bitWrite_of_true {b : Bool} {c c' : Codec} (h : tryBitWrite b c = .ok true c') : bitWrite b c = .ok () c' := by
  rw [bitWrite, engine_bind_of_ok (quiet_ok.2 h)]
  rfl

theorem bitWrite_of_false {b : Bool} {c c' : Codec} (h : tryBitWrite b c = .ok false c') :
    bitWrite b c = .error (.raise .ioOut) c' := by
  rw [bitWrite, engine_bind_of_ok (quiet_ok.2 h)]
  rfl

/-- A bit string is written when the bytes it fills are. -/
theorem bitWrites_filled {bits : List Bool} {n : Nat} {c : Codec} (hd : c.io.draws.okFor n = true)
    (hopen : n = 0 ∨ c.io.outClosed = false) (hn : (c.core.obits.val + bits.length) / 8 = n) :
    ∃ c', bitWrites bits c = .ok () c' ∧ Filled n bits c c' := by
  have hlt := c.core.obits.isLt
  induction bits generalizing c n with
  | nil =>
    obtain rfl : n = 0 := by rw [← hn, List.length_nil]; omega
    exact ⟨c, rfl, .refl c⟩
  | cons b bs ih =>
    rw [List.length_cons] at hn
    by_cases h7 : c.core.obits.val = 7
    · obtain ⟨m, rfl⟩ : ∃ m, n = 1 + m := ⟨bs.length / 8, by omega⟩
      rw [Draws.okFor_add, Bool.and_eq_true] at hd
      obtain ⟨hfirst, hrest⟩ := hd
      simp only [Draws.okFor_succ, Draws.okFor_zero, Bool.and_true, beq_iff_eq] at hfirst
      have hopen : c.io.outClosed = false := by simpa using hopen
      obtain ⟨c', hwrites, hfilled⟩ := ih (c := c.byteWritten b) (n := m) hrest (.inr hopen)
        (by change (0 + bs.length) / 8 = m; omega) (Fin.isLt _)
      refine ⟨c', ?_, (filled_written b h7).trans hfilled⟩
      rw [bitWrites, engine_bind_of_ok (bitWrite_of_true (tryBitWrite_written b h7 hfirst hopen)), hwrites]
    · have hheld := filled_held b h7
      have hobits := hheld.obits
      rw [List.length_singleton] at hobits
      obtain ⟨c', hwrites, hfilled⟩ := ih (c := c.bitHeld b) (n := n) hd hopen (by omega) (Fin.isLt _)
      refine ⟨c', ?_, by simpa using hheld.trans hfilled⟩
      rw [bitWrites, engine_bind_of_ok (bitWrite_of_true (tryBitWrite_held b h7)), hwrites]

theorem bitWrites_append (xs ys : List Bool) {c c' : Codec} (h : bitWrites xs c = .ok () c') :
    bitWrites (xs ++ ys) c = bitWrites ys c' := by
  induction xs generalizing c with
  | nil => cases h; rfl
  | cons x xs ih =>
    obtain ⟨u, c1, hbit, hrest⟩ := engine_bind_ok.1 h
    rw [List.cons_append, bitWrites, engine_bind_of_ok hbit, ih hrest]

/-- A bit string that fills a byte whose write fails raises IO_OUT there, with the bytes before it written. -/
theorem bitWrites_fails {bits : List Bool} {n : Nat} {c : Codec} (hc : c.writeFailsAfter n)
    (hn : 8 * (n + 1) ≤ c.core.obits.val + bits.length) :
    ∃ pre b c1, pre ++ [b] <+: bits ∧ Filled n pre c c1 ∧ bitWrites bits c = .error (.raise .ioOut) (c1.packed b).drawn := by
  have hlt := c.core.obits.isLt
  obtain ⟨m, hm⟩ : ∃ m, c.core.obits.val + m = 8 * n + 7 := ⟨8 * n + 7 - c.core.obits.val, by omega⟩
  have hmlt : m < bits.length := by omega
  have hlen : (bits.take m).length = m := List.length_take_of_le (by omega)
  obtain ⟨c1, hwrites, hfilled⟩ := bitWrites_filled (bits := bits.take m) hc.1 hc.2.1 (by rw [hlen]; omega)
  have h7 : c1.core.obits.val = 7 := by
    have hobits := hfilled.obits
    omega
  have hsplit : bits = bits.take m ++ bits[m] :: bits.drop (m + 1) := by
    rw [← List.drop_eq_getElem_cons hmlt, List.take_append_drop]
  refine ⟨bits.take m, bits[m], c1, ⟨bits.drop (m + 1), by rw [List.append_assoc]; exact hsplit.symm⟩, hfilled, ?_⟩
  have hfails := bitWrite_of_false (tryBitWrite_fails bits[m] h7 (hfilled.writeFails hc))
  calc bitWrites bits c = bitWrites (bits.take m ++ bits[m] :: bits.drop (m + 1)) c := by rw [← hsplit]
    _ = bitWrites (bits[m] :: bits.drop (m + 1)) c1 := bitWrites_append _ _ hwrites
    _ = _ := by rw [bitWrites, engine_bind_of_error hfails]

/-! ## The flush -/

/-- The pad bits that fill a byte begun (20_memory.md R56). -/
def Codec.padding (c : Codec) : List Bool := List.replicate (8 - c.core.obits.val) c.params.padBit

theorem padding_bitHeld {c : Codec} (b : Bool) (h : c.core.obits.val ≠ 7) :
    c.padding = c.params.padBit :: (c.bitHeld b).padding ∧ (c.bitHeld b).core.obits.val ≠ 0 ∧
      (c.bitHeld b).core.obits.val = c.core.obits.val + 1 := by
  have hlt := c.core.obits.isLt
  have hobits := (filled_held b h).obits
  rw [List.length_singleton] at hobits
  refine ⟨?_, by omega, by omega⟩
  rw [Codec.padding, Codec.padding, show (c.bitHeld b).params = c.params from rfl, ← List.replicate_succ]
  congr 1
  omega

/-- The flush of a byte begun is the writing of the pad bits that fill it. -/
theorem bitFlushLoop_eq {n : Nat} {c : Codec} (h0 : c.core.obits.val ≠ 0) (hn : 8 - c.core.obits.val ≤ n) :
    bitFlushLoop n c = bitWrites c.padding c := by
  have hlt := c.core.obits.isLt
  induction n generalizing c with
  | zero => omega
  | succ n ih =>
    rw [bitFlushLoop, engine_bind_of_ok (get_apply c), if_neg h0]
    by_cases h7 : c.core.obits.val = 7
    · have hpad : c.padding = [c.params.padBit] := by rw [Codec.padding, h7]; rfl
      rw [hpad, bitWrites]
      refine engine_bind_congr rfl fun u c1 hbit => ?_
      obtain ⟨ok, c2, hwrite, hrest⟩ := engine_bind_ok.1 hbit
      rcases tryBitWrite_cases c.params.padBit c with ⟨hne, -⟩ | ⟨-, ⟨-, hw⟩ | hw | ⟨x, hw⟩⟩
      · exact absurd h7 hne
      · cases (quiet_ok.1 hwrite).symm.trans hw
        cases hrest
        exact bitFlushLoop_done n rfl
      · cases (quiet_ok.1 hwrite).symm.trans hw
        cases hrest
      · cases (quiet_ok.1 hwrite).symm.trans hw
    · obtain ⟨hpad, hne, hobits⟩ := padding_bitHeld c.params.padBit h7
      have hbit := bitWrite_of_true (tryBitWrite_held c.params.padBit h7)
      rw [hpad, bitWrites, engine_bind_of_ok hbit, engine_bind_of_ok hbit, ih hne (by omega) (Fin.isLt _)]

theorem flushIgnoring_done (n : Nat) {c : Codec} (h : c.core.obits.val = 0) : flushIgnoring n c = .ok () c := by
  cases n with
  | zero => rfl
  | succ n =>
    rw [flushIgnoring, engine_bind_of_ok (get_apply c), if_pos h]
    rfl

theorem flushIgnoring_succ {n : Nat} {c c1 : Codec} {ok : Bool} (h0 : c.core.obits.val ≠ 0)
    (h : tryBitWrite c.params.padBit c = .ok ok c1) :
    flushIgnoring (n + 1) c = if ok then flushIgnoring n c1 else .ok () (c1.mapCore dropPending) := by
  rw [flushIgnoring, engine_bind_of_ok (get_apply c), if_neg h0, engine_bind_of_ok h]
  cases ok <;> rfl

/-- The error exit's flush of a byte begun, when the byte's write succeeds. -/
theorem flushIgnoring_filled {n : Nat} {c : Codec} (h0 : c.core.obits.val ≠ 0) (hn : 8 - c.core.obits.val ≤ n)
    (hd : c.io.draws.pop.1 = .ok) (hopen : c.io.outClosed = false) :
    ∃ c', flushIgnoring n c = .ok () c' ∧ Filled 1 c.padding c c' := by
  have hlt := c.core.obits.isLt
  induction n generalizing c with
  | zero => omega
  | succ n ih =>
    by_cases h7 : c.core.obits.val = 7
    · refine ⟨c.byteWritten c.params.padBit, ?_, ?_⟩
      · rw [flushIgnoring_succ h0 (tryBitWrite_written _ h7 hd hopen), if_pos rfl]
        exact flushIgnoring_done n rfl
      · rw [Codec.padding, h7]
        exact filled_written _ h7
    · obtain ⟨hpad, hne, hobits⟩ := padding_bitHeld c.params.padBit h7
      obtain ⟨c', hflush, hfilled⟩ := ih (c := c.bitHeld c.params.padBit) hne (by omega) hd hopen (Fin.isLt _)
      refine ⟨c', ?_, ?_⟩
      · rw [flushIgnoring_succ h0 (tryBitWrite_held _ h7), if_pos rfl, hflush]
      · rw [hpad]
        exact (filled_held _ h7).trans hfilled

/-- When it fails, the pending bits are dropped. -/
theorem flushIgnoring_fails {n : Nat} {c : Codec} (h0 : c.core.obits.val ≠ 0) (hn : 8 - c.core.obits.val ≤ n) (hc : c.writeFails) :
    flushIgnoring n c = .ok () (c.drawn.mapCore dropPending) := by
  have hlt := c.core.obits.isLt
  induction n generalizing c with
  | zero => omega
  | succ n ih =>
    by_cases h7 : c.core.obits.val = 7
    · rw [flushIgnoring_succ h0 (tryBitWrite_fails _ h7 hc), if_neg Bool.false_ne_true]
      rfl
    · obtain ⟨-, hne, hobits⟩ := padding_bitHeld c.params.padBit h7
      rw [flushIgnoring_succ h0 (tryBitWrite_held _ h7), if_pos rfl,
        ih (c := c.bitHeld c.params.padBit) hne (by omega) hc (Fin.isLt _)]
      rfl

end Sys2Proof.Machine

/-! PROOFS. The error exit whatever the environment answers (spec/60_exceptions.md R138, R141), and what a command that raises an error
leaves. -/

namespace Sys2Proof.Machine

/-! ## The close -/

/-- The codec after an answered close (20_memory.md R52). -/
def Codec.closeTried (c : Codec) : Codec :=
  c.drawn.mapIo fun io => { io with outClosed := io.outClosed || c.io.draws.pop.1 == .ok }

theorem tryClose_answered {c : Codec} (h : c.io.draws.pop.1 ≠ .wait) :
    ∃ ok, tryClose c = .ok ok c.closeTried := by
  cases hd : c.io.draws.pop.1 with
  | ok => exact ⟨true, (tryClose_ok hd).trans (by simp [Codec.closeTried, hd])⟩
  | fail =>
    refine ⟨false, (tryClose_fail hd).trans ?_⟩
    have hsame : c.io.outClosed = (c.io.outClosed || (Draw.fail == Draw.ok)) := (Bool.or_false _).symm
    simp only [Codec.closeTried, hd, Codec.mapIo, Codec.drawn]
    rw [← hsame]
  | wait => exact absurd hd h

theorem errorExit_of_settled {e : ErrCode} {c c1 : Codec} (h : settlePending e (c.mapCore (setError e)) = .ok () c1)
    (hd : c1.io.draws.pop.1 ≠ .wait) : errorExit e c = .ok () c1.closeTried := by
  obtain ⟨ok, hclose⟩ := tryClose_answered hd
  rw [errorExit, engine_bind_of_ok (modify_apply _ _), engine_bind_of_ok h, engine_bind_of_ok hclose]
  rfl

/-! ## The pending bits -/

theorem settlePending_ioOut (c : Codec) : settlePending .ioOut c = .ok () (c.mapCore dropPending) := rfl

theorem settlePending_flush {e : ErrCode} (h : e ≠ .ioOut) : settlePending e = flushIgnoring 7 := if_neg h

/-- What the error exit of `e` has done to `c`, its close left out. -/
structure PendingSettled (e : ErrCode) (c c' : Codec) : Prop where
  core : c'.core = { c.core with obuf := c'.core.obuf, obits := 0, outBytes := c'.core.outBytes }
  obuf : c'.core.obuf = if e ≠ .ioOut ∧ c.core.obits = 0 then c.core.obuf else 0#8
  params : c'.params = c.params
  io : c'.io = { c.io with output := c'.io.output, draws := c'.io.draws }
  grows : c.io.output <+: c'.io.output
  dropped : e = .ioOut ∨ c.core.obits = 0 ∨ c.writeFails →
    c'.io.output = c.io.output ∧ c'.core.outBytes = c.core.outBytes
  padded : e ≠ .ioOut → c.core.obits ≠ 0 → c.io.outClosed = false → c.io.draws.pop.1 = .ok →
    c'.io.output.flatMap (byteBits c.params.packOrder) = c.outBits ++ c.padding ∧
      c'.core.outBytes = c.core.outBytes + 1#64
  draws : c'.io.draws = if e = .ioOut ∨ c.core.obits = 0 then c.io.draws else c.io.draws.pop.2

section
variable {e : ErrCode} {c c' : Codec}

theorem pendingSettled_ioOut (c : Codec) : PendingSettled .ioOut c (c.mapCore dropPending) where
  core := rfl
  obuf := (if_neg fun h => h.1 rfl).symm
  params := rfl
  io := rfl
  grows := List.prefix_rfl
  dropped _ := ⟨rfl, rfl⟩
  padded h := absurd rfl h
  draws := (if_pos (.inl rfl)).symm

theorem pendingSettled_none (he : e ≠ .ioOut) (h0 : c.core.obits = 0) : PendingSettled e c c where
  core := by rw [← h0]
  obuf := (if_pos ⟨he, h0⟩).symm
  params := rfl
  io := rfl
  grows := List.prefix_rfl
  dropped _ := ⟨rfl, rfl⟩
  padded _ h := absurd h0 h
  draws := (if_pos (.inr h0)).symm

theorem pendingSettled_filled (he : e ≠ .ioOut) (h0 : c.core.obits ≠ 0) (hc : ¬ c.writeFails) (h : Filled 1 c.padding c c') :
    PendingSettled e c c' := by
  have hobits : c'.core.obits.val = 0 := by
    have hlen := h.obits
    have hlt := c.core.obits.isLt
    simp only [Codec.padding, List.length_replicate] at hlen
    omega
  have hpadding : c.padding ≠ [] := by
    have hlt := c.core.obits.isLt
    rw [Codec.padding, ne_eq, List.replicate_eq_nil_iff]
    omega
  refine ⟨?_, ?_, h.params, ?_, h.grows, fun hdropped => ?_, fun _ _ _ _ => ⟨?_, h.outBytes⟩, ?_⟩
  · have hcore := h.core
    rwa [show c'.core.obits = 0 from Fin.ext hobits, ← h.outBytes] at hcore
  · rw [h.obuf hobits, if_neg hpadding, if_neg fun h => h0 h.2]
  · rw [h.io]
  · exact absurd hdropped fun h => h.elim he fun h => h.elim h0 hc
  · rw [← h.outBits, Codec.outBits_of_obits_zero hobits, h.params]
  · rw [if_neg fun h => h.elim he h0, h.draws]
    rfl

theorem pendingSettled_fails (he : e ≠ .ioOut) (h0 : c.core.obits ≠ 0) (hc : c.writeFails) :
    PendingSettled e c (c.drawn.mapCore dropPending) where
  core := rfl
  obuf := (if_neg fun h => h0 h.2).symm
  params := rfl
  io := rfl
  grows := List.prefix_rfl
  dropped _ := ⟨rfl, rfl⟩
  padded _ _ hopen hok := by
    rcases hc with hfail | ⟨hclosed, -⟩
    · rw [hok] at hfail
      cases hfail
    · exact absurd (hopen.symm.trans hclosed) Bool.false_ne_true
  draws := (if_neg fun h => h.elim he h0).symm

end

/-- An answered write that does not fail succeeds, on an open output. -/
theorem write_succeeds {c : Codec} (hd : c.io.draws.pop.1 ≠ .wait) (hc : ¬ c.writeFails) :
    c.io.draws.pop.1 = .ok ∧ c.io.outClosed = false := by
  have hopen : c.io.outClosed = false := Bool.eq_false_iff.2 fun hclosed => hc (.inr ⟨hclosed, hd⟩)
  cases hpop : c.io.draws.pop.1 with
  | ok => exact ⟨rfl, hopen⟩
  | fail => exact absurd (.inl hpop) hc
  | wait => exact absurd hpop hd

theorem settlePending_answered (e : ErrCode) {c : Codec} (hd : c.io.draws.pop.1 ≠ .wait) :
    ∃ c', settlePending e c = .ok () c' ∧ PendingSettled e c c' := by
  by_cases he : e = .ioOut
  · subst he
    exact ⟨_, settlePending_ioOut c, pendingSettled_ioOut c⟩
  rw [settlePending_flush he]
  by_cases h0 : c.core.obits = 0
  · exact ⟨c, flushIgnoring_done 7 (congrArg Fin.val h0), pendingSettled_none he h0⟩
  have hval : c.core.obits.val ≠ 0 := fun h => h0 (Fin.ext h)
  by_cases hc : c.writeFails
  · exact ⟨_, flushIgnoring_fails (n := 7) hval (by omega) hc, pendingSettled_fails he h0 hc⟩
  · obtain ⟨hok, hopen⟩ := write_succeeds hd hc
    obtain ⟨c', hflush, hfilled⟩ := flushIgnoring_filled (n := 7) hval (by omega) hok hopen
    exact ⟨c', hflush, pendingSettled_filled he h0 hc hfilled⟩

/-! ## The error exit -/

/-- What the error exit of `e` has made of `c` (60_exceptions.md R138, R141). -/
structure ErrorExited (e : ErrCode) (c c' : Codec) : Prop where
  core : c'.core = { c.core with
    status := { c.core.status with err := true, errcode := e }
    obuf := if e ≠ .ioOut ∧ c.core.obits = 0 then c.core.obuf else 0#8
    obits := 0
    outBytes := c'.core.outBytes }
  params : c'.params = c.params
  input : c'.io.input = c.io.input
  ipos : c'.io.ipos = c.io.ipos
  grows : c.io.output <+: c'.io.output
  dropped : e = .ioOut ∨ c.core.obits = 0 ∨ c.writeFails →
    c'.io.output = c.io.output ∧ c'.core.outBytes = c.core.outBytes
  padded : e ≠ .ioOut → c.core.obits ≠ 0 → c.io.outClosed = false → c.io.draws.pop.1 = .ok →
    c'.io.output.flatMap (byteBits c.params.packOrder) = c.outBits ++ c.padding ∧
      c'.core.outBytes = c.core.outBytes + 1#64
  outClosed : c'.io.outClosed = true ↔ c.io.outClosed = true ∨
    (if e = .ioOut ∨ c.core.obits = 0 then c.io.draws else c.io.draws.pop.2).pop.1 = .ok
  draws : c'.io.draws.answered

theorem errorExit_answered (e : ErrCode) {c : Codec} (hd : c.io.draws.answered) :
    ∃ c', errorExit e c = .ok () c' ∧ ErrorExited e c c' := by
  obtain ⟨hfirst, hrest⟩ := Draws.pop_answered hd
  obtain ⟨c1, hsettle, h⟩ := settlePending_answered e (c := c.mapCore (setError e)) hfirst
  have hdraws : c1.io.draws.answered := by
    rw [h.draws]
    split
    · exact hd
    · exact hrest
  obtain ⟨hclose, hlast⟩ := Draws.pop_answered hdraws
  have hclosed : c1.io.outClosed = c.io.outClosed := by rw [h.io]; rfl
  refine ⟨_, errorExit_of_settled hsettle hclose, ?_, h.params, ?_, ?_, h.grows, h.dropped, h.padded, ?_, hlast⟩
  · change c1.core = _
    rw [h.core, h.obuf]
    rfl
  · change c1.io.input = _
    rw [h.io]
    rfl
  · change c1.io.ipos = _
    rw [h.io]
    rfl
  · have hpop := h.draws
    simp only [Codec.closeTried, Codec.mapIo, Codec.drawn, Bool.or_eq_true, beq_iff_eq]
    rw [hclosed, hpop]
    rfl

/-- Every bit of a byte has its place in the bit stream (20_memory.md R54). -/
theorem exists_bitPos (order : BitOrder) {j : Nat} (hj : j < 8) : ∃ k < 8, bitPos order k = j := by
  cases order with
  | lsbFirst => exact ⟨j, hj, rfl⟩
  | msbFirst => exact ⟨7 - j, by omega, by simp only [bitPos]; omega⟩

/-- OBUF is empty when no bit is pending (10_state.md R39). -/
theorem obuf_of_obits_zero {c : Codec} (h : c.Packed) (h0 : c.core.obits = 0) : c.core.obuf = 0#8 := by
  refine BitVec.eq_of_getLsbD_eq fun j hj => ?_
  obtain ⟨k, hk, rfl⟩ := exists_bitPos c.params.packOrder hj
  rw [h k (by rw [h0]; exact Nat.zero_le _) hk, BitVec.getLsbD_zero]

/-- Settles O15: the withErrorExit of a raise is the error exit, and that is the flush and the close. -/
theorem runtimeErrorTakesTheErrorExit : Obligations.RuntimeErrorTakesTheErrorExit := by
  refine ⟨fun body c e c1 h => by rw [withErrorExit, h], fun e c hinv hd => ?_⟩
  obtain ⟨c', hexit, h⟩ := errorExit_answered e hd
  refine ⟨c', hexit, ?_, h.params, h.input, h.ipos, h.grows, fun hdropped => h.dropped ?_, h.padded, h.outClosed⟩
  · have hobuf : (if e ≠ .ioOut ∧ c.core.obits = 0 then c.core.obuf else 0#8) = 0#8 := by
      split
      · rename_i hnone
        exact obuf_of_obits_zero hinv.1 hnone.2
      · rfl
    rw [h.core, hobuf]
  · exact hdropped.imp_right (Or.imp_right fun hfails =>
      hfails.elim (fun hclosed => .inr ⟨hclosed, (Draws.pop_answered hd).1⟩) .inl)

end Sys2Proof.Machine

/-! PROOFS. CLOSE, WRMAGIC and CHKMAGIC where a transaction fails or a byte differs (spec/45_framing_and_control.md R129 to R131;
spec/20_memory.md R51, R52, R56). -/

namespace Sys2Proof.Machine

/-! ## The end of a command -/

/-- The codec in which the rule of `i` begins: its word accepted, its validity bits cleared (30_encoding.md R69). -/
def Codec.started (i : Instr) (c : Codec) : Codec := (c.accept (encode i)).mapCore (clearsOf i)

@[simp] theorem Codec.started_io (i : Instr) (c : Codec) : (c.started i).io = c.io := rfl
@[simp] theorem Codec.started_params (i : Instr) (c : Codec) : (c.started i).params = c.params := rfl

section
variable {i : Instr} {s : State}

theorem exec_of_run {c : Codec} (hs : s.eng = .idle) (hpre : preconditionOf i s.codec.core)
    (hrun : withErrorExit (ruleOf i) (s.codec.started i) = .ok () c) (hd : c.io.draws.answered) :
    exec i s = .next { s with codec := c, eng := .idle } := by
  have hpre : preOf i (s.codec.accept (encode i)).core = true := by
    rw [Codec.accept_core, preOf_acceptWord, preOf_iff]
    exact hpre
  rw [exec_eq_writeCmd, writeCmd_idle hs, afterWord_encode, afterAccept_of_pre _ _ hpre]
  exact (congrArg (settle (encode i) s) hrun).trans (settle_done hd.head_ne)

theorem exec_completes {c : Codec} (hs : s.eng = .idle) (hpre : preconditionOf i s.codec.core)
    (hrule : ruleOf i (s.codec.started i) = .ok () c) (hd : c.io.draws.answered) :
    exec i s = .next { s with codec := c, eng := .idle } := exec_of_run hs hpre (withErrorExit_ok hrule) hd

/-- A command whose rule raises `e` ends in that error, through the error exit. -/
theorem exec_raises {c : Codec} {e : ErrCode} (hs : s.eng = .idle) (hpre : preconditionOf i s.codec.core)
    (hrule : ruleOf i (s.codec.started i) = .error (.raise e) c) (hd : c.io.draws.answered) :
    ∃ t, exec i s = .next t ∧ t.endedIn e ∧ ErrorExited e c t.codec := by
  obtain ⟨c', hexit, h⟩ := errorExit_answered e hd
  have hrun : withErrorExit (ruleOf i) (s.codec.started i) = .ok () c' := by
    rw [withErrorExit, hrule]
    exact hexit
  obtain ⟨⟨hdone, -⟩, -⟩ := (endsClean_ruleOf i _ (clearsOf_cleanReport i s.codec)).error hrule
  refine ⟨_, exec_of_run hs hpre hrun h.draws, ⟨rfl, ?_, ?_, ?_⟩, h⟩
  · rw [h.core]
  · rw [h.core]
  · rw [h.core]
    exact hdone

end

/-! ## Draws -/

theorem Draws.answered.after {d : Draws} (h : d.answered) (n : Nat) : (d.after n).answered := by
  induction n generalizing d with
  | zero => exact h
  | succ n ih => exact ih (pop_answered h).2

theorem Draws.okFor_one {d : Draws} : d.okFor 1 = true ↔ d.pop.1 = .ok := by simp

/-- The premise of the statements on failing writes, for the codec behind `k` other transactions. -/
theorem State.writeFailsAfter.codec {s : State} {k n : Nat} (h : s.writeFailsAfter k n) {c : Codec}
    (hdraws : c.io.draws = s.codec.io.draws.after k) (hclosed : c.io.outClosed = s.codec.io.outClosed) : c.writeFailsAfter n := by
  obtain ⟨⟨-, hanswered⟩, hok, hcase⟩ := h
  rw [Draws.okFor_add, Bool.and_eq_true] at hok
  rw [Draws.after_add] at hcase
  rw [Codec.writeFailsAfter, hdraws, hclosed]
  rcases hcase with ⟨hclosed, rfl⟩ | ⟨hopen, hfail⟩
  · exact ⟨hok.2, .inl rfl, .inr ⟨hclosed, (Draws.pop_answered ((hanswered.after k).after 0)).1⟩⟩
  · exact ⟨hok.2, .inr hopen, .inl hfail⟩

theorem Filled.output_of_zero {bits : List Bool} {c c1 : Codec} (h : Filled 0 bits c c1) : c1.io.output = c.io.output :=
  (h.grows.eq_of_length h.length.symm).symm

/-! ## CLOSE -/

theorem bitFlush_filled {c : Codec} (h0 : c.core.obits ≠ 0) (hd : c.io.draws.pop.1 = .ok) (hopen : c.io.outClosed = false) :
    ∃ c1, bitFlush c = .ok () c1 ∧ Filled 1 c.padding c c1 ∧ c1.core.obits = 0 ∧ c1.core.obuf = 0#8 := by
  have hlt := c.core.obits.isLt
  have hval : c.core.obits.val ≠ 0 := fun h => h0 (Fin.ext h)
  have hlen : c.padding.length = 8 - c.core.obits.val := List.length_replicate
  obtain ⟨c1, hwrites, hfilled⟩ := bitWrites_filled (bits := c.padding) (n := 1) (Draws.okFor_one.2 hd) (.inr hopen)
    (by omega)
  have hobits := hfilled.obits
  have hzero : c1.core.obits.val = 0 := by omega
  have hpadding : c.padding ≠ [] := fun h => by
    rw [h, List.length_nil] at hlen
    omega
  refine ⟨c1, ?_, hfilled, Fin.ext hzero, by rw [hfilled.obuf hzero, if_neg hpadding]⟩
  rw [bitFlush, bitFlushLoop_eq hval (by omega), hwrites]

theorem bitFlush_fails {c : Codec} (h0 : c.core.obits ≠ 0) (hc : c.writeFails) :
    ∃ c1, bitFlush c = .error (.raise .ioOut) c1 ∧ c1.io = c.drawn.io ∧ c1.core.outBytes = c.core.outBytes := by
  have hlt := c.core.obits.isLt
  have hval : c.core.obits.val ≠ 0 := fun h => h0 (Fin.ext h)
  have hlen : c.padding.length = 8 - c.core.obits.val := List.length_replicate
  obtain ⟨pre, b, c1, -, hfilled, hwrites⟩ := bitWrites_fails (bits := c.padding) (n := 0) ⟨rfl, .inl rfl, hc⟩ (by omega)
  refine ⟨(c1.packed b).drawn, ?_, ?_, ?_⟩
  · rw [bitFlush, bitFlushLoop_eq hval (by omega), hwrites]
  · change { c1.io with draws := c1.io.draws.pop.2 } = _
    rw [hfilled.io, hfilled.output_of_zero]
    rfl
  · exact hfilled.outBytes.trans (BitVec.add_zero _)

theorem closeBody_of_flush {c c1 : Codec} (h : bitFlush c = .ok () c1) : closeBody c = (do boutClose; complete) c1 := by
  rw [closeBody, engine_bind_of_ok h]

theorem closeBody_ok {c c1 : Codec} (h : bitFlush c = .ok () c1) (hd : c1.io.draws.pop.1 = .ok) :
    closeBody c = .ok () (c1.closed.mapCore setDone) := by
  have hclose : boutClose c1 = .ok () c1.closed := by
    rw [boutClose, engine_bind_of_ok (quiet_ok.2 (tryClose_ok hd))]
    rfl
  rw [closeBody_of_flush h, engine_bind_of_ok hclose, complete_apply]

theorem closeBody_fails {c c1 : Codec} (h : bitFlush c = .ok () c1) (hd : c1.io.draws.pop.1 = .fail) :
    closeBody c = .error (.raise .ioOut) c1.drawn := by
  have hclose : boutClose c1 = .error (.raise .ioOut) c1.drawn := by
    rw [boutClose, engine_bind_of_ok (quiet_ok.2 (tryClose_fail hd))]
    rfl
  rw [closeBody_of_flush h, engine_bind_of_error hclose]

theorem bitFlush_none {c : Codec} (h : c.core.obits = 0) : bitFlush c = .ok () c := bitFlushLoop_done 7 (congrArg Fin.val h)

/-- The failing write of the padded byte of CLOSE (45_framing_and_control.md R131). -/
theorem exec_close_writeFails {s : State} (hs : s.writeFailsAfter 0 0) (h0 : s.codec.core.obits ≠ 0) :
    ∃ t, exec .close s = .next t ∧ t.endedIn .ioOut ∧ t.codec.core.obits = 0 ∧ t.codec.io.output = s.codec.io.output ∧
      t.codec.core.outBytes = s.codec.core.outBytes := by
  have hfails : (s.codec.started .close).writeFails := (hs.codec (c := s.codec.started .close) rfl rfl).2.2
  obtain ⟨c1, hflush, hio, hbytes⟩ := bitFlush_fails (c := s.codec.started .close) h0 hfails
  obtain ⟨t, hexec, hended, hexit⟩ := exec_raises (i := .close) hs.1.1 trivial
    (engine_bind_of_error hflush : closeBody (s.codec.started .close) = _) (by rw [hio]; exact (Draws.pop_answered hs.1.2).2)
  obtain ⟨hout, hsame⟩ := hexit.dropped (.inl rfl)
  exact ⟨t, hexec, hended, by rw [hexit.core], by rw [hout, hio]; rfl, hsame.trans hbytes⟩

/-- Settles O58: the flush fills a byte begun, and the close ends the command or fails. -/
theorem closePadsAndCloses : Obligations.ClosePadsAndCloses := by
  intro s hidle
  refine ⟨fun hd hopen => ?_, fun hd h0 => ?_, fun hs h0 => ?_, fun hs h0 hopen => ?_⟩
  · by_cases h0 : s.codec.core.obits = 0
    · obtain ⟨hok, hrest⟩ := Draws.pop_allOk hd
      have hflush : bitFlush (s.codec.started .close) = .ok () (s.codec.started .close) := bitFlush_none h0
      refine ⟨_, exec_completes (i := .close) hidle trivial (closeBody_ok hflush hok) hrest.answered, rfl, ?_, rfl, rfl, ?_, ?_⟩
      · rw [h0, Codec.outBits_of_obits_zero (congrArg Fin.val h0)]
        exact (List.append_nil _).symm
      · rw [if_pos h0]
        exact (BitVec.add_zero _).symm
      · rw [if_pos h0, ← h0]
        rfl
    · obtain ⟨hok, hrest⟩ := Draws.pop_allOk hd
      obtain ⟨c1, hflush, hfilled, hobits, hobuf⟩ := bitFlush_filled (c := s.codec.started .close) h0 hok hopen
      have hd1 : c1.io.draws.allOk := by rw [hfilled.draws]; exact hrest
      obtain ⟨hok1, hrest1⟩ := Draws.pop_allOk hd1
      have hpad : (8 - s.codec.core.obits.val) % 8 = 8 - s.codec.core.obits.val :=
        Nat.mod_eq_of_lt (Nat.sub_lt (by decide) (Nat.pos_of_ne_zero fun h => h0 (Fin.ext h)))
      refine ⟨_, exec_completes (i := .close) hidle trivial (closeBody_ok hflush hok1) hrest1.answered, rfl, ?_, rfl,
        hfilled.ipos, ?_, ?_⟩
      · have hbits := hfilled.outBits
        rw [Codec.outBits_of_obits_zero (congrArg Fin.val hobits), hfilled.params] at hbits
        rw [hpad]
        exact hbits
      · rw [if_neg h0]
        exact hfilled.outBytes
      · rw [if_neg h0]
        have hcore := hfilled.core
        rw [hobits, hobuf, ← hfilled.outBytes] at hcore
        exact (congrArg setDone hcore :)
  · obtain ⟨hok, hrest⟩ := Draws.pop_allOk hd
    have hflush : bitFlush (s.codec.started .close) = .ok () (s.codec.started .close) := bitFlush_none h0
    exact ⟨_, exec_completes (i := .close) hidle trivial (closeBody_ok hflush hok) hrest.answered, rfl, rfl, rfl, rfl⟩
  · obtain ⟨⟨-, hanswered⟩, -, hfail⟩ := hs
    have hflush : bitFlush (s.codec.started .close) = .ok () (s.codec.started .close) := bitFlush_none h0
    obtain ⟨t, hexec, hended, hexit⟩ := exec_raises (i := .close) hidle trivial (closeBody_fails hflush hfail)
      (Draws.pop_answered hanswered).2
    obtain ⟨hout, hbytes⟩ := hexit.dropped (.inl rfl)
    exact ⟨t, hexec, hended, hout, hbytes⟩
  · obtain ⟨⟨-, hanswered⟩, hok, hfail⟩ := hs
    obtain ⟨c1, hflush, hfilled, hobits, -⟩ := bitFlush_filled (c := s.codec.started .close) h0 (Draws.okFor_one.1 hok) hopen
    have hfail1 : c1.io.draws.pop.1 = .fail := by rw [hfilled.draws]; exact hfail
    have hanswered1 : c1.io.draws.answered := by rw [hfilled.draws]; exact hanswered.after 1
    obtain ⟨t, hexec, hended, hexit⟩ := exec_raises (i := .close) hidle trivial (closeBody_fails hflush hfail1)
      (Draws.pop_answered hanswered1).2
    obtain ⟨hout, hbytes⟩ := hexit.dropped (.inl rfl)
    refine ⟨t, hexec, hended, by rw [hexit.core], ?_, hbytes.trans hfilled.outBytes⟩
    have hbits := hfilled.outBits
    rw [Codec.outBits_of_obits_zero (congrArg Fin.val hobits), hfilled.params] at hbits
    rw [hout]
    exact hbits

/-! ## WRMAGIC -/

theorem boutWrite_fails {c : Codec} (b : Byte) (h : c.writeFails) : boutWrite b c = .error (.raise .ioOut) c.drawn := by
  rw [boutWrite, engine_bind_of_ok (quiet_ok.2 (tryWrite_fails b h))]
  rfl

theorem writeBytes_append (xs ys : List Byte) {c c' : Codec} (h : writeBytes xs c = .ok () c') :
    writeBytes (xs ++ ys) c = writeBytes ys c' := by
  induction xs generalizing c with
  | nil => cases h; rfl
  | cons x xs ih =>
    obtain ⟨u, c1, hbyte, hrest⟩ := engine_bind_ok.1 h
    rw [List.cons_append, writeBytes, engine_bind_of_ok hbyte, ih hrest]

/-- The bytes before the one whose write fails are written. -/
theorem writeBytes_fails {xs : List Byte} (b : Byte) (ys : List Byte) {c : Codec} (h : c.writeFailsAfter xs.length) :
    writeBytes (xs ++ b :: ys) c = .error (.raise .ioOut) (c.bytesWritten xs).drawn := by
  obtain ⟨hok, hopen, hfails⟩ := h
  have hwrites : writeBytes xs c = .ok () (c.bytesWritten xs) := by
    rcases hopen with hnil | hopen
    · rw [List.length_eq_zero_iff.1 hnil]
      simp [writeBytes, Codec.bytesWritten]
    · exact writeBytes_ok hok hopen
  rw [writeBytes_append _ _ hwrites, writeBytes, engine_bind_of_error (boutWrite_fails b (c := c.bytesWritten xs) hfails)]

theorem exec_wrmagic_fails {s : State} {xs : List Byte} {b : Byte} {ys : List Byte} (hmagic : Config.magic = xs ++ b :: ys)
    (hs : s.writeFailsAfter 0 xs.length) (h0 : s.codec.core.obits = 0) :
    ∃ t, exec .wrmagic s = .next t ∧ t.endedIn .ioOut ∧ t.codec.io.output = s.codec.io.output ++ xs ∧
      t.codec.core.outBytes = s.codec.core.outBytes + BitVec.ofNat 64 xs.length := by
  have hbody : wrmagicBody (s.codec.started .wrmagic) = .error (.raise .ioOut) ((s.codec.started .wrmagic).bytesWritten xs).drawn := by
    rw [wrmagicBody, hmagic, engine_bind_of_error (writeBytes_fails b ys (hs.codec (c := s.codec.started .wrmagic) rfl rfl))]
  obtain ⟨t, hexec, hended, hexit⟩ := exec_raises (i := .wrmagic) hs.1.1 h0 hbody
    (Draws.pop_answered (hs.1.2.after xs.length)).2
  obtain ⟨hout, hbytes⟩ := hexit.dropped (.inl rfl)
  exact ⟨t, hexec, hended, hout, hbytes⟩

/-- Settles O56: two byte writes, of which the first or the second may fail. -/
theorem wrmagicWritesTheMarker : Obligations.WrmagicWritesTheMarker := by
  intro s hidle h0
  refine ⟨fun hd hopen => ⟨_, exec_wrmagic_ok ⟨hidle, hd⟩ hopen h0, rfl, rfl, rfl⟩, fun hs => ?_, fun hs => ?_⟩
  · obtain ⟨t, hexec, hended, hout, hbytes⟩ := exec_wrmagic_fails (xs := []) rfl hs h0
    exact ⟨t, hexec, hended, by rw [hout, List.append_nil], hbytes.trans (BitVec.add_zero _)⟩
  · exact exec_wrmagic_fails (xs := [0x48#8]) rfl hs h0

/-! ## CHKMAGIC -/

theorem ErrorExited.closes {e : ErrCode} {c c' : Codec} (h : ErrorExited e c c') (hd : c.io.draws.allOk) :
    c'.io.outClosed = true := by
  obtain ⟨hok, hrest⟩ := Draws.pop_allOk hd
  refine h.outClosed.2 (.inr ?_)
  split
  · exact hok
  · exact (Draws.pop_allOk hrest).1

section
variable {m : Byte} {bs : List Byte} {c : Codec}

theorem checkBytes_end (h : c.io.ipos = c.io.input.length) : checkBytes (m :: bs) c = .error (.raise .format) c := by
  rw [checkBytes, engine_bind_of_ok (binAtEnd_apply c), if_pos (by simp [Streams.atEnd, h])]
  rfl

/-- A byte read is compared. -/
theorem checkBytes_cons {b : Byte} (hd : c.io.draws.pop.1 = .ok) (hb : c.io.input[c.io.ipos]? = some b) :
    checkBytes (m :: bs) c = (if b ≠ m then raise .format else checkBytes bs) (c.skipped 1) := by
  have hlt : c.io.ipos < c.io.input.length := (List.getElem?_eq_some_iff.1 hb).1
  rw [checkBytes, engine_bind_of_ok (binAtEnd_apply c), if_neg (by simp [Streams.atEnd, Nat.ne_of_lt hlt]),
    engine_bind_of_ok (binRead_skipped hd hb)]

end

/-- How many bytes CHKMAGIC reads before it finds one missing or different (45_framing_and_control.md R130). -/
def formatPos (input : List Byte) : Nat :=
  match input with
  | [] => 0
  | [_] => 1
  | b :: _ :: _ => if b = 0x48#8 then 2 else 1

/-- An input that does not begin with the marker raises FORMAT at the first byte that is missing or differs. -/
theorem checkBytes_format {c : Codec} (hd : c.io.draws.allOk) (hpos : c.io.ipos = 0)
    (h : ¬ ([0x48#8, 0x46#8] : List Byte) <+: c.io.input) :
    checkBytes Config.magic c = .error (.raise .format) (c.skipped (formatPos c.io.input)) := by
  obtain ⟨hok, hrest⟩ := Draws.pop_allOk hd
  obtain ⟨hok1, -⟩ := Draws.pop_allOk hrest
  have hmagic : Config.magic = [0x48#8, 0x46#8] := rfl
  rw [hmagic]
  match hinput : c.io.input with
  | [] =>
    rw [checkBytes_end (by rw [hpos, hinput]; rfl), formatPos, Codec.skipped_zero]
  | [b] =>
    rw [checkBytes_cons hok (b := b) (by rw [hpos, hinput]; rfl)]
    by_cases hb : b = 0x48#8
    · rw [if_neg (not_not_intro hb), checkBytes_end]
      · rfl
      · change c.io.ipos + 1 = c.io.input.length
        rw [hpos, hinput]
        rfl
    · rw [if_pos hb]
      rfl
  | b :: b' :: rest =>
    rw [checkBytes_cons hok (b := b) (by rw [hpos, hinput]; rfl)]
    by_cases hb : b = 0x48#8
    · have hb' : b' ≠ 0x46#8 := fun hb' => h (by rw [hinput, hb, hb']; exact ⟨rest, rfl⟩)
      have hsecond : (c.skipped 1).io.input[(c.skipped 1).io.ipos]? = some b' := by
        change c.io.input[c.io.ipos + 1]? = _
        rw [hpos, hinput]
        rfl
      rw [if_neg (not_not_intro hb), checkBytes_cons hok1 hsecond, if_pos hb', formatPos, if_pos hb]
      rw [Codec.skipped_add 1 1]
      rfl
    · rw [if_pos hb, formatPos, if_neg hb]
      rfl

/-- Settles O57: after the rewind the two bytes of the marker are read and compared in turn. -/
theorem chkmagicChecksTheMarker : Obligations.ChkmagicChecksTheMarker := by
  intro s hs
  obtain ⟨hidle, hd⟩ := hs
  obtain ⟨hok, hrest⟩ := Draws.pop_allOk hd
  by_cases hmagic : ([0x48#8, 0x46#8] : List Byte) <+: s.codec.io.input
  · exact ⟨_, exec_chkmagic_ok ⟨hidle, hd⟩ hmagic, rfl, rfl, rfl, fun _ => ⟨rfl, rfl, rfl, rfl⟩, fun h => absurd hmagic h⟩
  · have hcheck := checkBytes_format (c := (s.codec.started .chkmagic).drawn.rewound) hrest rfl hmagic
    have hbody : chkmagicBody (s.codec.started .chkmagic) = .error (.raise .format)
        ((s.codec.started .chkmagic).drawn.rewound.skipped (formatPos s.codec.io.input)) := by
      rw [chkmagicBody, engine_bind_of_ok (binRewind_ok (c := s.codec.started .chkmagic) hok)]
      exact engine_bind_of_error hcheck
    have hlast : ((s.codec.started .chkmagic).drawn.rewound.skipped (formatPos s.codec.io.input)).io.draws.allOk := hrest.after _
    obtain ⟨t, hexec, ⟨heng, herr, hcode, hdone⟩, hexit⟩ := exec_raises (i := .chkmagic) hidle trivial hbody hlast.answered
    have hipos : t.codec.io.ipos = formatPos s.codec.io.input := hexit.ipos.trans (Nat.zero_add _)
    have hle : formatPos s.codec.io.input ≤ 2 := by
      unfold formatPos
      split
      · decide
      · decide
      · split <;> decide
    refine ⟨t, hexec, heng, by rw [hexit.core]; rfl, ?_, fun h => absurd h hmagic, fun _ =>
      ⟨herr, hcode, hdone, hexit.closes hlast, fun h0 => (hexit.dropped (.inr (.inl h0))).1, ?_⟩⟩
    · rw [hipos, hexit.core]
      change (0#64 + BitVec.ofNat 64 (formatPos s.codec.io.input)).toNat = _
      rw [BitVec.zero_add, BitVec.toNat_ofNat]
      exact Nat.mod_eq_of_lt (by omega)
    · rw [hipos]
      generalize s.codec.io.input = input
      match input with
      | [] => rfl
      | [_] => rfl
      | _ :: _ :: _ => rfl

end Sys2Proof.Machine

/-! PROOFS. The remaining commands where nothing is left to the environment: COUNT past its greatest count, the depth of a built tree,
GENCODES, WRTREE, RDTREE of a whole tree, and DECODE on a leaf (spec/40_frequency_counter.md R81; spec/41_tree_builder.md R96;
spec/42_code_table.md R98; spec/43_tree_codec.md R103, R107; spec/44_stream_codec.md R120). -/

namespace Sys2Proof.Machine

/-! ## COUNT -/

theorem countLoop_full (n : Nat) {c : Codec} (hend : c.io.ipos < c.io.input.length) (h : c.core.totalBytes = BitVec.allOnes 32) :
    countLoop (n + 1) c = .error (.raise .countOverflow) c := by
  unfold countLoop
  rw [engine_bind_of_ok (binAtEnd_apply c), if_neg (by simp [Streams.atEnd, Nat.ne_of_lt hend])]
  change (getCore >>= _) c = _
  rw [engine_bind_of_ok (getCore_apply c), if_pos h]
  rfl

/-- COUNT of an input with a byte more than TOTAL_BYTES can count raises COUNT_OVERFLOW there. -/
theorem countBody_overflow {c : Codec} {bs : List Byte} (hd : c.io.draws.allOk) (hbs : bs <+: c.io.input)
    (hmore : bs.length < c.io.input.length) (hfull : bs.length = 2 ^ 32 - 1) :
    countBody c = .error (.raise .countOverflow) (c.beginCount.counted bs) := by
  obtain ⟨hok, hrest⟩ := Draws.pop_allOk hd
  obtain ⟨n, hn⟩ : ∃ n, c.io.input.length = bs.length + (n + 1) := ⟨c.io.input.length - bs.length - 1, by omega⟩
  have htotal : (c.beginCount.counted bs).core.totalBytes.toNat = 2 ^ 32 - 1 := by
    rw [Codec.beginCount_counted_totalBytes c (by omega), hfull]
  have hloop : countLoop c.io.input.length c.beginCount = .error (.raise .countOverflow) (c.beginCount.counted bs) := by
    rw [hn, countLoop_bytes (n + 1) bs (c := c.beginCount) hbs (hrest.okFor _)
      (by rw [hfull]; exact (by decide : 0 + (2 ^ 32 - 1) < 2 ^ 32))]
    refine countLoop_full n ?_ (BitVec.eq_of_toNat_eq (htotal.trans (BitVec.toNat_allOnes).symm))
    rw [Codec.counted_io]
    change 0 + bs.length < c.io.input.length
    omega
  rw [countBody_rewound hok, engine_bind_of_error hloop]

/-- Settles O31: the loop counts 2^32 - 1 bytes and raises the error before it reads another. -/
theorem countOverflows : Obligations.CountOverflows := by
  intro s hs hlen
  obtain ⟨hidle, hd⟩ := hs
  have hfull : (s.codec.io.input.take (2 ^ 32 - 1)).length = 2 ^ 32 - 1 := List.length_take_of_le (by omega)
  generalize hbs : s.codec.io.input.take (2 ^ 32 - 1) = bs at hfull
  have hprefix : bs <+: s.codec.io.input := hbs ▸ List.take_prefix _ _
  have hbody := countBody_overflow (c := s.codec.started .count) hd hprefix (by change _ < s.codec.io.input.length; omega) hfull
  have hlast : ((s.codec.started .count).beginCount.counted bs).io.draws.allOk := by
    rw [Codec.counted_io]
    exact (Draws.pop_allOk hd).2.after _
  obtain ⟨t, hexec, ⟨heng, herr, hcode, -⟩, hexit⟩ := exec_raises (i := .count) hidle trivial hbody hlast.answered
  have htotal := Codec.beginCount_counted_totalBytes (s.codec.started .count) (bs := bs) (by omega)
  refine ⟨t, hexec, heng, herr, hcode, ?_, ?_, ?_, ?_, hexit.closes hlast⟩
  · rw [hexit.core, Codec.counted_core]
    rfl
  · rw [hexit.core, ← hfull]
    exact htotal
  · rw [hexit.core, Codec.counted_core]
    rfl
  · rw [hexit.ipos, Codec.counted_io, ← hfull]
    exact Nat.zero_add _

/-! ## The depth of a built tree -/

/-- Settles O38: a full tree is no deeper than it has internal nodes, one fewer than its leaves. -/
theorem builtTreeDepthIsBounded : Obligations.BuiltTreeDepthIsBounded := by
  intro freq t ⟨hnode, _, hleaves⟩
  have hpos : 1 ≤ t.depth := by
    cases t with
    | leaf s w ph => cases hnode
    | node w l r => exact Nat.le_add_left _ _
  refine ⟨hpos, hleaves.depth_le, fun hmany => ?_, fun hone => ?_⟩
  · rcases hleaves.cases with ⟨hone, -⟩ | ⟨-, hperm⟩
    · omega
    · have hcount : t.leaves.length = presentCount freq := by
        rw [hperm.length_eq, presentEntries, List.length_map, presentSymbols_length]
      have hfull := t.leaves_length
      have hdepth := t.depth_le_internals
      omega
  · rcases hleaves.cases with ⟨-, s, w, -, rfl⟩ | ⟨hmany, -⟩
    · rfl
    · exact absurd hone hmany

/-! ## GENCODES -/

theorem le_foldl_max (l : List Nat) (a : Nat) : a ≤ l.foldl max a ∧ ∀ x ∈ l, x ≤ l.foldl max a := by
  induction l generalizing a with
  | nil => exact ⟨Nat.le_refl a, fun x hx => nomatch hx⟩
  | cons y l ih =>
    obtain ⟨hmax, hall⟩ := ih (max a y)
    refine ⟨Nat.le_trans (Nat.le_max_left a y) hmax, fun x hx => ?_⟩
    rcases List.mem_cons.1 hx with rfl | hx
    · exact Nat.le_trans (Nat.le_max_right a x) hmax
    · exact hall x hx

theorem foldl_max_mem (l : List Nat) (a : Nat) : l.foldl max a = a ∨ l.foldl max a ∈ l := by
  induction l generalizing a with
  | nil => exact .inl rfl
  | cons y l ih =>
    rw [List.foldl_cons]
    rcases ih (max a y) with h | h
    · rw [h]
      rcases Nat.le_total a y with hle | hle
      · exact .inr (by rw [Nat.max_eq_right hle]; exact List.mem_cons_self)
      · exact .inl (Nat.max_eq_left hle)
    · exact .inr (List.mem_cons_of_mem _ h)

/-- MAXLEN bounds the code lengths, and one of them reaches it (10_state.md R27). -/
theorem maxCodeLen_spec (len : Table (BitVec 8)) :
    (∀ b, (len.lookup b).toNat ≤ maxCodeLen len) ∧ ∃ b, (len.lookup b).toNat = maxCodeLen len := by
  rw [maxCodeLen_eq]
  have hle : ∀ b, (len.lookup b).toNat ≤ (allSymbols.map fun s => (len.lookup s).toNat).foldl max 0 := fun b =>
    (le_foldl_max _ 0).2 _ (List.mem_map_of_mem (mem_allSymbols b))
  refine ⟨hle, ?_⟩
  rcases foldl_max_mem (allSymbols.map fun s => (len.lookup s).toNat) 0 with hzero | hmem
  · refine ⟨0#8, ?_⟩
    have hlow := hle 0#8
    rw [hzero] at hlow ⊢
    exact Nat.le_zero.1 hlow
  · obtain ⟨b, -, hb⟩ := List.mem_map.1 hmem
    exact ⟨b, hb⟩

theorem maxlen_toNat (len : Table (BitVec 8)) : (BitVec.ofNat 8 (maxCodeLen len)).toNat = maxCodeLen len := by
  obtain ⟨b, hb⟩ := (maxCodeLen_spec len).2
  rw [← hb, BitVec.ofNat_toNat, BitVec.setWidth_eq]

/-- Settles O39: the walk's codes are the paths, and MAXLEN is the longest of them. -/
theorem gencodesBindsThePaths : Obligations.GencodesBindsThePaths := by
  intro s tr hs hvalid hbuilt htree _ hdepth hnodup
  obtain ⟨hall, b, hb⟩ := maxCodeLen_spec (bindTree tr [] Codes.empty).len
  have hcodes := codesOf_of_bindTree (k := ((s.acceptedGencodes.mapCore (storeCodes (bindTree tr [] Codes.empty))).mapCore setDone).core)
    (fun _ => rfl) hnodup hdepth
  refine ⟨_, exec_gencodes hs hvalid hbuilt htree, hcodes, fun b => ?_, ⟨b, ?_⟩, ?_⟩
  · rw [CoreState.code_length]
    exact (hall b).trans_eq (maxlen_toNat _).symm
  · rw [CoreState.code_length]
    exact hb.trans (maxlen_toNat _).symm
  · rw [← hs.1]
    rfl

/-! ## WRTREE and RDTREE -/

/-- Settles O44: the tokens are written bit by bit, and DONE is set. -/
theorem wrtreeAppendsTheTreeBits : Obligations.WrtreeAppendsTheTreeBits := by
  intro s tr hs hopen hvalid htree
  obtain ⟨c, hexec, h⟩ := exec_wrtree hs hopen hvalid htree
  exact ⟨_, hexec, rfl, h.outBits, congrArg setDone h.core, h.outBytes, h.input, h.ipos, h.outClosed.trans hopen⟩

theorem CodeTree.internals_plain (t : CodeTree) : t.plain.internals = t.internals := by
  have hplain := t.plain.leaves_length
  have hfull := t.leaves_length
  rw [CodeTree.leaves_length_plain] at hplain
  omega

/-- Settles O46: the walk lays the tree out from entry 0 and takes its tokens. -/
theorem rdtreeReadsTheTree : Obligations.RdtreeReadsTheTree := by
  intro s tr rest hs hbits hsize
  obtain ⟨c, hexec, hparsed, hnode⟩ := exec_rdtree_tree hs hbits hsize
  have hplain : tr.plain.size ≤ Config.nodeCap := by rw [CodeTree.size_plain]; exact hsize
  obtain ⟨-, hrooted⟩ := rooted_treeRead hnode hplain
  obtain ⟨t, hholds, hleaves, hinternals, htreeBits⟩ := hrooted rfl
  obtain rfl := hholds.unique (CoreState.holds_of_layout hnode rfl hplain)
  have hcore := hparsed.core_eq
  have hstatus : c.core.status = s.acceptedRdtree.core.status := (congrArg CoreState.status hcore :)
  rw [CodeTree.leaves_length_plain] at hleaves htreeBits
  rw [CodeTree.internals_plain] at hinternals htreeBits
  refine ⟨_, hexec, rfl, hholds, hparsed.inBits_eq hbits, hleaves, hinternals, htreeBits, rfl, ?_, ?_, ?_, ?_, rfl, ?_,
    (congrArg CoreState.totalBytes hcore :), (congrArg CoreState.nsym hcore :), (congrArg CoreState.maxlen hcore :),
    (congrArg CoreState.payloadBits hcore :), (congrArg CoreState.projectedBits hcore :), hparsed.ipos, hparsed.inPos⟩
  all_goals
    simp only [Codec.treeRead, Codec.mapCore_core, setDone_fields, setRead_fields, setTreeSize_fields, setRoot_fields, hstatus]
    rfl

/-! ## DECODE on a leaf -/

theorem treeOf_leaf {nodes : List Node} {i : NodeIdx} {b : Byte} {w : BitVec 32} {ph : Bool}
    (h : nodes[i.val]? = some (.leaf b w ph)) (n : Nat) : treeOf nodes (n + 1) i = some (.leaf b w ph) := by
  simp [treeOf, nodeAt, h]

/-- Settles O54: the rule looks at the root before it reads, and with no bit pending the error exit only closes. -/
theorem leafRootIsReported : Obligations.LeafRootIsReported := by
  intro s b w ph hs hvalid h0 hroot
  obtain ⟨hidle, hd⟩ := hs
  have hbody : decodeBody (s.codec.started .decode) =
      .error (.raise .degenerateTree) ((s.codec.started .decode).mapCore fun k => { k with decSyms := 0#64 }) := by
    rw [decodeBody_of_tree (c := s.codec.started .decode) (treeOf_leaf hroot 511)]
    rfl
  obtain ⟨t, hexec, ⟨heng, herr, hcode, -⟩, hexit⟩ := exec_raises (i := .decode) hidle ⟨hvalid, h0⟩ hbody
    (show s.codec.io.draws.answered from hd.answered)
  exact ⟨t, hexec, heng, herr, hcode, by rw [hexit.core]; rfl, hexit.ipos, by rw [hexit.core]; rfl, by rw [hexit.core]; rfl,
    (hexit.dropped (.inr (.inl h0))).1, hexit.closes hd⟩

end Sys2Proof.Machine

/-! PROOFS. ENCODE and WRTREE up to the transaction that fails, or the byte without a code (spec/43_tree_codec.md R103;
spec/44_stream_codec.md R114, R115; spec/60_exceptions.md R138). -/

namespace Sys2Proof.Machine

/-! ## One byte -/

theorem Filled.skipped {n : Nat} {bits : List Bool} {c c' : Codec} (h : Filled n bits c c') (m : Nat) :
    Filled n bits (c.skipped m) (c'.skipped m) where
  outBits := h.outBits
  core := congrArg (fun k : CoreState => { k with inPos := k.inPos + BitVec.ofNat 64 m }) h.core
  params := h.params
  io := by
    have hdraws : c'.io.draws.after m = (c.io.draws.after m).after n := by
      rw [h.draws, ← Draws.after_add, ← Draws.after_add, Nat.add_comm]
    simp only [Codec.skipped, hdraws]
    rw [h.io]
  grows := h.grows
  length := h.length
  obuf := h.obuf

theorem Filled.codes {n : Nat} {bits : List Bool} {c c' : Codec} (h : Filled n bits c c') :
    c'.core.codeLen = c.core.codeLen ∧ c'.core.code = c.core.code := by
  rw [h.core]
  exact ⟨rfl, rfl⟩

theorem Filled.inPos {n : Nat} {bits : List Bool} {c c' : Codec} (h : Filled n bits c c') : c'.core.inPos = c.core.inPos := by
  rw [h.core]

theorem encodeByte_coded {b : Byte} {c : Codec} (h : c.core.codeLen.lookup b ≠ 0#8) :
    encodeByte b c = bitWrites (c.core.code b) c := by
  rw [encodeByte, engine_bind_of_ok (getCore_apply c), if_neg h]
  rfl

theorem encodeByte_uncoded {b : Byte} {c : Codec} (h : c.core.codeLen.lookup b = 0#8) :
    encodeByte b c = .error (.raise .symbolNotCoded) c := by
  rw [encodeByte, engine_bind_of_ok (getCore_apply c), if_pos h]
  rfl

/-! ## The loop -/

theorem encodeLoop_read (n : Nat) {b : Byte} {c : Codec} (hd : c.io.draws.pop.1 = .ok) (hb : c.io.input[c.io.ipos]? = some b) :
    encodeLoop (n + 1) c = (do encodeByte b; encodeLoop n) (c.skipped 1) := by
  have hlt : c.io.ipos < c.io.input.length := (List.getElem?_eq_some_iff.1 hb).1
  conv_lhs => unfold encodeLoop
  rw [engine_bind_of_ok (binAtEnd_apply c), if_neg (by simp [Streams.atEnd, Nat.ne_of_lt hlt])]
  exact engine_bind_of_ok (binRead_skipped hd hb)

theorem encodeLoop_readFails (n : Nat) {c : Codec} (hd : c.io.draws.pop.1 = .fail) (hend : c.io.ipos < c.io.input.length) :
    encodeLoop (n + 1) c = .error (.raise .ioIn) c.drawn := by
  unfold encodeLoop
  rw [engine_bind_of_ok (binAtEnd_apply c), if_neg (by simp [Streams.atEnd, Nat.ne_of_lt hend])]
  exact engine_bind_of_error (binRead_fail hd)

/-- The loop writes the codes of the bytes `bs` next in the input, while the reads and the writes they take succeed. -/
theorem encodeLoop_filled {bs : List Byte} {n : Nat} {c : Codec} (hd : c.io.draws.okFor (bs.length + n) = true)
    (hopen : n = 0 ∨ c.io.outClosed = false) (hbs : bs <+: c.io.input.drop c.io.ipos)
    (hcoded : ∀ b ∈ bs, c.core.codeLen.lookup b ≠ 0#8) (hn : (c.core.obits.val + (c.core.encoded bs).length) / 8 = n) :
    ∃ c', (∀ m, encodeLoop (bs.length + m) c = encodeLoop m c') ∧ Filled n (c.core.encoded bs) (c.skipped bs.length) c' := by
  induction bs generalizing c n with
  | nil =>
    have hlt := c.core.obits.isLt
    obtain rfl : n = 0 := by
      rw [← hn]
      exact Nat.div_eq_of_lt hlt
    exact ⟨c, fun m => by rw [List.length_nil, Nat.zero_add], by rw [List.length_nil, Codec.skipped_zero]; exact .refl c⟩
  | cons b bs ih =>
    obtain ⟨hb, hrest⟩ := next_bytes hbs
    obtain ⟨hcode, hcodes⟩ := List.forall_mem_cons.1 hcoded
    have hsplit : c.core.encoded (b :: bs) = c.core.code b ++ c.core.encoded bs := rfl
    rw [hsplit, List.length_append] at hn
    obtain ⟨n1, hn1⟩ : ∃ n1, (c.core.obits.val + (c.core.code b).length) / 8 = n1 := ⟨_, rfl⟩
    obtain ⟨n2, rfl⟩ : ∃ n2, n = n1 + n2 := ⟨n - n1, by omega⟩
    rw [List.length_cons, show bs.length + 1 + (n1 + n2) = 1 + (n1 + (bs.length + n2)) by omega, Draws.okFor_add, Bool.and_eq_true,
      Draws.okFor_one, Draws.okFor_add, Bool.and_eq_true] at hd
    obtain ⟨hread, hwrite, hlater⟩ := hd
    have hopen1 : n1 = 0 ∨ c.io.outClosed = false := hopen.imp_left fun h => by omega
    have hopen2 : n2 = 0 ∨ c.io.outClosed = false := hopen.imp_left fun h => by omega
    obtain ⟨c1, hwrites, hfilled⟩ := bitWrites_filled (bits := c.core.code b) (c := c.skipped 1) hwrite hopen1 hn1
    obtain ⟨hlens, hsame⟩ := hfilled.codes
    have hobits := hfilled.obits
    have hsameEncoded : c1.core.encoded bs = c.core.encoded bs := by
      rw [CoreState.encoded, hsame]
      rfl
    obtain ⟨c2, hloop, hfilled2⟩ := ih (c := c1) (n := n2) (by rw [hfilled.draws]; exact hlater)
      (by rw [hfilled.outClosed]; exact hopen2) (by rw [hfilled.input, hfilled.ipos]; exact hrest)
      (by rw [hlens]; exact hcodes) (by
        rw [hsameEncoded]
        change 8 * n1 + c1.core.obits.val = c.core.obits.val + (c.core.code b).length at hobits
        omega)
    rw [hsameEncoded] at hfilled2
    refine ⟨c2, fun m => ?_, ?_⟩
    · have hbyte : encodeByte b (c.skipped 1) = .ok () c1 := (encodeByte_coded (c := c.skipped 1) hcode).trans hwrites
      rw [List.length_cons, Nat.add_right_comm, encodeLoop_byte _ hread hb hbyte, hloop]
    · rw [hsplit, List.length_cons, Nat.add_comm bs.length, Codec.skipped_add]
      exact (hfilled.skipped bs.length).trans hfilled2

/-! ## The rule -/

theorem encodeBody_rewound {c : Codec} (hd : c.io.draws.pop.1 = .ok) : encodeBody c =
    (do encodeLoop c.io.input.length; complete) c.drawn.rewound := by
  rw [encodeBody, engine_bind_of_ok (binRewind_ok hd), engine_bind_of_ok (get_apply _)]
  rfl

/-- Two computations with one result go on alike. -/
theorem engine_bind_eq {ε α β : Type} {x y : EStateM ε Codec α} {f : α → EStateM ε Codec β} {c c' : Codec} (h : x c = y c') :
    (x >>= f) c = (y >>= f) c' := by
  simp only [bind, EStateM.bind, h]

/-- ENCODE up to the byte behind `pre`, whose codes are written. -/
theorem encodeBody_prefix {pre post : List Byte} {n : Nat} {c : Codec} (hd : c.io.draws.okFor (1 + (pre.length + n)) = true)
    (hopen : n = 0 ∨ c.io.outClosed = false) (hinput : c.io.input = pre ++ post)
    (hcoded : ∀ b ∈ pre, c.core.codeLen.lookup b ≠ 0#8) (hn : (c.core.obits.val + (c.core.encoded pre).length) / 8 = n) :
    ∃ c1, encodeBody c = (do encodeLoop post.length; complete) c1 ∧
      Filled n (c.core.encoded pre) (c.drawn.rewound.skipped pre.length) c1 := by
  rw [Draws.okFor_add, Bool.and_eq_true, Draws.okFor_one] at hd
  obtain ⟨hok, hrest⟩ := hd
  obtain ⟨c1, hloop, hfilled⟩ := encodeLoop_filled (bs := pre) (c := c.drawn.rewound) hrest hopen
    (by change pre <+: c.io.input.drop 0; exact ⟨post, hinput.symm⟩) hcoded hn
  refine ⟨c1, ?_, hfilled⟩
  rw [encodeBody_rewound hok, hinput, List.length_append]
  exact engine_bind_eq (hloop post.length)

/-- The bits of OUT after the error exit: those before it, and the padding of a byte begun, where its write succeeds. -/
theorem ErrorExited.flatMap_output {e : ErrCode} {c c' : Codec} (h : ErrorExited e c c') (he : e ≠ .ioOut)
    (hopen : c.io.outClosed = false) (hok : c.io.draws.pop.1 = .ok) :
    ∃ k < 8, c'.io.output.flatMap (byteBits c.params.packOrder) = c.outBits ++ List.replicate k c.params.padBit := by
  by_cases h0 : c.core.obits = 0
  · obtain ⟨hout, -⟩ := h.dropped (.inr (.inl h0))
    exact ⟨0, by decide, by rw [hout, Codec.outBits_of_obits_zero (congrArg Fin.val h0), List.replicate_zero, List.append_nil]⟩
  · obtain ⟨hout, -⟩ := h.padded he h0 hopen hok
    have hpos : c.core.obits.val ≠ 0 := fun hval => h0 (Fin.ext hval)
    exact ⟨8 - c.core.obits.val, by omega, hout⟩

/-- Settles O52: the byte is read, and its lookup raises the error before a bit of it is written. -/
theorem uncodedByteIsReported : Obligations.UncodedByteIsReported := by
  intro s pre b post hs hopen hvalid hinput hcoded huncoded
  obtain ⟨hidle, hd⟩ := hs
  obtain ⟨c1, hprefix, hfilled⟩ := encodeBody_prefix (c := s.codec.started .encode) (hd.okFor _) (.inr hopen) hinput hcoded rfl
  have hd1 : c1.io.draws.allOk := by
    rw [hfilled.draws]
    exact (((Draws.pop_allOk hd).2.after _).after _)
  have hipos : c1.io.ipos = pre.length := hfilled.ipos.trans (Nat.zero_add _)
  have hb : c1.io.input[c1.io.ipos]? = some b := by
    rw [hipos, hfilled.input]
    change s.codec.io.input[pre.length]? = _
    rw [hinput]
    simp
  have huncoded1 : (c1.skipped 1).core.codeLen.lookup b = 0#8 := by
    change c1.core.codeLen.lookup b = _
    rw [hfilled.codes.1]
    exact huncoded
  have hbody : encodeBody (s.codec.started .encode) = .error (.raise .symbolNotCoded) (c1.skipped 1) := by
    rw [hprefix, List.length_cons]
    refine engine_bind_of_error ((encodeLoop_read _ (Draws.pop_allOk hd1).1 hb).trans ?_)
    exact engine_bind_of_error (encodeByte_uncoded huncoded1)
  have hlast : (c1.skipped 1).io.draws.allOk := hd1.after 1
  obtain ⟨t, hexec, ⟨heng, herr, hcode, -⟩, hexit⟩ := exec_raises (i := .encode) hidle hvalid hbody hlast.answered
  obtain ⟨k, hk, hout⟩ := hexit.flatMap_output (by decide) (hfilled.outClosed.trans hopen) (Draws.pop_allOk hlast).1
  refine ⟨t, k, hexec, heng, herr, hcode, ?_, hexit.closes hlast, by rw [hexit.core], hk, ?_⟩
  · rw [hexit.ipos]
    exact congrArg (· + 1) hipos
  · have hbits : c1.outBits = s.codec.outBits ++ s.codec.core.encoded pre := hfilled.outBits
    have hparams : c1.params = s.codec.params := hfilled.params
    rw [← hbits, ← hparams]
    exact hout

/-! ## The transaction that fails -/

theorem take_eq_of_prefix {α : Type} {xs ys : List α} {n : Nat} (h : xs <+: ys) (hn : n ≤ xs.length) : xs.take n = ys.take n := by
  obtain ⟨zs, rfl⟩ := h
  rw [List.take_append_of_le_length hn]

/-- The failing read of ENCODE behind `k` bytes read: the full bytes of their codes are in OUT. -/
theorem exec_encode_readFails {s : State} {k : Nat} {pre : List Byte} (hpre : pre = s.codec.io.input.take k)
    (hvalid : s.codec.core.status.codesValid = true) (hopen : s.codec.io.outClosed = false) (hk : k < s.codec.io.input.length)
    (hcoded : ∀ b ∈ pre, s.codec.core.codeLen.lookup b ≠ 0#8)
    (hs : s.failsAfter (k + 1 + (s.codec.core.obits.val + (s.codec.core.encoded pre).length) / 8)) :
    ∃ t, exec .encode s = .next t ∧ t.endedIn .ioIn ∧ t.codec.io.ipos = k ∧ t.codec.core.inPos = BitVec.ofNat 64 k ∧
      (s.codec.outBits ++ s.codec.core.encoded pre).take
        (8 * (s.codec.io.output.length + (s.codec.core.obits.val + (s.codec.core.encoded pre).length) / 8)) <+:
        t.codec.io.output.flatMap (byteBits s.codec.params.packOrder) := by
  obtain ⟨⟨hidle, hanswered⟩, hok, hfail⟩ := hs
  have hlen : pre.length = k := by rw [hpre, List.length_take_of_le (Nat.le_of_lt hk)]
  obtain ⟨n, hn⟩ : ∃ n, (s.codec.core.obits.val + (s.codec.core.encoded pre).length) / 8 = n := ⟨_, rfl⟩
  rw [hn] at hok hfail ⊢
  rw [show k + 1 + n = 1 + (pre.length + n) by omega] at hok hfail
  obtain ⟨c1, hprefix, hfilled⟩ := encodeBody_prefix (c := s.codec.started .encode) (post := s.codec.io.input.drop k) hok
    (.inr hopen) (by rw [hpre]; exact (List.take_append_drop _ _).symm) hcoded hn
  have hdraws : c1.io.draws = s.codec.io.draws.after (1 + (pre.length + n)) := by
    rw [hfilled.draws, Draws.after_add, Draws.after_add]
    rfl
  have hipos : c1.io.ipos = k := hfilled.ipos.trans ((Nat.zero_add _).trans hlen)
  have hinput : c1.io.input = s.codec.io.input := hfilled.input
  obtain ⟨m, hm⟩ : ∃ m, (s.codec.io.input.drop k).length = m + 1 := ⟨s.codec.io.input.length - k - 1, by rw [List.length_drop]; omega⟩
  have hbody : encodeBody (s.codec.started .encode) = .error (.raise .ioIn) c1.drawn := by
    rw [hprefix, hm]
    exact engine_bind_of_error (encodeLoop_readFails m (by rw [hdraws]; exact hfail) (by rw [hipos, hinput]; exact hk))
  have hlast : c1.drawn.io.draws.answered := by
    change c1.io.draws.pop.2.answered
    rw [hdraws]
    exact (Draws.pop_answered (hanswered.after _)).2
  obtain ⟨t, hexec, hended, hexit⟩ := exec_raises (i := .encode) hidle hvalid hbody hlast
  refine ⟨t, hexec, hended, hexit.ipos.trans hipos, ?_, ?_⟩
  · rw [hexit.core]
    refine hfilled.inPos.trans ?_
    rw [← hlen]
    exact BitVec.zero_add _
  · have hout := hfilled.flatMap_output
    have hgrows := hexit.grows.flatMap (byteBits s.codec.params.packOrder)
    exact hout ▸ hgrows

/-- Of the byte writes that succeed, `m` may be counted among the transactions before. -/
theorem State.writeFailsAfter.split {s : State} {k n : Nat} (m : Nat) (h : s.writeFailsAfter k (m + n)) :
    s.writeFailsAfter (k + m) n := by
  obtain ⟨hready, hok, hcase⟩ := h
  rw [← Nat.add_assoc] at hok hcase
  exact ⟨hready, hok, hcase.imp_left fun ⟨hclosed, hzero⟩ => ⟨hclosed, by omega⟩⟩

/-- OUT holds the whole bytes of any bit stream that goes on with the bits written. -/
theorem Filled.flatMap_output_of_prefix {n : Nat} {bits more : List Bool} {c c' : Codec} (h : Filled n bits c c')
    (hmore : bits <+: more) : c'.io.output.flatMap (byteBits c.params.packOrder) =
      (c.outBits ++ more).take (8 * (c.io.output.length + n)) := by
  rw [h.flatMap_output]
  refine take_eq_of_prefix (List.prefix_append_right_inj _ |>.2 hmore) ?_
  have hobits := h.obits
  rw [List.length_append, Codec.outBits_length]
  omega

/-- The failing byte write of ENCODE, in the code of the byte `b`. -/
theorem exec_encode_writeFails {s : State} {pre post : List Byte} {b : Byte} {n : Nat} (hs : s.writeFailsAfter (pre.length + 2) n)
    (hvalid : s.codec.core.status.codesValid = true) (hinput : s.codec.io.input = pre ++ b :: post)
    (hcoded : ∀ x ∈ pre ++ [b], s.codec.core.codeLen.lookup x ≠ 0#8)
    (hbefore : s.codec.core.obits.val + (s.codec.core.encoded pre).length < 8 * (n + 1))
    (hbehind : 8 * (n + 1) ≤ s.codec.core.obits.val + (s.codec.core.encoded (pre ++ [b])).length) :
    ∃ t, exec .encode s = .next t ∧ t.endedIn .ioOut ∧ t.codec.core.obits = 0 ∧
      t.codec.io.output.flatMap (byteBits s.codec.params.packOrder) =
        (s.codec.outBits ++ s.codec.core.encoded (pre ++ [b])).take (8 * (s.codec.io.output.length + n)) ∧
      t.codec.core.outBytes = s.codec.core.outBytes + BitVec.ofNat 64 n ∧ t.codec.io.ipos = pre.length + 1 ∧
      t.codec.core.inPos = BitVec.ofNat 64 (pre.length + 1) := by
  have hcodes : s.codec.core.encoded (pre ++ [b]) = s.codec.core.encoded pre ++ s.codec.core.code b := by
    simp [CoreState.encoded]
  rw [hcodes, List.length_append] at hbehind
  rw [hcodes]
  obtain ⟨n1, hn1⟩ : ∃ n1, (s.codec.core.obits.val + (s.codec.core.encoded pre).length) / 8 = n1 := ⟨_, rfl⟩
  obtain ⟨n2, rfl⟩ : ∃ n2, n = n1 + n2 := ⟨n - n1, by omega⟩
  obtain ⟨⟨hidle, hanswered⟩, hok, -⟩ := id hs
  have hopen : n1 = 0 ∨ s.codec.io.outClosed = false := hs.2.2.imp (fun ⟨_, h⟩ => by omega) fun ⟨h, _⟩ => h
  rw [show pre.length + 2 + (n1 + n2) = 1 + (pre.length + n1) + (1 + n2) by omega, Draws.okFor_add, Bool.and_eq_true,
    Draws.okFor_add _ n2, Bool.and_eq_true, Draws.okFor_one] at hok
  obtain ⟨hfirst, hread, -⟩ := hok
  obtain ⟨hcodedPre, hcodedByte⟩ := List.forall_mem_append.1 hcoded
  obtain ⟨c1, hprefix, hfilled⟩ := encodeBody_prefix (c := s.codec.started .encode) (post := b :: post) hfirst hopen hinput
    hcodedPre hn1
  have hdraws : c1.io.draws = s.codec.io.draws.after (1 + (pre.length + n1)) := by
    rw [hfilled.draws, Draws.after_add, Draws.after_add]
    rfl
  have hipos : c1.io.ipos = pre.length := hfilled.ipos.trans (Nat.zero_add _)
  have hb : c1.io.input[c1.io.ipos]? = some b := by
    rw [hipos, hfilled.input]
    change s.codec.io.input[pre.length]? = _
    rw [hinput]
    simp
  obtain ⟨hlens, hsame⟩ := hfilled.codes
  have hcode : (c1.skipped 1).core.code b = s.codec.core.code b := congrFun hsame b
  have hobits : 8 * n1 + (c1.skipped 1).core.obits.val = s.codec.core.obits.val + (s.codec.core.encoded pre).length := hfilled.obits
  have hfails : (c1.skipped 1).writeFailsAfter n2 := by
    refine State.writeFailsAfter.codec (s := s) (k := pre.length + 2 + n1) (n := n2) (hs.split n1) ?_ hfilled.outClosed
    change c1.io.draws.after 1 = _
    rw [hdraws, ← Draws.after_add]
    exact congrArg (s.codec.io.draws.after ·) (by omega)
  obtain ⟨bits, x, c2, hbits, hfilled2, hwrites⟩ := bitWrites_fails (bits := s.codec.core.code b) hfails (by omega)
  have hbody : encodeBody (s.codec.started .encode) = .error (.raise .ioOut) (c2.packed x).drawn := by
    rw [hprefix, List.length_cons]
    refine engine_bind_of_error ((encodeLoop_read _ (by rw [hdraws]; exact hread) hb).trans (engine_bind_of_error ?_))
    rw [encodeByte_coded (by rw [show (c1.skipped 1).core.codeLen = s.codec.core.codeLen from hlens]; exact hcodedByte b (by simp)),
      hcode, hwrites]
  have hlast : (c2.packed x).drawn.io.draws.answered := by
    change c2.io.draws.pop.2.answered
    rw [hfilled2.draws]
    change ((c1.io.draws.after 1).after n2).pop.2.answered
    rw [hdraws]
    exact (Draws.pop_answered (((hanswered.after _).after 1).after n2)).2
  obtain ⟨t, hexec, hended, hexit⟩ := exec_raises (i := .encode) hidle hvalid hbody hlast
  obtain ⟨hout, hbytes⟩ := hexit.dropped (.inl rfl)
  have hwhole : Filled (n1 + n2) (s.codec.core.encoded pre ++ bits)
      ((s.codec.started .encode).drawn.rewound.skipped (pre.length + 1)) c2 := by
    rw [Codec.skipped_add]
    exact (hfilled.skipped 1).trans hfilled2
  refine ⟨t, hexec, hended, by rw [hexit.core], ?_, ?_, ?_, ?_⟩
  · rw [hout]
    exact hwhole.flatMap_output_of_prefix (List.prefix_append_right_inj _ |>.2 ((List.prefix_append _ _).trans hbits))
  · exact hbytes.trans hwhole.outBytes
  · exact hexit.ipos.trans (hwhole.ipos.trans (Nat.zero_add _))
  · rw [hexit.core]
    exact hwhole.inPos.trans (BitVec.zero_add _)

/-- The failing byte write of WRTREE. -/
theorem exec_wrtree_writeFails {s : State} {tr : CodeTree} {n : Nat} (hs : s.writeFailsAfter 0 n)
    (hvalid : s.codec.core.status.treeValid = true) (htree : treeOf s.codec.core.node walkDepth s.codec.core.root = some tr)
    (hbehind : 8 * (n + 1) ≤ s.codec.core.obits.val + (tr.bits s.codec.params.symOrder).length) :
    ∃ t, exec .wrtree s = .next t ∧ t.endedIn .ioOut ∧ t.codec.core.obits = 0 ∧
      t.codec.io.output.flatMap (byteBits s.codec.params.packOrder) =
        (s.codec.outBits ++ tr.bits s.codec.params.symOrder).take (8 * (s.codec.io.output.length + n)) ∧
      t.codec.core.outBytes = s.codec.core.outBytes + BitVec.ofNat 64 n ∧ t.codec.io.ipos = s.codec.io.ipos := by
  obtain ⟨bits, x, c1, hbits, hfilled, hwrites⟩ :=
    bitWrites_fails (c := s.codec.started .wrtree) (hs.codec (c := s.codec.started .wrtree) rfl rfl) hbehind
  have hbody : wrtreeBody (s.codec.started .wrtree) = .error (.raise .ioOut) (c1.packed x).drawn := by
    rw [wrtreeBody_of_tree (c := s.codec.started .wrtree) htree]
    exact engine_bind_of_error hwrites
  have hlast : (c1.packed x).drawn.io.draws.answered := by
    change c1.io.draws.pop.2.answered
    rw [hfilled.draws]
    exact (Draws.pop_answered (hs.1.2.after n)).2
  obtain ⟨t, hexec, hended, hexit⟩ := exec_raises (i := .wrtree) hs.1.1 hvalid hbody hlast
  obtain ⟨hout, hbytes⟩ := hexit.dropped (.inl rfl)
  refine ⟨t, hexec, hended, by rw [hexit.core], ?_, hbytes.trans hfilled.outBytes, hexit.ipos.trans hfilled.ipos⟩
  rw [hout]
  exact hfilled.flatMap_output_of_prefix ((List.prefix_append _ _).trans hbits)

/-! ## Rewinds and reads that fail -/

/-- The failing rewind of COUNT, ENCODE and CHKMAGIC (20_memory.md R48). -/
theorem exec_rewindFails {i : Instr} {s : State} (hi : i ∈ [Instr.count, .encode, .chkmagic]) (hs : s.failsAfter 0)
    (hpre : preconditionOf i s.codec.core) :
    ∃ t, exec i s = .next t ∧ t.endedIn .ioIn ∧ t.codec.io.ipos = s.codec.io.ipos ∧
      t.codec.core.inPos = s.codec.core.inPos ∧ t.codec.core.ibits = s.codec.core.ibits := by
  obtain ⟨⟨hidle, hanswered⟩, -, hfail⟩ := hs
  have hrewind : binRewind (s.codec.started i) = .error (.raise .ioIn) (s.codec.started i).drawn := binRewind_fail hfail
  have hbody : ruleOf i (s.codec.started i) = .error (.raise .ioIn) (s.codec.started i).drawn := by
    simp only [List.mem_cons, List.not_mem_nil, or_false] at hi
    rcases hi with rfl | rfl | rfl
    all_goals exact engine_bind_of_error hrewind
  obtain ⟨t, hexec, hended, hexit⟩ := exec_raises hidle hpre hbody (Draws.pop_answered hanswered).2
  refine ⟨t, hexec, hended, hexit.ipos, ?_, ?_⟩
  · rw [hexit.core]
    cases i <;> rfl
  · rw [hexit.core]
    cases i <;> rfl

theorem countLoop_readFails (n : Nat) {c : Codec} (hd : c.io.draws.pop.1 = .fail) (hend : c.io.ipos < c.io.input.length)
    (hroom : c.core.totalBytes ≠ BitVec.allOnes 32) : countLoop (n + 1) c = .error (.raise .ioIn) c.drawn := by
  unfold countLoop
  rw [engine_bind_of_ok (binAtEnd_apply c), if_neg (by simp [Streams.atEnd, Nat.ne_of_lt hend])]
  change (getCore >>= _) c = _
  rw [engine_bind_of_ok (getCore_apply c), if_neg hroom]
  exact engine_bind_of_error (binRead_fail hd)

/-- The failing read of COUNT behind the bytes `bs`. -/
theorem countBody_readFails {bs : List Byte} {c : Codec} (hd : c.io.draws.okFor (1 + bs.length) = true)
    (hfail : (c.io.draws.after (1 + bs.length)).pop.1 = .fail) (hbs : bs <+: c.io.input) (hmore : bs.length < c.io.input.length)
    (hroom : bs.length < 2 ^ 32 - 1) : countBody c = .error (.raise .ioIn) (c.beginCount.counted bs).drawn := by
  rw [Draws.okFor_add, Bool.and_eq_true, Draws.okFor_one] at hd
  obtain ⟨hok, hreads⟩ := hd
  obtain ⟨n, hn⟩ : ∃ n, c.io.input.length = bs.length + (n + 1) := ⟨c.io.input.length - bs.length - 1, by omega⟩
  have htotal := Codec.beginCount_counted_totalBytes c (bs := bs) (by omega)
  have hloop : countLoop c.io.input.length c.beginCount = .error (.raise .ioIn) (c.beginCount.counted bs).drawn := by
    rw [hn, countLoop_bytes (n + 1) bs (c := c.beginCount) hbs hreads (by
      change 0 + bs.length < 2 ^ 32
      omega)]
    refine countLoop_readFails n ?_ ?_ fun hfull => ?_
    · rw [Codec.counted_io]
      rw [Draws.after_add] at hfail
      exact hfail
    · rw [Codec.counted_io]
      change 0 + bs.length < c.io.input.length
      omega
    · rw [hfull, BitVec.toNat_allOnes] at htotal
      omega
  rw [countBody_rewound hok, engine_bind_of_error hloop]

theorem exec_count_readFails {s : State} {k : Nat} (hs : s.failsAfter (k + 1)) (hk : k < s.codec.io.input.length)
    (hroom : k < 2 ^ 32 - 1) :
    ∃ t, exec .count s = .next t ∧ t.endedIn .ioIn ∧ t.codec.io.ipos = k ∧ t.codec.core.inPos = BitVec.ofNat 64 k ∧
      t.codec.core.totalBytes.toNat = k ∧
      (∀ b, (t.codec.core.freq.lookup b).toNat = (s.codec.io.input.take k).count b) ∧
      t.codec.core.status.freqValid = false ∧ t.codec.core.nsym = 0#9 := by
  obtain ⟨⟨hidle, hanswered⟩, hok, hfail⟩ := hs
  have hlen : (s.codec.io.input.take k).length = k := List.length_take_of_le (Nat.le_of_lt hk)
  generalize hbs : s.codec.io.input.take k = bs at hlen ⊢
  have hprefix : bs <+: s.codec.io.input := hbs ▸ List.take_prefix _ _
  rw [← hlen, Nat.add_comm] at hok hfail
  have hbody := countBody_readFails (c := s.codec.started .count) hok hfail hprefix (by rw [hlen]; exact hk) (by omega)
  have hlast : ((s.codec.started .count).beginCount.counted bs).drawn.io.draws.answered := by
    change ((s.codec.started .count).beginCount.counted bs).io.draws.pop.2.answered
    rw [Codec.counted_io]
    exact (Draws.pop_answered ((Draws.pop_answered hanswered).2.after bs.length)).2
  obtain ⟨t, hexec, hended, hexit⟩ := exec_raises (i := .count) hidle trivial hbody hlast
  refine ⟨t, hexec, hended, ?_, ?_, ?_, fun b => ?_, ?_, ?_⟩
  · refine hexit.ipos.trans ?_
    change ((s.codec.started .count).beginCount.counted bs).io.ipos = k
    rw [Codec.counted_io, ← hlen]
    exact Nat.zero_add _
  · rw [hexit.core]
    refine (Codec.counted_inPos bs _).trans ?_
    rw [hlen]
    exact BitVec.zero_add _
  · rw [hexit.core]
    exact (Codec.beginCount_counted_totalBytes (s.codec.started .count) (by omega)).trans hlen
  · rw [hexit.core]
    exact Codec.beginCount_counted_lookup (s.codec.started .count) (by omega) b
  · rw [hexit.core]
    refine (congrArg (fun k : CoreState => k.status.freqValid) (Codec.counted_core bs (s.codec.started .count).beginCount)).trans ?_
    rfl
  · rw [hexit.core]
    exact congrArg CoreState.nsym (Codec.counted_core bs (s.codec.started .count).beginCount)

theorem checkBytes_readFails {m : Byte} {bs : List Byte} {c : Codec} (hd : c.io.draws.pop.1 = .fail)
    (hend : c.io.ipos < c.io.input.length) : checkBytes (m :: bs) c = .error (.raise .ioIn) c.drawn := by
  rw [checkBytes, engine_bind_of_ok (binAtEnd_apply c), if_neg (by simp [Streams.atEnd, Nat.ne_of_lt hend])]
  exact engine_bind_of_error (binRead_fail hd)

theorem exec_chkmagic_readFails {s : State} {k : Nat} (hs : s.failsAfter (k + 1)) (hk : k < s.codec.io.input.length) (hk2 : k < 2)
    (hmagic : s.codec.io.input.take k = ([0x48#8, 0x46#8] : List Byte).take k) :
    ∃ t, exec .chkmagic s = .next t ∧ t.endedIn .ioIn ∧ t.codec.io.ipos = k ∧ t.codec.core.inPos = BitVec.ofNat 64 k := by
  obtain ⟨⟨hidle, hanswered⟩, hok, hfail⟩ := hs
  rw [Nat.add_comm, Draws.okFor_add, Bool.and_eq_true, Draws.okFor_one] at hok
  rw [Nat.add_comm, Draws.after_add] at hfail
  obtain ⟨hrewind, hreads⟩ := hok
  have hcheck : checkBytes Config.magic (s.codec.started .chkmagic).drawn.rewound =
      .error (.raise .ioIn) ((s.codec.started .chkmagic).drawn.rewound.skipped k).drawn := by
    match k, hk2 with
    | 0, _ =>
      rw [Codec.skipped_zero]
      exact checkBytes_readFails (bs := [0x46#8]) hfail hk
    | 1, _ =>
      have hfirst : s.codec.io.input[0]? = some 0x48#8 := by
        rw [← List.getElem?_take_of_lt (by decide : 0 < 1), hmagic]
        rfl
      refine (checkBytes_cons (bs := [0x46#8]) (Draws.okFor_one.1 hreads) hfirst).trans ?_
      rw [if_neg (not_not_intro rfl)]
      exact checkBytes_readFails (bs := []) hfail hk
  have hbody : chkmagicBody (s.codec.started .chkmagic) =
      .error (.raise .ioIn) ((s.codec.started .chkmagic).drawn.rewound.skipped k).drawn := by
    rw [chkmagicBody, engine_bind_of_ok (binRewind_ok (c := s.codec.started .chkmagic) hrewind)]
    exact engine_bind_of_error hcheck
  obtain ⟨t, hexec, hended, hexit⟩ := exec_raises (i := .chkmagic) hidle trivial hbody
    (Draws.pop_answered ((Draws.pop_answered hanswered).2.after k)).2
  refine ⟨t, hexec, hended, hexit.ipos.trans (Nat.zero_add k), ?_⟩
  rw [hexit.core]
  exact BitVec.zero_add _

end Sys2Proof.Machine

/-! PROOFS. Bits read with as many transactions answered as they need, and RDTREE up to the token bit that fails or begins a node too
many (spec/20_memory.md R49, R54, R57; spec/43_tree_codec.md R107 to R109). -/

namespace Sys2Proof.Machine

/-! ## Bits read -/

/-- `c'` is `c` with `bits` taken from its input bit stream, by the reading of `n` bytes, and nothing else changed. -/
structure Taken (n : Nat) (bits : List Bool) (c c' : Codec) : Prop where
  inBits : c.inBits = bits ++ c'.inBits
  core : c'.core =
    { c.core with ibuf := c'.core.ibuf, ibits := c'.core.ibits, inPos := c.core.inPos + BitVec.ofNat 64 n }
  params : c'.params = c.params
  io : c'.io = { c.io with ipos := c.io.ipos + n, draws := c.io.draws.after n }
  ibits : c'.core.ibits.val + bits.length = c.core.ibits.val + 8 * n
  within : c.io.within → c'.io.within

/-- The reads that the next `k` transactions are, if they succeed, give `m` bits with those the unpacker holds. -/
def Codec.canRead (k m : Nat) (c : Codec) : Prop := c.io.draws.okFor k = true ∧ m ≤ c.core.ibits.val + 8 * k

namespace Taken
variable {m n : Nat} {bits bits' : List Bool} {c c1 c2 : Codec}

theorem refl (c : Codec) : Taken 0 [] c c := ⟨rfl, by simp, rfl, rfl, rfl, id⟩

theorem trans (h : Taken m bits c c1) (h' : Taken n bits' c1 c2) : Taken (m + n) (bits ++ bits') c c2 where
  inBits := by rw [h.inBits, h'.inBits, List.append_assoc]
  core := by rw [h'.core, h.core, BitVec.add_assoc, ← BitVec.ofNat_add]
  params := h'.params.trans h.params
  io := by rw [h'.io, h.io, Draws.after_add, Nat.add_assoc]
  ibits := by
    have h1 := h.ibits
    have h2 := h'.ibits
    rw [List.length_append]
    omega
  within := fun hin => h'.within (h.within hin)

theorem draws (h : Taken n bits c c1) : c1.io.draws = c.io.draws.after n := by rw [h.io]
theorem ipos (h : Taken n bits c c1) : c1.io.ipos = c.io.ipos + n := by rw [h.io]
theorem input (h : Taken n bits c c1) : c1.io.input = c.io.input := by rw [h.io]
theorem inPos (h : Taken n bits c c1) : c1.core.inPos = c.core.inPos + BitVec.ofNat 64 n := by rw [h.core]
theorem node (h : Taken n bits c c1) : c1.core.node = c.core.node := by rw [h.core]

theorem canRead {k l : Nat} (h : Taken n bits c c1) (hn : n ≤ k) (hc : c.canRead k (bits.length + l)) : c1.canRead (k - n) l := by
  obtain ⟨hok, hlen⟩ := hc
  have hibits := h.ibits
  rw [show k = n + (k - n) by omega, Draws.okFor_add, Bool.and_eq_true] at hok
  rw [Codec.canRead, h.draws]
  exact ⟨hok.2, by omega⟩

end Taken

/-- The codec whose unpacker has read the byte `x`. -/
def Codec.unpackerFilled (x : Byte) (c : Codec) : Codec := (c.skipped 1).mapCore fun k => { k with ibuf := x, ibits := 8 }

theorem bitRead_held {c : Codec} (h : c.core.ibits.val ≠ 0) :
    bitRead c = .ok (nextBit c.params.packOrder c.core) (c.mapCore dropBit) := by
  have hfill : fillUnpacker c = .ok () c := by
    rw [fillUnpacker, engine_bind_of_ok (getCore_apply _), if_neg h]
    rfl
  rw [bitRead, engine_bind_of_ok hfill]
  rfl

theorem bitRead_filled {c : Codec} {x : Byte} (h : c.core.ibits.val = 0) (hd : c.io.draws.pop.1 = .ok)
    (hx : c.io.input[c.io.ipos]? = some x) : bitRead c = bitRead (c.unpackerFilled x) := by
  have hfill : fillUnpacker c = .ok () (c.unpackerFilled x) := by
    rw [fillUnpacker, engine_bind_of_ok (getCore_apply _), if_pos h, engine_bind_of_ok (binRead_skipped hd hx)]
    rfl
  rw [bitRead_held (c := c.unpackerFilled x) (by decide : (8 : Fin 9).val ≠ 0), bitRead, engine_bind_of_ok hfill]
  rfl

theorem bitRead_fails {c : Codec} (h : c.core.ibits.val = 0) (hd : c.io.draws.pop.1 = .fail) :
    bitRead c = .error (.raise .ioIn) c.drawn := by
  rw [bitRead]
  refine engine_bind_of_error ?_
  rw [fillUnpacker, engine_bind_of_ok (getCore_apply _), if_pos h, engine_bind_of_error (binRead_fail hd)]

theorem taken_dropBit {c : Codec} (h : c.core.ibits.val ≠ 0) :
    Taken 0 [nextBit c.params.packOrder c.core] c (c.mapCore dropBit) := by
  have hlt := c.core.ibits.isLt
  refine ⟨?_, by simp [dropBit], rfl, rfl, ?_, id⟩
  · simp only [Codec.inBits, unreadBits_cons _ _ h]
    rfl
  · change (c.core.ibits - 1).val + 1 = c.core.ibits.val + 8 * 0
    rw [Fin.val_sub, Fin.val_one]
    omega

theorem taken_unpackerFilled {c : Codec} {x : Byte} (h : c.core.ibits.val = 0) (hx : c.io.input[c.io.ipos]? = some x) :
    Taken 1 [] c (c.unpackerFilled x) := by
  have hlt : c.io.ipos < c.io.input.length := (List.getElem?_eq_some_iff.1 hx).1
  have hbyte : c.io.input[c.io.ipos] = x := by simpa [hlt] using hx
  refine ⟨?_, rfl, rfl, rfl, ?_, fun _ => hlt⟩
  · simp [Codec.inBits, unreadBits, h, Codec.unpackerFilled, Codec.skipped, List.drop_eq_getElem_cons hlt, hbyte, byteBits]
  · rw [h]
    rfl

/-- A bit that is there is read, by the reading of at most one byte. -/
theorem bitRead_taken {k : Nat} {b : Bool} {rest : List Bool} {c : Codec} (hc : c.canRead k 1) (h : c.inBits = b :: rest) :
    ∃ n ≤ k, ∃ c', bitRead c = .ok b c' ∧ Taken n [b] c c' := by
  by_cases h0 : c.core.ibits.val = 0
  · obtain ⟨hok, hlen⟩ := hc
    obtain ⟨k, rfl⟩ : ∃ j, k = 1 + j := ⟨k - 1, by omega⟩
    rw [Draws.okFor_add, Bool.and_eq_true, Draws.okFor_one] at hok
    cases hx : c.io.input[c.io.ipos]? with
    | none =>
      have hnone : c.io.input.drop c.io.ipos = [] := List.drop_eq_nil_of_le (List.getElem?_eq_none_iff.1 hx)
      simp [Codec.inBits, unreadBits, h0, hnone] at h
    | some x =>
      have hfilled := taken_unpackerFilled h0 hx
      have hread := bitRead_held (c := c.unpackerFilled x) (by decide : (8 : Fin 9).val ≠ 0)
      have htaken := hfilled.trans (taken_dropBit (c := c.unpackerFilled x) (by decide : (8 : Fin 9).val ≠ 0))
      rw [List.nil_append] at htaken
      have hbit := htaken.inBits
      rw [h, List.singleton_append, List.cons.injEq] at hbit
      rw [← hbit.1] at hread htaken
      exact ⟨1, Nat.le_add_right 1 k, _, (bitRead_filled h0 hok.1 hx).trans hread, htaken⟩
  · have htaken := taken_dropBit h0
    have hbit := htaken.inBits
    rw [h, List.singleton_append, List.cons.injEq] at hbit
    rw [← hbit.1] at htaken
    exact ⟨0, Nat.zero_le k, _, by rw [bitRead_held h0, ← hbit.1], htaken⟩

theorem treeBit_taken {k : Nat} {b : Bool} {rest : List Bool} {c : Codec} (hc : c.canRead k 1) (h : c.inBits = b :: rest) :
    ∃ n ≤ k, ∃ c', treeBit c = .ok b c' ∧ Taken n [b] c c' := by
  obtain ⟨n, hn, c', hread, htaken⟩ := bitRead_taken hc h
  refine ⟨n, hn, c', ?_, htaken⟩
  rw [treeBit, engine_bind_of_ok (bitAtEnd_apply c), bitAtEnd_of_inBits_cons h]
  exact hread

/-! ## A symbol -/

/-- The bits of a symbol are read, whatever they are. -/
theorem readSymbolFrom_taken {k j n : Nat} {a : Byte} {bits rest : List Bool} {c : Codec} (hc : c.canRead k bits.length)
    (h : c.inBits = bits ++ rest) (hn : bits.length = n) :
    ∃ m ≤ k, ∃ s c', readSymbolFrom j n a c = .ok s c' ∧ Taken m bits c c' := by
  induction bits generalizing j n a c k with
  | nil =>
    subst hn
    exact ⟨0, Nat.zero_le k, a, c, rfl, .refl c⟩
  | cons b bits ih =>
    subst hn
    rw [List.length_cons, Nat.add_comm] at hc
    obtain ⟨m1, hm1, c1, hbit, htaken⟩ := treeBit_taken ⟨hc.1, by have := hc.2; omega⟩ h
    obtain ⟨m2, hm2, s, c2, hread, htaken2⟩ := ih (j := j + 1) (a := _) (htaken.canRead hm1 hc)
      (List.append_cancel_left (as := [b]) (htaken.inBits.symm.trans h)) rfl
    refine ⟨m1 + m2, by omega, s, c2, ?_, htaken.trans htaken2⟩
    rw [List.length_cons, readSymbolFrom, engine_bind_of_ok (getParams_apply c), engine_bind_of_ok hbit]
    exact hread

/-- With fewer bits than a symbol has, the reading comes to the token bit behind them. -/
theorem readSymbolFrom_pauses {k j n : Nat} {a : Byte} {bits rest : List Bool} {c : Codec} (hc : c.canRead k bits.length)
    (h : c.inBits = bits ++ rest) (hn : bits.length < n) :
    ∃ m ≤ k, ∃ c', Taken m bits c c' ∧ ∀ e d, treeBit c' = .error e d → readSymbolFrom j n a c = .error e d := by
  obtain ⟨n, rfl⟩ : ∃ i, n = i + 1 := ⟨n - 1, by omega⟩
  induction bits generalizing j n a c k with
  | nil =>
    refine ⟨0, Nat.zero_le k, c, .refl c, fun e d herror => ?_⟩
    rw [readSymbolFrom, engine_bind_of_ok (getParams_apply c), engine_bind_of_error herror]
  | cons b bits ih =>
    rw [List.length_cons] at hn
    obtain ⟨n, rfl⟩ : ∃ i, n = i + 1 := ⟨n - 1, by omega⟩
    rw [List.length_cons, Nat.add_comm] at hc
    obtain ⟨m1, hm1, c1, hbit, htaken⟩ := treeBit_taken ⟨hc.1, by have := hc.2; omega⟩ h
    obtain ⟨m2, hm2, c2, htaken2, hpause⟩ := ih (j := j + 1) (a := _) (htaken.canRead hm1 hc)
      (List.append_cancel_left (as := [b]) (htaken.inBits.symm.trans h)) n (by omega)
    refine ⟨m1 + m2, by omega, c2, htaken.trans htaken2, fun e d herror => ?_⟩
    rw [readSymbolFrom, engine_bind_of_ok (getParams_apply c), engine_bind_of_ok hbit]
    exact hpause e d herror

/-! ## A tree -/

/-- `c'` is `c` with `bits` taken by the reading of `n` bytes and the node memory changed, and nothing else. -/
abbrev Planted (n : Nat) (bits : List Bool) (c c' : Codec) : Prop := Taken n bits c.unplanted c'.unplanted

theorem Taken.planted {n : Nat} {bits : List Bool} {c c' : Codec} (h : Taken n bits c c') : Planted n bits c c' where
  inBits := h.inBits
  core := by
    have hcore := h.core
    simp only [Codec.unplanted, Codec.mapCore_core]
    rw [hcore]
  params := h.params
  io := h.io
  ibits := h.ibits
  within := h.within

namespace Planted
variable {k l m n : Nat} {bits rest : List Bool} {c c' : Codec}

theorem canRead (h : Planted n bits c c') (hn : n ≤ k) (hc : c.canRead k (bits.length + l)) : c'.canRead (k - n) l :=
  Taken.canRead (c := c.unplanted) (c1 := c'.unplanted) h hn hc

theorem inBits_eq (h : Planted n bits c c') (hc : c.inBits = bits ++ rest) : c'.inBits = rest :=
  List.append_cancel_left (h.inBits.symm.trans hc)

end Planted

/-- The bit of an internal node is read, where there is room for the node. -/
theorem readNode_begins_internal {k : Nat} {c : Codec} {rest : List Bool} (hc : c.canRead k 1) (h : c.inBits = true :: rest)
    (hroom : c.core.node.length < Config.nodeCap) :
    ∃ m ≤ k, ∃ c', (∀ n, readNode (n + 1) c = readChildren n (nextIdx c.core.node) c') ∧ Planted m [true] c c' ∧
      c'.inBits = rest ∧ c'.core.node.length = c.core.node.length + 1 := by
  obtain ⟨m, hm, c1, hbit, htaken⟩ := treeBit_taken hc h
  have hrest : c1.inBits = rest := List.append_cancel_left (as := [true]) (htaken.inBits.symm.trans h)
  rw [← htaken.node] at hroom ⊢
  exact ⟨m, hm, _, fun n => readNode_internal hbit hroom, htaken.planted, hrest, List.length_append⟩

/-- The bit of a leaf is read, where there is room for the node. -/
theorem readNode_begins_leaf {k : Nat} {c : Codec} {rest : List Bool} (hc : c.canRead k 1) (h : c.inBits = false :: rest)
    (hroom : c.core.node.length < Config.nodeCap) :
    ∃ m ≤ k, ∃ c', (∀ n, readNode (n + 1) c = readLeaf (nextIdx c.core.node) c') ∧ Planted m [false] c c' ∧
      c'.inBits = rest ∧ c'.core.node.length = c.core.node.length + 1 := by
  obtain ⟨m, hm, c1, hbit, htaken⟩ := treeBit_taken hc h
  have hrest : c1.inBits = rest := List.append_cancel_left (as := [false]) (htaken.inBits.symm.trans h)
  rw [← htaken.node] at hroom ⊢
  exact ⟨m, hm, _, fun n => readNode_leaf hbit hroom, htaken.planted, hrest, List.length_append⟩

theorem writeNode_length (i : NodeIdx) (x : Node) (k : CoreState) : (writeNode i x k).node.length = k.node.length := by
  simp only [writeNode_fields, List.length_set]

theorem symbolBits_length (order : BitOrder) (s : Byte) : (symbolBits order s).length = 8 := by
  rw [symbolBits, List.length_map, List.length_range]

/-- The tokens of a tree are read, by as many reads as they need, with a node allocated for each of its nodes. -/
theorem readNode_tokens {order : BitOrder} {n k : Nat} {t : CodeTree} {c : Codec} {rest : List Bool}
    (hc : c.canRead k (t.bits order).length) (h : c.inBits = t.bits order ++ rest)
    (hroom : c.core.node.length + t.size ≤ Config.nodeCap) (hn : Config.nodeCap < n + c.core.node.length) :
    ∃ m ≤ k, ∃ i c', readNode n c = .ok i c' ∧ Planted m (t.bits order) c c' ∧
      c'.core.node.length = c.core.node.length + t.size := by
  have hpos := t.one_le_size
  induction t generalizing n k c rest with
  | leaf s w ph =>
    obtain ⟨n, rfl⟩ : ∃ i, n = i + 1 := ⟨n - 1, by omega⟩
    rw [CodeTree.bits, List.length_cons, Nat.add_comm] at hc
    obtain ⟨m1, hm1, c1, hread, hplanted, hrest, hlen⟩ :=
      readNode_begins_leaf ⟨hc.1, by have := hc.2; omega⟩ h (by omega)
    obtain ⟨m2, hm2, a, c2, hsymbol, htaken⟩ := readSymbolFrom_taken (j := 0) (a := 0#8) (hplanted.canRead hm1 hc) hrest
      (symbolBits_length order s)
    refine ⟨m1 + m2, by omega, _, _, (hread n).trans (readLeaf_ok hsymbol), hplanted.trans htaken.planted, ?_⟩
    rw [Codec.mapCore_core, writeNode_length, htaken.node, hlen]
    rfl
  | node w l r ihl ihr =>
    have hl := l.one_le_size
    have hr := r.one_le_size
    rw [CodeTree.size_node] at hroom ⊢
    obtain ⟨n, rfl⟩ : ∃ i, n = i + 1 := ⟨n - 1, by omega⟩
    rw [CodeTree.bits, List.length_cons, List.length_append, Nat.add_comm] at hc
    obtain ⟨m1, hm1, c1, hread, hplanted, hrest, hlen⟩ :=
      readNode_begins_internal ⟨hc.1, by have := hc.2; omega⟩ h (by omega)
    replace hrest := hrest.trans (List.append_assoc _ _ _)
    have hc1 := hplanted.canRead hm1 hc
    obtain ⟨m2, hm2, il, cl, hreadl, hplantedl, hlenl⟩ := ihl (n := n) ⟨hc1.1, by have := hc1.2; omega⟩ hrest (by omega)
      (by omega) hl
    obtain ⟨m3, hm3, ir, cr, hreadr, hplantedr, hlenr⟩ := ihr (n := n)
      (c := cl.mapCore (writeNode (nextIdx c.core.node) (.internal 0#32 il 0))) (hplantedl.canRead hm2 hc1)
      (hplantedl.inBits_eq hrest) (by simp; omega) (by simp; omega) hr
    rw [Codec.mapCore_core, writeNode_length] at hlenr
    refine ⟨m1 + (m2 + m3), by omega, _, _, (hread n).trans (readChildren_ok hreadl hreadr),
      hplanted.trans (hplantedl.trans hplantedr), ?_⟩
    rw [Codec.mapCore_core, writeNode_length]
    omega

/-- Before the end of a left subtree's tokens no node of the right one has begun. -/
theorem CodeTree.nodesBegun_left {order : BitOrder} {l : CodeTree} {n : Nat} (w : BitVec 32) (r : CodeTree)
    (h : n ≤ (l.bits order).length) : (CodeTree.node w l r).nodesBegun (n + 1) = 1 + l.nodesBegun n := by
  rw [nodesBegun_node w l r order, Nat.sub_eq_zero_of_le h, nodesBegun_zero, Nat.add_zero]

/-- Behind them every node of the left one has. -/
theorem CodeTree.nodesBegun_right (order : BitOrder) (w : BitVec 32) (l r : CodeTree) (n : Nat) :
    (CodeTree.node w l r).nodesBegun ((l.bits order).length + n + 1) = 1 + l.size + r.nodesBegun n := by
  rw [nodesBegun_node w l r order, nodesBegun_bits order l (Nat.le_add_right _ _), Nat.add_sub_cancel_left]

/-- With the tokens only up to the end of `bits` read, the reading of the tree comes to the token bit behind them: an error there ends
it, and so does a structure bit where NODE_CAP nodes are allocated. -/
structure Pauses (t : CodeTree) (bits : List Bool) (n : Nat) (c c' : Codec) : Prop where
  length : c'.core.node.length = c.core.node.length + t.nodesBegun bits.length
  error : ∀ e d, treeBit c' = .error e d → readNode n c = .error e d
  full : t.nodesBegun (bits.length + 1) ≠ t.nodesBegun bits.length → ∀ b d, treeBit c' = .ok b d →
    d.core.node.length = Config.nodeCap → readNode n c = .error (.raise .treeOverflow) d

theorem readNode_pauses {order : BitOrder} {n k : Nat} {t : CodeTree} {c : Codec} {bits more rest : List Bool}
    (hc : c.canRead k bits.length) (h : c.inBits = bits ++ rest) (hbits : bits ++ more = t.bits order) (hmore : more ≠ [])
    (hroom : c.core.node.length + t.nodesBegun bits.length ≤ Config.nodeCap) (hn : Config.nodeCap < n + c.core.node.length) :
    ∃ m ≤ k, ∃ c', Planted m bits c c' ∧ Pauses t bits n c c' := by
  have hcap : Config.nodeCap = 511 := rfl
  induction t generalizing n k c bits more with
  | leaf s w ph =>
    obtain ⟨n, rfl⟩ : ∃ i, n = i + 1 := ⟨n - 1, by omega⟩
    cases bits with
    | nil =>
      refine ⟨0, Nat.zero_le k, c, .refl _, by simp, fun e d herror => ?_, fun _ b d hbit hfull => readNode_full hbit hfull⟩
      rw [readNode, engine_bind_of_error herror]
    | cons b bits =>
      rw [CodeTree.bits, List.cons_append, List.cons.injEq] at hbits
      obtain ⟨rfl, hsymbol⟩ := hbits
      rw [List.length_cons, CodeTree.nodesBegun_leaf] at hroom
      rw [List.length_cons, Nat.add_comm] at hc
      obtain ⟨m1, hm1, c1, hread, hplanted, hrest, hlen⟩ :=
        readNode_begins_leaf ⟨hc.1, by have := hc.2; omega⟩ h (by omega)
      have hshort : bits.length < 8 := by
        have hlength := congrArg List.length hsymbol
        have hpos := List.length_pos_iff.2 hmore
        rw [List.length_append, symbolBits_length] at hlength
        omega
      obtain ⟨m2, hm2, c2, htaken, hpause⟩ := readSymbolFrom_pauses (j := 0) (a := 0#8) (hplanted.canRead hm1 hc) hrest hshort
      refine ⟨m1 + m2, by omega, c2, hplanted.trans htaken.planted, ?_, fun e d herror => ?_, fun hnew => ?_⟩
      · rw [htaken.node, hlen]
        rfl
      · exact (hread n).trans (engine_bind_of_error (hpause e d herror))
      · exact absurd rfl hnew
  | node w l r ihl ihr =>
    obtain ⟨n, rfl⟩ : ∃ i, n = i + 1 := ⟨n - 1, by omega⟩
    cases bits with
    | nil =>
      refine ⟨0, Nat.zero_le k, c, .refl _, by simp, fun e d herror => ?_, fun _ b d hbit hfull => readNode_full hbit hfull⟩
      rw [readNode, engine_bind_of_error herror]
    | cons b bits =>
      rw [CodeTree.bits, List.cons_append, List.cons.injEq] at hbits
      obtain ⟨rfl, hchildren⟩ := hbits
      rw [List.length_cons] at hroom
      rw [List.length_cons, Nat.add_comm] at hc
      obtain ⟨m1, hm1, c1, hread, hplanted, hrest, hlen⟩ :=
        readNode_begins_internal ⟨hc.1, by have := hc.2; omega⟩ h (by rw [CodeTree.nodesBegun_node w l r order] at hroom; omega)
      have hc1 := hplanted.canRead hm1 hc
      rcases split_tokens hchildren with ⟨more', hmore', hl⟩ | ⟨bits', rfl, hr⟩
      · have hearly : bits.length + 1 ≤ (l.bits order).length := by
          have hpos := List.length_pos_iff.2 hmore'
          rw [← hl, List.length_append]
          omega
        have hnow := CodeTree.nodesBegun_left w r (Nat.le_of_succ_le hearly)
        obtain ⟨m2, hm2, c2, hplanted2, hpauses⟩ := ihl (n := n) hc1 hrest hl hmore' (by omega) (by omega)
        refine ⟨m1 + m2, by omega, c2, hplanted.trans hplanted2, ?_, fun e d herror => ?_, fun hnew b d hbit hfull => ?_⟩
        · rw [hpauses.length, hlen, List.length_cons, hnow]
          omega
        · exact (hread n).trans (engine_bind_of_error (hpauses.error e d herror))
        · rw [List.length_cons, CodeTree.nodesBegun_left w r hearly, hnow] at hnew
          exact (hread n).trans (engine_bind_of_error (hpauses.full (by omega) b d hbit hfull))
      · rw [List.length_append] at hroom hc1
        have hnow := CodeTree.nodesBegun_right order w l r
        rw [hnow] at hroom
        replace hrest := hrest.trans (List.append_assoc _ _ _)
        obtain ⟨m2, hm2, il, cl, hreadl, hplantedl, hlenl⟩ := readNode_tokens (n := n) ⟨hc1.1, by have := hc1.2; omega⟩ hrest
          (by omega) (by omega)
        obtain ⟨m3, hm3, cr, hplantedr, hpauses⟩ := ihr (n := n)
          (c := cl.mapCore (writeNode (nextIdx c.core.node) (.internal 0#32 il 0))) (hplantedl.canRead hm2 hc1)
          (hplantedl.inBits_eq hrest) hr hmore (by simp; omega) (by simp; omega)
        have hgoes : ∀ e d, readNode n (cl.mapCore (writeNode (nextIdx c.core.node) (.internal 0#32 il 0))) = .error e d →
            readNode (n + 1) c = .error e d := fun e d herror => by
          rw [hread n, readChildren, engine_bind_of_ok hreadl, engine_bind_of_ok (modifyCore_apply _ _)]
          exact engine_bind_of_error herror
        refine ⟨m1 + (m2 + m3), by omega, cr, hplanted.trans (hplantedl.trans hplantedr), ?_,
          fun e d herror => hgoes e d (hpauses.error e d herror), fun hnew b d hbit hfull => hgoes _ d (hpauses.full ?_ b d hbit hfull)⟩
        · rw [hpauses.length, List.length_cons, List.length_append, hnow, Codec.mapCore_core, writeNode_length]
          omega
        · rw [List.length_cons, List.length_append, hnow, Nat.add_assoc _ bits'.length 1, hnow] at hnew
          omega

end Sys2Proof.Machine

/-! PROOFS. RDTREE ended by a failing read, and by the structure bit of a node too many (spec/20_memory.md R49; spec/43_tree_codec.md
R107, R109). -/

namespace Sys2Proof.Machine

/-- The bits the unpacker holds and those of the next `k` bytes, where the input has them. -/
theorem Codec.inBits_take_length {c : Codec} {k : Nat} (h : c.io.ipos + k < c.io.input.length) :
    (c.inBits.take (c.core.ibits.val + 8 * k)).length = c.core.ibits.val + 8 * k := by
  refine List.length_take_of_le ?_
  rw [Codec.inBits_length, Codec.bitsLeft]
  omega

/-- Where just the bits of `k` bytes are taken, all `k` are read and the unpacker is empty. -/
theorem Taken.exhausts {m k : Nat} {bits : List Bool} {c c' : Codec} (h : Taken m bits c c') (hm : m ≤ k)
    (hlen : bits.length = c.core.ibits.val + 8 * k) : m = k ∧ c'.core.ibits.val = 0 := by
  have hibits := h.ibits
  omega

theorem treeBit_readFails {c : Codec} (h : c.core.ibits.val = 0) (hd : c.io.draws.pop.1 = .fail)
    (hmore : c.io.ipos < c.io.input.length) : treeBit c = .error (.raise .ioIn) c.drawn := by
  have hend : c.bitAtEnd = false := by simp [Codec.bitAtEnd, Streams.atEnd, Nat.ne_of_lt hmore]
  rw [treeBit, engine_bind_of_ok (bitAtEnd_apply c), hend]
  exact bitRead_fails h hd

/-- The failing read of RDTREE behind the bytes of the bits `read` (43_tree_codec.md R107). -/
theorem exec_rdtree_readFails {s : State} {tr : CodeTree} {k : Nat} {read : List Bool} (hs : s.failsAfter k)
    (hk : s.codec.io.ipos + k < s.codec.io.input.length) (hread : read = s.codec.inBits.take (s.codec.core.ibits.val + 8 * k))
    (hprefix : read <+: tr.bits s.codec.params.symOrder) (hne : read ≠ tr.bits s.codec.params.symOrder)
    (hbegun : tr.nodesBegun read.length ≤ 511) :
    ∃ t, exec .rdtree s = .next t ∧ t.endedIn .ioIn ∧ t.codec.io.ipos = s.codec.io.ipos + k ∧
      t.codec.core.inPos = s.codec.core.inPos + BitVec.ofNat 64 k ∧ t.codec.core.ibits = 0 ∧
      t.codec.core.status.treeValid = false ∧ t.codec.core.node.length = tr.nodesBegun read.length := by
  obtain ⟨⟨hidle, hanswered⟩, hok, hfail⟩ := hs
  obtain ⟨more, hmore⟩ := hprefix
  have hleft : more ≠ [] := by
    rintro rfl
    exact hne (by rw [← hmore, List.append_nil])
  have hlen : read.length = s.codec.core.ibits.val + 8 * k := hread ▸ Codec.inBits_take_length hk
  have hstream : s.codec.inBits = read ++ s.codec.inBits.drop (s.codec.core.ibits.val + 8 * k) := by
    rw [hread, List.take_append_drop]
  obtain ⟨m, hm, c, hplanted, hpauses⟩ := readNode_pauses (n := walkDepth) (c := (s.codec.started .rdtree).unplanted)
    ⟨hok, Nat.le_of_eq hlen⟩ hstream hmore hleft (show 0 + _ ≤ 511 by rwa [Nat.zero_add])
    (show Config.nodeCap < walkDepth by decide)
  obtain ⟨rfl, hibits⟩ := Taken.exhausts (c := (s.codec.started .rdtree).unplanted.unplanted) (c' := c.unplanted) hplanted hm hlen
  have hdraws : c.io.draws = s.codec.io.draws.after m := hplanted.draws
  have hipos : c.io.ipos = s.codec.io.ipos + m := hplanted.ipos
  have hinput : c.io.input = s.codec.io.input := hplanted.input
  have hbit : treeBit c = .error (.raise .ioIn) c.drawn := by
    refine treeBit_readFails hibits ?_ ?_
    · rw [hdraws]
      exact hfail
    · rw [hipos, hinput]
      exact hk
  have hlast : c.drawn.io.draws.answered := by
    change c.io.draws.pop.2.answered
    rw [hdraws]
    exact (Draws.pop_answered (hanswered.after m)).2
  obtain ⟨t, hexec, hended, hexit⟩ := exec_raises (i := .rdtree) hidle trivial
    (rdtreeBody_of_error (c := s.codec.started .rdtree) (hpauses.error _ _ hbit)) hlast
  have hinPos : c.core.inPos = s.codec.core.inPos + BitVec.ofNat 64 m := hplanted.inPos
  have hstatus : c.core.status = (s.codec.started .rdtree).core.status := (congrArg CoreState.status hplanted.core :)
  refine ⟨t, hexec, hended, hexit.ipos.trans hipos, ?_, ?_, ?_, ?_⟩ <;> rw [hexit.core]
  · exact hinPos
  · exact Fin.ext hibits
  · change c.core.status.treeValid = false
    rw [hstatus]
    rfl
  · exact hpauses.length.trans (Nat.zero_add _)

/-- Settles O48: the walk comes to the structure bit with NODE_CAP nodes allocated, reads it and raises TREE_OVERFLOW. -/
theorem oversizeTreeIsReported : Obligations.OversizeTreeIsReported := by
  intro s tr pre b rest hs hbits hprefix hbegun hnext
  obtain ⟨hidle, hd⟩ := hs
  obtain ⟨more, hmore⟩ := hprefix
  rw [List.append_assoc, List.singleton_append] at hmore
  obtain ⟨m, -, c, hplanted, hpauses⟩ := readNode_pauses (n := walkDepth) (k := pre.length)
    (c := (s.codec.started .rdtree).unplanted) ⟨hd.okFor _, by omega⟩ hbits hmore (List.cons_ne_nil _ _)
    (show 0 + _ ≤ 511 by rw [hbegun]) (show Config.nodeCap < walkDepth by decide)
  have hd1 : c.io.draws.allOk := by
    have hdraws : c.io.draws = s.codec.io.draws.after m := hplanted.draws
    rw [hdraws]
    exact hd.after m
  have hlength : c.core.node.length = 511 := hpauses.length.trans (by rw [hbegun]; rfl)
  obtain ⟨c1, hbit, htook, hrest⟩ := treeBit_ok hd1 (hplanted.inBits_eq hbits)
  have hfull : c1.core.node.length = 511 := by rw [htook.node_eq, hlength]
  have hbody : rdtreeBody (s.codec.started .rdtree) = .error (.raise .treeOverflow) c1 :=
    rdtreeBody_of_error (hpauses.full (by rw [hnext, hbegun]; decide) b c1 hbit hfull)
  obtain ⟨t, hexec, hended, hexit⟩ := exec_raises (i := .rdtree) hidle trivial hbody htook.draws.answered
  have hkept : (c1.core.status, c1.core.nleaves, c1.core.treeBits) =
      ((s.codec.started .rdtree).core.status, (s.codec.started .rdtree).core.nleaves, (s.codec.started .rdtree).core.treeBits) := by
    rw [htook.core]
    exact (congrArg (fun k : CoreState => (k.status, k.nleaves, k.treeBits)) hplanted.core :)
  simp only [Prod.mk.injEq] at hkept
  obtain ⟨hstatus, hnleaves, htreeBits⟩ := hkept
  refine ⟨t, hexec, hended, ?_, ?_, ?_, ?_, ?_, hexit.closes htook.draws⟩
  · rw [hexit.core]
    exact hfull
  · rw [← hrest, Codec.inBits, Codec.inBits, hexit.core, hexit.params, hexit.input, hexit.ipos]
    rfl
  · rw [hexit.core]
    change c1.core.status.treeValid = false
    rw [hstatus]
    rfl
  · rw [hexit.core]
    exact hnleaves
  · rw [hexit.core]
    exact htreeBits

end Sys2Proof.Machine

/-! PROOFS. DECODE ended by a failing read or byte write, and the two obligations on failing transactions (spec/20_memory.md R49, R51;
spec/44_stream_codec.md R118). -/

namespace Sys2Proof.Machine

/-! ## Symbols written as their draws come -/

/-- The codec after DECODE has written and counted the symbols, a transaction each. -/
def Codec.wroteOut (syms : List Byte) (c : Codec) : Codec :=
  (c.emitted syms).mapIo fun io => { io with draws := io.draws.after syms.length }

@[simp] theorem Codec.wroteOut_nil (c : Codec) : c.wroteOut [] = c := by
  rw [wroteOut, emitted_nil]
  rfl

theorem Codec.wroteOut_cons (b : Byte) (syms : List Byte) (c : Codec) : c.wroteOut (b :: syms) = (c.wroteOut [b]).wroteOut syms := by
  rw [← List.singleton_append, wroteOut, emitted_append, List.length_append, wroteOut, wroteOut]
  simp only [Codec.emitted, Codec.mapIo, Draws.after_add]

/-- Reading and writing of symbols do not meet. -/
theorem Taken.wroteOut {n : Nat} {bits : List Bool} {c c' : Codec} (h : Taken n bits c c') (syms : List Byte) :
    Taken n bits (c.wroteOut syms) (c'.wroteOut syms) where
  inBits := h.inBits
  core := congrArg (fun k : CoreState => { k with
    outBytes := k.outBytes + BitVec.ofNat 64 syms.length, decSyms := k.decSyms + BitVec.ofNat 64 syms.length }) h.core
  params := h.params
  io := by
    have hdraws : c'.io.draws.after syms.length = (c.io.draws.after syms.length).after n := by
      rw [h.draws, ← Draws.after_add, ← Draws.after_add, Nat.add_comm]
    simp only [Codec.wroteOut, Codec.emitted, Codec.mapIo_io, hdraws]
    rw [h.io]
  ibits := h.ibits
  within := h.within

theorem Taken.outClosed {n : Nat} {bits : List Bool} {c c' : Codec} (h : Taken n bits c c') :
    c'.io.outClosed = c.io.outClosed := by
  rw [h.io]

theorem Taken.inBits_eq {n : Nat} {bits rest : List Bool} {c c' : Codec} (h : Taken n bits c c') (hc : c.inBits = bits ++ rest) :
    c'.inBits = rest :=
  List.append_cancel_left (h.inBits.symm.trans hc)

/-! ## One descent -/

/-- A descent along a path to a leaf takes the path and gives the leaf's symbol, by the reads that the path needs. -/
theorem descendTree_takes {n k : Nat} {t : CodeTree} {c : Codec} {p rest : List Bool} {s : Byte} {w : BitVec 32} {ph : Bool}
    (hc : c.canRead k p.length) (h : c.inBits = p ++ rest) (hp : t.follow p = some (.leaf s w ph)) (hn : p.length ≤ n) :
    ∃ m ≤ k, ∃ c', descendTree n t c = .ok (some s) c' ∧ Taken m p c c' := by
  induction p generalizing n k t c with
  | nil =>
    cases (CodeTree.follow_nil t).symm.trans hp
    exact ⟨0, Nat.zero_le k, c, by unfold descendTree; rfl, .refl c⟩
  | cons b p ih =>
    cases t with
    | leaf => cases hp
    | node v l r =>
      rw [List.length_cons] at hn
      obtain ⟨n, rfl⟩ : ∃ m, n = m + 1 := ⟨n - 1, by omega⟩
      rw [List.length_cons, Nat.add_comm] at hc
      obtain ⟨m1, hm1, c1, hread, htaken⟩ := bitRead_taken ⟨hc.1, by have := hc.2; omega⟩ h
      obtain ⟨m2, hm2, c2, hdescend, htaken2⟩ := ih (n := n) (htaken.canRead hm1 hc)
        (Taken.inBits_eq (bits := [b]) htaken h) hp (by omega)
      exact ⟨m1 + m2, by omega, c2, (descendTree_bit n h hread).trans hdescend, htaken.trans htaken2⟩

/-- A descent to an internal node comes to the bit behind its path, where there is one: an error there ends it. -/
theorem descendTree_pauses {n k : Nat} {t u : CodeTree} {c : Codec} {p rest : List Bool} (hc : c.canRead k p.length)
    (h : c.inBits = p ++ rest) (hrest : rest ≠ []) (hp : t.follow p = some u) (hu : u.isNode = true) (hn : p.length < n) :
    ∃ m ≤ k, ∃ c', Taken m p c c' ∧ ∀ e d, bitRead c' = .error e d → descendTree n t c = .error e d := by
  induction p generalizing n k t c with
  | nil =>
    cases (CodeTree.follow_nil t).symm.trans hp
    obtain ⟨n, rfl⟩ : ∃ m, n = m + 1 := ⟨n - 1, by omega⟩
    obtain ⟨b, rest, rfl⟩ := List.exists_cons_of_ne_nil hrest
    cases u with
    | leaf => cases hu
    | node v l r =>
      refine ⟨0, Nat.zero_le k, c, .refl c, fun e d herror => ?_⟩
      unfold descendTree
      rw [engine_bind_of_ok (bitAtEnd_apply c), bitAtEnd_of_inBits_cons h, if_neg Bool.false_ne_true]
      exact engine_bind_of_error herror
  | cons b p ih =>
    cases t with
    | leaf => cases hp
    | node v l r =>
      rw [List.length_cons] at hn
      obtain ⟨n, rfl⟩ : ∃ m, n = m + 1 := ⟨n - 1, by omega⟩
      rw [List.length_cons, Nat.add_comm] at hc
      obtain ⟨m1, hm1, c1, hread, htaken⟩ := bitRead_taken ⟨hc.1, by have := hc.2; omega⟩ h
      obtain ⟨m2, hm2, c2, htaken2, hpause⟩ := ih (n := n) (htaken.canRead hm1 hc)
        (Taken.inBits_eq (bits := [b]) htaken h) hp (by omega)
      exact ⟨m1 + m2, by omega, c2, htaken.trans htaken2,
        fun e d herror => (descendTree_bit n h hread).trans (hpause e d herror)⟩

/-! ## The loop -/

theorem decodeTreeLoop_descendFails {n : Nat} {t : CodeTree} {c d : Codec} {e : Stop} (h : c.inBits ≠ [])
    (hdescend : descendTree (n + 1) t c = .error e d) : decodeTreeLoop t (n + 1) c = .error e d := by
  obtain ⟨b, rest, hbits⟩ := List.exists_cons_of_ne_nil h
  unfold decodeTreeLoop
  rw [engine_bind_of_ok (bitAtEnd_apply c), bitAtEnd_of_inBits_cons hbits, if_neg Bool.false_ne_true]
  exact engine_bind_of_error hdescend

/-- Bits that decode to a first symbol begin with the path of its leaf. -/
theorem CodeTree.decode_cons {t : CodeTree} {bits : List Bool} {s : Byte} {syms : List Byte} {tail : Bool} (hnode : t.isNode = true)
    (h : t.decode bits = (s :: syms, tail)) :
    ∃ p rest w ph, bits = p ++ rest ∧ t.follow p = some (.leaf s w ph) ∧ p ≠ [] ∧ t.decode rest = (syms, tail) := by
  rcases t.follow_cases bits with ⟨p, rest, s', w, ph, rfl, hp⟩ | ⟨u, hu, hunode⟩
  · rw [decode, decodeFrom_leaf rest hnode hp, Prod.mk.injEq, List.cons.injEq] at h
    obtain ⟨⟨rfl, hsyms⟩, htail⟩ := h
    exact ⟨p, rest, w, ph, rfl, hp, path_ne_nil hnode hp, Prod.ext hsyms htail⟩
  · rw [decode, decodeFrom_node hnode hu hunode, Prod.mk.injEq] at h
    cases h.1

/-- Bits that decode to no symbol lead to an internal node; TAIL is whether there is any. -/
theorem CodeTree.decode_nothing {t : CodeTree} {bits : List Bool} {tail : Bool} (hnode : t.isNode = true)
    (h : t.decode bits = ([], tail)) : (∃ u, t.follow bits = some u ∧ u.isNode = true) ∧ (tail = false → bits = []) := by
  rcases t.follow_cases bits with ⟨p, rest, s, w, ph, rfl, hp⟩ | ⟨u, hu, hunode⟩
  · rw [decode, decodeFrom_leaf rest hnode hp, Prod.mk.injEq] at h
    cases h.1
  · refine ⟨⟨u, hu, hunode⟩, ?_⟩
    rw [decode, decodeFrom_node hnode hu hunode, Prod.mk.injEq] at h
    obtain ⟨-, rfl⟩ := h
    simp

/-- The loop writes the symbols `syms` that the bits spell, while the reads and writes they take succeed. Each round takes a bit at
least, so the number of bits left bounds the loop. -/
theorem decodeTreeLoop_symbols {n k : Nat} {t : CodeTree} {c : Codec} {bits rest : List Bool} {syms more : List Byte} {tail : Bool}
    (hd : c.io.draws.okFor (k + syms.length) = true) (hk : bits.length ≤ c.core.ibits.val + 8 * k)
    (hopen : syms = [] ∨ c.io.outClosed = false) (hnode : t.isNode = true) (h : c.inBits = bits ++ rest)
    (hdecode : t.decode bits = (syms ++ more, tail)) (hn : c.inBits.length ≤ n) :
    ∃ taken left m n' c', bits = taken ++ left ∧ t.decode left = (more, tail) ∧ m ≤ k ∧
      decodeTreeLoop t n c = decodeTreeLoop t n' c' ∧ Taken m taken (c.wroteOut syms) c' ∧ c'.canRead (k - m) left.length ∧
      c'.inBits = left ++ rest ∧ c'.inBits.length ≤ n' := by
  induction syms generalizing n k c bits with
  | nil => exact ⟨[], bits, 0, n, c, rfl, hdecode, Nat.zero_le k, rfl, by rw [Codec.wroteOut_nil]; exact .refl c, ⟨hd, hk⟩, h, hn⟩
  | cons s syms ih =>
    obtain ⟨p, bits, w, ph, rfl, hp, hne, hlater⟩ := CodeTree.decode_cons hnode hdecode
    have hpos := List.length_pos_iff.2 hne
    rw [List.append_assoc] at h
    rw [List.length_append] at hk
    have hleft := congrArg List.length h
    rw [List.length_append] at hleft
    obtain ⟨n, rfl⟩ : ∃ m, n = m + 1 := ⟨n - 1, by omega⟩
    have hreads := hd
    rw [Draws.okFor_add, Bool.and_eq_true] at hreads
    obtain ⟨m1, hm1, c1, hdescend, htaken⟩ := descendTree_takes (n := n + 1) (k := k) ⟨hreads.1, by omega⟩ h hp (by omega)
    have hibits := htaken.ibits
    rw [show k + (s :: syms).length = m1 + (1 + (k - m1 + syms.length)) by rw [List.length_cons]; omega, Draws.okFor_add,
      Bool.and_eq_true, Draws.okFor_add, Bool.and_eq_true, ← htaken.draws, Draws.okFor_one] at hd
    obtain ⟨-, hwrite, hrest⟩ := hd
    have hopen1 : c.io.outClosed = false := hopen.resolve_left (List.cons_ne_nil _ _)
    have hnext : decodeTreeLoop t (n + 1) c = decodeTreeLoop t n (c1.wroteOut [s]) := by
      rw [decodeTreeLoop_some (by rw [h]; exact List.append_ne_nil_of_left_ne_nil hne _) hdescend]
      exact (engine_bind_of_ok (boutWrite_ok s hwrite (htaken.outClosed.trans hopen1))).trans
        (engine_bind_of_ok (modifyCore_apply _ _))
    have hinBits : (c1.wroteOut [s]).inBits = bits ++ rest := htaken.inBits_eq h
    obtain ⟨taken, left, m2, n', c2, rfl, hmore, hm2, hloop, htaken2, hcan, hrest2, hn'⟩ := ih (n := n) (c := c1.wroteOut [s]) hrest
      (by change bits.length ≤ c1.core.ibits.val + _; omega) (.inr (htaken.outClosed.trans hopen1)) hinBits hlater
      (by rw [hinBits]; omega)
    refine ⟨p ++ taken, left, m1 + m2, n', c2, (List.append_assoc _ _ _).symm, hmore, by omega, hnext.trans hloop, ?_, ?_, hrest2, hn'⟩
    · rw [Codec.wroteOut_cons]
      exact ((htaken.wroteOut [s]).wroteOut syms).trans htaken2
    · rw [← Nat.sub_sub]
      exact hcan

/-! ## The rule -/

/-- The codec in which the loop of DECODE runs. -/
def Codec.beginDecode (c : Codec) : Codec := (c.started .decode).mapCore fun k => { k with decSyms := 0#64 }

/-- The rule of DECODE on a held tree with an internal root ends in the error its loop ends in. -/
theorem decodeBody_of_error {t : CodeTree} {c d : Codec} {e : Stop}
    (htree : treeOf c.core.node walkDepth c.core.root = some t) (hnode : t.isNode = true)
    (h : decodeTreeLoop t c.bitsLeft c.beginDecode = .error e d) : decodeBody (c.started .decode) = .error e d := by
  rw [decodeBody_of_tree (c := c.started .decode) htree, decodeTreeBody, engine_bind_of_ok (modifyCore_apply _ _),
    engine_bind_of_ok (get_apply _), if_pos hnode]
  exact engine_bind_of_error h

/-- The failing read of DECODE behind the bytes of the bits `read` (44_stream_codec.md R118). -/
theorem exec_decode_readFails {s : State} {tr : CodeTree} {k : Nat} {read : List Bool}
    (hread : read = s.codec.inBits.take (s.codec.core.ibits.val + 8 * k)) (hs : s.failsAfter (k + (tr.decode read).1.length))
    (hk : s.codec.io.ipos + k < s.codec.io.input.length) (hopen : s.codec.io.outClosed = false)
    (hvalid : s.codec.core.status.treeValid = true) (h0 : s.codec.core.obits = 0)
    (htree : treeOf s.codec.core.node walkDepth s.codec.core.root = some tr) (hnode : tr.isNode = true) :
    ∃ t, exec .decode s = .next t ∧ t.endedIn .ioIn ∧ t.codec.io.ipos = s.codec.io.ipos + k ∧
      t.codec.core.inPos = s.codec.core.inPos + BitVec.ofNat 64 k ∧ t.codec.core.ibits = 0 ∧
      t.codec.io.output = s.codec.io.output ++ (tr.decode read).1 ∧
      t.codec.core.decSyms = BitVec.ofNat 64 (tr.decode read).1.length ∧ t.codec.core.status.tail = false := by
  obtain ⟨⟨hidle, hanswered⟩, hok, hfail⟩ := hs
  have hlen : read.length = s.codec.core.ibits.val + 8 * k := hread ▸ Codec.inBits_take_length hk
  generalize hbehind : s.codec.inBits.drop (s.codec.core.ibits.val + 8 * k) = behind
  have hstream : s.codec.inBits = read ++ behind := by rw [hread, ← hbehind, List.take_append_drop]
  have hmore : behind ≠ [] := by
    have hlength := s.codec.inBits_length
    rw [hstream, List.length_append, Codec.bitsLeft] at hlength
    exact List.length_pos_iff.1 (by omega)
  generalize hsyms : (tr.decode read).1 = syms at hok hfail ⊢
  obtain ⟨taken, left, m1, n, c1, rfl, hnothing, hm1, hloop, htaken, hcan, hstream1, hn⟩ := decodeTreeLoop_symbols (n := s.codec.bitsLeft)
    (c := s.codec.beginDecode) (more := []) hok (Nat.le_of_eq hlen) (.inr hopen) hnode hstream
    (Prod.ext (hsyms.trans (List.append_nil _).symm) rfl) (Nat.le_of_eq s.codec.inBits_length)
  obtain ⟨⟨u, hu, hunode⟩, -⟩ := CodeTree.decode_nothing hnode hnothing
  have hlength := congrArg List.length hstream1
  rw [List.length_append] at hlength
  have hpos := List.length_pos_iff.2 hmore
  obtain ⟨n, rfl⟩ : ∃ i, n = i + 1 := ⟨n - 1, by omega⟩
  obtain ⟨m2, hm2, c2, htaken2, hpause⟩ := descendTree_pauses (n := n + 1) hcan hstream1 hmore hu hunode (by omega)
  have hall : Taken (m1 + m2) (taken ++ left) (s.codec.beginDecode.wroteOut syms) c2 := htaken.trans htaken2
  obtain ⟨hm, hibits⟩ := hall.exhausts (k := k) (by omega) hlen
  rw [hm] at hall
  have hdraws : c2.io.draws = s.codec.io.draws.after (k + syms.length) := by
    rw [Nat.add_comm, Draws.after_add]
    exact hall.draws
  have hbit : bitRead c2 = .error (.raise .ioIn) c2.drawn := bitRead_fails hibits (by rw [hdraws]; exact hfail)
  have hbody : decodeBody (s.codec.started .decode) = .error (.raise .ioIn) c2.drawn := by
    refine decodeBody_of_error htree hnode (hloop.trans (decodeTreeLoop_descendFails ?_ (hpause _ _ hbit)))
    rw [hstream1]
    exact List.append_ne_nil_of_right_ne_nil _ hmore
  have hlast : c2.drawn.io.draws.answered := by
    change c2.io.draws.pop.2.answered
    rw [hdraws]
    exact (Draws.pop_answered (hanswered.after _)).2
  obtain ⟨t, hexec, hended, hexit⟩ := exec_raises (i := .decode) hidle ⟨hvalid, h0⟩ hbody hlast
  have hobits : c2.core.obits = 0 := (congrArg CoreState.obits hall.core :).trans h0
  refine ⟨t, hexec, hended, hexit.ipos.trans hall.ipos, ?_, ?_, ?_, ?_, ?_⟩
  · rw [hexit.core]
    exact hall.inPos
  · rw [hexit.core]
    exact Fin.ext hibits
  · exact (hexit.dropped (.inr (.inl hobits))).1.trans (congrArg Streams.output hall.io)
  · rw [hexit.core]
    exact (congrArg CoreState.decSyms hall.core :).trans (BitVec.zero_add _)
  · rw [hexit.core]
    exact (congrArg (fun k : CoreState => k.status.tail) hall.core :)

/-- The failing byte write of DECODE, of the symbol behind `syms`. -/
theorem exec_decode_writeFails {s : State} {tr : CodeTree} {read rest : List Bool} {syms : List Byte} {b : Byte}
    (hs : s.writeFailsAfter ((read.length + 7 - s.codec.core.ibits.val) / 8) syms.length)
    (hvalid : s.codec.core.status.treeValid = true) (h0 : s.codec.core.obits = 0)
    (htree : treeOf s.codec.core.node walkDepth s.codec.core.root = some tr) (hnode : tr.isNode = true)
    (hstream : s.codec.inBits = read ++ rest) (hdecode : tr.decode read = (syms ++ [b], false)) :
    ∃ t, exec .decode s = .next t ∧ t.endedIn .ioOut ∧ t.codec.io.output = s.codec.io.output ++ syms ∧
      t.codec.core.outBytes = s.codec.core.outBytes + BitVec.ofNat 64 syms.length ∧
      t.codec.core.decSyms = BitVec.ofNat 64 syms.length ∧ t.codec.inBits = rest ∧ t.codec.core.status.tail = false := by
  generalize hk : (read.length + 7 - s.codec.core.ibits.val) / 8 = k at hs
  obtain ⟨⟨hidle, hanswered⟩, hok, hcase⟩ := id hs
  obtain ⟨taken, left, m1, n, c1, rfl, hlast, hm1, hloop, htaken, hcan, hstream1, hn⟩ := decodeTreeLoop_symbols (n := s.codec.bitsLeft)
    (c := s.codec.beginDecode) hok (by change _ ≤ s.codec.core.ibits.val + _; omega)
    (hcase.imp (fun h => List.length_eq_zero_iff.1 h.2) And.left) hnode hstream hdecode (Nat.le_of_eq s.codec.inBits_length)
  obtain ⟨p, left, w, ph, rfl, hp, hne, hnothing⟩ := CodeTree.decode_cons hnode hlast
  obtain rfl := (CodeTree.decode_nothing hnode hnothing).2 rfl
  rw [List.append_nil] at hcan hstream1 hk
  have hlength := congrArg List.length hstream1
  rw [List.length_append] at hlength
  have hpos := List.length_pos_iff.2 hne
  obtain ⟨n, rfl⟩ : ∃ i, n = i + 1 := ⟨n - 1, by omega⟩
  obtain ⟨m2, hm2, c2, hdescend, htaken2⟩ := descendTree_takes (n := n + 1) hcan hstream1 hp (by omega)
  have hall : Taken (m1 + m2) (taken ++ p) (s.codec.beginDecode.wroteOut syms) c2 := htaken.trans htaken2
  have hibits : c2.core.ibits.val + (taken ++ p).length = s.codec.core.ibits.val + 8 * (m1 + m2) := hall.ibits
  obtain rfl : k = m1 + m2 := by omega
  have hdraws : c2.io.draws = s.codec.io.draws.after (m1 + m2 + syms.length) := by
    rw [Nat.add_comm, Draws.after_add]
    exact hall.draws
  have hfails : c2.writeFails := by
    rw [Codec.writeFails, hdraws, show c2.io.outClosed = s.codec.io.outClosed from hall.outClosed]
    exact (hcase.imp (fun h => ⟨h.1, (Draws.pop_answered (hanswered.after _)).1⟩) And.right).symm
  have hbody : decodeBody (s.codec.started .decode) = .error (.raise .ioOut) c2.drawn := by
    refine decodeBody_of_error htree hnode (hloop.trans ?_)
    rw [decodeTreeLoop_some (by rw [hstream1]; exact List.append_ne_nil_of_left_ne_nil hne _) hdescend]
    exact engine_bind_of_error (boutWrite_fails b hfails)
  have hlast : c2.drawn.io.draws.answered := by
    change c2.io.draws.pop.2.answered
    rw [hdraws]
    exact (Draws.pop_answered (hanswered.after _)).2
  obtain ⟨t, hexec, hended, hexit⟩ := exec_raises (i := .decode) hidle ⟨hvalid, h0⟩ hbody hlast
  obtain ⟨hout, hbytes⟩ := hexit.dropped (.inl rfl)
  refine ⟨t, hexec, hended, hout.trans (congrArg Streams.output hall.io), hbytes.trans (congrArg CoreState.outBytes hall.core), ?_,
    ?_, ?_⟩
  · rw [hexit.core]
    exact (congrArg CoreState.decSyms hall.core :).trans (BitVec.zero_add _)
  · refine Eq.trans ?_ (htaken2.inBits_eq hstream1)
    rw [Codec.inBits, Codec.inBits, hexit.core, hexit.params, hexit.input, hexit.ipos]
    rfl
  · rw [hexit.core]
    exact (congrArg (fun k : CoreState => k.status.tail) hall.core :)

/-! ## The obligations -/

/-- Settles O32, a command at a time. -/
theorem failedInputTransactionIsAnInputError : Obligations.FailedInputTransactionIsAnInputError := by
  refine ⟨fun i s => exec_rewindFails, fun s k => exec_count_readFails, fun s k => exec_chkmagic_readFails, ?_, ?_,
    fun s tr k read => exec_decode_readFails⟩
  · rintro s k pre rfl hvalid hopen hk hcoded hs
    exact exec_encode_readFails rfl hvalid hopen hk hcoded hs
  · intro s tr k read hs hk hread hprefix hne hbegun
    exact exec_rdtree_readFails hs hk hread hprefix hne hbegun

/-- Settles O60, a command at a time. -/
theorem failedByteWriteIsAnOutputError : Obligations.FailedByteWriteIsAnOutputError :=
  ⟨fun _ _ _ => exec_wrtree_writeFails, fun _ _ _ _ _ => exec_encode_writeFails,
    fun _ _ _ _ _ _ hs hvalid h0 _ htree hnode => exec_decode_writeFails hs hvalid h0 htree hnode,
    fun _ => exec_close_writeFails⟩

end Sys2Proof.Machine

/-! PROOFS. No command but CLEAR sees or writes OVR (spec/10_state.md R22; spec/30_encoding.md R70): with OVR set before it runs, it does the
same and ends with OVR set. -/

namespace Sys2Proof.Machine

/-- The codec with OVR set, as a dropped CMD write leaves it. -/
def Codec.overrun (c : Codec) : Codec := c.mapCore setOvr

/-- The end of a computation with OVR set in its codec. -/
def withOvr {ε α : Type} (r : EStateM.Result ε Codec α) : EStateM.Result ε Codec α :=
  match r with
  | .ok a c => .ok a c.overrun
  | .error e c => .error e c.overrun

/-- The computation does the same with OVR set, and leaves it set. -/
def Unseen {ε α : Type} (x : EStateM ε Codec α) : Prop := ∀ c, x c.overrun = withOvr (x c)

section
variable {ε α β : Type}

theorem unseen_pure (a : α) : Unseen (pure a : EStateM ε Codec α) := fun _ => rfl

theorem unseen_bind {x : EStateM ε Codec α} {f : α → EStateM ε Codec β} (hx : Unseen x) (hf : ∀ a, Unseen (f a)) :
    Unseen (x >>= f) := fun c => by
  have hsame := hx c
  cases hc : x c with
  | ok a c1 =>
    rw [hc] at hsame
    rw [engine_bind_of_ok hsame, engine_bind_of_ok hc, hf a c1]
  | error e c1 =>
    rw [hc] at hsame
    rw [engine_bind_of_error hsame, engine_bind_of_error hc]
    rfl

theorem unseen_get_bind {f : Codec → EStateM ε Codec β} (hsame : ∀ c, f c.overrun = f c) (hf : ∀ c, Unseen (f c)) :
    Unseen (get >>= f) := fun c => by
  rw [engine_bind_of_ok (get_apply _), engine_bind_of_ok (get_apply _), hsame, hf]

theorem unseen_modify {f : Codec → Codec} (hf : ∀ c, f c.overrun = (f c).overrun) :
    Unseen (modify f : EStateM ε Codec PUnit) := fun c => congrArg (EStateM.Result.ok PUnit.unit) (hf c)

theorem unseen_branch {x : EStateM ε Codec Bool} {yes no : EStateM ε Codec α} (hx : Unseen x) (hyes : Unseen yes) (hno : Unseen no) :
    Unseen (x >>= fun b => if b = true then yes else no) :=
  unseen_bind hx fun b => by
    cases b with
    | true => exact hyes
    | false => exact hno

theorem unseen_modifyCore {f : CoreState → CoreState} (hf : ∀ k, f (setOvr k) = setOvr (f k)) : Unseen (modifyCore f) :=
  unseen_modify fun c => congrArg (fun k => ({ c with core := k } : Codec)) (hf c.core)

theorem unseen_getCore_bind {f : CoreState → EngineM β} (hsame : ∀ k, f (setOvr k) = f k) (hf : ∀ k, Unseen (f k)) :
    Unseen (getCore >>= f) := fun c => by
  have hcore : f c.overrun.core = f c.core := hsame c.core
  rw [engine_bind_of_ok (getCore_apply _), engine_bind_of_ok (getCore_apply _), hcore, hf]

theorem unseen_getParams : Unseen getParams := fun _ => rfl
theorem unseen_binAtEnd : Unseen binAtEnd := fun _ => rfl
theorem unseen_bitAtEnd : Unseen bitAtEnd := fun _ => rfl
theorem unseen_raise (e : ErrCode) : Unseen (raise e : EngineM α) := fun _ => rfl
theorem unseen_crash (f : Fault) : Unseen (crash f : EngineM α) := fun _ => rfl

theorem unseen_need (x : Except Fault α) : Unseen (need x) := by
  cases x with
  | ok a => exact unseen_pure a
  | error f => exact unseen_crash f

theorem unseen_quiet {x : QuietM α} (hx : Unseen x) : Unseen (quiet x) := fun c => by
  simp only [quiet, EStateM.adaptExcept, hx c]
  cases x c <;> rfl

end

/-! ## Transactions -/

theorem unseen_transact (t : Txn) : Unseen (transact t) := fun c => by
  cases hpop : c.io.draws.pop.1 with
  | ok =>
    rw [transact_ok t hpop, transact_ok (c := c.overrun) t hpop]
    rfl
  | fail =>
    rw [transact_fail t hpop, transact_fail (c := c.overrun) t hpop]
    rfl
  | wait =>
    rw [transact_wait t hpop, transact_wait (c := c.overrun) t hpop]
    rfl

theorem unseen_takeByte : Unseen takeByte := fun c => by
  cases hbyte : c.io.input[c.io.ipos]? with
  | none =>
    rw [takeByte_none hbyte, takeByte_none (c := c.overrun) hbyte]
    rfl
  | some b =>
    rw [takeByte_some hbyte, takeByte_some (c := c.overrun) hbyte]
    rfl

theorem unseen_binRead : Unseen binRead := unseen_branch (unseen_quiet (unseen_transact _)) unseen_takeByte (unseen_raise _)

theorem unseen_binRewind : Unseen binRewind :=
  unseen_branch (unseen_quiet (unseen_transact _)) (unseen_modify fun _ => rfl) (unseen_raise _)

theorem unseen_tryWrite (b : Byte) : Unseen (tryWrite b) := by
  refine unseen_bind (unseen_transact _) fun ok c => ?_
  rw [engine_bind_of_ok (get_apply _), engine_bind_of_ok (get_apply _)]
  by_cases hwrite : (ok && !c.io.outClosed) = true
  · rw [if_pos hwrite, if_pos (show (ok && !c.overrun.io.outClosed) = true from hwrite)]
    rfl
  · rw [if_neg hwrite, if_neg (show ¬ (ok && !c.overrun.io.outClosed) = true from hwrite)]
    rfl

theorem unseen_boutWrite (b : Byte) : Unseen (boutWrite b) :=
  unseen_branch (unseen_quiet (unseen_tryWrite b)) (unseen_pure _) (unseen_raise _)

theorem unseen_tryClose : Unseen tryClose :=
  unseen_branch (unseen_transact _) (unseen_bind (unseen_modify fun _ => rfl) fun _ => unseen_pure _) (unseen_pure _)

theorem unseen_boutClose : Unseen boutClose := unseen_branch (unseen_quiet unseen_tryClose) (unseen_pure _) (unseen_raise _)

/-! ## Bits -/

theorem unseen_tryBitWrite (b : Bool) : Unseen (tryBitWrite b) := by
  refine unseen_bind (unseen_modify fun _ => rfl) fun _ => unseen_get_bind (fun _ => rfl) fun c => ?_
  split
  · exact unseen_branch (unseen_tryWrite _) (unseen_bind (unseen_modify fun _ => rfl) fun _ => unseen_pure _) (unseen_pure _)
  · exact unseen_bind (unseen_modify fun _ => rfl) fun _ => unseen_pure _

theorem unseen_bitWrite (b : Bool) : Unseen (bitWrite b) :=
  unseen_branch (unseen_quiet (unseen_tryBitWrite b)) (unseen_pure _) (unseen_raise _)

theorem unseen_bitWrites (bits : List Bool) : Unseen (bitWrites bits) := by
  induction bits with
  | nil => exact unseen_pure _
  | cons b bs ih => exact unseen_bind (unseen_bitWrite b) fun _ => ih

theorem unseen_bitFlushLoop (n : Nat) : Unseen (bitFlushLoop n) := by
  induction n with
  | zero => exact unseen_pure _
  | succ n ih =>
    refine unseen_get_bind (fun _ => rfl) fun c => ?_
    split
    · exact unseen_pure _
    · exact unseen_bind (unseen_bitWrite _) fun _ => ih

theorem unseen_fillUnpacker : Unseen fillUnpacker := by
  refine unseen_getCore_bind (fun _ => rfl) fun k => ?_
  split
  · exact unseen_bind unseen_binRead fun _ => unseen_modifyCore fun _ => rfl
  · exact unseen_pure _

theorem unseen_bitRead : Unseen bitRead :=
  unseen_bind unseen_fillUnpacker fun _ => unseen_get_bind (fun _ => rfl) fun _ =>
    unseen_bind (unseen_modifyCore fun _ => rfl) fun _ => unseen_pure _

/-! ## Errors -/

theorem unseen_flushIgnoring (n : Nat) : Unseen (flushIgnoring n) := by
  induction n with
  | zero => exact unseen_pure _
  | succ n ih =>
    refine unseen_get_bind (fun _ => rfl) fun c => ?_
    split
    · exact unseen_pure _
    · exact unseen_branch (unseen_tryBitWrite _) ih (unseen_modify fun _ => rfl)

theorem unseen_settlePending (e : ErrCode) : Unseen (settlePending e) := by
  unfold settlePending
  split
  · exact unseen_modify fun _ => rfl
  · exact unseen_flushIgnoring 7

theorem unseen_errorExit (e : ErrCode) : Unseen (errorExit e) :=
  unseen_bind (unseen_modify fun _ => rfl) fun _ => unseen_bind (unseen_settlePending e) fun _ =>
    unseen_bind unseen_tryClose fun _ => unseen_pure _

theorem unseen_withErrorExit {body : EngineM Unit} (h : Unseen body) : Unseen (withErrorExit body) := fun c => by
  unfold withErrorExit
  rw [h c]
  cases body c with
  | ok a c1 => rfl
  | error e c1 =>
    cases e with
    | raise e => exact unseen_errorExit e c1
    | halt x => rfl

/-! ## The rules -/

theorem unseen_complete : Unseen complete := unseen_modifyCore fun _ => rfl

theorem unseen_countLoop (n : Nat) : Unseen (countLoop n) := by
  induction n with
  | zero => exact unseen_branch unseen_binAtEnd (unseen_pure _) (unseen_crash _)
  | succ n ih =>
    refine unseen_branch unseen_binAtEnd (unseen_pure _) (unseen_getCore_bind (fun _ => rfl) fun k => ?_)
    split
    · exact unseen_raise _
    · exact unseen_bind unseen_binRead fun b => unseen_bind (unseen_modifyCore fun _ => rfl) fun _ => ih

theorem unseen_countBody : Unseen countBody :=
  unseen_bind unseen_binRewind fun _ => unseen_bind (unseen_modifyCore fun _ => rfl) fun _ =>
    unseen_get_bind (fun _ => rfl) fun _ => unseen_bind (unseen_countLoop _) fun _ =>
      unseen_bind (unseen_modifyCore fun _ => rfl) fun _ => unseen_complete

theorem unseen_buildBody : Unseen buildBody := by
  refine unseen_bind (unseen_modifyCore fun _ => rfl) fun _ => unseen_getCore_bind (fun _ => rfl) fun k => ?_
  cases buildForest k.freq with
  | none => exact unseen_raise _
  | some f =>
    exact unseen_bind (unseen_modifyCore fun _ => rfl) fun _ => unseen_bind (unseen_modifyCore fun _ => rfl) fun _ =>
      unseen_bind (unseen_modifyCore fun _ => rfl) fun _ => unseen_complete

theorem unseen_gencodesBody : Unseen gencodesBody :=
  unseen_getCore_bind (fun _ => rfl) fun _ => unseen_bind (unseen_need _) fun _ =>
    unseen_bind (unseen_modifyCore fun _ => rfl) fun _ => unseen_complete

theorem unseen_wrtreeBody : Unseen wrtreeBody :=
  unseen_getCore_bind (fun _ => rfl) fun _ => unseen_bind unseen_getParams fun _ => unseen_bind (unseen_need _) fun _ =>
    unseen_bind (unseen_bitWrites _) fun _ => unseen_complete

theorem unseen_treeBit : Unseen treeBit := unseen_branch unseen_bitAtEnd (unseen_raise _) unseen_bitRead

theorem unseen_readSymbolFrom (k n : Nat) (s : Byte) : Unseen (readSymbolFrom k n s) := by
  induction n generalizing k s with
  | zero => exact unseen_pure _
  | succ n ih => exact unseen_bind unseen_getParams fun _ => unseen_bind unseen_treeBit fun _ => ih _ _

theorem unseen_readNode (n : Nat) : Unseen (readNode n) := by
  induction n with
  | zero => exact unseen_crash _
  | succ n ih =>
    have hput : ∀ i x, Unseen (modifyCore (writeNode i x)) := fun i x => unseen_modifyCore fun _ => rfl
    refine unseen_bind unseen_treeBit fun b => unseen_getCore_bind (fun _ => rfl) fun k => ?_
    split
    · exact unseen_raise _
    · refine unseen_bind (unseen_modifyCore fun _ => rfl) fun _ => ?_
      cases b with
      | true =>
        exact unseen_bind (hput _ _) fun _ => unseen_bind ih fun _ => unseen_bind (hput _ _) fun _ =>
          unseen_bind ih fun _ => unseen_bind (hput _ _) fun _ => unseen_pure _
      | false =>
        exact unseen_bind (unseen_readSymbolFrom 0 8 0#8) fun _ => unseen_bind (hput _ _) fun _ => unseen_pure _

theorem unseen_rdtreeBody : Unseen rdtreeBody :=
  unseen_bind (unseen_modifyCore fun _ => rfl) fun _ => unseen_bind (unseen_readNode _) fun _ =>
    unseen_bind (unseen_modifyCore fun _ => rfl) fun _ => unseen_bind (unseen_modifyCore fun _ => rfl) fun _ =>
      unseen_bind (unseen_modifyCore fun _ => rfl) fun _ => unseen_complete

theorem unseen_encodeByte (b : Byte) : Unseen (encodeByte b) := by
  refine unseen_getCore_bind (fun _ => rfl) fun k => ?_
  split
  · exact unseen_raise _
  · exact unseen_bitWrites _

theorem unseen_encodeLoop (n : Nat) : Unseen (encodeLoop n) := by
  induction n with
  | zero => exact unseen_branch unseen_binAtEnd (unseen_pure _) (unseen_crash _)
  | succ n ih =>
    exact unseen_branch unseen_binAtEnd (unseen_pure _)
      (unseen_bind unseen_binRead fun b => unseen_bind (unseen_encodeByte b) fun _ => ih)

theorem unseen_encodeBody : Unseen encodeBody :=
  unseen_bind unseen_binRewind fun _ => unseen_get_bind (fun _ => rfl) fun _ =>
    unseen_bind (unseen_encodeLoop _) fun _ => unseen_complete

theorem unseen_descend (n : Nat) (i : NodeIdx) : Unseen (descend n i) := by
  induction n generalizing i with
  | zero =>
    unfold descend
    refine unseen_getCore_bind (fun _ => rfl) fun k => ?_
    split
    · exact unseen_crash _
    · exact unseen_pure _
    · exact unseen_branch unseen_bitAtEnd (unseen_pure _) (unseen_crash _)
  | succ n ih =>
    unfold descend
    refine unseen_getCore_bind (fun _ => rfl) fun k => ?_
    split
    · exact unseen_crash _
    · exact unseen_pure _
    · exact unseen_branch unseen_bitAtEnd (unseen_pure _) (unseen_bind unseen_bitRead fun _ => ih _)

theorem unseen_decodeLoop (n : Nat) : Unseen (decodeLoop n) := by
  induction n with
  | zero => exact unseen_branch unseen_bitAtEnd (unseen_pure _) (unseen_crash _)
  | succ n ih =>
    refine unseen_branch unseen_bitAtEnd (unseen_pure _) (unseen_getCore_bind (fun _ => rfl) fun k =>
      unseen_bind (unseen_descend _ _) fun leaf => ?_)
    cases leaf with
    | none => exact unseen_modifyCore fun _ => rfl
    | some s => exact unseen_bind (unseen_boutWrite s) fun _ => unseen_bind (unseen_modifyCore fun _ => rfl) fun _ => ih

theorem unseen_decodeBody : Unseen decodeBody := by
  refine unseen_bind (unseen_modifyCore fun _ => rfl) fun _ => unseen_get_bind (fun _ => rfl) fun c => ?_
  split
  · exact unseen_crash _
  · exact unseen_raise _
  · exact unseen_bind (unseen_decodeLoop _) fun _ => unseen_complete

theorem unseen_projectBody : Unseen projectBody := unseen_bind (unseen_modifyCore fun _ => rfl) fun _ => unseen_complete

theorem unseen_writeBytes (bs : List Byte) : Unseen (writeBytes bs) := by
  induction bs with
  | nil => exact unseen_pure _
  | cons b bs ih => exact unseen_bind (unseen_boutWrite b) fun _ => ih

theorem unseen_checkBytes (bs : List Byte) : Unseen (checkBytes bs) := by
  induction bs with
  | nil => exact unseen_pure _
  | cons m bs ih =>
    refine unseen_branch unseen_binAtEnd (unseen_raise _) (unseen_bind unseen_binRead fun b => ?_)
    split
    · exact unseen_raise _
    · exact ih

theorem unseen_closeBody : Unseen closeBody :=
  unseen_bind (unseen_bitFlushLoop 7) fun _ => unseen_bind unseen_boutClose fun _ => unseen_complete

/-- The rule of every command but CLEAR, which resets OVR with the core. -/
theorem unseen_ruleOf {i : Instr} (hi : i ≠ .clear) : Unseen (ruleOf i) := by
  cases i with
  | nop => exact unseen_complete
  | count => exact unseen_countBody
  | build => exact unseen_buildBody
  | gencodes => exact unseen_gencodesBody
  | wrtree => exact unseen_wrtreeBody
  | rdtree => exact unseen_rdtreeBody
  | encode => exact unseen_encodeBody
  | decode => exact unseen_decodeBody
  | project => exact unseen_projectBody
  | wrmagic => exact unseen_bind (unseen_writeBytes _) fun _ => unseen_complete
  | chkmagic => exact unseen_bind unseen_binRewind fun _ => unseen_bind (unseen_checkBytes _) fun _ => unseen_complete
  | close => exact unseen_closeBody
  | clear => exact absurd rfl hi

theorem unseen_afterWord {i : Instr} (hi : i ≠ .clear) : Unseen (afterWord (encode i)) := fun c => by
  have hpre : preOf i c.overrun.core = preOf i c.core := by cases i <;> rfl
  have hclears : c.overrun.mapCore (clearsOf i) = (c.mapCore (clearsOf i)).overrun := by cases i <;> rfl
  rw [afterWord_encode, afterAccept, afterAccept, hpre, hclears, unseen_withErrorExit (unseen_ruleOf hi)]
  split
  · rfl
  · rfl

end Sys2Proof.Machine

/-! PROOFS. A transaction that is never answered (spec/30_encoding.md R73): every step while BUSY runs the command again to that
transaction. -/

namespace Sys2Proof.Machine

/-! ## A command that waits -/

/-- The command of word `w`, begun from `start`, comes to the transaction `x` with the streams `io`, and is not answered. -/
def WaitsOn (w : Word) (x : Txn) (io : Streams) (start : Codec) : Prop :=
  ∃ c, afterWord w (start.accept w) = .error (.wait x) c ∧ c.io = io

section
variable {i : Instr} {w : Word} {x : Txn} {io : Streams} {start : Codec}

theorem WaitsOn.writeCmd {s : State} (h : WaitsOn w x io s.codec) (hs : s.eng = .idle) :
    writeCmd w s = .next (s.suspend w (some x) io) := by
  obtain ⟨c, hrun, rfl⟩ := h
  rw [writeCmd_idle hs, hrun]
  rfl

/-- CLEAR makes no transaction. -/
theorem not_waitsOn_clear : ¬ WaitsOn (encode .clear) x io start := by
  rintro ⟨c, hrun, -⟩
  cases hrun

/-- A dropped CMD write does not change what the command waits on. -/
theorem WaitsOn.overrun (h : WaitsOn (encode i) x io start) : WaitsOn (encode i) x io start.overrun := by
  have hi : i ≠ .clear := by
    rintro rfl
    exact not_waitsOn_clear h
  obtain ⟨c, hrun, hio⟩ := h
  have hsame := unseen_afterWord hi (start.accept (encode i))
  rw [hrun] at hsame
  exact ⟨c.overrun, hsame, hio⟩

theorem Codec.released_of_not_mem {c : Codec} (h : Draw.wait ∉ c.io.draws.listed) : c.released = c := by
  rw [released, mapIo, Draws.release, List.erase_of_not_mem h]

/-- While a polling host waits for a command, a step runs the command again. -/
theorem step_of_polling {s : State} {y : Option Txn} (hr : s.noReset) (hs : s.eng = .busy w start y) (hpoll : s.host.polling = true) :
    step s = writeCmd w { s.sampleReset.poll with codec := start.released, eng := .idle } := by
  have hmove : hostMove s.sampleReset = .next s.sampleReset.poll := if_pos hpoll
  obtain ⟨-, heng, -⟩ := poll_frame s.sampleReset
  rw [step_of_busy hr hs hmove, resume_busy (heng.trans hs)]

/-- BUSY reads 1, and the host goes on polling. -/
theorem poll_polling {s : State} {y : Option Txn} (hs : s.eng = .busy w start y) : s.poll.host.polling = true := by
  have hbusy : s.isBusy = true := isBusy_iff.2 ⟨w, start, y, hs⟩
  obtain ⟨hbit, -⟩ := busyStatusWord_getLsbD s.codec.core.status.ovr (Config.freeWord s.reads)
  simp only [State.poll, State.hostRead, HostSide.noteRead, State.readOffset, hbusy, if_true]
  exact hbit

end

/-- A run of one step more: the step, and the run from where it leads. -/
theorem run_succ {n : Nat} {s u : State} : core.run (n + 1) s = .next u ↔ ∃ t, step s = .next t ∧ core.run n t = .next u := by
  simp only [Host.Core.run]
  cases hstep : core.step s with
  | next t =>
    refine ⟨fun h => ⟨t, hstep, h⟩, ?_⟩
    rintro ⟨t', hnext, h⟩
    cases hstep.symm.trans hnext
    exact h
  | fault f =>
    refine ⟨nofun, ?_⟩
    rintro ⟨t, hnext, -⟩
    cases hstep.symm.trans hnext
  | refused r =>
    refine ⟨nofun, ?_⟩
    rintro ⟨t, hnext, -⟩
    cases hstep.symm.trans hnext

/-! ## The transaction that is never answered -/

/-- The command `i` is BUSY on `x`, with the streams `io`, and no reset is to come. -/
structure Stuck (i : Instr) (x : Txn) (io : Streams) (s : State) : Prop where
  busy : ∃ start, s.eng = .busy (encode i) start (some x) ∧ WaitsOn (encode i) x io start ∧ Draw.wait ∉ start.io.draws.listed
  io : s.codec.io = io
  reset : ∀ level ∈ s.resetInput, level = false

namespace Stuck
variable {i : Instr} {x : Txn} {io : Streams} {s t : State}

theorem suspend {u : State} (hwaits : WaitsOn (encode i) x io u.codec) (hlisted : Draw.wait ∉ u.codec.io.draws.listed)
    (hreset : ∀ level ∈ u.resetInput, level = false) : Stuck i x io (u.suspend (encode i) (some x) io) :=
  ⟨⟨u.codec, rfl, hwaits, hlisted⟩, rfl, hreset⟩

theorem noReset (h : Stuck i x io s) : s.noReset := by
  rw [State.noReset, State.resetAsserted]
  cases hlist : s.resetInput with
  | nil => rfl
  | cons level levels => exact h.reset level (by rw [hlist]; exact List.mem_cons_self)

theorem step (h : Stuck i x io s) (hstep : step s = .next t) : Stuck i x io t := by
  obtain ⟨start, heng, hwaits, hlisted⟩ := h.busy
  have hresets : ∀ level ∈ s.sampleReset.resetInput, level = false := fun level hlevel =>
    h.reset level (List.mem_of_mem_tail hlevel)
  rcases step_next hstep with ⟨hr, -⟩ | ⟨-, hidle, -⟩ | ⟨-, w, start', y, u, hbusy, hmoved, hresume⟩
  · rw [h.noReset] at hr
    cases hr
  · rw [heng] at hidle
    cases hidle
  · obtain ⟨hreset, hu⟩ := hmoved.of_busy heng
    rw [← hreset] at hresets
    obtain ⟨begun, hu, hbegun, hdraws⟩ : ∃ begun, u.eng = .busy (encode i) begun (some x) ∧ WaitsOn (encode i) x io begun ∧
        Draw.wait ∉ begun.io.draws.listed := by
      rcases hu with ⟨-, hu⟩ | ⟨-, hu⟩
      · exact ⟨start, hu, hwaits, hlisted⟩
      · exact ⟨start.overrun, hu, hwaits.overrun, hlisted⟩
    rw [resume_busy hu, Codec.released_of_not_mem hdraws,
      WaitsOn.writeCmd (s := { u with codec := begun, eng := .idle }) hbegun rfl] at hresume
    cases hresume
    exact .suspend (u := { u with codec := begun, eng := .idle }) hbegun hdraws hresets

theorem run {n : Nat} (h : Stuck i x io s) (hrun : core.run n s = .next t) : Stuck i x io t := by
  induction n generalizing s with
  | zero =>
    cases hrun
    exact h
  | succ n ih =>
    obtain ⟨u, hstep, hrest⟩ := run_succ.1 hrun
    exact ih (h.step hstep) hrest

/-- A polling host has its next step, and polls still. -/
theorem polls (h : Stuck i x io s) (hpoll : s.host.polling = true) : ∃ t, Machine.step s = .next t ∧ t.host.polling = true := by
  obtain ⟨start, heng, hwaits, hlisted⟩ := h.busy
  refine ⟨State.suspend (encode i) (some x) io { s.sampleReset.poll with codec := start, eng := .idle }, ?_,
    poll_polling (s := s.sampleReset) heng⟩
  rw [step_of_polling h.noReset heng hpoll, Codec.released_of_not_mem hlisted, WaitsOn.writeCmd hwaits rfl]

theorem runs (h : Stuck i x io s) (hpoll : s.host.polling = true) (n : Nat) : ∃ t, core.run n s = .next t := by
  induction n generalizing s with
  | zero => exact ⟨s, rfl⟩
  | succ n ih =>
    obtain ⟨t, hstep, hpolling⟩ := h.polls hpoll
    obtain ⟨u, hrun⟩ := ih (h.step hstep) hpolling
    exact ⟨u, run_succ.2 ⟨t, hstep, hrun⟩⟩

end Stuck

/-! ## No transaction answered -/

theorem Draws.silent.pop {d : Draws} (h : d.silent) : d.pop.1 = .wait := by
  obtain ⟨hlisted, hrest⟩ := h
  unfold Draws.pop
  cases hl : d.listed with
  | nil => exact hrest
  | cons y ys => exact hlisted y (by simp [hl])

theorem Codec.released_silent {c : Codec} (h : c.io.draws.silent) : c.released.io.draws.silent :=
  ⟨fun y hy => h.1 y (List.mem_of_mem_erase hy), h.2⟩

/-- The flush of a byte begun comes to the write of the byte. -/
theorem bitFlushLoop_waits {n : Nat} {c : Codec} (hd : c.io.draws.pop.1 = .wait) (h0 : c.core.obits.val ≠ 0)
    (hn : 8 - c.core.obits.val ≤ n) : ∃ x c1, bitFlushLoop n c = .error (.halt (.wait x)) c1 := by
  have hlt := c.core.obits.isLt
  induction n generalizing c with
  | zero => omega
  | succ n ih =>
    rw [bitFlushLoop, engine_bind_of_ok (get_apply c), if_neg h0]
    by_cases h7 : c.core.obits.val = 7
    · have hwrite := tryBitWrite_full c.params.padBit h7
      rw [engine_bind_of_error (tryWrite_wait (c := c.packed c.params.padBit) _ hd)] at hwrite
      exact ⟨_, _, engine_bind_of_error (engine_bind_of_error (quiet_error.2 ⟨_, rfl, hwrite⟩))⟩
    · obtain ⟨-, hne, hobits⟩ := padding_bitHeld c.params.padBit h7
      rw [engine_bind_of_ok (bitWrite_of_true (tryBitWrite_held c.params.padBit h7))]
      exact ih (c := c.bitHeld c.params.padBit) hd hne (by omega) (Fin.isLt _)

theorem closeBody_waits {c : Codec} (hd : c.io.draws.pop.1 = .wait) : ∃ x c1, closeBody c = .error (.halt (.wait x)) c1 := by
  by_cases h0 : c.core.obits.val = 0
  · refine ⟨.close, c.drawn, ?_⟩
    rw [closeBody, bitFlush, engine_bind_of_ok (bitFlushLoop_done 7 h0)]
    exact engine_bind_of_error (engine_bind_of_error (quiet_error.2 ⟨_, rfl, tryClose_wait hd⟩))
  · obtain ⟨x, c1, hflush⟩ := bitFlushLoop_waits (n := 7) hd h0 (by omega)
    exact ⟨x, c1, engine_bind_of_error hflush⟩

/-- The rules whose first act is a transaction, or which pad a byte before it. -/
theorem ruleOf_waits {i : Instr} {c : Codec} (hi : i ∈ [Instr.count, .encode, .wrmagic, .chkmagic, .close])
    (hd : c.io.draws.pop.1 = .wait) : ∃ x c1, ruleOf i c = .error (.halt (.wait x)) c1 := by
  have hrewind := binRewind_wait hd
  simp only [List.mem_cons, List.not_mem_nil, or_false] at hi
  rcases hi with rfl | rfl | rfl | rfl | rfl
  · exact ⟨_, _, engine_bind_of_error hrewind⟩
  · exact ⟨_, _, engine_bind_of_error hrewind⟩
  · exact ⟨_, _, engine_bind_of_error (engine_bind_of_error (boutWrite_wait _ hd))⟩
  · exact ⟨_, _, engine_bind_of_error hrewind⟩
  · exact closeBody_waits hd

theorem waitsOn_of_silent {i : Instr} {start : Codec} (hi : i ∈ [Instr.count, .encode, .wrmagic, .chkmagic, .close])
    (hd : start.io.draws.silent) (hpre : preconditionOf i start.core) : ∃ x io, WaitsOn (encode i) x io start := by
  obtain ⟨x, c1, hrule⟩ := ruleOf_waits (c := start.started i) hi hd.pop
  have hpreOf : preOf i (start.accept (encode i)).core = true := by
    rw [Codec.accept_core, preOf_acceptWord, preOf_iff]
    exact hpre
  refine ⟨x, c1.io, c1, ?_, rfl⟩
  rw [afterWord_encode, afterAccept_of_pre _ _ hpreOf]
  exact withErrorExit_halt hrule

/-- The command `i` is BUSY with no transaction to be answered, its host polls, and no reset is to come. -/
structure Silenced (i : Instr) (s : State) : Prop where
  busy : ∃ start x, s.eng = .busy (encode i) start (some x) ∧ start.io.draws.silent ∧ preconditionOf i start.core
  polling : s.host.polling = true
  reset : s.resetInput = []

namespace Silenced
variable {i : Instr} {s : State}

/-- A command begun with no transaction to be answered. -/
theorem begins (hi : i ∈ [Instr.count, .encode, .wrmagic, .chkmagic, .close]) (hs : s.eng = .idle) (hd : s.codec.io.draws.silent)
    (hpre : preconditionOf i s.codec.core) (hpoll : s.host.polling = true) (hreset : s.resetInput = []) :
    ∃ t, writeCmd (encode i) s = .next t ∧ Silenced i t := by
  obtain ⟨x, io, hwaits⟩ := waitsOn_of_silent hi hd hpre
  exact ⟨_, hwaits.writeCmd hs, ⟨s.codec, x, rfl, hd, hpre⟩, hpoll, hreset⟩

theorem step (hi : i ∈ [Instr.count, .encode, .wrmagic, .chkmagic, .close]) (h : Silenced i s) :
    ∃ t, step s = .next t ∧ Silenced i t := by
  obtain ⟨start, x, heng, hd, hpre⟩ := h.busy
  obtain ⟨-, -, hreset, -⟩ := poll_frame s.sampleReset
  rw [step_of_polling (by rw [State.noReset, State.resetAsserted, h.reset]; rfl) heng h.polling]
  exact begins hi rfl (Codec.released_silent hd) hpre (poll_polling (s := s.sampleReset) heng)
    (hreset.trans (by rw [State.sampleReset, h.reset, List.tail_nil]))

theorem run (hi : i ∈ [Instr.count, .encode, .wrmagic, .chkmagic, .close]) (h : Silenced i s) (n : Nat) :
    ∃ t, core.run n s = .next t ∧ Silenced i t := by
  induction n generalizing s with
  | zero => exact ⟨s, rfl, h⟩
  | succ n ih =>
    obtain ⟨t, hstep, ht⟩ := h.step hi
    obtain ⟨u, hrun, hu⟩ := ih ht
    exact ⟨u, run_succ.2 ⟨t, hstep, hrun⟩, hu⟩

end Silenced

/-- Settles O17: with no transaction answered the command waits again at every poll; and one that comes to a transaction never answered
comes to it again at every step, whatever the host does. -/
theorem unansweredTransactionLeavesTheCoreBusy : Obligations.UnansweredTransactionLeavesTheCoreBusy := by
  constructor
  · intro i s hi hs hd hreset hpre hprog hpc hpoll n
    obtain ⟨t, hwrite, ht⟩ := Silenced.begins (s := s.sampleReset.beginWord) hi hs hd hpre rfl
      (show s.resetInput.tail = [] by rw [hreset, List.tail_nil])
    have hstep : step s = .next t := by
      rw [step_of_idle (by rw [State.noReset, State.resetAsserted, hreset]; rfl) hs,
        hostMove_of_stmt (s := s.sampleReset) (st := .word (encode i)) hpoll (by
          change s.host.prog[s.host.pc]? = _
          rw [hprog, hpc]
          rfl)]
      exact hwrite
    obtain ⟨u, hrun, hu⟩ := ht.run hi n
    obtain ⟨start, x, heng, -⟩ := hu.busy
    exact ⟨u, run_succ.2 ⟨t, hstep, hrun⟩, isBusy_iff.2 ⟨_, _, _, heng⟩⟩
  · intro i s t start x hs hd hreset hexec heng n
    rw [exec_eq_writeCmd, writeCmd_idle hs] at hexec
    have hstuck : Stuck i x t.codec.io t ∧ t.host = s.host := by
      rcases settle_next hexec with ⟨c, -, rfl⟩ | ⟨c, ds, -, -, rfl⟩ | ⟨c, y, hrun, rfl⟩
      · cases heng
      · cases heng
      · cases heng
        exact ⟨.suspend ⟨c, hrun, rfl⟩ hd.1 hreset, rfl⟩
    obtain ⟨hstuck, hhost⟩ := hstuck
    refine ⟨fun u hrun => ?_, fun hpoll => hstuck.runs (by rw [hhost]; exact hpoll) n⟩
    have hu := hstuck.run hrun
    obtain ⟨start', heng', -⟩ := hu.busy
    exact ⟨⟨start', heng'⟩, hu.io⟩

end Sys2Proof.Machine
